-- ==== Sys2Proof/Word.lean ====
section
/-! DEFINITION. The word types of the Novenady 2 architecture and their plainest arithmetic. -/

namespace Sys2Proof

/-- A byte of memory. -/
abbrev Byte := BitVec 8
/-- A 64-bit scalar (spec 02, R49). -/
abbrev Word := BitVec 64
/-- A 512-byte vector register's bits (spec 02, R49). -/
abbrev Vec := BitVec 4096
/-- A mask register (spec 02, R49). -/
abbrev Mask := BitVec 1024
/-- An expansion register of 544 bytes (spec 09, R235). -/
abbrev Series := BitVec 4352
/-- The five bits of a TY field or of a format tag (spec 03, R78). -/
abbrev TyCode := BitVec 5
/-- A 7-bit operand specifier (spec 01, R31). -/
abbrev SpecBits := BitVec 7

end Sys2Proof
end

