-- ==== Sys2Proof/Syntax.lean ====
section
/-! DEFINITION. The syntax of every row of the opcode table: the task words by their five formats
(spec 01, R19-R24), the engine records (R36-R39), and the events, whose parameters are what the
outside world or the choice of agent supplies. -/

namespace Sys2Proof

/-- The four tick bits of a task word (R19): wait/signal copy, wait/signal epilogue. -/
structure Tk where
  wc : Bool
  sc : Bool
  we : Bool
  se : Bool
  deriving DecidableEq, Repr, Inhabited

/-- Format A (R20) without OP and FN. -/
structure FmtA where
  tk : Tk
  ty : TyCode
  s : Bool
  p : BitVec 3
  z : Bool
  d : SpecBits
  a : SpecBits
  b : SpecBits
  c : SpecBits
  ma : BitVec 2
  mb : BitVec 2
  mc : BitVec 2
  cl : BitVec 2
  sc : BitVec 3
  deriving DecidableEq, Repr, Inhabited

/-- Format I (R21). -/
structure FmtI where
  tk : Tk
  s : Bool
  d : SpecBits
  a : SpecBits
  imm : BitVec 34
  deriving DecidableEq, Repr, Inhabited

/-- Format B (R22); the reserved bits are zero in every instruction (R35 case 2). -/
structure FmtB where
  tk : Tk
  a : SpecBits
  b : SpecBits
  disp : BitVec 32
  deriving DecidableEq, Repr, Inhabited

/-- Format M (R23). -/
structure FmtM where
  tk : Tk
  ty : TyCode
  s : Bool
  p : BitVec 3
  z : Bool
  d : SpecBits
  k : BitVec 4
  x : SpecBits
  imm : BitVec 21
  deriving DecidableEq, Repr, Inhabited

/-- Format L (R24); the reserved bits are zero in every instruction. -/
structure FmtL where
  tk : Tk
  cnt : SpecBits
  len : BitVec 8
  stg : BitVec 4
  id : BitVec 8
  deriving DecidableEq, Repr, Inhabited

/-- Integer conditions (R34). -/
inductive ICond where
  | eq | ne | lt | ge | ltn | gen
  deriving DecidableEq, Repr, Inhabited

/-- Floating conditions (R34). -/
inductive FCond where
  | eq | ne | lt | le | un
  deriving DecidableEq, Repr, Inhabited

/-- Vector conditions (R34). -/
inductive VCond where
  | eq | ne | lt | le | gt | ge | un
  deriving DecidableEq, Repr, Inhabited

/-- Scopes (spec 15, R344). -/
inductive Scope where
  | task | core | cluster | die | package | fabric | system
  deriving DecidableEq, Repr, Inhabited

/-- Hardware-loop levels (spec 04, R124). -/
inductive Level where
  | l0 | l1 | l2
  deriving DecidableEq, Repr, Inhabited

/-- The three engines of a core (spec 05, R140). -/
inductive Engine where
  | copy | matrix | epilogue
  deriving DecidableEq, Repr, Inhabited

/-- A 120-bit record operand (R38). -/
structure Opd where
  kreg : BitVec 4
  base : BitVec 36
  s3 : BitVec 20
  s2 : BitVec 20
  s1 : BitVec 20
  s0 : BitVec 20
  deriving DecidableEq, Repr, Inhabited

/-- An engine record (R36) without its ROP. -/
structure Rec where
  eng : BitVec 4
  res : BitVec 4
  pop0 : BitVec 8
  pop1 : BitVec 8
  push0 : BitVec 8
  push1 : BitVec 8
  semp : BitVec 8
  semv : BitVec 8
  chain : Bool
  tsm : Bool
  acc : Bool
  cks : Bool
  sat : Bool
  wrap : Bool
  xf : BitVec 10
  ty : TyCode
  mode : BitVec 3
  n3 : BitVec 16
  n2 : BitVec 16
  n1 : BitVec 16
  n0 : BitVec 16
  opd0 : Opd
  opd1 : Opd
  opd2 : Opd
  deriving DecidableEq, Repr, Inhabited

/-- The parties that are visited (spec 15, R344): a task slot of a core, a command stream of a die
(its context), the supervisor stream of a die, an engine of a core. -/
inductive Party where
  | slot (core : Nat) (slot : Nat)
  | stream (die : Nat) (ctx : Nat)
  | super (die : Nat)
  | engine (core : Nat) (e : Engine)
  deriving DecidableEq, Repr, Inhabited

/-- What the hypervisor sets when it creates a context (R322, R298, R333, R353, R369, R375, R379, R419); with `ctx` 0xFFF, what the management
firmware sets when it loads a die's supervisor stream (R297): the frame ring's token and the trap entry word as well (R374). -/
structure CtxParams where
  ctx : Nat
  guest : Bool
  root1 : Nat
  root2 : Nat
  errq : Nat
  evtq : Nat
  timeline : Nat
  saveBase : Nat
  saveLen : Nat
  dbg : Nat
  reqRing : Nat
  repRing : Nat
  pages : List (Nat × Nat)
  die : Nat
  bufTok : BitVec 128
  bufOff : Nat
  ringTok : BitVec 128
  entry : Nat
  deriving DecidableEq, Repr, Inhabited

/-- A firmware image written to the Vestibule's load window (spec 20, R422). -/
structure FwImage where
  part : Nat
  version : Nat
  digest : BitVec 384
  sig : Nat
  deriving DecidableEq, Repr, Inhabited

/-- One constructor per row of the opcode table. -/
inductive Instr where
  -- scalar integer (spec 04)
  | add (f : FmtA) | sub (f : FmtA) | min (f : FmtA) | max (f : FmtA) | minn (f : FmtA) | maxn (f : FmtA)
  | addi (f : FmtI) | mul (f : FmtA) | mulh (f : FmtA) | mulhn (f : FmtA)
  | div (f : FmtA) | divn (f : FmtA) | rem (f : FmtA) | remn (f : FmtA)
  | and (f : FmtA) | or (f : FmtA) | xor (f : FmtA) | andn (f : FmtA)
  | shl (f : FmtA) | shr (f : FmtA) | sra (f : FmtA) | rot (f : FmtA)
  | cmp (c : ICond) (f : FmtA) | sel (f : FmtA) | clz (f : FmtA) | ctz (f : FmtA) | popc (f : FmtA)
  | bfx (f : FmtI) | bfi (f : FmtI) | li (f : FmtI) | lih (f : FmtI) | name (f : FmtA)
  -- control (spec 04)
  | br (c : ICond) (f : FmtB) | jmp (f : FmtB) | call (f : FmtB) | loop (l : Level) (f : FmtL)
  | jmpr (f : FmtA) | ret (f : FmtA) | loopx (f : FmtA) | halt (f : FmtA) | nop (f : FmtA)
  | suspend (f : FmtA) | waita (f : FmtA)
  -- scalar floating point and CSRs (spec 04)
  | fadd (f : FmtA) | fmul (f : FmtA) | ffma (f : FmtA) | fcmp (c : FCond) (f : FmtA) | fcvt (f : FmtA)
  | csrr (f : FmtI) | csrw (f : FmtI) | trap (f : FmtI)
  -- token-addressed memory (spec 04)
  | ld (f : FmtM) | st (f : FmtM) | lda (f : FmtM) | kld (f : FmtM) | kst (f : FmtM)
  | ksub (f : FmtA) | kinfo (f : FmtA)
  -- translation, sealing, revocation (spec 13)
  | xlatTrap (f : FmtA) | xlatWait (f : FmtA) | xlatlTrap (f : FmtA) | xlatlWait (f : FmtA)
  | trel (f : FmtA) | seal (f : FmtA) | unseal (f : FmtA) | krevoke (f : FmtA)
  -- vector (spec 06)
  | vadd (f : FmtA) | vsub (f : FmtA) | vmul (f : FmtA) | vfma (f : FmtA) | vfms (f : FmtA)
  | vmin (f : FmtA) | vmax (f : FmtA) | vdiv (f : FmtA) | vsqrt (f : FmtA)
  | vcmp (c : VCond) (f : FmtA) | vsel (f : FmtA) | vand (f : FmtA) | vor (f : FmtA) | vxor (f : FmtA)
  | vshl (f : FmtA) | vshr (f : FmtA) | vsra (f : FmtA) | vcvt (f : FmtA) | vnarrow (f : FmtA)
  | vwmul (f : FmtA) | vwadd (f : FmtA) | vredAdd (f : FmtA) | vredMin (f : FmtA) | vredMax (f : FmtA)
  | vbcast (f : FmtA) | vperm (f : FmtA) | vzip (f : FmtA) | vuzp (f : FmtA) | vpack (f : FmtA)
  | vexp2 (f : FmtA) | vlog2 (f : FmtA) | vrcp (f : FmtA) | vrsq (f : FmtA)
  | vsin (f : FmtA) | vcos (f : FmtA) | vtanh (f : FmtA) | vplane (f : FmtA) | vunpl (f : FmtA)
  | vld (f : FmtM) | vst (f : FmtM) | vlda (f : FmtM) | vgath (f : FmtM) | vscat (f : FmtM)
  | mand (f : FmtA) | mor (f : FmtA) | mnot (f : FmtA) | mcnt (f : FmtA) | mfrom (f : FmtA)
  | accld (f : FmtA) | accst (f : FmtA) | waitacc (f : FmtA)
  -- expansion (spec 09)
  | xclr (f : FmtA) | xform (f : FmtA) | xord (f : FmtA) | xm2m (f : FmtA) | xm2l (f : FmtA)
  | xl2l (f : FmtA) | xadd (f : FmtA) | xeval (f : FmtA) | xmeval (f : FmtA) | xadm (f : FmtA)
  | xld (f : FmtM) | xst (f : FmtM)
  -- ordering and synchronisation (spec 15)
  | fence (sc : Scope) (f : FmtA)
  | atomAdd (f : FmtM) | atomAnd (f : FmtM) | atomOr (f : FmtM) | atomXor (f : FmtM)
  | atomMin (f : FmtM) | atomMax (f : FmtM) | atomSwap (f : FmtM) | cas (f : FmtM)
  | barinit (f : FmtA) | bararr (f : FmtA) | barwait (f : FmtA)
  | seminit (f : FmtA) | semp (f : FmtA) | semv (f : FmtA)
  | tlsig (f : FmtA) | tlwait (f : FmtA) | tlset (f : FmtA)
  -- streams, cluster, launches (spec 07, 11, 12)
  | estart (f : FmtA) | ewait (f : FmtA)
  | mcast (f : FmtA) | qsend (f : FmtA) | qtake (f : FmtA) | stage (f : FmtA)
  | launch (f : FmtA) | ptc (f : FmtA) | frsave (f : FmtA) | frload (f : FmtA) | frstat (f : FmtA)
  | callb (f : FmtA) | retb (f : FmtA) | predm (f : FmtA) | loopc (f : FmtA) | ffence (f : FmtA)
  | waitline (f : FmtA)
  -- fabric, tiers, traps and debug (spec 21, 19, 16)
  | coll (f : FmtA) | cwait (f : FmtA) | cabort (f : FmtA) | ringf (f : FmtA) | tierpf (f : FmtA)
  | eret (f : FmtA) | bkpt (f : FmtA) | trmark (f : FmtA) | perfsnap (f : FmtA)
  -- pipeline events (spec 02, 04, 05)
  | resultWrite (p : Party) | asyncLoadDataWritten (p : Party) (i : Nat)
  | accExchangePerformed (p : Party) (i : Nat) | storePerformed (p : Party) (i : Nat)
  | shortLivedExpiry (p : Party) | bankRefresh (core bank : Nat) | pinCacheFill (cluster slot : Nat)
  | heldTickPush (p : Party) | loopIterationEnd (p : Party) | loopExit (p : Party) | haltRetire (p : Party)
  -- engine records (spec 05, 07)
  | recordStart (core : Nat) (e : Engine) | recordFinish (core : Nat) (e : Engine)
  | copy (r : Rec) | fill (r : Rec) | copypl (r : Rec) | copyrm (r : Rec) | decomp (r : Rec)
  | chainedMmaHandoff (core : Nat) | mma (r : Rec) | mmaReplay (core : Nat) | tcfg (r : Rec)
  | epi (r : Rec) | epiv (r : Rec) | jrec (r : Rec) | endstr (r : Rec)
  | leaveGrant (cluster : Nat) | leaveEnd (cluster i : Nat)
  -- traps (spec 16)
  | handlerStart (p : Party) | supervisorFrameWrite (die : Nat)
  -- Stairwell and Usher (spec 11, 12)
  | stairwellFire (die : Nat) | riserReturn (die l : Nat) | usherTaskStart (cluster : Nat)
  | entryClassRise (die l i : Nat) | mcastPlace (cluster : Nat) | usherRebalance (die l : Nat)
  | coreStageMove (core : Nat) | spillEntryReturn (die l : Nat) | overflowTranslationDone (die l : Nat)
  | continuationResume (cluster : Nat)
  -- launches (spec 12)
  | launchBind (die l : Nat) (x0 y0 xform : Nat) | preempt (die l : Nat) | taskCheckpoint (p : Party)
  | preemptBudgetExpiry (p : Party) | victimSettled (die l : Nat) | launchEnd (die l : Nat)
  | commandStreamStart (die ctx : Nat) (tok : BitVec 128) (off : Nat) | commandFetch (p : Party)
  -- translation and revocation (spec 13)
  | xlatComplete (p : Party) | pageReply (vf : Nat) | revocationDrainDone (slot : Nat) | sweep
  | slotFree (slot : Nat) | sealInForce (p : Party)
  -- contexts and debug (spec 16)
  | contextSwitchCut (die ctx : Nat) | contextRestore (die ctx : Nat) (move : List (Nat × Nat))
  | contextTeardown (ctx : Nat) | debugStop (die l : Nat) | gallerySpill (core : Nat)
  -- package memory (spec 19)
  | swapPairOpen (die : Nat) (slotA pageA : Nat) (near : Option (Nat × Nat)) | swapLineMove (die pair : Nat)
  | swapPairComplete (die pair : Nat) | swapPairAbandon (die pair : Nat) | tierpfRequestTimeout (die i : Nat)
  | channelRetireStart (pc : Nat) | channelRetired (pc : Nat) | pcStatusWrite (pc : Nat) (v : Word)
  | erasureListWrite (rank : Nat) (v : BitVec 32) | pseudoChannelNarrow (pc : Nat) (cause : BitVec 2)
  | hbmTempReport (stack temp : Nat)
  -- management, trust, host (spec 20)
  | capWordWrite (cap reserve : Nat) | budgetWordWrite (cluster budget : Nat) | powerOn
  | firmwareUpdateLoad (img : FwImage)
  | getVersion (fn : Nat) | getCapabilities (fn : Nat) | negotiateAlgorithms (fn : Nat) | getDigests (fn : Nat)
  | getCertificate (fn : Nat) | challenge (fn : Nat) (nonce : Nat) | getMeasurements (fn : Nat) (index : Nat)
  | keyExchange (fn : Nat) (share : Nat) | finish (fn : Nat)
  | hostCxlMemAccess (addr len : Nat) (data : Option (List Byte))
  -- fabric (spec 21)
  | linkFlitReceive (link : Nat) (flit : BitVec 2048) | linkDown (link : Nat) | linkTrained (link : Nat)
  | routingTableWrite (dev : Nat) (mask : BitVec 16) | exportTableWrite (idx : Nat) (v : BitVec 128)
  | read | readReply | write | writeAck | atomic | atomicReply | collectiveData | abort | ringHello
  | peerRequestTimeout (i : Nat) | collectiveTimeout (i : Nat) | helloHoldExpiry (i : Nat)
  | hostLineChange (addr : Nat) (data : List Byte) | ringFormationTimeout (p : Party)
  -- the module (spec 20, 11, 13, 12, 19)
  | powerLoss | coreFault (core : Nat) | contextCreate (c : CtxParams) | commandStreamStop (die ctx : Nat)
  | spareFramePoolFill (die : Nat) (frames : List Nat) | modeTableWrite (frame : Nat) (gang : Bool)
  | tokenPageRegister (ctx base len : Nat)
  deriving DecidableEq, Repr, Inhabited

end Sys2Proof
end

