-- ==== Sys2Proof/Config.lean ====
section
/-! DEFINITION. What the manual leaves to an implementation, and the free values. An `opaque`
constant has no body that a proof can see, so what is proved holds for every value of it. -/

namespace Sys2Proof

/-- What moves in a turn (log 2): a party is visited, an event row happens, a cache slice takes a line in (a replica: of the cluster it
names) or gives one up (R254), the race detector reports two accesses (R349), the host marks a 64-byte line of its memory poisoned or not (R402), the
host link trains at a rate in GT/s and a number of lanes (R416), or the management firmware reads or writes bytes of the near tier, the far tier or
the scratchpads (tier 0, 1, 2; R420). -/
inductive Move where
  | visit (p : Party)
  | event (i : Instr)
  | lineIn (far : Bool) (line way : Nat) (replicaAt : Option Nat)
  | lineOut (cluster pos : Nat)
  | race (i j : Nat)
  | hostMark (line : Nat) (bad : Bool)
  | hostTrain (rate lanes : Nat)
  | mgmtAccess (tier addr len : Nat) (data : Option (List Byte))
  deriving DecidableEq, Repr, Inhabited

/-- A turn of the schedule (log 2). -/
structure Turn where
  clocks : Nat
  move : Move
  deriving DecidableEq, Repr, Inhabited

/-- FREE VALUE (log 2): which agent moves when State.sched names none. DESIGN CHOICE. -/
opaque Config.schedule : Nat → Turn

/-- FREE VALUE (log 4): an unpredictable value (spec 00, R7) of `w` bits; the second argument is
the counter State.freeNo that each use advances. -/
opaque Config.freeBits (w : Nat) : Nat → BitVec w

/-- FREE VALUE (log 8): the rank of an atom (spec 19, R398), a function of space and atom index. -/
opaque Config.rankOf (far : Bool) (atom : Nat) : Nat

/-- FREE VALUE (log 8): which pseudo-channel of the far tier an atom lies in; their status words follow the 1,152 of near memory (R396, R399). -/
opaque Config.farChannel (atom : Nat) : Nat

/-- FREE VALUE (log 5): the identity that management gives the device at a bring-up (spec 21, R432). -/
opaque Config.identity (n : Nat) : BitVec 10

/-- FREE VALUE (log 57): the home slice of a line of near or far memory, and its set there (spec 11, R254). -/
opaque Config.homeSlice (far : Bool) (line : Nat) : BitVec 5
opaque Config.lineSet (far : Bool) (line : Nat) : BitVec 12

/-- FREE VALUE (log 9): what an SPDM answer (spec 20, R421) holds beside certificates, measurements and signatures, by request code, function and
argument. -/
opaque Config.spdmAnswer (request fn arg : Nat) : List Byte

/-- FREE VALUE (log 9): what is fused or issued at manufacture (spec 20, R420, R421): the firmware-signing public key, the public half of the
identity key, and the certificate chain. -/
opaque Config.signingKey : BitVec 384
opaque Config.identityKey : BitVec 256
opaque Config.certChain : List Byte

/-- FREE VALUE (log 9): SHA-384, and the SLH-DSA-SHA2-128s signature of 7,856 bytes that the identity key makes (spec 20, R421). -/
opaque Config.sha384 (bytes : List Byte) : BitVec 384
opaque Config.signature (bytes : List Byte) : BitVec 62848

/-- FREE VALUE (log 9): whether a firmware image's SLH-DSA-SHA2-192s signature verifies under a key (spec 20, R421, R422). -/
opaque Config.fwVerifies (key : BitVec 384) (img : FwImage) : Bool

/-- FREE VALUE (log 9): the SHA-384 digest of a measured part before any update, or of the fuse state (spec 20, R421). -/
opaque Config.measured (index : Nat) (fuses : List (Nat × Nat)) : BitVec 384

/-- FREE VALUE (log 34): the vector of the physical function that a report of management raises (spec 20, R417), by the report. -/
opaque Config.reportVector (report : Nat) : BitVec 4

/-- FREE VALUE (log 30): the bring-up step, 1 to 8, that fails at a power-on (spec 20, R426); any other value is none. -/
opaque Config.bringupFails (n : Nat) : BitVec 8

/-- FREE VALUE (log 10): the counts that lost bank arbitrations add to a conflict-matrix counter between snapshots (spec 05, R145-R147, R171); timing
the model leaves out. -/
opaque Config.lostClocks (snapshot counter : Nat) : BitVec 64

end Sys2Proof
end

