-- ==== Sys2Proof/Machine/State.lean ====
section
/-! DEFINITION. The state of an SP980 module as plain data, and the state right after bring-up.
Every table is a sparse list of (index, value) pairs with rising indices. -/

namespace Sys2Proof.Machine

/-- A sparse table: an unlisted index holds the default its reader names. -/
abbrev Table (α : Type) := List (Nat × α)
/-- A byte memory in the canonical form of Host.Cell. -/
abbrev Memory := List Host.Cell

/-- Space codes of spec 13, R313. -/
inductive Space where
  | near | far | hall | peer | host
  deriving DecidableEq, Repr, Inhabited

/-- A physical place. A hall address is R142's; a peer address is
(device x 4096 + export) x 2^34 + offset (spec 21, R434). -/
structure Place where
  space : Space
  addr : Nat
  deriving DecidableEq, Repr, Inhabited

/-- A token register: 128 bits and the hidden tag (spec 13, R313). -/
structure KReg where
  bits : BitVec 128
  tag : Bool
  deriving DecidableEq, Repr, Inhabited

/-- A vector register with its format tag (spec 02, R64). -/
structure VReg where
  data : Vec
  tag : TyCode
  deriving DecidableEq, Repr, Inhabited

/-- The life of a stair entry (R61, R62): `lasting n` has stood n issue cycles (17 for every longer time), and `left n` is a short-lived
entry with n issue cycles left. -/
inductive Life where
  | lasting (n : Nat) | left (n : Nat) | expired
  deriving DecidableEq, Repr, Inhabited

structure SStep where
  val : Word
  life : Life
  deriving DecidableEq, Repr, Inhabited

structure VStep where
  reg : VReg
  life : Life
  deriving DecidableEq, Repr, Inhabited

/-- A result value of any class. -/
inductive Val where
  | word (v : Word) | vec (r : VReg) | tok (k : KReg) | mask (m : Mask) | series (q : Series) | order (o : Word)
  deriving DecidableEq, Repr, Inhabited

/-- Where a result goes besides its stair. -/
inductive Dest where
  | none | x (n : Nat) | v (n : Nat) | k (n : Nat) | m (n : Nat) | q (n : Nat) | o (n : Nat) | csr (n : Nat) | sem (n : Nat)
  deriving DecidableEq, Repr, Inhabited

/-- A result in flight (R55, R371); `rem` is the issue cycles until it lands, and `need` names the
peer requests whose data it still awaits (R437); `fix` is the type whose extension the awaited bits still
need (R101); `word` is the index of the word that issued it, and `stage` its stage in a pipelined loop, or 0xFF (R383). -/
structure Flight where
  rem : Nat
  stair : Bool
  dest : Dest
  val : Val
  flags : BitVec 8
  short : Bool
  sigs : List Nat
  need : List Nat
  fix : Option TyCode
  word : Nat
  stage : Nat
  deriving DecidableEq, Repr, Inhabited

/-- A pending `lda` or `vlda` (R57); `spoiled` lists the destinations of it that another word wrote meanwhile (R58). -/
structure Async where
  seq : Nat
  parts : List (Dest × Val)
  flags : BitVec 8
  need : List Nat
  fix : Option TyCode
  spoiled : List Dest
  deriving DecidableEq, Repr, Inhabited

/-- A pending exchange with the accumulator ring (R204); `spoiled` when another word wrote its register meanwhile (R58). -/
structure Exch where
  seq : Nat
  load : Bool
  tile : Nat
  index : Nat
  ty : TyCode
  dest : Nat
  data : Vec
  spoiled : Bool
  deriving DecidableEq, Repr, Inhabited

/-- An asynchronous operation that is complete and whose covering wait has not returned (R58): its destinations, each with whether
another word wrote it meanwhile. `exch` tells an exchange from a load. -/
structure Late where
  exch : Bool
  seq : Nat
  dests : List (Dest × Bool)
  deriving DecidableEq, Repr, Inhabited

/-- A stage-queue entry (spec 11, R257). -/
structure Entry where
  pay0 : Word
  pay1 : Word
  ins : List Nat
  point : List Nat
  arrived : Nat
  cls : Nat
  risen : Bool
  deriving DecidableEq, Repr, Inhabited

/-- What a posted store does when it is performed. A `qsend` comes after the exchanges before number `exchs`; a multicast has its bytes and the
cores it has still to write. -/
inductive StoreAct where
  | bytes
  | token (slot off : Nat) (tag : Bool)
  | qsend (stage : Nat) (e : Entry) (exchs : Nat)
  | mcast (tile stage len dest : Nat) (data : List Byte) (cores : List Nat)
  deriving DecidableEq, Repr, Inhabited

/-- A byte to write: pin slot, offset in the slot's extent, the offset of the element that it is of, value, and the bits of it that are written. -/
structure SCell where
  slot : Nat
  off : Nat
  el : Nat
  byte : Byte
  mask : Byte
  deriving DecidableEq, Repr, Inhabited

/-- An entry of the store queue (R134); `sigs` are the signals it completes, `seq` the number of the first signal of a later word, and `word` the
index of the word that made it. -/
structure Store where
  cells : List SCell
  act : StoreAct
  flags : BitVec 8
  sigs : List Nat
  slots : List Nat
  need : List Nat
  sent : Bool
  seq : Nat
  word : Nat
  deriving DecidableEq, Repr, Inhabited

/-- An active hardware loop (R72-R76); `start` is the first body word, `buf` the Porter's buffer level that holds the body (0 on a core). -/
structure Loop where
  level : Nat
  start : Nat
  len : Nat
  stages : Nat
  id : Nat
  iter : Nat
  leave : Bool
  buf : Nat
  deriving DecidableEq, Repr, Inhabited

/-- A Porter block repeat (spec 12, R310). -/
structure LoopC where
  level : Nat
  start : Nat
  len : Nat
  left : Nat
  deriving DecidableEq, Repr, Inhabited

/-- A word that has issued and holds its slot until an event completes it. -/
inductive Wait where
  | none
  | sem (id : Nat)
  | xlat (f : FmtA) (wait : Bool) (va len : Nat)
  | xlatl (f : FmtA) (wait : Bool) (off count : Nat)
  | seal (f : FmtA) (runs : List (Space × Nat × Nat))
  | revoke (f : FmtA) (slot : Nat) (result : Word)
  | timeline (f : FmtA) (slot off : Nat) (threshold : Word) (released : Option Word)
  | line (f : FmtA) (slot off : Nat) (cond : ICond) (comparand : Word) (seen : Option Word)
  | pred (f : FmtA) (slot off : Nat) (cond : ICond) (comparand : Word) (seen : Option Word)
  | ring (f : FmtA) (slot : Nat) (n r : Nat) (left right : Nat × Nat) (digest epoch : Nat) (gotL gotR : Option Bool) (since : Nat) (timeout : Nat)
  | tier (f : FmtA) (units slot off : Nat)
  | frsave (l : Nat) (tok : KReg) (off : Nat) (sent : Bool)
  deriving DecidableEq, Repr, Inhabited

/-- How a task stands. `trapped` waits for HANDLER_START or, on the Porter and for PF and LAUNCH,
for the supervisor's `eret`; `held` is a debug stop (R382); `cut` a context switch (R377). -/
inductive Status where
  | idle | run | halting | trapped | supervised | held | cut | stopped
  deriving DecidableEq, Repr, Inhabited

/-- What a trap hands to its frame (R370, R374). -/
structure TrapInfo where
  cause : Nat
  detail : Nat
  resume : Nat
  word : Word
  aux0 : Word
  aux1 : Word
  aux2 : Word
  va : Nat
  gpa : Nat
  level : Nat
  mask : Nat
  deriving DecidableEq, Repr, Inhabited

/-- How a victim's task is being settled (R290). -/
inductive Fate where
  | none | drain | checkpointWithin (budget : Nat) | checkpointNext
  deriving DecidableEq, Repr, Inhabited

/-- A register window and everything a task or Porter stream holds (R49, R77). `sigq` lists the
signals of issued words in order, each with whether its word has completed (R29); `here` is the index of the word in issue, `lbuf`
the loop buffer (R72), `late` the asynchronous operations that no wait has covered yet (R58), `rfErr` and `rfSoft` the registers whose
stored word holds an error (R165), and `peerBuf` the peer bytes that a waiting word has read, by peer address (none where the read or write failed),
with the requests it awaits in `peerAsk` and the flags of those that failed in `peerFlags`. -/
structure Task where
  status : Status
  ctx : Nat
  launch : Option (Nat × Nat)
  stage : Nat
  point : List Nat
  run : Nat
  pc : Nat
  here : Nat
  ic : Nat
  x : Table Word
  v : Table VReg
  k : Table KReg
  m : Table Mask
  q : Table Series
  o : Table Word
  t : List SStep
  w : List VStep
  flags : BitVec 8
  fmode : Word
  tstat : Word
  lc : Table Word
  spred : BitVec 8
  ctimeo : BitVec 32
  loops : List Loop
  lbuf : Table Word
  fell : Bool
  exits : Bool
  flights : List Flight
  asyncs : List Async
  exchs : List Exch
  asyncNo : Nat
  exchNo : Nat
  late : List Late
  stores : List Store
  heldC : Bool
  heldE : Bool
  sigq : List (Nat × Engine × Bool)
  sigNo : Nat
  chk : List Nat
  chkProd : Word
  exchFmt : List Nat
  wait : Wait
  entry : Entry
  resumed : Bool
  refused : List Nat
  started : List Engine
  qsent : Bool
  suspended : Bool
  inHandler : Bool
  trap : TrapInfo
  skipBp : Bool
  step : Bool
  loopEvent : Option TrapInfo
  fate : Fate
  leaveAsked : Bool
  leaveGot : Bool
  rfErr : List Nat
  rfSoft : List Nat
  pinMiss : Option Nat
  cp : Bool
  level : Nat
  stack : List (KReg × Nat)
  loopcs : List LoopC
  buf : KReg
  fetched : List (Nat × Word)
  peerBuf : Table (Option Byte)
  peerAsk : List Nat
  peerFlags : BitVec 8
  deriving DecidableEq, Repr

/-- The window of R51: all zero, tags none; `fmode` and the other CSRs at their reset values. -/
def Task.fresh : Task where
  status := .idle
  ctx := 0
  launch := Option.none
  stage := 0
  point := []
  run := 0
  pc := 0
  here := 0
  ic := 0
  x := []
  v := []
  k := []
  m := []
  q := []
  o := []
  t := []
  w := []
  flags := 0
  fmode := 0x100000000
  tstat := 0
  lc := []
  spred := 1
  ctimeo := 0x4000
  loops := []
  lbuf := []
  fell := false
  exits := false
  flights := []
  asyncs := []
  exchs := []
  asyncNo := 0
  exchNo := 0
  late := []
  stores := []
  heldC := false
  heldE := false
  sigq := []
  sigNo := 0
  chk := []
  chkProd := 0
  exchFmt := []
  wait := .none
  entry := ⟨0, 0, [], [], 0, 0, false⟩
  resumed := false
  refused := []
  started := []
  qsent := false
  suspended := false
  inHandler := false
  trap := ⟨0, 0, 0, 0, 0, 0, 0, 0, 0, 0, 0⟩
  skipBp := false
  step := false
  loopEvent := Option.none
  fate := .none
  leaveAsked := false
  leaveGot := false
  rfErr := []
  rfSoft := []
  pinMiss := Option.none
  cp := true
  level := 0
  stack := []
  loopcs := []
  buf := ⟨0, false⟩
  fetched := []
  peerBuf := []
  peerAsk := []
  peerFlags := 0

/-- Ring tile states (spec 05, R151). -/
inductive TileState where
  | free | filling | full | draining
  deriving DecidableEq, Repr, Inhabited

/-- A tile of the accumulator ring (R151, R159); `int` is its type i64, and `failed` that it has been reported failed and not been drained since
(R161, R164). -/
structure Tile where
  state : TileState
  int : Bool
  elems : Table Word
  rc : Table Word
  cc : Table Word
  checked : Bool
  failed : Bool
  deriving DecidableEq, Repr

def Tile.fresh : Tile := ⟨.free, false, [], [], [], true, false⟩

/-- A record in progress (R155): its index, its bits, its number in the order in which its stream's records started (a chained record has its chaining
record's), the operands that failed stage 1 of R214, the slots it holds in flight, and its issue count (R211), from which the loop indices follow. Of
the issue that acts next: whether its peer reads are asked, the request ids it awaits, and the peer bytes read (with poison) by peer address; and the
operands of which a peer failure is logged (R341). Then what its issues have left for later ones: the source offset of a `decomp` (R222), whether its
SX event is logged, the A and B blocks that an `mma` has read and the poison it met, the band scales and the registers of a drain. Last, whether all
its issues have acted, whether its chained record was handed over, and whether a debug stop holds its completions (R382). -/
structure Prog where
  idx : Nat
  bits : BitVec 512
  order : Nat
  fails : List Nat
  slots : List Nat
  issue : Nat
  asked : Bool
  waits : List Nat
  peer : Table (Byte × Bool)
  told : List Nat
  src : Nat
  sx : Bool
  fed : List (List Byte × List Byte)
  ate : List Nat
  band : List Nat
  regs : List Nat
  done : Bool
  handed : Bool
  finished : Bool
  deriving DecidableEq, Repr, Inhabited

/-- A record of which no issue has acted. -/
def Prog.fresh (idx : Nat) (bits : BitVec 512) : Prog where
  idx := idx
  bits := bits
  order := 0
  fails := []
  slots := []
  issue := 0
  asked := false
  waits := []
  peer := []
  told := []
  src := 0
  sx := false
  fed := []
  ate := []
  band := []
  regs := []
  done := false
  handed := false
  finished := false

/-- A record of the replay window (R162) with the A operand and base exponents it was given; `fail` when its A
operand failed. -/
structure WinRec where
  own : Engine
  idx : Nat
  bits : BitVec 512
  tok : KReg
  fail : Bool
  ba : Word
  bb : Word
  deriving DecidableEq, Repr, Inhabited

/-- Stream states of R209. -/
inductive StreamState where
  | idle | running | ended | engill | semovf
  deriving DecidableEq, Repr, Inhabited

/-- An engine stream (spec 07, R208-R211). `sticky` holds status bits [5:0]; `chained` are the copy stream's chained
records handed to the array's queue, `active` the one that the array performs, and `held` the pushes (partner
and count) that the finishing record has still to make (R156); `starts` counts the records started, and `cutHalt` says that the stream has come to
its halting point of a switch (R376). -/
structure Stream where
  state : StreamState
  ridx : Nat
  sval : Nat
  sceil : Nat
  sid : Nat
  doneAfter : Nat
  ereason : Nat
  sticky : BitVec 6
  reported : Bool
  kshadow : Table KReg
  xshadow : Table Word
  lfsr : BitVec 32
  slot : Nat
  run : Nat
  ctx : Nat
  launch : Option (Nat × Nat)
  prog : List Prog
  passes : Table Nat
  chained : List Prog
  active : List Prog
  held : Option (List (Nat × Nat))
  starts : Nat
  cut : Bool
  cutHalt : Bool
  leaveAsked : Bool
  leaveGot : Bool
  deriving DecidableEq, Repr

def Stream.fresh : Stream where
  state := .idle
  ridx := 0
  sval := 0
  sceil := 0
  sid := 0
  doneAfter := 0
  ereason := 0
  sticky := 0
  reported := true
  kshadow := []
  xshadow := []
  lfsr := 1
  slot := 0
  run := 0
  ctx := 0
  launch := none
  prog := []
  passes := []
  chained := []
  active := []
  held := none
  starts := 0
  cut := false
  cutHalt := false
  leaveAsked := false
  leaveGot := false

/-- A semaphore (R157). -/
structure Sem where
  ceil : BitVec 8
  value : BitVec 8
  deriving DecidableEq, Repr, Inhabited

/-- A grant of power leave (R169, R170): cluster, holder, charge in milliwatts, and whether its work is over. -/
structure Leave where
  cluster : Nat
  holder : Party
  charge : Nat
  spent : Bool
  deriving DecidableEq, Repr, Inhabited

/-- Registers that an `epiv` fills (R229): `count` of them from `first`, of slot `slot` as run `run`. They read as unpredictable until that
task has waited on a tick or a unit made after the record finished: `filling` until it has, then the ticks that the task's two queues
and the units that each semaphore held at that moment (MODEL's own, log 4). -/
structure Drain where
  slot : Nat
  run : Nat
  first : Nat
  count : Nat
  filling : Bool
  oldC : Nat
  oldE : Nat
  oldV : Table Nat
  deriving DecidableEq, Repr

/-- A core (spec 05, R140). `window` to `ate` serve the replay of R162-R164: the records performed on the FILLING
tile, the tile as its TSM record found it, the weight buffers refilled since, the replays made, and the sources of the
poison consumed (0 the A operand, 1 and 2 the weight buffers). `bad` and `soft` are the rows with a poison mark and with a
single-bit error (R144), `rot` the slot that the issue stage visits next (R59). Tick queues are keyed by producer x 4 + consumer with the codes 1 task,
2 copy, 3 matrix, 4 epilogue. -/
structure Core where
  mem : Memory
  tags : Table Bool
  bad : Table Bool
  soft : Table Bool
  corrected : Nat
  wb0 : Memory
  wb1 : Memory
  wbBad : Table Bool
  wbRuns : List (Nat × Space × Nat × Nat)
  tiles : Table Tile
  head : Nat
  tail : Nat
  ring : Word
  failt : BitVec 4
  window : List WinRec
  windowOver : Bool
  opened : Tile
  refilled : List Nat
  replays : Nat
  ate : List Nat
  ticks : Table Nat
  sems : Table Sem
  copyS : Stream
  matrixS : Stream
  epiS : Stream
  conflict : Table (BitVec 32)
  leaveWait : Table Word
  gal : List Byte
  galSpilled : Nat
  galDropped : BitVec 32
  galLost : Bool
  galTrig : Bool
  galPost : Nat
  residents : List (Nat × Nat × Nat)
  sliceSlot : Option Nat
  dead : Bool
  bound : Option (Nat × Nat)
  owner : Nat
  stage : Option Nat
  moving : Option Nat
  refresh : Option Nat
  rot : Nat
  stopped : Bool
  drains : List Drain
  deriving DecidableEq, Repr

def Core.fresh : Core where
  mem := []
  tags := []
  bad := []
  soft := []
  corrected := 0
  wb0 := []
  wb1 := []
  wbBad := []
  wbRuns := []
  tiles := []
  head := 0
  tail := 0
  ring := 0
  failt := 0
  window := []
  windowOver := false
  opened := Tile.fresh
  refilled := []
  replays := 0
  ate := []
  ticks := []
  sems := []
  copyS := Stream.fresh
  matrixS := Stream.fresh
  epiS := Stream.fresh
  conflict := []
  leaveWait := []
  gal := []
  galSpilled := 0
  galDropped := 0
  galLost := false
  galTrig := false
  galPost := 0
  residents := []
  sliceSlot := none
  dead := false
  bound := none
  owner := 0xFFF
  stage := none
  moving := none
  refresh := none
  rot := 0
  stopped := false
  drains := []

/-- A resident image's sections (spec 01, R41, R42): offset and length in bytes; absent is (0, 0). -/
structure Image where
  tok : KReg
  task : Nat × Nat
  copy : Nat × Nat
  matrix : Nat × Nat
  epilogue : Nat × Nat
  ckpt : List (Nat × List Nat)
  deriving DecidableEq, Repr, Inhabited

/-- Launch states (spec 12, R307). -/
inductive LState where
  | free | queued | running | preempted | saved | done | failed
  deriving DecidableEq, Repr, Inhabited

/-- A riser entry (R284). -/
structure Riser where
  first : Nat
  window : Nat
  height : Nat
  deriving DecidableEq, Repr, Inhabited

/-- A point in flight, its count of live tasks (R258), whether a task of it has started, and whether it has been reported failed; `fate` is 0, or
R293's code when it comes from a landing, and `record` the continuation record of fates 2 and 3. -/
structure Flying where
  point : List Nat
  live : Nat
  begun : Bool
  failed : Bool
  fate : Nat
  record : Nat
  deriving DecidableEq, Repr, Inhabited

/-- A continuation record (spec 11, R268). a request group is bit 63 of `bar`; `run` is its task's number (0 for one read from a landing); `refused`
are its refused pages (R329); `xb` when an entry of its list failed at a replay (R330); `fixed` when its task may no longer be killed (R290);
`streams` are the streams of a checkpointed task (R291). -/
structure Cont where
  pc : Nat
  fmode : Word
  point : List Nat
  bar : Nat
  phase : Bool
  stage : Nat
  ins : List Nat
  live : List (Nat × Val)
  ready : Bool
  spilled : Bool
  cluster : Nat
  off : Nat
  refused : List Nat
  xb : Bool
  fixed : Bool
  run : Nat
  streams : List (Engine × Stream)
  deriving DecidableEq, Repr, Inhabited

/-- The debug block as a binding captured it (spec 16, R379). -/
structure Debug where
  bps : List (Nat × Nat)
  watches : List (Nat × Nat × Nat × Nat)
  stop : Bool
  gkinds : BitVec 8
  gtrig : Nat
  gtval : Nat
  gpost : Nat
  gspill : KReg
  deriving DecidableEq, Repr, Inhabited

/-- One stage of a launch (R276). -/
structure StageRec where
  word : Nat
  est : Nat
  cores : Nat
  restartable : Bool
  deriving DecidableEq, Repr, Inhabited

/-- A launch slot (spec 12); `switched` while a context switch keeps its context off the die (R377); `ending` the status with which it ends once the
writes of its completion record to a peer are answered (R296). -/
structure Launch where
  gen : BitVec 8
  state : LState
  ctx : Nat
  rank : Nat
  sweepAxis : Nat
  win : Nat
  deps : List (List Int)
  prio : Nat
  urg : Nat
  pw : Nat
  ph : Nat
  ext : List Nat
  argmode : BitVec 8
  stages : List StageRec
  handler : Nat
  image : Image
  doneTok : KReg
  fspill : KReg
  ovfl : Nat
  ovfLen : Nat
  cspill : KReg
  args : List KReg
  risers : List Riser
  held : Bool
  spillN : Nat
  everSpilled : Bool
  flying : List Flying
  completed : Nat
  failedN : Nat
  seam : Bool
  bound : Bool
  x0 : Nat
  y0 : Nat
  xform : Nat
  queues : Table (List Entry)
  overflow : List (Nat × Nat × Entry)
  ovfWait : List Nat
  ovfSend : List (Nat × Nat)
  ovfRefused : List Nat
  conts : List Cont
  seq : Nat
  bindSeq : Nat
  endSeq : Nat
  victimBy : Option Nat
  dbg : Debug
  stopHeld : Bool
  heldDone : List (Nat × Engine)
  switched : Bool
  ending : Option (Nat × List Nat)
  deriving DecidableEq, Repr

def Launch.fresh : Launch where
  gen := 0
  state := .free
  ctx := 0
  rank := 1
  sweepAxis := 0
  win := 1
  deps := []
  prio := 0
  urg := 0
  pw := 1
  ph := 1
  ext := [1, 1, 1, 1]
  argmode := 0
  stages := []
  handler := 0
  image := default
  doneTok := ⟨0, false⟩
  fspill := ⟨0, false⟩
  ovfl := 0
  ovfLen := 0
  cspill := ⟨0, false⟩
  args := []
  risers := []
  held := false
  spillN := 0
  everSpilled := false
  flying := []
  completed := 0
  failedN := 0
  seam := false
  bound := false
  x0 := 0
  y0 := 0
  xform := 0
  queues := []
  overflow := []
  ovfWait := []
  ovfSend := []
  ovfRefused := []
  conts := []
  seq := 0
  bindSeq := 0
  endSeq := 0
  victimBy := none
  dbg := default
  stopHeld := false
  heldDone := []
  switched := false
  ending := none

/-- Slot states of R316. -/
inductive SlotState where
  | free | live | sweeping | reserved
  deriving DecidableEq, Repr, Inhabited

/-- A slot record (R316) and its watched ranges (R380): entry, offset, length, kinds R W. -/
structure PinSlot where
  gen : BitVec 8
  state : SlotState
  ps : Nat
  ctx : Nat
  first : Nat
  nwords : Nat
  space : Space
  inflt : Nat
  extlen : Nat
  watch : List (Nat × Nat × Nat × Nat)
  drained : Bool
  swept : Bool
  deriving DecidableEq, Repr, Inhabited

def PinSlot.fresh : PinSlot := ⟨0, .free, 0, 0, 0, 0, .near, 0, 0, [], false, false⟩

/-- A pin-frame word (R317) with the leaf that `xlat` walked for it (R407); `pair` names the open
swap pair of the word by die and number (R405), and `leafPs` the page size of the leaf, of which a word of a slot of mixed sizes names a part. -/
structure PinWord where
  used : Bool
  space : Space
  ps : Nat
  swap : Nat
  tp : Bool
  mt : Nat
  frameB : Nat
  frameA : Nat
  leaf : Nat
  va : Nat
  leafPs : Nat
  pair : Option (Nat × Nat)
  deriving DecidableEq, Repr, Inhabited

def PinWord.fresh : PinWord := ⟨false, .near, 0, 0, false, 0, 0, 0, 0, 0, 0, none⟩

/-- A swap pair (spec 19, R404-R408): the words that move, the bitmap, the unit cursor. -/
structure SwapPair where
  words : List (Nat × Nat)
  lone : Bool
  units : Nat
  cursor : Nat
  moved : BitVec 512
  abandoned : Bool
  retire : Bool
  spare : Nat
  deriving DecidableEq, Repr, Inhabited

/-- One queued request of a `tierpf` (R410). -/
structure TierReq where
  ctx : Nat
  slot : Nat
  word : Nat
  bytes : Nat
  barSlot : Nat
  barOff : Nat
  since : Nat
  pair : Option (Nat × Nat)
  deriving DecidableEq, Repr, Inhabited

/-- A context (R322, R333, R353, R369, R375, R379, R298, R419); the number of a supervisor's is its die times 4,096 above its CTX, 0xFFF (R297). `held` are
the page requests that wait for its ring; `off` the dies whose cores it has been switched off (R377). -/
structure Ctx where
  live : Bool
  params : CtxParams
  pages : List (Nat × Nat)
  userPages : Nat
  saveSlot : Nat
  held : List (List Byte)
  off : List Nat
  deriving DecidableEq, Repr

def Ctx.fresh : Ctx := ⟨false, default, [], 0, 0, [], []⟩

/-- An open page-request group (R329): the suspended task's party and launch, the list of an `xlatl` (token,
offset), the requests not yet answered (entry index, VA, permissions), the pages refused, and whether a replayed entry raised XB. -/
structure Group where
  party : Party
  ctx : Nat
  die : Nat
  launch : Nat
  list : Option (KReg × Nat)
  entries : List (Nat × Nat × Nat)
  refused : List Nat
  xb : Bool
  deriving DecidableEq, Repr, Inhabited

/-- A frame waiting for, or standing in, the supervisor frame ring (R374), of the task with number `run` of a launch: a context switch may have
taken that task off its slot meanwhile. -/
structure Frame where
  party : Party
  run : Nat
  launch : Option (Nat × Nat)
  ctx : Nat
  core : Nat
  slot : Nat
  info : TrapInfo
  word : Nat
  written : Option Nat
  deriving DecidableEq, Repr, Inhabited

/-- Per die: launches, Porter semaphores, frames, spare pool, swaps, requests, and the stream that the Porter's rotation comes to next (R297; 64 is
the supervisor). -/
structure Die where
  launches : Table Launch
  psems : Table Sem
  frames : List Frame
  ringTok : KReg
  ringNext : Nat
  superEntry : Nat
  spare : List Nat
  pairs : Table SwapPair
  tier : List TierReq
  rot : Nat
  deriving DecidableEq, Repr

def Die.fresh : Die := ⟨[], [], [], ⟨0, false⟩, 0, 0, [], [], [], 0⟩

/-- A hall link (spec 21, R428-R431): the next flit's number, the last good one received, credits held and owed, NAKs in a row,
a NAK and an ACK to send, the clock of the last ACK, and the flits kept (number and payload). -/
structure Link where
  up : Bool
  seq : Nat
  lastGood : Nat
  credits : Int
  owed : Nat
  naks : Nat
  nakOut : Bool
  sinceAck : Nat
  unacked : List (Nat × BitVec 1920)
  ackDue : Bool
  deriving DecidableEq, Repr, Inhabited

/-- A fabric message (R428). -/
structure Msg where
  kind : Nat
  sctx : Nat
  dst : Nat
  src : Nat
  eseq : Nat
  arg : Nat
  data : List Byte
  deriving DecidableEq, Repr, Inhabited

/-- A run of bytes of an element: the result part and bit position it goes to, its byte offset in the
element, its size, and the nibble meant (0 none, 1 low, 2 high). -/
structure Piece where
  part : Nat
  pos : Nat
  rel : Nat
  size : Nat
  nib : Nat
  deriving DecidableEq, Repr, Inhabited

/-- A peer request outstanding on this device (R435, R436), for `size` bytes from byte `base` of an element; `pieces` say where in the result
the element's bytes go, `place` which word or record asked, `op` of which operand it is (the number of the operand's first request, or an
engine's operand), and `told` whether a failure of that operand is logged (R341). -/
structure PeerReq where
  id : Nat
  msg : Msg
  party : Party
  pinSlot : Nat
  pieces : List Piece
  base : Nat
  size : Nat
  since : Nat
  place : Nat
  op : Nat
  told : Bool
  deriving DecidableEq, Repr, Inhabited

/-- A ring slot (R438, R449): neither FORMED nor BROKEN while its `ringf` waits. -/
structure Ring where
  used : Bool
  formed : Bool
  broken : Bool
  members : List (Nat × Nat)
  pos : Nat
  epoch : Nat
  seq : Nat
  succSlot : Nat
  predSlot : Nat
  deriving DecidableEq, Repr, Inhabited

/-- A collective (R440-R448). `kind` 0 ar, 1 rs, 2 ag; `ring` the key of its ring, if its handle named one; `parts` this member's
partials by element; `got` the elements of the current step received; `counted` when it passed its checks and holds
counts on its slots; `aborted` the neighbours (0 successor, 1 predecessor) that sent it an abort, `need` the writes of its result to a peer
that are not acknowledged. -/
structure Coll where
  counted : Bool
  ended : Bool
  ctx : Nat
  die : Nat
  slot : Nat
  ring : Option Nat
  seq : Nat
  kind : Nat
  op : Nat
  ty : TyCode
  count : Nat
  src : KReg
  srcOff : Nat
  dst : KReg
  dstOff : Nat
  parts : Table Nat
  got : Nat
  step : Nat
  flags : BitVec 8
  status : Nat
  reason : Nat
  dev : Nat
  timeout : Nat
  since : Nat
  owner : Party
  run : Nat
  aborted : List Nat
  need : List Nat
  deriving DecidableEq, Repr, Inhabited

/-- A held ring hello (R449): it has not met a matching `ringf`. -/
structure Hello where
  msg : Msg
  since : Nat
  deriving DecidableEq, Repr, Inhabited

/-- The Root Kernel (spec 20, R420-R422). `sessions` holds for each function 1 for an SPDM session that is opened and 2 for one that is complete; `ide`
that the IDE keys of the host link are set (R416; log 9), `log` the measurement log (index and digest), and `answers` the answers sent: request,
function, bytes. Its keys are Config's. -/
structure Trust where
  running : List FwImage
  waiting : List FwImage
  minVersion : Nat
  sessions : Table Nat
  ide : Bool
  log : List (Nat × BitVec 384)
  answers : List (Nat × Nat × List Byte)
  deriving DecidableEq, Repr

/-- A line held in a cache slice (spec 11, R254, R255): which 128 bytes of the far or near tier, whether it is dirty, a sealed replica,
poisoned, the 8-byte units with a single-bit error, and the atoms that came poisoned from memory. Its bytes are those of its place: there is one
coherent copy; its poison and its errors are its own until it leaves. -/
structure SLine where
  far : Bool
  line : Nat
  dirty : Bool
  replica : Bool
  poison : Bool
  soft : List Nat
  atoms : List Nat
  deriving DecidableEq, Repr, Inhabited

/-- An access that the race detector has seen (spec 15, R349): its number, its task (run and context), what its item names, the bytes
it touched, whether it stores, the number of its task's last acquire before it and of its task's first release after it. -/
structure Seen where
  no : Nat
  run : Nat
  ctx : Nat
  unit : Nat
  core : Nat
  place : Nat
  line : Nat
  bytes : List Place
  store : Bool
  acq : Nat
  rel : Option Nat
  deriving DecidableEq, Repr, Inhabited

/-- The race detector: a counter of what it has watched, the last acquire of each task, the accesses, and the pairs reported. -/
structure Detector where
  no : Nat
  acqs : Table Nat
  log : List Seen
  told : List (Nat × Nat)
  deriving DecidableEq, Repr, Inhabited

/-- Why the machine stops. -/
inductive Fault where
  /-- Raised by `Machine.step` for a turn that names a party, core, cluster, die, launch slot or link which the module does not
  have (R3): no schedule of the device names one. Safe. -/
  | noSuchParty
  deriving DecidableEq, Repr

/-- Why a step is refused. -/
inductive Refusal where
  /-- Raised only by an arm of `exec` whose instruction has no meaning yet. Safe. -/
  | notModelled (mnemonic : String)
  /-- Raised by `Machine.step` when a turn's event is not one of the event rows of the opcode table
  (a task word or a record comes about only by a visit). Safe. -/
  | notAnEvent
  deriving DecidableEq, Repr

/-- The module. `turnAt` holds for each core (and Porter: 512 + die) the clock after its last turn (R158); `slices` holds for each cluster the lines
of its cache slice by position (16 ways a set), `sliceFixed` its count of corrected errors (R255); `wire` lists the flits sent, by link; `early` the
collective messages that wait for this member's own `coll`; `hostReads` the answers to host reads of the near tier, each with its poison mark;
`hostPoison` the 64-byte lines of host memory that the host marks poisoned (R402); `hostRate` and `hostLanes` the host link as it trained (R416), and
`mgmtReads` the answers to reads of the management firmware (R420). `leaveQ` holds the cluster, party, charge and clock of each request for leave. -/
structure State where
  powered : Bool
  bringup : BitVec 8
  fuses : Table Nat
  clock : Nat
  turnAt : Table Nat
  sched : List Turn
  turnNo : Nat
  freeNo : Nat
  moved : Bool
  runNo : Nat
  cur : Party
  near : Memory
  far : Memory
  host : Memory
  nearTags : Table Bool
  farTags : Table Bool
  nearPoison : Table Bool
  farPoison : Table Bool
  hostPoison : Table Bool
  nearErr : Table (List Nat)
  farErr : Table (List Nat)
  pcStat : Table Word
  erasure : Table (BitVec 32)
  gang : Table Bool
  lostFrames : List (Bool × Nat)
  slots : Table PinSlot
  words : Table PinWord
  sweepSet : List Nat
  revokeQ : List Nat
  sealRuns : List (Space × Nat × Nat)
  owners : Table Nat
  pinCold : List (Nat × Nat)
  slices : Table (Table SLine)
  sliceFixed : Table Nat
  detector : Detector
  images : List Image
  cap : Nat
  reserve : Nat
  budgets : Table Nat
  hot : Table Nat
  hotStacks : List Nat
  leaveQ : List (Nat × Party × Nat × Nat)
  leaveHeld : List Leave
  ctxs : Table Ctx
  groups : Table Group
  cores : Table Core
  tasks : Table Task
  saved : Table Task
  shelf : List (Nat × Nat × Task)
  coreShelf : List (Nat × Nat × Core)
  dies : Table Die
  identity : Nat
  routes : Table (BitVec 16)
  exports : Table (BitVec 128)
  links : Table Link
  eseqOut : Table Nat
  eseqIn : Table Nat
  inbox : List Msg
  outbox : List Msg
  wire : List (Nat × BitVec 2048)
  early : List Msg
  hostReads : List (List Byte × Bool)
  discarded : Nat
  peers : List PeerReq
  reqNo : Nat
  rings : Table Ring
  colls : List Coll
  hellos : List Hello
  trust : Trust
  msix : List (Nat × Nat)
  mgmtLog : List Nat
  mgmtReads : List (List Byte)
  hostRate : Nat
  hostLanes : Nat
  deriving DecidableEq, Repr

/-- The module right after a completed bring-up (spec 20, R426): every store zeroed (step 6), pin
stores free with GEN 0, BRINGUP 0xFF, power words at the resets of R423. What R426 leaves to
management (fuse defects, identity, routes, spare pools) is empty: DESIGN CHOICE, log 5. -/
def State.reset : State where
  powered := true
  bringup := 0xFF
  fuses := []
  clock := 0
  turnAt := []
  sched := []
  turnNo := 0
  freeNo := 0
  moved := false
  runNo := 0
  cur := .slot 0 0
  near := []
  far := []
  host := []
  nearTags := []
  farTags := []
  nearPoison := []
  farPoison := []
  hostPoison := []
  nearErr := []
  farErr := []
  pcStat := []
  erasure := []
  gang := []
  lostFrames := []
  slots := []
  words := []
  sweepSet := []
  revokeQ := []
  sealRuns := []
  owners := []
  pinCold := []
  slices := []
  sliceFixed := []
  detector := ⟨0, [], [], []⟩
  images := []
  cap := 26000
  reserve := 9000
  budgets := []
  hot := []
  hotStacks := []
  leaveQ := []
  leaveHeld := []
  ctxs := []
  groups := []
  cores := []
  tasks := []
  saved := []
  shelf := []
  coreShelf := []
  dies := []
  identity := 0
  routes := []
  exports := []
  links := []
  eseqOut := []
  eseqIn := []
  inbox := []
  outbox := []
  wire := []
  early := []
  hostReads := []
  discarded := 0
  peers := []
  reqNo := 0
  rings := []
  colls := []
  hellos := []
  trust := ⟨[], [], 0, [], false, [], []⟩
  msix := []
  mgmtLog := []
  mgmtReads := []
  hostRate := 64
  hostLanes := 16

end Sys2Proof.Machine
end

