-- ==== Sys2Proof/Machine/Store.lean ====
section
/-! DEFINITION. Sparse tables and byte memory in their canonical form, and little-endian words (spec 00, R5). -/

namespace Sys2Proof.Machine

/-- The value of index `k`; an unlisted index holds `d`. -/
def tget {α : Type} (d : α) : Table α → Nat → α
  | [], _ => d
  | (i, a) :: r, k => if i = k then a else tget d r k

/-- Index `k` removed. -/
def tdel {α : Type} (t : Table α) (k : Nat) : Table α := t.filter fun e => e.1 != k

/-- (k, a) put at its place in a table without `k`. -/
def tins {α : Type} (k : Nat) (a : α) : Table α → Table α
  | [] => [(k, a)]
  | (i, b) :: r => if k < i then (k, a) :: (i, b) :: r else (i, b) :: tins k a r

/-- Index `k` set to `a`, whatever `a` is. -/
def tput {α : Type} (t : Table α) (k : Nat) (a : α) : Table α := tins k a (tdel t k)

/-- Index `k` set to `a`; a default value is not listed. -/
def tset {α : Type} [DecidableEq α] (d : α) (t : Table α) (k : Nat) (a : α) : Table α :=
  if a = d then tdel t k else tput t k a

/-- Strictly rising indices. -/
def Rising {α : Type} : Table α → Bool
  | [] => true
  | [_] => true
  | a :: b :: r => decide (a.1 < b.1) && Rising (b :: r)

/-- The canonical form of a memory: rising addresses, no entry equal to an unlisted byte, which is 0
(spec 20, R426; host memory: log 3). -/
def Memory.wf (m : Memory) : Bool := Rising m && m.all fun e => e.2 != 0#8

/-- The byte at an address. -/
def mget (m : Memory) (a : Nat) : Byte := tget 0 m a

/-- One byte written. -/
def mset (m : Memory) (a : Nat) (b : Byte) : Memory := tset 0 m a b

/-- Consecutive bytes written from `a`. -/
def msetBytes (m : Memory) (a : Nat) : List Byte → Memory
  | [] => m
  | b :: r => msetBytes (mset m a b) (a + 1) r

/-- `n` consecutive bytes from `a`. -/
def mgetBytes (m : Memory) (a n : Nat) : List Byte := (List.range n).map fun i => mget m (a + i)

/-- Little-endian value of bytes. -/
def leNat : List Byte → Nat
  | [] => 0
  | b :: r => b.toNat + 256 * leNat r

/-- The `n` little-endian bytes of a value. -/
def leBytes : Nat → Nat → List Byte
  | 0, _ => []
  | n + 1, v => BitVec.ofNat 8 v :: leBytes n (v / 256)

/-- Bits [lo + w - 1 : lo] of a number. -/
def bits (v lo w : Nat) : Nat := (v >>> lo) % 2 ^ w

/-- Bit `i` of a number. -/
def bitAt (v i : Nat) : Bool := Nat.testBit v i

/-- The value of `w` bits read as two's complement. -/
def signed (w v : Nat) : Int := if 2 * (v % 2 ^ w) < 2 ^ w then (v % 2 ^ w : Nat) else (v % 2 ^ w : Nat) - (2 ^ w : Nat)

/-- An integer modulo 2^w. -/
def wrap (w : Nat) (i : Int) : Nat := (i % (2 ^ w : Nat)).toNat

/-- The `n` fields of width `w` of a register, field 0 first. -/
def splitW (w : Nat) : Nat → Nat → List Nat
  | 0, _ => []
  | n + 1, v => v % 2 ^ w :: splitW w n (v >>> w)

/-- Fields of width `w` joined, the first lowest. -/
def joinW (w : Nat) : List Nat → Nat
  | [] => 0
  | x :: r => x % 2 ^ w + (joinW w r <<< w)

/-- One bits among the lowest `n`. -/
def popNat : Nat → Nat → Nat
  | 0, _ => 0
  | n + 1, v => v % 2 + popNat n (v / 2)

/-- A list with the element at `i` replaced by `f` of it. -/
def updAt {α : Type} (f : α → α) : List α → Nat → List α
  | [], _ => []
  | a :: r, 0 => f a :: r
  | a :: r, i + 1 => a :: updAt f r i

/-- A list without its element `i`. -/
def dropAt {α : Type} : List α → Nat → List α
  | [], _ => []
  | _ :: r, 0 => r
  | a :: r, i + 1 => a :: dropAt r i

/-- The number of leading elements before the first that satisfies `p`. -/
def indexWhere {α : Type} (p : α → Bool) : List α → Option Nat
  | [] => none
  | a :: r => if p a then some 0 else (indexWhere p r).map (· + 1)

end Sys2Proof.Machine
end

