-- ==== Sys2Proof/Decode.lean ====
section
/-! DEFINITION. From words to instructions and back: the opcode map (spec 01, R33, R34), the five
task-word formats (R19-R24), the record layout (R36-R39), and an encoder from the same tables. -/

namespace Sys2Proof

/-- Why bits are no instruction (R35 cases 1 and 2, R40). -/
inductive DecodeError where
  /-- OP unassigned, or FN unassigned for the OP: ILL detail 1. -/
  | unassigned
  /-- A reserved bit of format B or L is nonzero: ILL detail 2. -/
  | reserved
  /-- The ROP is not in the map of R39: ENGILL. -/
  | noRecord
  /-- Neither one task word nor one record of eight words. -/
  | wrongLength
  deriving DecidableEq, Repr

/-- What decoding answers. -/
inductive Decoded where
  | ok (i : Instr)
  | bad (e : DecodeError)
  deriving DecidableEq, Repr

/-! ## Fields of a task word -/

def wOp (w : Word) : Nat := (w.extractLsb' 58 6).toNat
def wFn (w : Word) : Nat := (w.extractLsb' 49 5).toNat
def bitB (w : Word) (i : Nat) : Bool := w.getLsbD i

def tkOf (w : Word) : Tk := ⟨bitB w 57, bitB w 56, bitB w 55, bitB w 54⟩

def fmtA (w : Word) : FmtA where
  tk := tkOf w
  ty := w.extractLsb' 44 5
  s := bitB w 43
  p := w.extractLsb' 40 3
  z := bitB w 39
  d := w.extractLsb' 32 7
  a := w.extractLsb' 25 7
  b := w.extractLsb' 18 7
  c := w.extractLsb' 11 7
  ma := w.extractLsb' 9 2
  mb := w.extractLsb' 7 2
  mc := w.extractLsb' 5 2
  cl := w.extractLsb' 3 2
  sc := w.extractLsb' 0 3

def fmtI (w : Word) : FmtI where
  tk := tkOf w
  s := bitB w 48
  d := w.extractLsb' 41 7
  a := w.extractLsb' 34 7
  imm := w.extractLsb' 0 34

def fmtB (w : Word) : FmtB where
  tk := tkOf w
  a := w.extractLsb' 42 7
  b := w.extractLsb' 35 7
  disp := w.extractLsb' 0 32

def fmtM (w : Word) : FmtM where
  tk := tkOf w
  ty := w.extractLsb' 44 5
  s := bitB w 43
  p := w.extractLsb' 40 3
  z := bitB w 39
  d := w.extractLsb' 32 7
  k := w.extractLsb' 28 4
  x := w.extractLsb' 21 7
  imm := w.extractLsb' 0 21

def fmtL (w : Word) : FmtL where
  tk := tkOf w
  cnt := w.extractLsb' 42 7
  len := w.extractLsb' 34 8
  stg := w.extractLsb' 30 4
  id := w.extractLsb' 22 8

/-- Integer conditions by FN (R34). -/
def icondOf : Nat → Option ICond
  | 0 => some .eq | 1 => some .ne | 2 => some .lt | 3 => some .ge | 4 => some .ltn | 5 => some .gen
  | _ => none

/-- Floating conditions by FN (R34). -/
def fcondOf : Nat → Option FCond
  | 0 => some .eq | 1 => some .ne | 2 => some .lt | 3 => some .le | 4 => some .un
  | _ => none

/-- Vector conditions by FN (R34). -/
def vcondOf : Nat → Option VCond
  | 0 => some .eq | 1 => some .ne | 2 => some .lt | 3 => some .le | 4 => some .gt | 5 => some .ge | 6 => some .un
  | _ => none

/-- Scopes by FN (R33). -/
def scopeOf : Nat → Option Scope
  | 0 => some .task | 1 => some .core | 2 => some .cluster | 3 => some .die | 4 => some .package
  | 5 => some .fabric | 6 => some .system
  | _ => none

/-- Hardware-loop levels by FN (R24). -/
def levelOf : Nat → Option Level
  | 0 => some .l0 | 1 => some .l1 | 2 => some .l2
  | _ => none

/-- The meaning of an FN that is a code, or unassigned. -/
def coded {α : Type} (o : Option α) (f : α → Instr) : Decoded :=
  match o with
  | some a => .ok (f a)
  | none => .bad .unassigned

/-- Reserved bits must be zero (R35 case 2), after the FN is known to be assigned (case 1). -/
def unlessReserved (bad : Bool) : Decoded → Decoded
  | .ok i => if bad then .bad .reserved else .ok i
  | .bad e => .bad e

/-- OPs whose FN is a condition, a scope or a level. -/
def decodeCoded (w : Word) : Nat → Decoded
  | 0x07 => coded (icondOf (wFn w)) fun c => .cmp c (fmtA w)
  | 0x0C => unlessReserved (w.extractLsb' 32 3 != 0) (coded (icondOf (wFn w)) fun c => .br c (fmtB w))
  | 0x0E => unlessReserved (w.extractLsb' 0 22 != 0) (coded (levelOf (wFn w)) fun l => .loop l (fmtL w))
  | 0x11 => coded (fcondOf (wFn w)) fun c => .fcmp c (fmtA w)
  | 0x1E => coded (vcondOf (wFn w)) fun c => .vcmp c (fmtA w)
  | 0x34 => coded (scopeOf (wFn w)) fun c => .fence c (fmtA w)
  | _ => .bad .unassigned

/-- OPs whose FN names the instruction (R33). -/
def decodeNamed (w : Word) (op fn : Nat) : Decoded :=
  match op, fn with
  | 0x01, 0 => .ok (.add (fmtA w))
  | 0x01, 1 => .ok (.sub (fmtA w))
  | 0x01, 2 => .ok (.min (fmtA w))
  | 0x01, 3 => .ok (.max (fmtA w))
  | 0x01, 4 => .ok (.minn (fmtA w))
  | 0x01, 5 => .ok (.maxn (fmtA w))
  | 0x02, 0 => .ok (.addi (fmtI w))
  | 0x03, 0 => .ok (.mul (fmtA w))
  | 0x03, 1 => .ok (.mulh (fmtA w))
  | 0x03, 2 => .ok (.mulhn (fmtA w))
  | 0x04, 0 => .ok (.div (fmtA w))
  | 0x04, 1 => .ok (.divn (fmtA w))
  | 0x04, 2 => .ok (.rem (fmtA w))
  | 0x04, 3 => .ok (.remn (fmtA w))
  | 0x05, 0 => .ok (.and (fmtA w))
  | 0x05, 1 => .ok (.or (fmtA w))
  | 0x05, 2 => .ok (.xor (fmtA w))
  | 0x05, 3 => .ok (.andn (fmtA w))
  | 0x06, 0 => .ok (.shl (fmtA w))
  | 0x06, 1 => .ok (.shr (fmtA w))
  | 0x06, 2 => .ok (.sra (fmtA w))
  | 0x06, 3 => .ok (.rot (fmtA w))
  | 0x08, 0 => .ok (.sel (fmtA w))
  | 0x08, 1 => .ok (.clz (fmtA w))
  | 0x08, 2 => .ok (.ctz (fmtA w))
  | 0x08, 3 => .ok (.popc (fmtA w))
  | 0x09, 0 => .ok (.bfx (fmtI w))
  | 0x09, 1 => .ok (.bfi (fmtI w))
  | 0x0A, 0 => .ok (.li (fmtI w))
  | 0x0A, 1 => .ok (.lih (fmtI w))
  | 0x0B, 0 => .ok (.name (fmtA w))
  | 0x0D, 0 => unlessReserved (w.extractLsb' 32 3 != 0) (.ok (.jmp (fmtB w)))
  | 0x0D, 1 => unlessReserved (w.extractLsb' 32 3 != 0) (.ok (.call (fmtB w)))
  | 0x0F, 0 => .ok (.jmpr (fmtA w))
  | 0x0F, 1 => .ok (.ret (fmtA w))
  | 0x0F, 2 => .ok (.loopx (fmtA w))
  | 0x0F, 3 => .ok (.halt (fmtA w))
  | 0x0F, 4 => .ok (.nop (fmtA w))
  | 0x0F, 5 => .ok (.suspend (fmtA w))
  | 0x0F, 6 => .ok (.waita (fmtA w))
  | 0x10, 0 => .ok (.fadd (fmtA w))
  | 0x10, 1 => .ok (.fmul (fmtA w))
  | 0x10, 2 => .ok (.ffma (fmtA w))
  | 0x12, 0 => .ok (.fcvt (fmtA w))
  | 0x14, 0 => .ok (.csrr (fmtI w))
  | 0x14, 1 => .ok (.csrw (fmtI w))
  | 0x15, 0 => .ok (.trap (fmtI w))
  | 0x16, 0 => .ok (.ld (fmtM w))
  | 0x16, 1 => .ok (.st (fmtM w))
  | 0x17, 0 => .ok (.lda (fmtM w))
  | 0x18, 0 => .ok (.kld (fmtM w))
  | 0x18, 1 => .ok (.kst (fmtM w))
  | 0x19, 0 => .ok (.ksub (fmtA w))
  | 0x19, 1 => .ok (.kinfo (fmtA w))
  | 0x1A, 0 => .ok (.xlatTrap (fmtA w))
  | 0x1A, 1 => .ok (.xlatWait (fmtA w))
  | 0x1A, 2 => .ok (.xlatlTrap (fmtA w))
  | 0x1A, 3 => .ok (.xlatlWait (fmtA w))
  | 0x1A, 4 => .ok (.trel (fmtA w))
  | 0x1B, 0 => .ok (.seal (fmtA w))
  | 0x1B, 1 => .ok (.unseal (fmtA w))
  | 0x1B, 2 => .ok (.krevoke (fmtA w))
  | 0x1C, 0 => .ok (.vadd (fmtA w))
  | 0x1C, 1 => .ok (.vsub (fmtA w))
  | 0x1C, 2 => .ok (.vmul (fmtA w))
  | 0x1C, 3 => .ok (.vfma (fmtA w))
  | 0x1C, 4 => .ok (.vfms (fmtA w))
  | 0x1C, 5 => .ok (.vmin (fmtA w))
  | 0x1C, 6 => .ok (.vmax (fmtA w))
  | 0x1D, 0 => .ok (.vdiv (fmtA w))
  | 0x1D, 1 => .ok (.vsqrt (fmtA w))
  | 0x1F, 0 => .ok (.vsel (fmtA w))
  | 0x1F, 1 => .ok (.vand (fmtA w))
  | 0x1F, 2 => .ok (.vor (fmtA w))
  | 0x1F, 3 => .ok (.vxor (fmtA w))
  | 0x20, 0 => .ok (.vshl (fmtA w))
  | 0x20, 1 => .ok (.vshr (fmtA w))
  | 0x20, 2 => .ok (.vsra (fmtA w))
  | 0x21, 0 => .ok (.vcvt (fmtA w))
  | 0x21, 1 => .ok (.vnarrow (fmtA w))
  | 0x22, 0 => .ok (.vwmul (fmtA w))
  | 0x22, 1 => .ok (.vwadd (fmtA w))
  | 0x23, 0 => .ok (.vredAdd (fmtA w))
  | 0x23, 1 => .ok (.vredMin (fmtA w))
  | 0x23, 2 => .ok (.vredMax (fmtA w))
  | 0x24, 0 => .ok (.vbcast (fmtA w))
  | 0x24, 1 => .ok (.vperm (fmtA w))
  | 0x25, 0 => .ok (.vzip (fmtA w))
  | 0x25, 1 => .ok (.vuzp (fmtA w))
  | 0x25, 2 => .ok (.vpack (fmtA w))
  | 0x26, 0 => .ok (.vexp2 (fmtA w))
  | 0x26, 1 => .ok (.vlog2 (fmtA w))
  | 0x26, 2 => .ok (.vrcp (fmtA w))
  | 0x26, 3 => .ok (.vrsq (fmtA w))
  | 0x26, 4 => .ok (.vsin (fmtA w))
  | 0x26, 5 => .ok (.vcos (fmtA w))
  | 0x26, 6 => .ok (.vtanh (fmtA w))
  | 0x27, 0 => .ok (.vplane (fmtA w))
  | 0x27, 1 => .ok (.vunpl (fmtA w))
  | 0x28, 0 => .ok (.vld (fmtM w))
  | 0x28, 1 => .ok (.vst (fmtM w))
  | 0x29, 0 => .ok (.vlda (fmtM w))
  | 0x2A, 0 => .ok (.vgath (fmtM w))
  | 0x2A, 1 => .ok (.vscat (fmtM w))
  | 0x2C, 0 => .ok (.mand (fmtA w))
  | 0x2C, 1 => .ok (.mor (fmtA w))
  | 0x2C, 2 => .ok (.mnot (fmtA w))
  | 0x2D, 0 => .ok (.mcnt (fmtA w))
  | 0x2D, 1 => .ok (.mfrom (fmtA w))
  | 0x2E, 0 => .ok (.accld (fmtA w))
  | 0x2E, 1 => .ok (.accst (fmtA w))
  | 0x2F, 0 => .ok (.waitacc (fmtA w))
  | 0x30, 0 => .ok (.xclr (fmtA w))
  | 0x30, 1 => .ok (.xform (fmtA w))
  | 0x30, 2 => .ok (.xord (fmtA w))
  | 0x31, 0 => .ok (.xm2m (fmtA w))
  | 0x31, 1 => .ok (.xm2l (fmtA w))
  | 0x31, 2 => .ok (.xl2l (fmtA w))
  | 0x31, 3 => .ok (.xadd (fmtA w))
  | 0x32, 0 => .ok (.xeval (fmtA w))
  | 0x32, 1 => .ok (.xmeval (fmtA w))
  | 0x32, 2 => .ok (.xadm (fmtA w))
  | 0x33, 0 => .ok (.xld (fmtM w))
  | 0x33, 1 => .ok (.xst (fmtM w))
  | 0x35, 0 => .ok (.atomAdd (fmtM w))
  | 0x35, 1 => .ok (.atomAnd (fmtM w))
  | 0x35, 2 => .ok (.atomOr (fmtM w))
  | 0x35, 3 => .ok (.atomXor (fmtM w))
  | 0x35, 4 => .ok (.atomMin (fmtM w))
  | 0x35, 5 => .ok (.atomMax (fmtM w))
  | 0x35, 6 => .ok (.atomSwap (fmtM w))
  | 0x35, 7 => .ok (.cas (fmtM w))
  | 0x36, 0 => .ok (.barinit (fmtA w))
  | 0x36, 1 => .ok (.bararr (fmtA w))
  | 0x36, 2 => .ok (.barwait (fmtA w))
  | 0x37, 0 => .ok (.seminit (fmtA w))
  | 0x37, 1 => .ok (.semp (fmtA w))
  | 0x37, 2 => .ok (.semv (fmtA w))
  | 0x37, 3 => .ok (.tlsig (fmtA w))
  | 0x37, 4 => .ok (.tlwait (fmtA w))
  | 0x37, 5 => .ok (.tlset (fmtA w))
  | 0x38, 0 => .ok (.estart (fmtA w))
  | 0x39, 0 => .ok (.ewait (fmtA w))
  | 0x3A, 0 => .ok (.mcast (fmtA w))
  | 0x3A, 1 => .ok (.qsend (fmtA w))
  | 0x3A, 2 => .ok (.qtake (fmtA w))
  | 0x3A, 3 => .ok (.stage (fmtA w))
  | 0x3B, 0 => .ok (.launch (fmtA w))
  | 0x3B, 1 => .ok (.ptc (fmtA w))
  | 0x3B, 2 => .ok (.frsave (fmtA w))
  | 0x3B, 3 => .ok (.frload (fmtA w))
  | 0x3B, 4 => .ok (.frstat (fmtA w))
  | 0x3C, 0 => .ok (.callb (fmtA w))
  | 0x3C, 1 => .ok (.retb (fmtA w))
  | 0x3C, 2 => .ok (.predm (fmtA w))
  | 0x3C, 3 => .ok (.loopc (fmtA w))
  | 0x3C, 4 => .ok (.ffence (fmtA w))
  | 0x3C, 5 => .ok (.waitline (fmtA w))
  | 0x3D, 0 => .ok (.coll (fmtA w))
  | 0x3D, 1 => .ok (.cwait (fmtA w))
  | 0x3D, 2 => .ok (.cabort (fmtA w))
  | 0x3D, 3 => .ok (.ringf (fmtA w))
  | 0x3D, 4 => .ok (.tierpf (fmtA w))
  | 0x3E, 0 => .ok (.eret (fmtA w))
  | 0x3E, 1 => .ok (.bkpt (fmtA w))
  | 0x3E, 2 => .ok (.trmark (fmtA w))
  | 0x3E, 3 => .ok (.perfsnap (fmtA w))
  | op, _ => decodeCoded w op

/-- A task word decoded. -/
def decodeWord (w : Word) : Decoded := decodeNamed w (wOp w) (wFn w)

/-! ## Records (R36-R39) -/

def opdOf (r : BitVec 512) (lo : Nat) : Opd where
  kreg := r.extractLsb' (lo + 116) 4
  base := r.extractLsb' (lo + 80) 36
  s3 := r.extractLsb' (lo + 60) 20
  s2 := r.extractLsb' (lo + 40) 20
  s1 := r.extractLsb' (lo + 20) 20
  s0 := r.extractLsb' lo 20

def recOf (r : BitVec 512) : Rec where
  eng := r.extractLsb' 500 4
  res := r.extractLsb' 496 4
  pop0 := r.extractLsb' 488 8
  pop1 := r.extractLsb' 480 8
  push0 := r.extractLsb' 472 8
  push1 := r.extractLsb' 464 8
  semp := r.extractLsb' 456 8
  semv := r.extractLsb' 448 8
  chain := r.getLsbD 447
  tsm := r.getLsbD 446
  acc := r.getLsbD 445
  cks := r.getLsbD 444
  sat := r.getLsbD 443
  wrap := r.getLsbD 442
  xf := r.extractLsb' 432 10
  ty := r.extractLsb' 427 5
  mode := r.extractLsb' 424 3
  n3 := r.extractLsb' 408 16
  n2 := r.extractLsb' 392 16
  n1 := r.extractLsb' 376 16
  n0 := r.extractLsb' 360 16
  opd0 := opdOf r 240
  opd1 := opdOf r 120
  opd2 := opdOf r 0

/-- A record decoded by its ROP (R39). -/
def decodeRecord (r : BitVec 512) : Decoded :=
  match (r.extractLsb' 504 8).toNat with
  | 0x01 => .ok (.copy (recOf r))
  | 0x02 => .ok (.copypl (recOf r))
  | 0x03 => .ok (.copyrm (recOf r))
  | 0x04 => .ok (.fill (recOf r))
  | 0x05 => .ok (.decomp (recOf r))
  | 0x10 => .ok (.mma (recOf r))
  | 0x11 => .ok (.tcfg (recOf r))
  | 0x20 => .ok (.epi (recOf r))
  | 0x21 => .ok (.epiv (recOf r))
  | 0xF0 => .ok (.jrec (recOf r))
  | 0xFF => .ok (.endstr (recOf r))
  | _ => .bad .noRecord

/-! ## Bytes -/

/-- Bytes joined little-endian (R5). -/
def wordOfBytes (bs : List Byte) : Word := BitVec.ofNat 64 (Machine.leNat bs)

/-- The bytes of one task word or of one record, decoded. -/
def decodeBytes (bs : List Byte) : Decoded :=
  if bs.length = 8 then decodeWord (wordOfBytes bs)
  else if bs.length = 64 then decodeRecord (BitVec.ofNat 512 (Machine.leNat bs))
  else .bad .wrongLength

/-- The words of an instruction: one task word, or a record's eight, lowest first. -/
def decode : List Word → Decoded
  | [w] => decodeWord w
  | [w0, w1, w2, w3, w4, w5, w6, w7] => decodeRecord (w7 ++ w6 ++ w5 ++ w4 ++ w3 ++ w2 ++ w1 ++ w0)
  | _ => .bad .wrongLength

/-- The interface the host asks for: `nbits` at most 64 are a task word, more are a record; the
words lie little-endian with the first lowest. -/
def decodeTableWord (nbits w : Nat) : Option Instr :=
  match if nbits ≤ 64 then decodeBytes (Machine.leBytes 8 w) else decodeBytes (Machine.leBytes 64 w) with
  | .ok i => some i
  | .bad _ => none

/-! ## The encoder -/

def b1 (b : Bool) : BitVec 1 := BitVec.ofBool b

def packHead (op : BitVec 6) (tk : Tk) (fn : BitVec 5) : BitVec 15 :=
  op ++ b1 tk.wc ++ b1 tk.sc ++ b1 tk.we ++ b1 tk.se ++ fn

def packA (op : BitVec 6) (fn : BitVec 5) (f : FmtA) : Word :=
  packHead op f.tk fn ++ f.ty ++ b1 f.s ++ f.p ++ b1 f.z ++ f.d ++ f.a ++ f.b ++ f.c ++ f.ma ++ f.mb ++ f.mc
    ++ f.cl ++ f.sc

def packI (op : BitVec 6) (fn : BitVec 5) (f : FmtI) : Word :=
  packHead op f.tk fn ++ b1 f.s ++ f.d ++ f.a ++ f.imm

def packB (op : BitVec 6) (fn : BitVec 5) (f : FmtB) : Word :=
  packHead op f.tk fn ++ f.a ++ f.b ++ 0#3 ++ f.disp

def packM (op : BitVec 6) (fn : BitVec 5) (f : FmtM) : Word :=
  packHead op f.tk fn ++ f.ty ++ b1 f.s ++ f.p ++ b1 f.z ++ f.d ++ f.k ++ f.x ++ f.imm

def packL (op : BitVec 6) (fn : BitVec 5) (f : FmtL) : Word :=
  packHead op f.tk fn ++ f.cnt ++ f.len ++ f.stg ++ f.id ++ 0#22

def icondFn : ICond → BitVec 5
  | .eq => 0 | .ne => 1 | .lt => 2 | .ge => 3 | .ltn => 4 | .gen => 5
def fcondFn : FCond → BitVec 5
  | .eq => 0 | .ne => 1 | .lt => 2 | .le => 3 | .un => 4
def vcondFn : VCond → BitVec 5
  | .eq => 0 | .ne => 1 | .lt => 2 | .le => 3 | .gt => 4 | .ge => 5 | .un => 6
def scopeFn : Scope → BitVec 5
  | .task => 0 | .core => 1 | .cluster => 2 | .die => 3 | .package => 4 | .fabric => 5 | .system => 6
def levelFn : Level → BitVec 5
  | .l0 => 0 | .l1 => 1 | .l2 => 2

def packOpd (o : Opd) : BitVec 120 := o.kreg ++ o.base ++ o.s3 ++ o.s2 ++ o.s1 ++ o.s0

def packRec (rop : BitVec 8) (r : Rec) : BitVec 512 :=
  rop ++ r.eng ++ r.res ++ r.pop0 ++ r.pop1 ++ r.push0 ++ r.push1 ++ r.semp ++ r.semv
    ++ b1 r.chain ++ b1 r.tsm ++ b1 r.acc ++ b1 r.cks ++ b1 r.sat ++ b1 r.wrap ++ r.xf ++ r.ty ++ r.mode
    ++ r.n3 ++ r.n2 ++ r.n1 ++ r.n0 ++ packOpd r.opd0 ++ packOpd r.opd1 ++ packOpd r.opd2

/-- The task word of an instruction that has one. -/
def encodeWord : Instr → Option Word
  | .add f => some (packA 0x01 0 f)
  | .sub f => some (packA 0x01 1 f)
  | .min f => some (packA 0x01 2 f)
  | .max f => some (packA 0x01 3 f)
  | .minn f => some (packA 0x01 4 f)
  | .maxn f => some (packA 0x01 5 f)
  | .addi f => some (packI 0x02 0 f)
  | .mul f => some (packA 0x03 0 f)
  | .mulh f => some (packA 0x03 1 f)
  | .mulhn f => some (packA 0x03 2 f)
  | .div f => some (packA 0x04 0 f)
  | .divn f => some (packA 0x04 1 f)
  | .rem f => some (packA 0x04 2 f)
  | .remn f => some (packA 0x04 3 f)
  | .and f => some (packA 0x05 0 f)
  | .or f => some (packA 0x05 1 f)
  | .xor f => some (packA 0x05 2 f)
  | .andn f => some (packA 0x05 3 f)
  | .shl f => some (packA 0x06 0 f)
  | .shr f => some (packA 0x06 1 f)
  | .sra f => some (packA 0x06 2 f)
  | .rot f => some (packA 0x06 3 f)
  | .sel f => some (packA 0x08 0 f)
  | .clz f => some (packA 0x08 1 f)
  | .ctz f => some (packA 0x08 2 f)
  | .popc f => some (packA 0x08 3 f)
  | .bfx f => some (packI 0x09 0 f)
  | .bfi f => some (packI 0x09 1 f)
  | .li f => some (packI 0x0A 0 f)
  | .lih f => some (packI 0x0A 1 f)
  | .name f => some (packA 0x0B 0 f)
  | .jmp f => some (packB 0x0D 0 f)
  | .call f => some (packB 0x0D 1 f)
  | .jmpr f => some (packA 0x0F 0 f)
  | .ret f => some (packA 0x0F 1 f)
  | .loopx f => some (packA 0x0F 2 f)
  | .halt f => some (packA 0x0F 3 f)
  | .nop f => some (packA 0x0F 4 f)
  | .suspend f => some (packA 0x0F 5 f)
  | .waita f => some (packA 0x0F 6 f)
  | .fadd f => some (packA 0x10 0 f)
  | .fmul f => some (packA 0x10 1 f)
  | .ffma f => some (packA 0x10 2 f)
  | .fcvt f => some (packA 0x12 0 f)
  | .csrr f => some (packI 0x14 0 f)
  | .csrw f => some (packI 0x14 1 f)
  | .trap f => some (packI 0x15 0 f)
  | .ld f => some (packM 0x16 0 f)
  | .st f => some (packM 0x16 1 f)
  | .lda f => some (packM 0x17 0 f)
  | .kld f => some (packM 0x18 0 f)
  | .kst f => some (packM 0x18 1 f)
  | .ksub f => some (packA 0x19 0 f)
  | .kinfo f => some (packA 0x19 1 f)
  | .xlatTrap f => some (packA 0x1A 0 f)
  | .xlatWait f => some (packA 0x1A 1 f)
  | .xlatlTrap f => some (packA 0x1A 2 f)
  | .xlatlWait f => some (packA 0x1A 3 f)
  | .trel f => some (packA 0x1A 4 f)
  | .seal f => some (packA 0x1B 0 f)
  | .unseal f => some (packA 0x1B 1 f)
  | .krevoke f => some (packA 0x1B 2 f)
  | .vadd f => some (packA 0x1C 0 f)
  | .vsub f => some (packA 0x1C 1 f)
  | .vmul f => some (packA 0x1C 2 f)
  | .vfma f => some (packA 0x1C 3 f)
  | .vfms f => some (packA 0x1C 4 f)
  | .vmin f => some (packA 0x1C 5 f)
  | .vmax f => some (packA 0x1C 6 f)
  | .vdiv f => some (packA 0x1D 0 f)
  | .vsqrt f => some (packA 0x1D 1 f)
  | .vsel f => some (packA 0x1F 0 f)
  | .vand f => some (packA 0x1F 1 f)
  | .vor f => some (packA 0x1F 2 f)
  | .vxor f => some (packA 0x1F 3 f)
  | .vshl f => some (packA 0x20 0 f)
  | .vshr f => some (packA 0x20 1 f)
  | .vsra f => some (packA 0x20 2 f)
  | .vcvt f => some (packA 0x21 0 f)
  | .vnarrow f => some (packA 0x21 1 f)
  | .vwmul f => some (packA 0x22 0 f)
  | .vwadd f => some (packA 0x22 1 f)
  | .vredAdd f => some (packA 0x23 0 f)
  | .vredMin f => some (packA 0x23 1 f)
  | .vredMax f => some (packA 0x23 2 f)
  | .vbcast f => some (packA 0x24 0 f)
  | .vperm f => some (packA 0x24 1 f)
  | .vzip f => some (packA 0x25 0 f)
  | .vuzp f => some (packA 0x25 1 f)
  | .vpack f => some (packA 0x25 2 f)
  | .vexp2 f => some (packA 0x26 0 f)
  | .vlog2 f => some (packA 0x26 1 f)
  | .vrcp f => some (packA 0x26 2 f)
  | .vrsq f => some (packA 0x26 3 f)
  | .vsin f => some (packA 0x26 4 f)
  | .vcos f => some (packA 0x26 5 f)
  | .vtanh f => some (packA 0x26 6 f)
  | .vplane f => some (packA 0x27 0 f)
  | .vunpl f => some (packA 0x27 1 f)
  | .vld f => some (packM 0x28 0 f)
  | .vst f => some (packM 0x28 1 f)
  | .vlda f => some (packM 0x29 0 f)
  | .vgath f => some (packM 0x2A 0 f)
  | .vscat f => some (packM 0x2A 1 f)
  | .mand f => some (packA 0x2C 0 f)
  | .mor f => some (packA 0x2C 1 f)
  | .mnot f => some (packA 0x2C 2 f)
  | .mcnt f => some (packA 0x2D 0 f)
  | .mfrom f => some (packA 0x2D 1 f)
  | .accld f => some (packA 0x2E 0 f)
  | .accst f => some (packA 0x2E 1 f)
  | .waitacc f => some (packA 0x2F 0 f)
  | .xclr f => some (packA 0x30 0 f)
  | .xform f => some (packA 0x30 1 f)
  | .xord f => some (packA 0x30 2 f)
  | .xm2m f => some (packA 0x31 0 f)
  | .xm2l f => some (packA 0x31 1 f)
  | .xl2l f => some (packA 0x31 2 f)
  | .xadd f => some (packA 0x31 3 f)
  | .xeval f => some (packA 0x32 0 f)
  | .xmeval f => some (packA 0x32 1 f)
  | .xadm f => some (packA 0x32 2 f)
  | .xld f => some (packM 0x33 0 f)
  | .xst f => some (packM 0x33 1 f)
  | .atomAdd f => some (packM 0x35 0 f)
  | .atomAnd f => some (packM 0x35 1 f)
  | .atomOr f => some (packM 0x35 2 f)
  | .atomXor f => some (packM 0x35 3 f)
  | .atomMin f => some (packM 0x35 4 f)
  | .atomMax f => some (packM 0x35 5 f)
  | .atomSwap f => some (packM 0x35 6 f)
  | .cas f => some (packM 0x35 7 f)
  | .barinit f => some (packA 0x36 0 f)
  | .bararr f => some (packA 0x36 1 f)
  | .barwait f => some (packA 0x36 2 f)
  | .seminit f => some (packA 0x37 0 f)
  | .semp f => some (packA 0x37 1 f)
  | .semv f => some (packA 0x37 2 f)
  | .tlsig f => some (packA 0x37 3 f)
  | .tlwait f => some (packA 0x37 4 f)
  | .tlset f => some (packA 0x37 5 f)
  | .estart f => some (packA 0x38 0 f)
  | .ewait f => some (packA 0x39 0 f)
  | .mcast f => some (packA 0x3A 0 f)
  | .qsend f => some (packA 0x3A 1 f)
  | .qtake f => some (packA 0x3A 2 f)
  | .stage f => some (packA 0x3A 3 f)
  | .launch f => some (packA 0x3B 0 f)
  | .ptc f => some (packA 0x3B 1 f)
  | .frsave f => some (packA 0x3B 2 f)
  | .frload f => some (packA 0x3B 3 f)
  | .frstat f => some (packA 0x3B 4 f)
  | .callb f => some (packA 0x3C 0 f)
  | .retb f => some (packA 0x3C 1 f)
  | .predm f => some (packA 0x3C 2 f)
  | .loopc f => some (packA 0x3C 3 f)
  | .ffence f => some (packA 0x3C 4 f)
  | .waitline f => some (packA 0x3C 5 f)
  | .coll f => some (packA 0x3D 0 f)
  | .cwait f => some (packA 0x3D 1 f)
  | .cabort f => some (packA 0x3D 2 f)
  | .ringf f => some (packA 0x3D 3 f)
  | .tierpf f => some (packA 0x3D 4 f)
  | .eret f => some (packA 0x3E 0 f)
  | .bkpt f => some (packA 0x3E 1 f)
  | .trmark f => some (packA 0x3E 2 f)
  | .perfsnap f => some (packA 0x3E 3 f)
  | .cmp c f => some (packA 0x07 (icondFn c) f)
  | .br c f => some (packB 0x0C (icondFn c) f)
  | .loop l f => some (packL 0x0E (levelFn l) f)
  | .fcmp c f => some (packA 0x11 (fcondFn c) f)
  | .vcmp c f => some (packA 0x1E (vcondFn c) f)
  | .fence c f => some (packA 0x34 (scopeFn c) f)
  | _ => none

/-- The bits of an engine record. -/
def encodeRecord : Instr → Option (BitVec 512)
  | .copy r => some (packRec 0x01 r)
  | .copypl r => some (packRec 0x02 r)
  | .copyrm r => some (packRec 0x03 r)
  | .fill r => some (packRec 0x04 r)
  | .decomp r => some (packRec 0x05 r)
  | .mma r => some (packRec 0x10 r)
  | .tcfg r => some (packRec 0x11 r)
  | .epi r => some (packRec 0x20 r)
  | .epiv r => some (packRec 0x21 r)
  | .jrec r => some (packRec 0xF0 r)
  | .endstr r => some (packRec 0xFF r)
  | _ => none

/-- The words of an instruction; an event has none. -/
def encode (i : Instr) : List Word :=
  match encodeWord i, encodeRecord i with
  | some w, _ => [w]
  | none, some r => (List.range 8).map fun j => r.extractLsb' (64 * j) 64
  | none, none => []

/-- An event row: neither a task word nor a record. -/
def Instr.isEvent (i : Instr) : Bool := (encodeWord i).isNone && (encodeRecord i).isNone

end Sys2Proof
end

