-- ==== Sys2Proof/Machine/Num.lean ====
section
/-! DEFINITION. Numbers (spec 03): types, exact values, one rounding, overflow, clamps, conversions,
and the exact special functions of spec 06 R193. -/

namespace Sys2Proof.Machine

/-! ## Types (R78) -/

def tyI4 : TyCode := 0
def tyI8 : TyCode := 1
def tyI16 : TyCode := 2
def tyI32 : TyCode := 3
def tyI64 : TyCode := 4
def tyN4 : TyCode := 5
def tyN8 : TyCode := 6
def tyN16 : TyCode := 7
def tyN32 : TyCode := 8
def tyN64 : TyCode := 9
def tyFp4 : TyCode := 10
def tyLs4 : TyCode := 11
def tyE4m3 : TyCode := 12
def tyE5m2 : TyCode := 13
def tyF16 : TyCode := 14
def tyBf16 : TyCode := 15
def tyF32 : TyCode := 16
def tyF64 : TyCode := 17
def tyPlane : TyCode := 18
def tyNone : TyCode := 31

/-- Element width in bits (R78); an element of plane and none is one byte (R8). -/
def tyWidth (t : TyCode) : Nat :=
  match t.toNat with
  | 0 | 5 | 10 | 11 => 4
  | 1 | 6 | 12 | 13 => 8
  | 2 | 7 | 14 | 15 => 16
  | 3 | 8 | 16 => 32
  | 4 | 9 | 17 => 64
  | _ => 8

/-- Elements of a 512-byte register (R78). -/
def elems (t : TyCode) : Nat := 4096 / tyWidth t

def tySigned (t : TyCode) : Bool := t.toNat < 5
def tyUnsigned (t : TyCode) : Bool := 5 ≤ t.toNat && t.toNat < 10
def tyInt (t : TyCode) : Bool := t.toNat < 10
/-- A floating type; ls4 apart. -/
def tyFloat (t : TyCode) : Bool := t = tyFp4 || (12 ≤ t.toNat && t.toNat ≤ 17)

/-! ## Flags (R69) -/

def fIV : BitVec 8 := 0x80
def fDZ : BitVec 8 := 0x40
def fOF : BitVec 8 := 0x20
def fUF : BitVec 8 := 0x10
def fNX : BitVec 8 := 0x08
def fST : BitVec 8 := 0x04
def fXB : BitVec 8 := 0x02
def fSX : BitVec 8 := 0x01

def flagIf (b : Bool) (f : BitVec 8) : BitVec 8 := if b then f else 0

/-! ## Exact values -/

/-- An exact value: NaN, an infinity, or (-1)^neg x n/d x 2^e; zeros keep their sign. -/
inductive Fl where
  | nan (signalling : Bool)
  | inf (neg : Bool)
  | fin (neg : Bool) (n d : Nat) (e : Int)
  deriving DecidableEq, Repr, Inhabited

/-- An operand's value under its declared type. -/
inductive Xv where
  | int (i : Int)
  | fl (f : Fl)
  deriving DecidableEq, Repr, Inhabited

/-- Mantissa bits m (R80). -/
def mantBits (t : TyCode) : Nat :=
  match t.toNat with
  | 10 => 1 | 12 => 3 | 13 => 2 | 14 => 10 | 15 => 7 | 16 => 23 | _ => 52

/-- Exponent bias (R80). -/
def expBias (t : TyCode) : Nat :=
  match t.toNat with
  | 10 => 1 | 12 => 7 | 13 => 15 | 14 => 15 | 15 => 127 | 16 => 127 | _ => 1023

/-- The pattern of the largest finite magnitude (R80). -/
def maxFinite (t : TyCode) : Nat :=
  match t.toNat with
  | 10 => 7 | 12 => 0x7E | 13 => 0x7B | 14 => 0x7BFF | 15 => 0x7F7F | 16 => 0x7F7FFFFF
  | _ => 0x7FEFFFFFFFFFFFFF

/-- The canonical NaN (R81); fp4 has none and holds +0 (R94). -/
def canonNan (t : TyCode) : Nat :=
  match t.toNat with
  | 12 => 0x7F | 13 => 0x7E | 14 => 0x7E00 | 15 => 0x7FC0 | 16 => 0x7FC00000
  | 17 => 0x7FF8000000000000 | _ => 0

/-- The sign bit's place value. -/
def signBit (t : TyCode) : Nat := 2 ^ (tyWidth t - 1)

/-- The value of an encoding (R80, R81). -/
def flDecode (t : TyCode) (v : Nat) : Fl :=
  let m := mantBits t
  let neg := v / signBit t % 2 = 1
  let mag := v % signBit t
  let ex := mag / 2 ^ m
  let man := mag % 2 ^ m
  if maxFinite t < mag then
    if t = tyE4m3 then .nan false
    else if man = 0 then .inf neg
    else .nan (man < 2 ^ (m - 1))
  else if ex = 0 then .fin neg man 1 (1 - (expBias t : Int) - m)
  else .fin neg (2 ^ m + man) 1 ((ex : Int) - expBias t - m)

/-- An integer type's value of its pattern. -/
def intDecode (t : TyCode) (v : Nat) : Int :=
  if tySigned t then signed (tyWidth t) v else (v % 2 ^ tyWidth t : Nat)

/-- A pattern read under its declared type (R101); none is read as signed 64 bits. -/
def xRead (t : TyCode) (v : Nat) : Xv :=
  if tyInt t then .int (intDecode t v)
  else if tyFloat t then .fl (flDecode t (v % 2 ^ tyWidth t))
  else .int (signed 64 v)

def Fl.neg : Fl → Fl
  | .nan s => .nan s
  | .inf n => .inf (!n)
  | .fin n a d e => .fin (!n) a d e

def Fl.abs : Fl → Fl
  | .nan s => .nan s
  | .inf _ => .inf false
  | .fin _ a d e => .fin false a d e

def Fl.isNan : Fl → Bool
  | .nan _ => true
  | _ => false

/-- The modifiers of R25: 0 none, 1 negate, 2 magnitude, 3 negated magnitude. -/
def xMod (m : BitVec 2) : Xv → Xv
  | .int i => .int (match m.toNat with | 0 => i | 1 => -i | 2 => i.natAbs | _ => -(i.natAbs : Int))
  | .fl f => .fl (match m.toNat with | 0 => f | 1 => f.neg | 2 => f.abs | _ => f.abs.neg)

/-- The seven constants of R31, exact. -/
def constNum (s : SpecBits) : Int × Nat :=
  match s.toNat with
  | 0x78 => (0, 1) | 0x79 => (1, 1) | 0x7A => (2, 1) | 0x7B => (-1, 1) | 0x7C => (1, 2) | 0x7D => (3, 1)
  | _ => (4, 1)

/-- An integer as an exact value. -/
def flOfInt (i : Int) : Fl := .fin (i < 0) i.natAbs 1 0

/-- A signed numerator. -/
def sgn (neg : Bool) (n : Nat) : Int := if neg then -(n : Int) else n

/-- IV of a signalling NaN operand (R81). -/
def Fl.sig : Fl → BitVec 8
  | .nan true => fIV
  | _ => 0

/-- An infinity of a given sign, and an exact zero. -/
def Fl.isInf (neg : Bool) : Fl → Bool
  | .inf s => s = neg
  | _ => false
def Fl.isZero : Fl → Bool
  | .fin _ n _ _ => n = 0
  | _ => false

/-! ## Exact operations (R82); each answers the value and the IV or DZ it raises -/

/-- Sum of two exact finite values; a zero sum has IEEE's sign (R90). -/
def finAdd (rdn : Bool) (s1 : Bool) (n1 d1 : Nat) (e1 : Int) (s2 : Bool) (n2 d2 : Nat) (e2 : Int) : Fl :=
  let e := min e1 e2
  let a := sgn s1 (n1 * d2 * 2 ^ (e1 - e).toNat)
  let b := sgn s2 (n2 * d1 * 2 ^ (e2 - e).toNat)
  let c := a + b
  if c = 0 then .fin (if s1 = s2 then s1 else rdn) 0 1 0
  else .fin (c < 0) c.natAbs (d1 * d2) e

/-- Exact sum. -/
def flAdd (rdn : Bool) : Fl → Fl → Fl × BitVec 8
  | .nan s, b => (.nan false, (Fl.nan s).sig ||| b.sig)
  | a, .nan s => (.nan false, a.sig ||| (Fl.nan s).sig)
  | .inf s, .inf t => if s = t then (.inf s, 0) else (.nan false, fIV)
  | .inf s, .fin .. => (.inf s, 0)
  | .fin .., .inf t => (.inf t, 0)
  | .fin s1 n1 d1 e1, .fin s2 n2 d2 e2 => (finAdd rdn s1 n1 d1 e1 s2 n2 d2 e2, 0)

/-- Exact product. -/
def flMul : Fl → Fl → Fl × BitVec 8
  | .nan s, b => (.nan false, (Fl.nan s).sig ||| b.sig)
  | a, .nan s => (.nan false, a.sig ||| (Fl.nan s).sig)
  | .inf s, .inf t => (.inf (s != t), 0)
  | .inf s, .fin t n _ _ => if n = 0 then (.nan false, fIV) else (.inf (s != t), 0)
  | .fin t n _ _, .inf s => if n = 0 then (.nan false, fIV) else (.inf (s != t), 0)
  | .fin s1 n1 d1 e1, .fin s2 n2 d2 e2 => (.fin (s1 != s2) (n1 * n2) (d1 * d2) (e1 + e2), 0)

/-- Exact a x b + c, one value; 0 x infinity is invalid whatever c is (R82). -/
def flFma (rdn : Bool) (a b c : Fl) : Fl × BitVec 8 :=
  let p := flMul a b
  let s := flAdd rdn p.1 c
  (s.1, p.2 ||| s.2)

/-- Exact quotient (R82). -/
def flDiv : Fl → Fl → Fl × BitVec 8
  | .nan s, b => (.nan false, (Fl.nan s).sig ||| b.sig)
  | a, .nan s => (.nan false, a.sig ||| (Fl.nan s).sig)
  | .inf _, .inf _ => (.nan false, fIV)
  | .inf s, .fin t _ _ _ => (.inf (s != t), 0)
  | .fin s _ _ _, .inf t => (.fin (s != t) 0 1 0, 0)
  | .fin s1 n1 d1 e1, .fin s2 n2 d2 e2 =>
    if n2 = 0 then
      if n1 = 0 then (.nan false, fIV) else (.inf (s1 != s2), fDZ)
    else (.fin (s1 != s2) (n1 * d2) (d1 * n2) (e1 - e2), 0)

/-- Newton's integer square root from an upper bound. -/
def isqrtGo : Nat → Nat → Nat → Nat
  | 0, _, x => x
  | f + 1, n, x =>
    let y := (x + n / x) / 2
    if x ≤ y then x else isqrtGo f n y

def isqrt (n : Nat) : Nat := if n = 0 then 0 else isqrtGo 64 n (2 ^ (n.log2 / 2 + 1))

/-- sqrt(n/d x 2^e) for n > 0, with a sticky bit far below every format's precision. -/
def finSqrt (n d : Nat) (e : Int) : Fl :=
  let odd := e % 2 = 1
  let n' := (if odd then 2 * n else n) * d * 2 ^ 400
  let e' := (if odd then e - 1 else e) / 2 - 200
  let r := isqrt n'
  if r * r = n' then .fin false r d e' else .fin false (2 * r + 1) d (e' - 1)

/-- Square root (R82). -/
def flSqrt : Fl → Fl × BitVec 8
  | .nan s => (.nan false, (Fl.nan s).sig)
  | .inf true => (.nan false, fIV)
  | .inf false => (.inf false, 0)
  | .fin s n d e =>
    if n = 0 then (.fin s 0 1 0, 0)
    else if s then (.nan false, fIV)
    else (finSqrt n d e, 0)

/-- The order of two exact values that are not NaN: less, by value. -/
def flLt : Fl → Fl → Bool
  | .inf s, .inf t => s && !t
  | .inf s, .fin .. => s
  | .fin .., .inf t => !t
  | .fin s1 n1 d1 e1, .fin s2 n2 d2 e2 =>
    let e := min e1 e2
    sgn s1 (n1 * d2 * 2 ^ (e1 - e).toNat) < sgn s2 (n2 * d1 * 2 ^ (e2 - e).toNat)
  | _, _ => false

/-- Sign of an exact value. -/
def Fl.isNeg : Fl → Bool
  | .inf s => s
  | .fin s _ _ _ => s
  | .nan _ => false

/-- `min` or `max` of floating values: -0 orders below +0, a NaN gives a NaN (R82). -/
def flMinMax (isMax : Bool) (a b : Fl) : Fl × BitVec 8 :=
  if a.isNan || b.isNan then (.nan false, a.sig ||| b.sig)
  else
    let less := flLt a b || (!flLt b a && a.isNeg && !b.isNeg)
    (if less = isMax then b else a, 0)

/-! ## Rounding -/

/-- The rounding mode and the draw of the element (R90, R91). -/
structure Rnd where
  rm : Nat
  draw : Nat
  deriving DecidableEq, Repr, Inhabited

/-- floor(log2(n/d)) for n, d > 0. -/
def log2Q (n d : Nat) : Int :=
  let l : Int := (n.log2 : Int) - d.log2
  let ok := if 0 ≤ l then d * 2 ^ l.toNat ≤ n else d ≤ n * 2 ^ (-l).toNat
  if ok then l else l - 1

/-- (-1)^neg x N/D rounded to an integer magnitude; and whether it was inexact. -/
def roundQuo (r : Rnd) (neg : Bool) (n d : Nat) : Nat × Bool :=
  let q := n / d
  let m := n % d
  let up := match r.rm with
    | 0 => d < 2 * m || (2 * m = d && q % 2 = 1)
    | 1 => false
    | 2 => !neg && m != 0
    | 3 => neg && m != 0
    | 4 => d ≤ 2 * m
    | _ => m != 0 && r.draw * d < m * 2 ^ 32
  (if up then q + 1 else q, m != 0)

/-- n/d x 2^e in units of 2^q, as a fraction. -/
def scaleQ (n d : Nat) (e q : Int) : Nat × Nat :=
  if q ≤ e then (n * 2 ^ (e - q).toNat, d) else (n, d * 2 ^ (q - e).toNat)

/-- A pattern with its sign. -/
def withSign (t : TyCode) (neg : Bool) (mag : Nat) : Nat := if neg then signBit t + mag else mag

/-- The pattern of 1 in a floating type. -/
def onePattern (t : TyCode) : Nat := expBias t * 2 ^ mantBits t

/-- An infinite result under CL (R92, R94, R96). DEDUCED (log 59): an operand infinity that `sat` bounds to the largest finite value sets no
flag in fp4 and ls4 codes either. -/
def roundInf (t : TyCode) (cl : Nat) (neg : Bool) : Nat × BitVec 8 :=
  match cl with
  | 1 => (if neg then 0 else onePattern t, 0)
  | 2 => (withSign t neg (onePattern t), 0)
  | 3 => (withSign t neg (maxFinite t), 0)
  | _ =>
    if t = tyE4m3 then (canonNan t, fIV)
    else if t = tyFp4 then (withSign t neg (maxFinite t), fOF)
    else (withSign t neg (maxFinite t + 1), 0)

/-- A NaN result (R94). -/
def roundNan (t : TyCode) : Nat × BitVec 8 := (canonNan t, flagIf (t = tyFp4) fIV)

/-- The result of an overflow (R92, R94). -/
def overflowed (t : TyCode) (rm cl : Nat) (neg : Bool) : Nat × BitVec 8 :=
  if t = tyFp4 then (withSign t neg (maxFinite t), fOF ||| fNX)
  else if cl = 3 then (withSign t neg (maxFinite t), fOF ||| fNX)
  else
    let toMax := match rm with | 1 => true | 2 => neg | 3 => !neg | _ => false
    if toMax then (withSign t neg (maxFinite t), fOF ||| fNX)
    else if t = tyE4m3 then (canonNan t, fOF ||| fNX)
    else (withSign t neg (maxFinite t + 1), fOF ||| fNX)

/-- A finite nonzero value rounded once and bounded (R90, R92-R94). -/
def roundFin (t : TyCode) (r : Rnd) (cl : Nat) (neg : Bool) (n d : Nat) (e : Int) : Nat × BitVec 8 :=
  let m := mantBits t
  let emin : Int := 1 - (expBias t : Int)
  let x := log2Q n d + e
  let q := max x emin - m
  let f := scaleQ n d e q
  let g := roundQuo r neg f.1 f.2
  let mag := (q + m - emin).toNat * 2 ^ m + g.1
  let tiny :=
    if x < emin - 1 then true
    else if x = emin - 1 then
      let f0 := scaleQ n d e (x - m)
      decide ((roundQuo r neg f0.1 f0.2).1 < 2 ^ (m + 1))
    else false
  let fl := if g.2 then (if tiny then fUF ||| fNX else fNX) else 0
  match cl with
  | 1 => (if neg then 0 else if onePattern t < mag then onePattern t else mag, fl)
  | 2 => (withSign t neg (if onePattern t < mag then onePattern t else mag), fl)
  | _ => if maxFinite t < mag then overflowed t r.rm cl neg else (withSign t neg mag, fl)

/-- An exact value rounded to a floating type (R90-R94). -/
def flRound (t : TyCode) (r : Rnd) (cl : Nat) : Fl → Nat × BitVec 8
  | .nan _ => roundNan t
  | .inf s => roundInf t cl s
  | .fin s n d e =>
    if n = 0 then (if s && cl != 1 then signBit t else 0, 0)
    else roundFin t r cl s n d e

/-- Scaled by 2^sc, exactly (R26). -/
def flScale (sc : Int) : Fl → Fl
  | .fin s n d e => .fin s n d (e + sc)
  | f => f

/-- An exact integer bounded to an integer type: its pattern of the type's width (R79). -/
def intBound (t : TyCode) (cl : Nat) (i : Int) : Nat × BitVec 8 :=
  let w := tyWidth t
  let lo : Int := if tySigned t then -(2 ^ (w - 1) : Nat) else 0
  let hi : Int := if tySigned t then (2 ^ (w - 1) : Nat) - 1 else (2 ^ w : Nat) - 1
  if lo ≤ i ∧ i ≤ hi then (wrap w i, 0)
  else (wrap w (if cl = 3 then (if i < lo then lo else hi) else i), fOF)

/-- A floating value converted to an integer type (R96). -/
def flToInt (t : TyCode) (r : Rnd) : Fl → Nat × BitVec 8
  | .nan s => (0, fIV ||| (Fl.nan s).sig)
  | .inf s =>
    let w := tyWidth t
    (if s then (if tySigned t then 2 ^ (w - 1) else 0) else (if tySigned t then 2 ^ (w - 1) - 1 else 2 ^ w - 1), fIV)
  | .fin s n d e =>
    let f := scaleQ n d e 0
    let g := roundQuo r s f.1 f.2
    let b := intBound t 3 (sgn s g.1)
    if b.2 = 0 then (b.1, flagIf g.2 fNX) else (b.1, fIV)

/-- A conversion (R96) to a type that is not ls4, scaled by 2^sc where the destination is floating. -/
def convert (t : TyCode) (r : Rnd) (cl : Nat) (sc : Int) : Xv → Nat × BitVec 8
  | .int i => if tyInt t then intBound t cl i else flRound t r cl (flScale sc (flOfInt i))
  | .fl f =>
    if tyInt t then flToInt t r f
    else
      let g := flRound t r cl (flScale sc f)
      (g.1, g.2 ||| f.sig)

/-- `swrite` of R101: a pattern extended to 64 bits by its type. -/
def extend64 (t : TyCode) (v : Nat) : Word :=
  if tySigned t then BitVec.ofInt 64 (signed (tyWidth t) v) else BitVec.ofNat 64 v

/-! ## Stochastic rounding (R91) -/

/-- One step of the LFSR. -/
def lfsr (s : Nat) : Nat :=
  let fb := (Nat.testBit s 31 ^^ Nat.testBit s 21) ^^ (Nat.testBit s 1 ^^ Nat.testBit s 0)
  (2 * s + fb.toNat) % 2 ^ 32

/-- `n` draws. -/
def draws : Nat → Nat → List Nat
  | 0, _ => []
  | n + 1, s => lfsr s :: draws n (lfsr s)

/-- The state after `n` steps. -/
def lfsrN : Nat → Nat → Nat
  | 0, s => s
  | n + 1, s => lfsrN n (lfsr s)

/-! ## Special functions (spec 06, R193), by fixed point with 640 fractional bits (log 11) -/

def fixP : Nat := 640
def fixOne : Nat := 2 ^ fixP

/-- Sum of t, t z/b1, ... : sum over k of z^k / (2k + 1), in fixed point (z below 1). -/
def atanhGo : Nat → Nat → Nat → Nat → Nat
  | 0, _, _, _ => 0
  | f + 1, t, z2, k => t / k + atanhGo f (t * z2 / fixOne) z2 (k + 2)

/-- atanh of a fixed-point z at most 1/3. -/
def fixAtanh (z : Nat) : Nat := atanhGo 210 z (z * z / fixOne) 1

/-- arctan(1/q), alternating. -/
def atanGo : Nat → Nat → Nat → Nat → Bool → Int
  | 0, _, _, _, _ => 0
  | f + 1, t, q, k, s => (if s then -((t / k : Nat) : Int) else ((t / k : Nat) : Int)) + atanGo f (t / (q * q)) q (k + 2) (!s)

def fixLn2 : Nat := 2 * fixAtanh (fixOne / 3)
def fixPi : Nat := (16 * atanGo 140 (fixOne / 5) 5 1 false - 4 * atanGo 60 (fixOne / 239) 239 1 false).toNat

/-- Taylor terms of the exponential. -/
def expGo : Nat → Nat → Nat → Nat → Nat
  | 0, _, _, _ => 0
  | f + 1, t, y, k => t + expGo f (t * y / fixOne / k) y (k + 1)

/-- 2^f for a fixed-point f below 1. -/
def fixExp2 (f : Nat) : Nat := expGo 130 fixOne (f * fixLn2 / fixOne) 1

/-- Taylor terms of sine and cosine. -/
def sinGo : Nat → Nat → Nat → Nat → Bool → Int
  | 0, _, _, _, _ => 0
  | f + 1, t, y2, k, s =>
    (if s then -(t : Int) else t) + sinGo f (t * y2 / fixOne / (k * (k + 1))) y2 (k + 2) (!s)

/-- sin(pi r) for a fixed-point r at most 1/2. -/
def fixSinPi (r : Nat) : Nat :=
  let y := r * fixPi / fixOne
  (sinGo 70 y (y * y / fixOne) 2 false).toNat

/-- A fixed-point value known to be inexact: its sticky bit set. -/
def sticky (neg : Bool) (v : Nat) (e : Int) : Fl := .fin neg (2 * v + 1) 1 (e - 1 - fixP)

/-- Floor of n/d x 2^e as an integer (d a power of two or one). -/
def floorQ (n d : Nat) (e : Int) : Nat := let f := scaleQ n d e 0; f.1 / f.2

/-- n/d x 2^e in fixed point, exact for the formats' values. -/
def fixOf (n d : Nat) (e : Int) : Nat := floorQ n d (e + fixP)

/-- 2^x; one of |x| from 4096 on stands for itself, beyond every format's range, exact where x is an integer. -/
def flExp2 : Fl → Fl × BitVec 8
  | .nan s => (.nan false, (Fl.nan s).sig)
  | .inf s => (if s then .fin false 0 1 0 else .inf false, 0)
  | .fin s n d e =>
    if 4096 ≤ floorQ n d e then
      let out : Int := if s then -3000 else 3000
      (if fixOf n d e % fixOne = 0 then .fin false 1 1 out else sticky false fixOne out, 0)
    else
      let x := fixOf n d e
      let i := x / fixOne
      let f := x % fixOne
      if f = 0 then (.fin false 1 1 (if s then -(i : Int) else i), 0)
      else if s then (sticky false (fixExp2 (fixOne - f)) (-(i : Int) - 1), 0)
      else (sticky false (fixExp2 f) i, 0)

/-- log2 x. -/
def flLog2 : Fl → Fl × BitVec 8
  | .nan s => (.nan false, (Fl.nan s).sig)
  | .inf s => if s then (.nan false, fIV) else (.inf false, 0)
  | .fin s n d e =>
    if n = 0 then (.inf true, fDZ)
    else if s then (.nan false, fIV)
    else
      let k := log2Q n d
      let t := scaleQ n d 0 (k - fixP)
      let tf := t.1 / t.2
      let x := k + e
      if tf = fixOne then (flOfInt x, 0)
      else
        let z := (tf - fixOne) * fixOne / (tf + fixOne)
        let l := 2 * fixAtanh z * fixOne / fixLn2
        let v : Int := x * (fixOne : Int) + l
        (.fin (v < 0) (2 * v.natAbs + 1) 1 (-1 - (fixP : Int)), 0)

/-- 1/x. -/
def flRcp (f : Fl) : Fl × BitVec 8 := flDiv (flOfInt 1) f

/-- 1/sqrt x. -/
def flRsq : Fl → Fl × BitVec 8
  | .nan s => (.nan false, (Fl.nan s).sig)
  | .inf s => if s then (.nan false, fIV) else (.fin false 0 1 0, 0)
  | .fin s n d e =>
    if n = 0 then (.inf s, fDZ)
    else if s then (.nan false, fIV)
    else (finSqrt d n (-e), 0)

/-- sin(pi r) of a fixed-point r below 2: the magnitude and sign; exact at multiples of 1/2. -/
def sinPiFix (r : Nat) : Fl :=
  let half := fixOne / 2
  let neg := fixOne ≤ r
  let r := if neg then r - fixOne else r
  if r = 0 then .fin false 0 1 0
  else if r = half then .fin neg 1 1 0
  else sticky neg (fixSinPi (if half < r then fixOne - r else r)) 0

/-- sin(pi x). -/
def flSinPi : Fl → Fl × BitVec 8
  | .nan s => (.nan false, (Fl.nan s).sig)
  | .inf _ => (.nan false, fIV)
  | .fin s n d e =>
    if n = 0 then (.fin s 0 1 0, 0)
    else
      let r := fixOf n d e % (2 * fixOne)
      match sinPiFix r with
      | .fin neg a b c => if a = 0 then (.fin s 0 1 0, 0) else (.fin (neg != s) a b c, 0)
      | f => (f, 0)

/-- cos(pi x) = sin(pi (|x| + 1/2)). -/
def flCosPi : Fl → Fl × BitVec 8
  | .nan s => (.nan false, (Fl.nan s).sig)
  | .inf _ => (.nan false, fIV)
  | .fin _ n d e => (sinPiFix ((fixOf n d e + fixOne / 2) % (2 * fixOne)), 0)

/-- tanh x = (1 - T)/(1 + T) with T = 2^(-2x/ln 2). -/
def flTanh : Fl → Fl × BitVec 8
  | .nan s => (.nan false, (Fl.nan s).sig)
  | .inf s => (.fin s 1 1 0, 0)
  | .fin s n d e =>
    if n = 0 then (.fin s 0 1 0, 0)
    else if 200 ≤ floorQ n d e then (.fin s (fixOne - 1) fixOne 0, 0)
    else
      let u := 2 * fixOf n d e * fixOne / fixLn2
      let i := u / fixOne
      let t := fixExp2 (fixOne - u % fixOne) / 2 ^ (i + 1)
      (.fin s (fixOne - t) (fixOne + t) 0, 0)

end Sys2Proof.Machine
end

