-- ==== Sys2Proof/Machine/Legal.lean ====
section
/-! DEFINITION. Which fields a task word's entry accepts (spec 01 R25-R28, R31, R32, R35; spec 04, 06, 09): for
each instruction a list of (detail, breach) pairs; ILL takes the lowest detail whose breach holds. -/

namespace Sys2Proof.Machine

/-- Operand classes (R31). -/
inductive Cls where
  | t | x | w | v | k | q | o | m | c | none
  deriving DecidableEq, Repr, Inhabited

/-- The class of a specifier (R31). -/
def clsOf (s : SpecBits) : Cls :=
  let n := s.toNat
  if n < 0x10 then .t else if n < 0x30 then .x else if n < 0x40 then .w else if n < 0x50 then .v
  else if n < 0x60 then .k else if n < 0x68 then .q else if n < 0x70 then .o else if n < 0x78 then .m
  else if n < 0x7F then .c else .none

/-- The register number within its class (R31). -/
def regNo (s : SpecBits) : Nat :=
  let n := s.toNat
  if n < 0x10 then n else if n < 0x30 then n - 0x10 else if n < 0x40 then n - 0x30 else if n < 0x50 then n - 0x40
  else if n < 0x60 then n - 0x50 else if n < 0x68 then n - 0x60 else if n < 0x70 then n - 0x68 else n - 0x70

def cScal : List Cls := [.t, .x, .c]
def cScalN : List Cls := [.t, .x, .c, .none]
def cTx : List Cls := [.t, .x]
def cTxN : List Cls := [.t, .x, .none]
def cVec : List Cls := [.w, .v]
def cVecAny : List Cls := [.w, .v, .t, .x, .c]
def cNone : List Cls := [.none]
def cXN : List Cls := [.x, .none]
def cVN : List Cls := [.v, .none]

/-- The predicate column (R102, R176). -/
inductive PredCol where
  | no | z | m
  deriving DecidableEq, Repr

/-- The clamp and scale column (R26); `low` is an entry that uses bits [4:0] itself. -/
inductive ClampCol where
  | no | int | fp | low
  deriving DecidableEq, Repr

/-- What an entry of format A accepts; `ta tb tc` are the declared types of its sources. -/
structure Sig where
  a : List Cls := cNone
  b : List Cls := cNone
  c : List Cls := cNone
  d : List Cls := cNone
  ta : TyCode := tyNone
  tb : TyCode := tyNone
  tc : TyCode := tyNone
  tyOk : Bool
  stair : Bool := false
  pred : PredCol := .no
  mods : Bool := false
  clamp : ClampCol := .no

/-- A constant a declared type cannot take (R32). -/
def constRefused (t : TyCode) (s : SpecBits) : Bool :=
  clsOf s = .c &&
    (t = tyPlane || (s.toNat = 0x7C && (tyInt t || t = tyNone)) || (s.toNat = 0x7B && tyUnsigned t))

/-- A source specifier the field accepts (R32). -/
def srcBad (l : List Cls) (t : TyCode) (s : SpecBits) : Bool := !l.contains (clsOf s) || constRefused t s

/-- A D the entry accepts (R28, R50). -/
def dstBad (l : List Cls) (s : SpecBits) : Bool := !l.contains (clsOf s) || s.toNat = 0x70

/-- A modifier refused (R25); one of an absent operand modifies nothing. DEDUCED (log 47): where an entry names no modifiers (a present A of
`loopx`, `jmpr` and `ret`, B of `kinfo`, a vector A or its index B of `vbcast`, A and B of `vperm`, `vzip` and `vuzp`, A of `vpack`), a nonzero
one is refused with detail 5. -/
def modBad (mods : Bool) (t : TyCode) (s : SpecBits) (m : BitVec 2) : Bool :=
  m != 0 && (!mods || (tyUnsigned t && clsOf s != .none) || [Cls.k, .q, .o, .m].contains (clsOf s))

/-- The predicate rules of R27, R102 and R176. -/
def predBad (col : PredCol) (p : BitVec 3) (z : Bool) (vecA : Bool) : Bool :=
  if p = 0 then z
  else match col with
    | .no => true
    | .z => !z
    | .m => !z && !vecA

/-- The clamp and scale rules of R26. -/
def clampBad (col : ClampCol) (t : TyCode) (cl : BitVec 2) (sc : BitVec 3) : Bool :=
  match col with
  | .no => cl != 0 || sc != 0
  | .int => cl = 1 || cl = 2 || sc != 0
  | .fp => if tyInt t then cl = 1 || cl = 2 || sc != 0
           else if tyFloat t then false
           else if t = tyLs4 then sc != 0 else cl != 0 || sc != 0
  | .low => false

/-- S = 1 (R28, R63). -/
def sBad3 (stair s : Bool) : Bool := s && !stair
def sBad5 (s : Bool) (d : SpecBits) : Bool := s && d != 0x7F

/-- The breaches of a format-A word. -/
def faultsA (g : Sig) (f : FmtA) : List (Nat × Bool) :=
  [(3, srcBad g.a g.ta f.a || srcBad g.b g.tb f.b || srcBad g.c g.tc f.c || dstBad g.d f.d || sBad3 g.stair f.s),
   (4, !g.tyOk),
   (5, sBad5 f.s f.d || predBad g.pred f.p f.z (cVec.contains (clsOf f.a))
       || modBad g.mods g.ta f.a f.ma || modBad g.mods g.tb f.b f.mb || modBad g.mods g.tc f.c f.mc
       || clampBad g.clamp f.ty f.cl f.sc)]

/-- The lowest detail whose breach holds (R35). -/
def lowest : List (Nat × Bool) → Option Nat
  | [] => none
  | (d, b) :: r =>
    match lowest r with
    | none => if b then some d else none
    | some e => if b then some (min d e) else some e

/-! ## Type lists -/

def isI (t : TyCode) : Bool := tyInt t && t != tyI4 && t != tyN4
def isF (t : TyCode) : Bool := 14 ≤ t.toNat && t.toNat ≤ 17
/-- A17: every code from 0 to 17 except ls4 (R176). -/
def isA17 (t : TyCode) : Bool := t.toNat ≤ 17 && t != tyLs4
def isCvt (t : TyCode) : Bool := isI t || (12 ≤ t.toNat && t.toNat ≤ 17)
def isNoneTy (t : TyCode) : Bool := t = tyNone
/-- SRC or WIDE in the C field (R120, R183): bits [6:5] and the code. -/
def cHigh (f : FmtA) : Bool := f.c.extractLsb' 5 2 != 0
def cTy (f : FmtA) : TyCode := f.c.extractLsb' 0 5

/-! ## Spec 04 -/

def sigIntAri (f : FmtA) : Sig :=
  { a := cScal, b := cScal, d := cXN, ta := f.ty, tb := f.ty, tyOk := isI f.ty, stair := true, pred := .z, mods := true,
    clamp := .int }
def sigMinMax (f : FmtA) : Sig :=
  { a := cScal, b := cScal, d := cXN, ta := f.ty, tb := f.ty, tyOk := isF f.ty || isNoneTy f.ty, stair := true, pred := .z,
    mods := true }
def sigNone2 (f : FmtA) : Sig :=
  { a := cScal, b := cScal, d := cXN, tyOk := isNoneTy f.ty, stair := true, pred := .z }
def sigNone3 (f : FmtA) : Sig := { sigNone2 f with c := cScal }
def sigNone1 (f : FmtA) : Sig := { sigNone2 f with b := cNone }
def sigFp2 (f : FmtA) : Sig :=
  { a := cScal, b := cScal, d := cXN, ta := f.ty, tb := f.ty, tc := f.ty, tyOk := isF f.ty, stair := true, pred := .z,
    mods := true, clamp := .fp }
def sigFp3 (f : FmtA) : Sig := { sigFp2 f with c := cScal }
def sigFcmp (f : FmtA) : Sig := { sigFp2 f with clamp := .no }
def allCls : List Cls := [.t, .x, .w, .v, .k, .q, .o, .m, .c, .none]
/-- `fcvt` and the vector conversions hold a type in C. -/
def sigFcvt (f : FmtA) : Sig :=
  { a := cScal, c := allCls, d := cXN, ta := cTy f, tyOk := isCvt f.ty && isCvt (cTy f), stair := true, pred := .z,
    mods := true, clamp := .fp }
def illFcvt (f : FmtA) : List (Nat × Bool) := (2, cHigh f) :: faultsA (sigFcvt f) f

/-- Rows of the `name` table (R117). -/
def sigName (f : FmtA) : Sig :=
  let g : Sig := { a := [.t, .x, .c, .w, .v, .k, .m, .o, .q], tyOk := isNoneTy f.ty }
  match clsOf f.a with
  | .w | .v => { g with d := cVN, stair := true, pred := .m }
  | .k => { g with d := [.k] }
  | .m => { g with d := [.m] }
  | .o => { g with d := [.o] }
  | .q => { g with d := [.q] }
  | _ => { g with d := cXN, stair := true }

/-- Control words of OP 0x0F: TY none, D, B, C none, everything else zero. -/
def sigCtl (f : FmtA) (a : List Cls) : Sig := { a := a, tyOk := isNoneTy f.ty }
/-- `halt` and `nop` (R126), `jmpr`, `ret` (R123), `loopx` (R125), `waita` (R130), `waitacc` (R207). DEDUCED (log 58): P ≠ 0 on `waita`, of
which its entry does not speak, is refused with detail 5 as on the other control words. -/
def illCtl (f : FmtA) (a : List Cls) : List (Nat × Bool) := faultsA (sigCtl f a) f
def tkAny (t : Tk) : Bool := t.wc || t.sc || t.we || t.se
/-- The codes that no type has (R78). -/
def noType (t : TyCode) : Bool := 19 ≤ t.toNat && t.toNat ≤ 30
/-- `suspend` (R127): TK has no bit set, and a breach of any of its rules has detail 5. DEDUCED (log 62): where another rule names that breach
itself, its lower detail is the one told (R35): 3 for S = 1 (R63) and 4 for a TY that no type has (R78). -/
def illSuspend (f : FmtA) : List (Nat × Bool) :=
  (3, f.s) :: (4, noType f.ty) :: (5, tkAny f.tk) :: (faultsA { a := [.k], b := cScal, tyOk := isNoneTy f.ty } f).map fun b => (5, b.2)

/-- Format I with its classes of A and D and its own breaches. -/
def faultsI (a d : List Cls) (stair : Bool) (f : FmtI) : List (Nat × Bool) :=
  [(3, srcBad a tyNone f.a || dstBad d f.d || sBad3 stair f.s), (5, sBad5 f.s f.d)]

def illAddi (f : FmtI) : List (Nat × Bool) := faultsI cScal cXN true f
def bfPos (f : FmtI) : Nat := (f.imm.extractLsb' 0 6).toNat
def bfLen (f : FmtI) : Nat := (f.imm.extractLsb' 6 6).toNat + 1
def bfSx (f : FmtI) : Bool := f.imm.getLsbD 12
def illBfx (f : FmtI) : List (Nat × Bool) :=
  (2, f.imm.extractLsb' 13 21 != 0) :: (5, 64 < bfPos f + bfLen f) :: faultsI cScal cXN true f
def illBfi (f : FmtI) : List (Nat × Bool) :=
  (2, f.imm.extractLsb' 13 21 != 0) :: (5, 64 < bfPos f + bfLen f || bfSx f) :: faultsI cScal [.x] true f
def illLi (f : FmtI) : List (Nat × Bool) := faultsI cNone cXN true f
/-- DEDUCED (log 58): bits of the immediate that the entry requires to be zero are reserved bits, detail 2; so for `lih`, and bit 4 of
`ksub`. -/
def illLih (f : FmtI) : List (Nat × Bool) := (2, f.imm.extractLsb' 30 4 != 0) :: faultsI cTx cXN true f
def csrNo (f : FmtI) : Nat := (f.imm.extractLsb' 0 12).toNat
def csrKnown (n : Nat) : Bool := n ≤ 6 || (8 ≤ n && n ≤ 0xD) || n = 0x10 || n = 0x20
def csrRW (n : Nat) : Bool := (1 ≤ n && n ≤ 5) || n = 0x10
def illCsrr (f : FmtI) : List (Nat × Bool) :=
  (2, f.imm.extractLsb' 12 22 != 0) :: (5, !csrKnown (csrNo f)) :: faultsI cNone cXN true f
def illCsrw (f : FmtI) : List (Nat × Bool) :=
  (2, f.imm.extractLsb' 12 22 != 0) :: (5, !csrRW (csrNo f)) :: faultsI cScal cNone false f
def illTrap (f : FmtI) : List (Nat × Bool) := (2, f.imm.extractLsb' 16 18 != 0) :: faultsI cNone cNone false f

def illBr (f : FmtB) : List (Nat × Bool) := [(3, srcBad cScal tyNone f.a || srcBad cScal tyNone f.b)]
def illJmp (f : FmtB) : List (Nat × Bool) := [(3, srcBad cNone tyNone f.a || srcBad cNone tyNone f.b)]
/-- `loop` (R24, R72, R124): STG above 7; a body that is no multiple of the stage count. -/
def illLoop (f : FmtL) : List (Nat × Bool) :=
  [(3, srcBad cScal tyNone f.cnt),
   (5, 7 < f.stg.toNat || (f.len.toNat + 1) % (f.stg.toNat + 1) != 0)]

/-- Format M: classes of X and D. -/
def faultsM (x d : List Cls) (tyOk stair : Bool) (pred : PredCol) (f : FmtM) : List (Nat × Bool) :=
  [(3, srcBad x tyNone f.x || dstBad d f.d || sBad3 stair f.s), (4, !tyOk),
   (5, sBad5 f.s f.d || predBad pred f.p f.z false)]
/-- A store's predicate selects what is stored, with Z = 0 (R135, R196). -/
def faultsSt (x d : List Cls) (tyOk : Bool) (f : FmtM) : List (Nat × Bool) :=
  [(3, srcBad x tyNone f.x || dstBad d f.d || f.s), (4, !tyOk), (5, f.z)]

def illLd (f : FmtM) : List (Nat × Bool) := faultsM cTxN cXN (isA17 f.ty) true .z f
def illSt (f : FmtM) : List (Nat × Bool) := faultsSt cTxN cTx (isA17 f.ty) f
def illLda (f : FmtM) : List (Nat × Bool) := faultsM cTxN [.x] (isA17 f.ty) false .z f
def illKld (f : FmtM) : List (Nat × Bool) := faultsM cTxN [.k] (isNoneTy f.ty) false .no f
def illKst (f : FmtM) : List (Nat × Bool) := (5, f.p != 0) :: faultsSt cTxN [.k] (isNoneTy f.ty) f
def low5 (f : FmtA) : BitVec 5 := f.cl ++ f.sc
def sigKsub (f : FmtA) : Sig := { a := [.k], b := cScal, c := cScal, d := [.k], tyOk := isNoneTy f.ty, clamp := .low }
/-- Bit 4 is reserved (log 58). -/
def illKsub (f : FmtA) : List (Nat × Bool) := (2, f.cl.getLsbD 1) :: faultsA (sigKsub f) f
def sigKinfo (f : FmtA) : Sig := { a := [.k], b := cScal, d := cXN, tyOk := isNoneTy f.ty, stair := true, pred := .z }

/-! ## Spec 06 -/

def sigVec2 (f : FmtA) : Sig :=
  { a := cVecAny, b := cVecAny, d := cVN, ta := f.ty, tb := f.ty, tc := f.ty, tyOk := isI f.ty || isF f.ty, stair := true,
    pred := .m, mods := true, clamp := .fp }
def sigVec3 (f : FmtA) : Sig := { sigVec2 f with c := cVecAny }
def sigVminmax (f : FmtA) : Sig := { sigVec2 f with clamp := .no }
def sigVdiv (f : FmtA) : Sig := { sigVec2 f with tyOk := isF f.ty }
def sigVsqrt (f : FmtA) : Sig := { sigVdiv f with b := cNone }
def sigVcmp (f : FmtA) : Sig :=
  { sigVec2 f with d := [.m], stair := false, pred := .z, clamp := .no }
def illVcmp (c : VCond) (f : FmtA) : List (Nat × Bool) := (4, c = .un && tyInt f.ty) :: faultsA (sigVcmp f) f
def sigVlogic (f : FmtA) : Sig :=
  { a := cVecAny, b := cVecAny, d := cVN, ta := f.ty, tb := f.ty, tyOk := isA17 f.ty, stair := true, pred := .m }
def sigVsel (f : FmtA) : Sig := { sigVlogic f with c := [.m] }
def sigVshift (f : FmtA) : Sig := { sigVlogic f with tyOk := isI f.ty }

/-- `vcvt` (R183-R185). -/
def cvtAny (t : TyCode) : Bool := t.toNat ≤ 17
def isReinterpret (f : FmtA) : Bool := cTy f = tyNone
def vcvtLs4 (f : FmtA) : Bool := f.ty = tyLs4 || cTy f = tyLs4
def sigVcvt (f : FmtA) : Sig :=
  if isReinterpret f then
    { a := cVec, c := allCls, d := cVN, tyOk := isA17 f.ty || f.ty = tyNone, stair := true }
  else
    { a := if vcvtLs4 f then cVec else cVecAny, b := if vcvtLs4 f then [.x] else cNone, c := allCls, d := cVN,
      ta := cTy f, tyOk := cvtAny f.ty && cvtAny (cTy f) && !(f.ty = tyLs4 && cTy f = tyLs4), stair := true,
      pred := if tyWidth f.ty = tyWidth (cTy f) && !vcvtLs4 f then .m else .z, mods := true, clamp := .fp }
/-- A named group's first register is a multiple of k; a stair group's age at least k - 1 (R175). -/
def groupBad (k : Nat) (s : SpecBits) : Bool :=
  match clsOf s with
  | .v => regNo s % k != 0
  | .w => regNo s < k - 1
  | _ => false
def illVcvt (f : FmtA) : List (Nat × Bool) :=
  (2, cHigh f)
  :: (5, (cTy f = tyLs4 && !isReinterpret f && groupBad 2 f.a) || (f.ty = tyLs4 && groupBad 2 f.d)
         || (cTy f = tyLs4 && f.sc != 0))
  :: faultsA (sigVcvt f) f
def narrowK (f : FmtA) : Nat := tyWidth (cTy f) / tyWidth f.ty
def sigVnarrow (f : FmtA) : Sig :=
  { a := cVec, c := allCls, d := cVN, ta := cTy f,
    tyOk := isA17 f.ty && isA17 (cTy f) && (narrowK f = 2 || narrowK f = 4), stair := true, pred := .z, mods := true,
    clamp := .fp }
def illVnarrow (f : FmtA) : List (Nat × Bool) :=
  (2, cHigh f) :: (5, groupBad (narrowK f) f.a) :: faultsA (sigVnarrow f) f

/-- The allowed widening pairs (R187). -/
def wideOk (t w : TyCode) : Bool :=
  match t.toNat with
  | 1 => w = tyI16 || w = tyI32
  | 2 => w = tyI32 || w = tyI64
  | 3 => w = tyI64
  | 6 => w = tyN16 || w = tyN32
  | 7 => w = tyN32 || w = tyN64
  | 8 => w = tyN64
  | 14 | 15 => w = tyF32 || w = tyF64
  | 16 => w = tyF64
  | 12 | 13 => w = tyF32
  | _ => false
def wideK (f : FmtA) : Nat := tyWidth (cTy f) / tyWidth f.ty
def sigVwide (f : FmtA) : Sig :=
  { a := cVecAny, b := cVecAny, c := allCls, d := cVN, ta := f.ty, tb := f.ty, tyOk := wideOk f.ty (cTy f),
    stair := true, pred := .z, mods := true, clamp := .low }
def illVwide (f : FmtA) : List (Nat × Bool) :=
  (2, cHigh f) :: (5, groupBad (wideK f) f.d || clampBad .fp (cTy f) f.cl f.sc) :: faultsA (sigVwide f) f
def sigVred (f : FmtA) : Sig :=
  { a := cVec, d := cXN, ta := f.ty, tyOk := isI f.ty || isF f.ty, stair := true, pred := .z, mods := true, clamp := .fp }
def sigVredMM (f : FmtA) : Sig := { sigVred f with clamp := .no }
/-- The scalar form reads A by `sread`, modifiers and all (R189, R101). -/
def sigVbcast (f : FmtA) : Sig :=
  { a := cVecAny, b := if cVec.contains (clsOf f.a) then cScal else cNone, d := cVN, ta := f.ty, tb := f.ty,
    tyOk := isA17 f.ty, stair := true, pred := .m, mods := !cVec.contains (clsOf f.a) }
/-- DEDUCED (log 47), as of the two that follow: a nonzero modifier on an element that is only moved is refused. -/
def sigVperm (f : FmtA) : Sig :=
  { a := cVec, b := cVec, d := cVN, ta := f.ty, tyOk := isA17 f.ty && tyWidth f.ty != 4, stair := true, pred := .m }
def sigVzip (f : FmtA) : Sig :=
  { a := cVec, b := cVec, d := cVN, ta := f.ty, tb := f.ty, tyOk := isA17 f.ty, stair := true }
def illVzip (f : FmtA) : List (Nat × Bool) := (5, groupBad 2 f.d) :: faultsA (sigVzip f) f
def sigVpack (f : FmtA) : Sig :=
  { a := cVec, c := [.m], d := cVN, ta := f.ty, tyOk := isA17 f.ty, stair := true }
def sigVspec (f : FmtA) : Sig :=
  { a := cVecAny, d := cVN, ta := f.ty, tyOk := f.ty = tyF16 || f.ty = tyBf16 || f.ty = tyF32, stair := true, pred := .m,
    mods := true, clamp := .fp }
/-- Types with a plane layout (R88, R194). -/
def planeTy (t : TyCode) : Bool := [0, 1, 2, 5, 6, 7, 10, 11, 12, 13, 14, 15, 16].contains t.toNat
def sigVplane (f : FmtA) : Sig := { a := cVec, d := cVN, tyOk := planeTy f.ty, stair := true }

def vmTy (t : TyCode) : Bool := t.toNat ≤ 18 || t = tyNone
def rawTy (t : TyCode) : Bool := t = tyPlane || t = tyNone
def illVld (f : FmtM) : List (Nat × Bool) :=
  (5, (rawTy f.ty && f.p != 0) || (f.ty = tyLs4 && groupBad 2 f.d))
  :: faultsM cTxN cVN (vmTy f.ty) true .z f
def illVst (f : FmtM) : List (Nat × Bool) :=
  (5, (rawTy f.ty && f.p != 0) || (f.ty = tyLs4 && groupBad 2 f.d)) :: faultsSt cTxN cVec (vmTy f.ty) f
def illVlda (f : FmtM) : List (Nat × Bool) :=
  (5, (rawTy f.ty && f.p != 0) || (f.ty = tyLs4 && groupBad 2 f.d))
  :: faultsM cTxN [.v] (vmTy f.ty) false .z f
def gathTy (t : TyCode) : Bool := [2, 3, 4, 7, 8, 9, 14, 15, 16, 17].contains t.toNat
def illVgath (f : FmtM) : List (Nat × Bool) := faultsM cVec cVN (gathTy f.ty) true .z f
def illVscat (f : FmtM) : List (Nat × Bool) := faultsSt cVec cVec (gathTy f.ty) f

def sigMask2 (f : FmtA) : Sig := { a := [.m], b := [.m], d := [.m], tyOk := isNoneTy f.ty }
def sigMask1 (f : FmtA) : Sig := { sigMask2 f with b := cNone }
def sigMcnt (f : FmtA) : Sig := { a := [.m], d := cXN, tyOk := isA17 f.ty || isNoneTy f.ty, stair := true }
def sigMfrom (f : FmtA) : Sig :=
  { a := cVecAny, d := [.m], ta := f.ty, tyOk := if cVec.contains (clsOf f.a) then isI f.ty else isNoneTy f.ty }
/-- `#0.5` is a constant of TY f64, but no tile and no index (R203: detail 5). -/
def sigAccld (f : FmtA) : Sig := { a := cScal, b := cScal, d := [.v], ta := f.ty, tb := f.ty, tyOk := f.ty = tyF64 || f.ty = tyI64 }
def sigAccst (f : FmtA) : Sig := { sigAccld f with d := cVec }

/-! ## Spec 09 -/

def isF64Ty (t : TyCode) : Bool := t = tyF64
/-- A complex scalar names an even x register (R238). -/
def oddX (s : SpecBits) : Bool := clsOf s = .x && regNo s % 2 = 1
def cCs : List Cls := [.x, .c]
def cCv : List Cls := [.w, .v, .x, .c]
def illXclr (f : FmtA) : List (Nat × Bool) :=
  (5, oddX f.a)
  :: faultsA { a := cCs, b := cScal, c := [.o], d := [.q], ta := tyF64, tb := tyF64, tyOk := isF64Ty f.ty } f
def illXform (f : FmtA) : List (Nat × Bool) :=
  (5, oddX f.a || oddX f.b)
  :: faultsA { a := cCv, b := cCv, d := [.q], ta := tyF64, tb := tyF64, tyOk := isF64Ty f.ty, pred := .z } f
def illXord (f : FmtA) : List (Nat × Bool) :=
  (5, f.a = 0x7C || f.c = 0x7C)
  :: faultsA { a := cScal, b := cScal, c := cScal, d := [.o], ta := tyF32, tb := tyF32, tc := tyF32, tyOk := f.ty = tyF32 } f
def illX2 (f : FmtA) : List (Nat × Bool) := faultsA { a := [.q], d := [.q], tyOk := isF64Ty f.ty } f
def illXeval (f : FmtA) : List (Nat × Bool) :=
  (5, oddX f.b || oddX f.c)
  :: faultsA { a := [.q], b := cCv, c := .none :: cCv, d := cVN, tb := tyF64, tc := tyF64, tyOk := isF64Ty f.ty, stair := true,
               pred := .z } f
def illXadm (f : FmtA) : List (Nat × Bool) :=
  (5, oddX f.b)
  :: faultsA { a := [.q], b := [.q, .x, .c], c := [.o], d := cXN, tb := tyF64, tyOk := isF64Ty f.ty, stair := true } f
def illXld (f : FmtM) : List (Nat × Bool) := faultsM cTxN [.q] (isNoneTy f.ty) false .no f
def illXst (f : FmtM) : List (Nat × Bool) := (5, f.p != 0) :: faultsSt cTxN [.q] (isNoneTy f.ty) f

end Sys2Proof.Machine
end

