-- ==== Sys2Proof/Machine/Mem.lean ====
section
/-! DEFINITION. Parties, tokens and the pin store (spec 13 R313-R319), physical places, poison and tags
(spec 05 R142-R144, spec 19 R397-R403), event and error queues (spec 16 R375), the checks of an
access (spec 04 R132), and bytes read and written. -/

namespace Sys2Proof.Machine

/-! ## Parties and where they stand -/

/-- The die of a party. -/
def dieNo : Party → Nat
  | .slot c _ => c / 128
  | .stream d _ => d
  | .super d => d
  | .engine c _ => c / 128

/-- Key of a task window: task slots, then 65 Porter streams per die (the last the supervisor's). -/
def partyKey : Party → Nat
  | .slot c n => 4 * c + n
  | .stream d n => 2048 + 65 * d + n
  | .super d => 2048 + 65 * d + 64
  | .engine c _ => 4 * c

/-- Whether the party is one of the device's (R3, R140, R297). -/
def partyOk : Party → Bool
  | .slot c n => c < 512 && n < 4
  | .stream d n => d < 4 && n < 64
  | .super d => d < 4
  | .engine c _ => c < 512

def isPorter : Party → Bool
  | .stream _ _ => true
  | .super _ => true
  | _ => false

def isSuper : Party → Bool
  | .super _ => true
  | _ => false

/-- The core of a slot or engine. -/
def coreNo : Party → Nat
  | .slot c _ => c
  | .engine c _ => c
  | _ => 0

def slotNo : Party → Nat
  | .slot _ n => n
  | _ => 0

/-- The task slot that a key names. -/
def slotOfKey (k : Nat) : Party := .slot (k / 4) (k % 4)

def taskOf (s : State) (p : Party) : Task := tget Task.fresh s.tasks (partyKey p)
def putTask (s : State) (p : Party) (t : Task) : State := { s with tasks := tput s.tasks (partyKey p) t }
def mapTask (s : State) (p : Party) (f : Task → Task) : State := putTask s p (f (taskOf s p))
def coreOf (s : State) (c : Nat) : Core := tget Core.fresh s.cores c
def putCore (s : State) (c : Nat) (k : Core) : State := { s with cores := tput s.cores c k }
def mapCore (s : State) (c : Nat) (f : Core → Core) : State := putCore s c (f (coreOf s c))
def dieOf (s : State) (d : Nat) : Die := tget Die.fresh s.dies d
def mapDie (s : State) (d : Nat) (f : Die → Die) : State := { s with dies := tput s.dies d (f (dieOf s d)) }
def launchOf (s : State) (d l : Nat) : Launch := tget Launch.fresh (dieOf s d).launches l
def mapLaunch (s : State) (d l : Nat) (f : Launch → Launch) : State :=
  mapDie s d fun e => { e with launches := tput e.launches l (f (tget Launch.fresh e.launches l)) }
def ctxOf (s : State) (c : Nat) : Ctx := tget Ctx.fresh s.ctxs c
def mapCtx (s : State) (c : Nat) (f : Ctx → Ctx) : State := { s with ctxs := tput s.ctxs c (f (ctxOf s c)) }
def slotOf (s : State) (n : Nat) : PinSlot := tget PinSlot.fresh s.slots n
def mapSlot (s : State) (n : Nat) (f : PinSlot → PinSlot) : State := { s with slots := tput s.slots n (f (slotOf s n)) }
def wordOf (s : State) (n : Nat) : PinWord := tget PinWord.fresh s.words n
def mapWord (s : State) (n : Nat) (f : PinWord → PinWord) : State := { s with words := tput s.words n (f (wordOf s n)) }

/-- The number of a die's supervisor among contexts: its CTX is 0xFFF, and its roots and queues are those named as it was loaded (R297). -/
def superCtx (die : Nat) : Nat := 0xFFF + 4096 * die
/-- The CTX field of a context's number: 12 bits. -/
def ctxField (ctx : Nat) : Nat := ctx % 4096

/-- The context that owns a party's accesses: a Porter stream's is its number (R298). -/
def ctxNo (s : State) (p : Party) : Nat :=
  match p with
  | .engine c e =>
    let k := coreOf s c
    (match e with | .copy => k.copyS | .matrix => k.matrixS | .epilogue => k.epiS).ctx
  | .stream _ n => n
  | .super d => superCtx d
  | .slot _ _ => (taskOf s p).ctx

/-- A free value of `w` bits (log 4), and the state with the counter advanced. -/
def free (w : Nat) (s : State) : BitVec w × State :=
  (Config.freeBits w (256 * s.freeNo + 255), { s with freeNo := s.freeNo + 1 })

/-! ## Tokens (R313) -/

def kSlot (k : KReg) : Nat := (k.bits.extractLsb' 112 16).toNat
def kGen (k : KReg) : BitVec 8 := k.bits.extractLsb' 104 8
def kSpace (k : KReg) : Nat := (k.bits.extractLsb' 100 4).toNat
def kPerms (k : KReg) : BitVec 4 := k.bits.extractLsb' 96 4
def kR (k : KReg) : Bool := k.bits.getLsbD 99
def kW (k : KReg) : Bool := k.bits.getLsbD 98
def kA (k : KReg) : Bool := k.bits.getLsbD 97
def kS (k : KReg) : Bool := k.bits.getLsbD 96
def kLen (k : KReg) : Nat := (k.bits.extractLsb' 56 40).toNat
def kBase (k : KReg) : Nat := (k.bits.extractLsb' 0 56).toNat
def noTok : KReg := ⟨0, false⟩

def mkTok (slot : Nat) (gen : BitVec 8) (space : Nat) (perms : BitVec 4) (len base : Nat) : KReg :=
  ⟨BitVec.ofNat 16 slot ++ gen ++ BitVec.ofNat 4 space ++ perms ++ BitVec.ofNat 40 len ++ BitVec.ofNat 56 base, true⟩

def spaceCode : Space → Nat
  | .near => 0 | .far => 1 | .hall => 2 | .peer => 3 | .host => 4
def spaceOf : Nat → Option Space
  | 0 => some .near | 1 => some .far | 2 => some .hall | 3 => some .peer | 4 => some .host | _ => none

/-- Current: tagged, with the slot's generation (R132). -/
def kCurrent (s : State) (k : KReg) : Bool := k.tag && kGen k = (slotOf s (kSlot k)).gen

/-- A token value as it is written while its slot may be in the sweep set (R334). -/
def kClean (s : State) (k : KReg) : KReg := if s.sweepSet.contains (kSlot k) then { k with tag := false } else k

/-! ## The pin store -/

/-- Page size in bytes (R316). -/
def psBytes (ps : Nat) : Nat := match ps with | 0 => 65536 | 1 => 2097152 | _ => 1073741824

/-- The open swap pair of a word. -/
def pairOf (s : State) (w : PinWord) : Option SwapPair :=
  match w.pair with
  | some (d, n) => some (tget ⟨[], false, 0, 0, 0, false, false, 0⟩ (dieOf s d).pairs n)
  | none => none

/-- The space of FRAMEB: the other tier, but retirement moves within its own (R404, R412). -/
def spaceB (p : SwapPair) (sp : Space) : Space := if p.retire then sp else if sp = .far then .near else .far

/-- The first frame of the region that a pair moves: its own page's, or for half of a gang pair the even one's (R412). -/
def regionOf (p : SwapPair) (frame : Nat) : Nat := frame / max 1 p.units * max 1 p.units
/-- How many units of 64 KiB a word's page lies within the region that its pair moves: several words may name a retiring frame (R319, R413). -/
def pairDelta (s : State) (p : SwapPair) (w : PinWord) : Nat :=
  if p.retire then w.frameA - regionOf p ((p.words.head?.map fun x => (wordOf s x.2).frameA).getD w.frameA) else 0

/-- `pin_lookup` (R318, R405): the place of byte `o` of a slot's extent. -/
def pinLookup (s : State) (slot o : Nat) : Place :=
  let r := slotOf s slot
  let pb := psBytes r.ps
  let w := wordOf s (r.first + o / pb)
  let x := o % pb
  let sp := if w.used then w.space else r.space
  match (if w.swap = 0 then none else pairOf s w) with
  | some p =>
    let n := x / 65536 + pairDelta s p w
    if decide (n < p.cursor) || (n = p.cursor && p.moved.getLsbD (x % 65536 / 128)) then
      ⟨spaceB p sp, w.frameB * 65536 + x⟩
    else ⟨sp, w.frameA * 65536 + x⟩
  | none => ⟨sp, w.frameA * 65536 + x⟩

/-- INFLT counts (R318). -/
def inflt (s : State) (slot : Nat) (up : Bool) : State :=
  mapSlot s slot fun r => { r with inflt := if up then r.inflt + 1 else r.inflt - 1 }

/-- Byte ranges have a byte in common. -/
def overlap (a n b m : Nat) : Bool := decide (0 < n) && decide (0 < m) && decide (a < b + m) && decide (b < a + n)

/-- Whether a place lies in a sealed run (R337). -/
def sealedPlace (s : State) (pl : Place) : Bool :=
  s.sealRuns.any fun r =>
    (pl.space = r.1) && decide (r.2.1 ≤ pl.addr) && decide (pl.addr < r.2.1 + r.2.2)

/-! ## Poison and codewords (R144, R397-R401) -/

/-- Valid erasure positions of a rank (R400); a malformed word is ignored whole. -/
def erasures (w : BitVec 32) : List Nat :=
  let l := ([0, 1, 2, 3].filter fun i => w.getLsbD (8 * i + 7)).map fun i => bits w.toNat (8 * i) 7
  if l.any (36 < ·) || l.eraseDups.length != l.length then [] else l

/-- Whether the errors of an atom are within 2t + e <= 4 (R398). -/
def correctable (list errs : List Nat) : Bool :=
  let e := (errs.filter list.contains).length
  let t := (errs.filter fun x => !list.contains x).length
  decide (2 * t + e ≤ 4)

def atomErr (s : State) (far : Bool) (a : Nat) : List Nat := tget [] (if far then s.farErr else s.nearErr) a
def rankList (s : State) (far : Bool) (a : Nat) : List Nat :=
  erasures (tget 0 s.erasure (Config.rankOf far a))

/-- The pseudo-channel of a near address (R393). -/
def pcOf (a : Nat) : Nat := 96 * bits a 37 4 + bits a 16 21 % 96

def farSpace (far : Bool) : Space := if far then .far else .near

/-- The number of the status word that counts an atom's errors (R393, R399; log 8). -/
def channelOf (far : Bool) (a : Nat) : Nat := if far then 1152 + Config.farChannel a else pcOf (32 * a)

/-- A gang pair's atom is 64 bytes (R395), of two codewords. -/
def gangAt (s : State) (a : Nat) : Bool := tget false s.gang (a / 131072)
def atomHalves (s : State) (far : Bool) (a : Nat) : List Nat := if !far && gangAt s (32 * a) then [2 * (a / 2), 2 * (a / 2) + 1] else [a]
/-- The bytes of the atom that a codeword is of. -/
def atomSpan (s : State) (far : Bool) (a : Nat) : Nat × Nat :=
  if !far && gangAt s (32 * a) then (64 * (a / 2), 64) else (32 * a, 32)

/-- An unreachable frame's atom (R408). -/
def atomLost (s : State) (far : Bool) (a : Nat) : Bool := s.lostFrames.contains (far, a / 2048)
/-- A codeword's poison bit is set, or it is uncorrectable. -/
def codewordBad (s : State) (far : Bool) (a : Nat) : Bool :=
  tget false (if far then s.farPoison else s.nearPoison) a || !correctable (rankList s far a) (atomErr s far a)
/-- An atom reads poisoned (R401); every atom of an unreachable frame does (R408). -/
def atomPoison (s : State) (far : Bool) (a : Nat) : Bool := atomLost s far a || (atomHalves s far a).any (codewordBad s far)

/-! ### Cache slices (spec 11, R254, R255) -/

/-- The 128-byte line of near or far memory that a place lies in. -/
def memLine (pl : Place) : Option (Bool × Nat) :=
  match pl.space with
  | .near => some (false, pl.addr / 128)
  | .far => some (true, pl.addr / 128)
  | _ => none

/-- The cluster whose turn it is: a core's party has one (R254). -/
def curCluster (s : State) : Option Nat := if isPorter s.cur then none else some (coreNo s.cur / 16)

/-- Where a slice holds a line: as its home, or as a replica. -/
def heldLine (s : State) (cluster : Nat) (replica : Bool) (l : Bool × Nat) : Option (Nat × Nat × SLine) :=
  ((tget [] s.slices cluster).find? fun e => decide (e.2.replica = replica ∧ e.2.far = l.1 ∧ e.2.line = l.2)).map fun e => (cluster, e.1, e.2)
def homeLine (s : State) (l : Bool × Nat) : Option (Nat × Nat × SLine) := heldLine s (Config.homeSlice l.1 l.2).toNat false l

/-- The held line that serves a read of a place: a replica in the reader's own cluster, else the home's (R254, R338; log 57). -/
def servingLine (s : State) (pl : Place) : Option (Nat × Nat × SLine) :=
  match s.slices, memLine pl with
  | [], _ => none
  | _, none => none
  | _, some l => ((curCluster s).bind fun c => heldLine s c true l).or (homeLine s l)

def mapLine (s : State) (cluster pos : Nat) (f : SLine → SLine) : State :=
  let t := tget [] s.slices cluster
  match t.find? fun e => decide (e.1 = pos) with
  | some e => { s with slices := tput s.slices cluster (tput t pos (f e.2)) }
  | none => s

/-- A held line's atom is poisoned as it came from memory, or as it was written since. -/
def lineAtomBad (s : State) (far : Bool) (a : Nat) (l : SLine) : Bool := (atomHalves s far a).any fun i => l.atoms.contains (i % 4)
/-- A byte's line stands in the slice that serves it with a double-bit error of its own (R255). -/
def lineMarked (s : State) (pl : Place) : Bool := ((servingLine s pl).map (·.2.2.poison)).getD false
/-- A byte of near or far memory reads poisoned: as its slice holds it, or else as memory does (R254). -/
def servedBad (s : State) (pl : Place) (far : Bool) : Bool :=
  let a := pl.addr / 32
  atomLost s far a || match servingLine s pl with
    | some (_, _, l) => l.poison || lineAtomBad s far a l
    | none => atomPoison s far a
/-- A place reads poisoned; host data as the host marks it (R402). -/
def placePoison (s : State) (pl : Place) : Bool :=
  match pl.space with
  | .near => servedBad s pl false
  | .far => servedBad s pl true
  | .hall => tget false (coreOf s (pl.addr / 2 ^ 20)).bad (pl.addr % 2 ^ 20 / 8)
  | .host => tget false s.hostPoison (pl.addr / 64)
  | .peer => false

/-- A field of a status word raised by one, saturating (R399). -/
def satInc (w lo width : Nat) : Nat := if bits w lo width = 2 ^ width - 1 then w else w + 2 ^ lo

/-- One read of an atom by the controller (R398): corrected and counted, or uncorrectable and counted. -/
def readAtom (s : State) (far : Bool) (a : Nat) : State :=
  match atomErr s far a with
  | [] => s
  | errs =>
    let ok := correctable (rankList s far a) errs
    let fix := ok && errs.any fun x => !(rankList s far a).contains x
    let pc := channelOf far a
    let w1 := satInc (tget 0 s.pcStat pc).toNat (if ok then 0 else 32) (if ok then 32 else 16)
    let s1 := { s with pcStat := tset 0 s.pcStat pc (BitVec.ofNat 64 w1) }
    if !fix then s1
    else if far then { s1 with farErr := tdel s1.farErr a } else { s1 with nearErr := tdel s1.nearErr a }

/-- The atoms a list of places touches, each once. -/
def atomsOf (pls : List Place) : List (Bool × Nat) :=
  (pls.filterMap fun p => match p.space with
    | .near => some (false, p.addr / 32)
    | .far => some (true, p.addr / 32)
    | _ => none).eraseDups

/-- The 8-byte units that a list of places touches: rows of a scratchpad, or units of lines. -/
def unitsOf (pls : List Place) : List Place := (pls.map fun p => (⟨p.space, p.addr / 8⟩ : Place)).eraseDups

/-- A unit holds a single-bit error: a scratchpad row, or a unit of a held line (R144, R255). -/
def softUnit (s : State) (u : Place) : Bool :=
  if u.space = .hall then tget false (coreOf s (8 * u.addr / 2 ^ 20)).soft (8 * u.addr % 2 ^ 20 / 8)
  else match servingLine s ⟨u.space, 8 * u.addr⟩ with
    | some (_, _, l) => l.soft.contains (u.addr % 16)
    | none => false

/-- A single-bit error in a unit that is read is corrected there, and counted (R144, R255). -/
def fixUnit (s : State) (u : Place) : State :=
  if !softUnit s u then s
  else if u.space = .hall then
    mapCore s (8 * u.addr / 2 ^ 20) fun c => { c with soft := tset false c.soft (8 * u.addr % 2 ^ 20 / 8) false, corrected := c.corrected + 1 }
  else match servingLine s ⟨u.space, 8 * u.addr⟩ with
    | some (c, pos, _) =>
      { mapLine s c pos (fun l => { l with soft := l.soft.filter (· != u.addr % 16) }) with
        sliceFixed := tset 0 s.sliceFixed c (tget 0 s.sliceFixed c + 1) }
    | none => s

/-- Places read: what a slice holds is read there, and any other atom by its controller (R254, R398). -/
def readAtoms (s : State) (pls : List Place) : State :=
  let s1 := (unitsOf pls).foldl fixUnit s
  ((atomsOf (pls.filter fun pl => (servingLine s pl).isNone)).flatMap fun a => (atomHalves s a.1 a.2).map fun i => (a.1, i)).eraseDups.foldl
    (fun s a => readAtom s a.1 a.2) s1

/-! ## Bytes -/

/-- The byte at a place; a peer byte is not this device's. -/
def rdByte (s : State) (pl : Place) : Byte :=
  match pl.space with
  | .near => mget s.near pl.addr
  | .far => mget s.far pl.addr
  | .hall => mget (coreOf s (pl.addr / 2 ^ 20)).mem (pl.addr % 2 ^ 20)
  | .host => mget s.host pl.addr
  | .peer => 0

/-- The tag of the 16-byte unit a place lies in (R143, R314). -/
def rdTag (s : State) (pl : Place) : Bool :=
  match pl.space with
  | .near => tget false s.nearTags (pl.addr / 16)
  | .far => tget false s.farTags (pl.addr / 16)
  | .hall => tget false (coreOf s (pl.addr / 2 ^ 20)).tags (pl.addr % 2 ^ 20 / 16)
  | _ => false

def wrTag (s : State) (pl : Place) (b : Bool) : State :=
  match pl.space with
  | .near => { s with nearTags := tset false s.nearTags (pl.addr / 16) b }
  | .far => { s with farTags := tset false s.farTags (pl.addr / 16) b }
  | .hall => mapCore s (pl.addr / 2 ^ 20) fun c => { c with tags := tset false c.tags (pl.addr % 2 ^ 20 / 16) b }
  | _ => s

/-- A write to bytes of a line that its home slice holds: the line is dirty (R254). -/
def dirtyLine (s : State) (pl : Place) : State :=
  match s.slices, memLine pl with
  | [], _ => s
  | _, none => s
  | _, some l => match homeLine s l with
    | some (c, pos, _) => mapLine s c pos fun l => { l with dirty := true }
    | none => s

/-- One byte stored; the tag of its unit is cleared (R137). -/
def putByte (s : State) (pl : Place) (b : Byte) : State :=
  match pl.space with
  | .near => { s with near := mset s.near pl.addr b, nearTags := tset false s.nearTags (pl.addr / 16) false }
  | .far => { s with far := mset s.far pl.addr b, farTags := tset false s.farTags (pl.addr / 16) false }
  | .hall => mapCore s (pl.addr / 2 ^ 20) fun c =>
      { c with mem := mset c.mem (pl.addr % 2 ^ 20) b, tags := tset false c.tags (pl.addr % 2 ^ 20 / 16) false }
  | .host => { s with host := mset s.host pl.addr b }
  | .peer => s
def wrByte (s : State) (pl : Place) (b : Byte) : State := dirtyLine (putByte s pl b) pl

def clearAtom (s : State) (far : Bool) (a : Nat) : State :=
  if far then { s with farPoison := tset false s.farPoison a false, farErr := tdel s.farErr a }
  else { s with nearPoison := tset false s.nearPoison a false, nearErr := tdel s.nearErr a }

def poisonAtom (s : State) (far : Bool) (a : Nat) : State :=
  if far then { s with farPoison := tset false s.farPoison a true } else { s with nearPoison := tset false s.nearPoison a true }

/-! ## Waiters on a memory word (spec 15, R364): a timeline passed is remembered -/

def word64 (s : State) (pl : Place) : Nat := leNat ((List.range 8).map fun i => rdByte s ⟨pl.space, pl.addr + i⟩)

/-- A value satisfies a threshold (R353). -/
def tlPassed (v th : Word) : Bool := !(v - th).getLsbD 63

def wakeTask (s : State) (t : Task) : Task :=
  match t.wait with
  | .timeline f slot off th none =>
    let pl := pinLookup s slot off
    let v := BitVec.ofNat 64 (word64 s pl)
    if pl.space != .peer && tlPassed v th then { t with wait := .timeline f slot off th (some v) } else t
  | _ => t

def wakeTimelines (s : State) : State := { s with tasks := s.tasks.map fun e => (e.1, wakeTask s e.2) }

/-! ## Writing: poison, tags and waiters -/

/-- A byte with a cell's bits put into it. -/
def blend (old byte mask : Byte) : Byte := (old &&& ~~~mask) ||| (byte &&& mask)

/-- Every byte of a span is among the written places. -/
def spanCovered (pls : List Place) (sp : Space) (a n : Nat) : Bool :=
  (List.range n).all fun i => pls.contains ⟨sp, a + i⟩

/-- An atom is poisoned where a write of it is served: in the home slice that holds its line, else in memory (R254). -/
def homeBad (s : State) (far : Bool) (a : Nat) : Bool :=
  match s.slices, homeLine s (far, a / 4) with
  | _ :: _, some (_, _, l) => atomLost s far a || lineAtomBad s far a l
  | _, _ => atomPoison s far a

/-- A partial write of a poisoned atom is dropped (R403); a whole one clears the poison (R401). -/
def atomDrops (s : State) (pls : List Place) : List (Bool × Nat) :=
  (atomsOf pls).filter fun a =>
    let sp := atomSpan s a.1 a.2
    homeBad s a.1 a.2 && !spanCovered pls (farSpace a.1) sp.1 sp.2
def atomClears (s : State) (pls : List Place) : List (Bool × Nat) :=
  (atomsOf pls).filter fun a => let sp := atomSpan s a.1 a.2; spanCovered pls (farSpace a.1) sp.1 sp.2

/-- An atom's poison set or cleared: of the line that its home slice holds, which writes it back when it leaves, else in memory (R254, R401). -/
def markAtom (s : State) (far : Bool) (a : Nat) (bad : Bool) : State :=
  match s.slices, homeLine s (far, a / 4) with
  | _ :: _, some (c, pos, _) => mapLine s c pos fun l =>
      { l with dirty := true, atoms := if bad then (if l.atoms.contains (a % 4) then l.atoms else l.atoms ++ [a % 4]) else l.atoms.filter (· != a % 4) }
  | _, _ => if bad then poisonAtom s far a else clearAtom s far a

/-- Scratchpad rows all of whose bytes are written lose their poison mark, or a single-bit error (R144). -/
def rowClears (pls : List Place) : List (Nat × Nat) :=
  ((pls.filterMap fun p => if p.space = .hall then some (p.addr / 8) else none).eraseDups.filter fun r =>
    spanCovered pls .hall (8 * r) 8).map fun r => (r / 131072, r % 131072)

/-- A held line all of whose bytes are written loses its mark, and a unit its single-bit error (R255). -/
def lineWritten (s : State) (pls : List Place) : State :=
  match s.slices with
  | [] => s
  | _ => (pls.filterMap memLine).eraseDups.foldl (fun s l =>
      match homeLine s l with
      | some (c, pos, _) => mapLine s c pos fun e => { e with
          poison := e.poison && !spanCovered pls (farSpace l.1) (128 * l.2) 128
          soft := e.soft.filter fun u => !spanCovered pls (farSpace l.1) (128 * l.2 + 8 * u) 8 }
      | none => s) s

/-- The bytes of one access written: what falls in a poisoned atom that is not written whole is dropped; poison, tags and timelines follow. -/
def wrCells (s : State) (cells : List (Place × Byte × Byte)) : State :=
  let pls := cells.map (·.1)
  let drops := atomDrops s pls
  let s1 := cells.foldl (fun s c =>
    if drops.contains (c.1.space = .far, c.1.addr / 32) && (c.1.space = .near || c.1.space = .far) then s
    else wrByte s c.1 (blend (rdByte s c.1) c.2.1 c.2.2)) s
  let s2 := (atomClears s pls).foldl (fun s a => markAtom s a.1 a.2 false) s1
  wakeTimelines ((rowClears pls).foldl (fun s r => mapCore s r.1 fun c =>
    { c with bad := tset false c.bad r.2 false, soft := tset false c.soft r.2 false }) (lineWritten s2 pls))

/-- `n` bytes of near memory written by the device itself; a waiter sees them as any other write (R353). DESIGN CHOICE (log 32): one that poison
drops is logged nowhere, as the queue that would take its item is what is written. -/
def wrNear (s : State) (a : Nat) (bs : List Byte) : State :=
  wrCells s ((List.range bs.length).map fun i => (⟨.near, a + i⟩, bs.getD i 0, 0xFF#8))
def rdNear (s : State) (a n : Nat) : Nat := leNat (mgetBytes s.near a n)

/-! ## The context's queues (R375) -/

/-- The function of a context (R417, R419): the virtual function of its number, of 8 vectors; a supervisor's queues, which management names, signal
the physical function, of 16 (log 29). -/
def pfNo : Nat := 64
def vfOf (ctx : Nat) : Nat := if ctx < 64 then ctx else pfNo
def vecOk (ctx vec : Nat) : Bool := decide (vec < if ctx < 64 then 8 else 16)

/-- A report of the management firmware (R416, R417, R424, R430; log 34): logged, and signalled by a vector of the physical function. -/
def report (s : State) (code : Nat) : State :=
  { s with mgmtLog := s.mgmtLog ++ [code], msix := s.msix ++ [(pfNo, (Config.reportVector code).toNat)] }

/-- An item appended to the queue whose control block stands at `ctrl` in near memory. -/
def queuePush (s : State) (ctx ctrl size : Nat) (item : List Byte) : State :=
  let n := 2 ^ (rdNear s (ctrl + 8) 1)
  let prod := rdNear s (ctrl + 16) 8
  let cons := rdNear s (ctrl + 24) 8
  if prod - cons < n then
    let s1 := wrNear s (rdNear s ctrl 8 + size * (prod % n)) item
    let s2 := wrNear s1 (ctrl + 16) (leBytes 8 (prod + 1))
    let vec := rdNear s (ctrl + 9) 1
    if prod = cons && vecOk ctx vec then { s2 with msix := s2.msix ++ [(vfOf ctx, vec)] } else s2
  else wrNear s (ctrl + 32) (leBytes 8 (rdNear s (ctrl + 32) 8 + 1))

/-- The CORE field of R168: die, cluster and core; Porter streams give the die only (R374). -/
def coreField (p : Party) : Nat := if isPorter p then dieNo p * 512 else coreNo p * 4

/-- The Unit field of R168; the Porter has none (log 12). -/
def unitField : Party → Nat
  | .slot _ n => n
  | .engine _ .copy => 4
  | .engine _ .matrix => 5
  | .engine _ .epilogue => 6
  | _ => 0xFF

/-- The word a task has in issue, or the record an engine stands at (R341). -/
def whereOf (s : State) (p : Party) : Nat :=
  match p with
  | .engine c e =>
    let k := coreOf s c
    (match e with | .copy => k.copyS | .matrix => k.matrixS | .epilogue => k.epiS).ridx
  | _ => (taskOf s p).here

/-- A token event (R341) to the party's context. -/
def logEventAt (s : State) (ctx kind unit core slot place : Nat) : State :=
  if (ctxOf s ctx).live then
    queuePush s ctx (ctxOf s ctx).params.evtq 16
      (leBytes 1 kind ++ leBytes 1 unit ++ leBytes 2 core ++ leBytes 4 slot ++ leBytes 8 place)
  else s
def logEvent (s : State) (p : Party) (kind slot place : Nat) : State :=
  logEventAt s (ctxNo s p) kind (unitField p) (coreField p) slot place

/-- An error item (R168). -/
structure ErrItem where
  kind : Nat
  core : Nat
  unit : Nat
  tile : Nat := 0xFF
  record : Nat := 0
  row : Nat := 0xFFFF
  col : Nat := 0xFFFF
  old : Nat := 0
  new : Nat := 0

def logErrorAt (s : State) (ctx : Nat) (e : ErrItem) : State :=
  if (ctxOf s ctx).live then
    queuePush s ctx (ctxOf s ctx).params.errq 32
      (leBytes 2 e.kind ++ leBytes 2 e.core ++ leBytes 1 e.unit ++ leBytes 1 e.tile ++ leBytes 2 0 ++ leBytes 4 e.record
        ++ leBytes 2 e.row ++ leBytes 2 e.col ++ leBytes 8 e.old ++ leBytes 8 e.new)
  else s
/-- PROD of the context's error queue. -/
def errProd (s : State) (ctx : Nat) : Nat :=
  if (ctxOf s ctx).live then rdNear s ((ctxOf s ctx).params.errq + 16) 8 else 0

/-- A CHK failure pending for a task (R167); the first keeps PROD as its item found it (R370). -/
def addChk (s : State) (p : Party) (detail : Nat) (prod : Nat) : State :=
  mapTask s p fun t =>
    { t with chk := t.chk ++ [detail], chkProd := if t.chk.isEmpty then BitVec.ofNat 64 prod else t.chkProd }

/-- A failure of a task's own access: the item logged, then the CHK pending. -/
def failTask (s : State) (p : Party) (e : ErrItem) (detail : Nat) : State :=
  addChk (logErrorAt s (ctxNo s p) e) p detail (errProd s (ctxNo s p))

/-! ## The race detector (spec 15, R349) -/

/-- The line of an access that the detector watches: of a scratchpad slice, or of a line held in a cache slice, as R349's Slot. -/
def seenLine (s : State) (pl : Place) : Option Nat :=
  if pl.space = .hall then some (pl.addr % 2 ^ 20 / 128) else (servingLine s pl).map (·.2.1)

/-- The accesses of a task word to the bytes `pls`, one for each line that is watched. -/
def seeAccess (s : State) (p : Party) (store : Bool) (pls : List Place) : State :=
  match p with
  | .slot _ _ =>
    let t := taskOf s p
    ((pls.map fun pl => (⟨pl.space, pl.addr / 128⟩ : Place)).eraseDups).foldl (fun s k =>
      match seenLine s ⟨k.space, 128 * k.addr⟩ with
      | none => s
      | some n =>
        let d := s.detector
        let e : Seen := ⟨d.no, t.run, t.ctx, unitField p, coreField p, t.here, n,
          pls.filter fun pl => decide (pl.space = k.space ∧ pl.addr / 128 = k.addr), store, tget 0 d.acqs t.run, none⟩
        { s with detector := { d with no := d.no + 1, log := d.log ++ [e] } }) s
  | _ => s

/-- A task makes a release or an acquire (R345), at whatever object and scope; the detector takes it for both, and as a release of what any task has
accessed from its slot too (log 35). -/
def noteOrder (s : State) (p : Party) : State :=
  match p with
  | .slot _ _ =>
    let d := s.detector
    let run := (taskOf s p).run
    let mine (e : Seen) : Bool := decide (e.run = run ∨ e.unit = unitField p ∧ e.core = coreField p) && e.rel.isNone
    { s with detector := { d with
      no := d.no + 1, acqs := tput d.acqs run d.no, log := d.log.map fun e => if mine e then { e with rel := some d.no } else e } }
  | _ => s

/-- Two accesses certainly race (R346): of different tasks of a context, to a common byte, one a store, and no release of the earlier's task
after it comes before the last acquire of the later's. -/
def racing (a b : Seen) : Bool :=
  decide (a.no < b.no) && decide (a.ctx = b.ctx) && decide (a.run ≠ b.run) && decide ((a.unit, a.core) ≠ (b.unit, b.core))
    && (a.store || b.store) && (a.bytes.any fun pl => b.bytes.contains pl)
    && (match a.rel with | none => true | some r => decide (b.acq ≤ r))

/-- The detector reports a pair it has found, once: two items of kind 6, the earlier access first. -/
def reportRace (s : State) (i j : Nat) : State :=
  let d := s.detector
  match d.log.find? (fun e => decide (e.no = i)), d.log.find? (fun e => decide (e.no = j)) with
  | some a, some b =>
    if racing a b && !d.told.contains (i, j) then
      let log (s : State) (e : Seen) : State := logEventAt s e.ctx 6 e.unit e.core e.line e.place
      log (log { s with detector := { d with told := d.told ++ [(i, j)] } } a) b
    else s
  | _, _ => s

/-! ## Lines taken in and given up by a cache slice (spec 11, R254, R255) -/

/-- Every byte of the line lies in a sealed run (R338). -/
def lineSealed (s : State) (far : Bool) (line : Nat) : Bool :=
  (List.range 128).all fun i => sealedPlace s ⟨farSpace far, 128 * line + i⟩

/-- A slice takes in a line, read from memory with the poison of its atoms: its home, or, of a sealed line, any as a replica; each line of a slice
stands in one way of its set. -/
def lineIn (s : State) (far : Bool) (line way : Nat) (replicaAt : Option Nat) : State :=
  let c := (replicaAt.map (· % 32)).getD (Config.homeSlice far line).toNat
  let pos := 16 * (Config.lineSet far line).toNat + way % 16
  let t := tget [] s.slices c
  if (t.any fun e => decide (e.1 = pos ∨ e.2.far = far ∧ e.2.line = line)) || (replicaAt.isSome && !lineSealed s far line) then s
  else
    let atoms := (List.range 4).map (4 * line + ·)
    let s1 := atoms.foldl (fun s a => readAtom s far a) s
    { s1 with slices := tput s1.slices c (tput t pos ⟨far, line, false, replicaAt.isSome, false, [], (atoms.filter (atomPoison s far)).map (· % 4)⟩) }

/-- A slice gives up a line; a dirty one is written back, with its own poison or its atoms' (R255, R401). -/
def lineOut (s : State) (c pos : Nat) : State :=
  let t := tget [] s.slices c
  match t.find? fun e => decide (e.1 = pos) with
  | none => s
  | some (_, l) =>
    let s1 := { s with slices := tset [] s.slices c (tdel t pos) }
    if !l.dirty then s1
    else (List.range 4).foldl (fun s i =>
      if l.poison || l.atoms.contains i then poisonAtom (clearAtom s l.far (4 * l.line + i)) l.far (4 * l.line + i) else clearAtom s l.far (4 * l.line + i)) s1

/-- Replicas of lines that are no longer sealed are given up (R339). -/
def dropReplicas (s : State) : State :=
  { s with slices := (s.slices.map fun e => (e.1, e.2.filter fun l => !l.2.replica || lineSealed s l.2.far l.2.line)).filter fun e => !e.2.isEmpty }

/-! ## Poison that a task meets (R144, R402) -/

/-- A task's load or atomic that meets poison: nothing of it is delivered, an item is logged and a CHK is pending: as R144 has it for a scratchpad
row, and with its DETAIL 2 for a line that its slice marks (R255; log 57), as R402 has it for every other. -/
def poisonMet (s : State) (p : Party) (slot off : Nat) (pl : Place) : State :=
  let base : ErrItem := { kind := 10, core := coreField p, unit := unitField p, record := slot, old := off }
  if pl.space = .hall then failTask s p { base with kind := 4, record := whereOf s p, old := pl.addr / 8 * 8 } 2
  else failTask s p base (if lineMarked s pl then 2 else 6)

/-! ## The checks of an access (R132) -/

/-- What a check answers: the flag to set (0 passes), and the event to log. -/
structure Chk where
  flag : BitVec 8
  ev : Nat
  deriving DecidableEq, Repr, Inhabited

def chkOk : Chk := ⟨0, 0⟩

/-- Tag, generation and permission (R132, stage 1 of R195). -/
def checkTok (s : State) (k : KReg) (perm : Bool) : Chk :=
  if !kCurrent s k then ⟨fST, 1⟩ else if !perm then ⟨fXB, 2⟩ else chkOk

/-- Extent and, for a store, the seal (R132, stage 2 of R195). -/
def checkExt (s : State) (k : KReg) (off : Int) (size : Nat) (store : Bool) : Chk :=
  if off < 0 ∨ (kLen k : Int) < off + size then ⟨fXB, 0⟩
  else if store && (List.range size).any fun i => sealedPlace s (pinLookup s (kSlot k) (kBase k + off.toNat + i)) then
    ⟨fSX, 3⟩
  else chkOk

def access (s : State) (k : KReg) (off : Int) (size : Nat) (store : Bool) : Chk :=
  let c := checkTok s k (if store then kW k else kR k)
  if c.flag != 0 then c else checkExt s k off size store

/-- The event of a failed check, logged. -/
def logChk (s : State) (p : Party) (k : KReg) (c : Chk) : State :=
  if c.ev = 0 then s else logEvent s p c.ev (kSlot k) (whereOf s p)

/-- The place of a byte of a token's extent. -/
def kPlace (s : State) (k : KReg) (off : Nat) : Place := pinLookup s (kSlot k) (kBase k + off)

/-! ## Reading with the task's own posted stores (R133) -/

/-- The byte that a multicast has still to place at a place. -/
def mcastByte (e : Store) (pl : Place) : Option Byte :=
  match e.act with
  | .mcast _ _ len dest data cores =>
    let o := pl.addr % 2 ^ 20
    if pl.space = .hall && cores.contains (pl.addr / 2 ^ 20) && decide (dest ≤ o) && decide (o < dest + len) then some (data.getD (o - dest) 0)
    else none
  | _ => none

/-- The byte at a place as the task sees it: its own posted stores in issue order. -/
def ownByte (s : State) (stores : List Store) (pl : Place) : Byte :=
  stores.foldl (fun b st =>
      st.cells.foldl (fun b c => if pinLookup s c.slot c.off = pl then blend b c.byte c.mask else b) ((mcastByte st pl).getD b))
    (rdByte s pl)

/-- Whether one of the task's posted stores covers a byte. -/
def ownCovers (s : State) (stores : List Store) (pl : Place) : Bool :=
  stores.any fun st => (mcastByte st pl).isSome || st.cells.any fun c => decide (pinLookup s c.slot c.off = pl)

/-- The tag of a unit as the task sees it. -/
def ownTag (s : State) (stores : List Store) (pl : Place) : Bool :=
  stores.foldl (fun b st =>
    if (mcastByte st pl).isSome then false
    else if st.cells.any fun c => decide ((pinLookup s c.slot c.off).space = pl.space) &&
        decide ((pinLookup s c.slot c.off).addr / 16 = pl.addr / 16) then
      (match st.act with | .token _ _ t => t | _ => false)
    else b) (rdTag s pl)

/-! ## Writing -/

/-- The PHASE bit of the barrier object at a hall address (spec 15, R350). -/
def phaseAt (s : State) (hall : Nat) : Bool := (rdByte s ⟨.hall, hall + 15⟩).getLsbD 7

/-- Continuation records become resumable when the phase differs from the one recorded (spec 04, R128). -/
def latchConts (s : State) : State :=
  let fix (c : Cont) : Cont := if c.ready || 2 ^ 63 ≤ c.bar || phaseAt s c.bar = c.phase then c else { c with ready := true }
  { s with dies := s.dies.map fun d =>
      (d.1, { d.2 with launches := d.2.launches.map fun l =>
        (l.1, if l.2.switched then l.2 else { l.2 with conts := l.2.conts.map fix }) }) }

/-- Bytes written to places by `p` (one access); the log item of a dropped partial write is of kind 11 (R403, R415). -/
def wrPlaces (s : State) (p : Party) (slot off : Nat) (cells : List (Place × Byte × Byte)) : State :=
  latchConts ((atomDrops s (cells.map (·.1))).foldl (fun s _ => logErrorAt s (ctxNo s p)
    { kind := 11, core := coreField p, unit := unitField p, record := slot, old := off }) (wrCells s cells))

/-- A token's extent written from byte `off` by the device or an engine. -/
def wrExtent (s : State) (p : Party) (k : KReg) (off : Nat) (bs : List Byte) : State :=
  wrPlaces s p (kSlot k) (kBase k + off)
    ((List.range bs.length).map fun i => (kPlace s k (off + i), bs.getD i 0, 0xFF#8))
/-- A token's extent read. -/
def rdExtent (s : State) (k : KReg) (off n : Nat) : List Byte := (List.range n).map fun i => rdByte s (kPlace s k (off + i))

end Sys2Proof.Machine
end

