-- ==== Sys2Proof/Machine/Operands.lean ====
section
/-! DEFINITION. Operand forms (spec 01 R25, R31, R32; spec 02 R50, R52, R58, R62, R65; spec 04 R101;
spec 06 R173-R175): registers, stairs, constants and groups read at issue. -/

namespace Sys2Proof.Machine

/-- The destination a specifier names. -/
def destOf (s : SpecBits) : Dest :=
  match clsOf s with
  | .x => .x (regNo s) | .v => .v (regNo s) | .k => .k (regNo s) | .m => .m (regNo s) | .q => .q (regNo s)
  | .o => .o (regNo s) | _ => .none

/-- A register that an asynchronous operation writes, until the wait that covers it has returned (R58). -/
def pendingDest (t : Task) (d : Dest) : Bool :=
  t.asyncs.any (fun a => a.parts.any fun p => decide (p.1 = d)) || t.exchs.any (fun e => e.load && decide (Dest.v e.dest = d))
    || t.late.any fun l => l.dests.any fun q => decide (q.1 = d)

/-- A vector register that an `epiv` fills, and whose task has not waited since (R229). -/
def drainedReg (s : State) (p : Party) (n : Nat) : Bool :=
  (coreOf s (coreNo p)).drains.any fun d =>
    d.slot = slotNo p && d.run = (taskOf s p).run && !isPorter p && decide (d.first ≤ n ∧ n < d.first + d.count)

/-- A register whose value is not to be relied on: an asynchronous load (R58) or an `epiv` (R229) is to write it. -/
def unsureReg (s : State) (p : Party) (d : Dest) : Bool :=
  pendingDest (taskOf s p) d || match d with | .v n => drainedReg s p n | _ => false

/-- The free value a pending register reads as (R58, R229, R7). -/
def pendBits (w : Nat) (s : State) (sp : SpecBits) : BitVec w := Config.freeBits w (256 * s.freeNo + sp.toNat)

/-- The seven constants read as 64 bits (R32); `#0.5` has no such value and is refused before. -/
def constWord (sp : SpecBits) : Word := BitVec.ofInt 64 (constNum sp).1

/-- A scalar operand's 64 bits; an absent one reads 0. -/
def rdScal (s : State) (p : Party) (sp : SpecBits) : Word :=
  let t := taskOf s p
  match clsOf sp with
  | .t => ((t.t[regNo sp]?).map (·.val)).getD 0
  | .x => if unsureReg s p (.x (regNo sp)) then pendBits 64 s sp else tget 0 t.x (regNo sp)
  | .c => constWord sp
  | _ => 0

def freshV : VReg := ⟨0, tyNone⟩

/-- A vector operand. DEDUCED (log 52): R58 makes the value of a pending register unpredictable and is silent on its tag, which reads as it stands, so
that a typed read may raise FMT by it. -/
def rdVec (s : State) (p : Party) (sp : SpecBits) : VReg :=
  let t := taskOf s p
  match clsOf sp with
  | .w => ((t.w[regNo sp]?).map (·.reg)).getD freshV
  | .v =>
    let r := tget freshV t.v (regNo sp)
    if unsureReg s p (.v (regNo sp)) then ⟨pendBits 4096 s sp, r.tag⟩ else r
  | _ => freshV

def rdTok (s : State) (p : Party) (sp : SpecBits) : KReg := tget noTok (taskOf s p).k (regNo sp)
def rdMaskNo (t : Task) (n : Nat) : Mask := if n = 0 then BitVec.allOnes 1024 else tget 0 t.m n
def rdMask (s : State) (p : Party) (sp : SpecBits) : Mask := rdMaskNo (taskOf s p) (regNo sp)
def rdSer (s : State) (p : Party) (sp : SpecBits) : Series := tget 0 (taskOf s p).q (regNo sp)
def rdOrd (s : State) (p : Party) (sp : SpecBits) : Word := tget 0 (taskOf s p).o (regNo sp)

/-- `sread` (R101) before its modifier: a constant is exact in its declared type. -/
def scalVal (s : State) (p : Party) (ty : TyCode) (sp : SpecBits) : Xv :=
  if clsOf sp = .c then
    let c := constNum sp
    if tyFloat ty then .fl (.fin (c.1 < 0) c.1.natAbs c.2 0) else .int c.1
  else xRead ty (rdScal s p sp).toNat

/-- `sread` of R101. -/
def sread (s : State) (p : Party) (ty : TyCode) (sp : SpecBits) (m : BitVec 2) : Xv := xMod m (scalVal s p ty sp)

/-- The integer of an integer operand. -/
def Xv.toInt : Xv → Int
  | .int i => i
  | .fl _ => 0
/-- The exact value of a floating operand. -/
def Xv.toFl : Xv → Fl
  | .fl f => f
  | .int i => flOfInt i

/-- A constant's pattern in a type, for the entries that move or combine bits (R181, R189). -/
def constPattern (ty : TyCode) (sp : SpecBits) : Nat :=
  let c := constNum sp
  if tyFloat ty then (flRound ty ⟨0, 0⟩ 0 (.fin (c.1 < 0) c.1.natAbs c.2 0)).1 else wrap (tyWidth ty) c.1

/-- The bit patterns of a source's elements under a declared type, a scalar broadcast (R173). -/
def srcBits (s : State) (p : Party) (ty : TyCode) (sp : SpecBits) : List Nat :=
  match clsOf sp with
  | .w | .v => splitW (tyWidth ty) (elems ty) (rdVec s p sp).data.toNat
  | .c => List.replicate (elems ty) (constPattern ty sp)
  | _ => List.replicate (elems ty) ((rdScal s p sp).toNat % 2 ^ tyWidth ty)

/-- `vread` of R174: the elements with the modifier applied exactly. -/
def vread (s : State) (p : Party) (ty : TyCode) (sp : SpecBits) (m : BitVec 2) : List Xv :=
  match clsOf sp with
  | .w | .v => (splitW (tyWidth ty) (elems ty) (rdVec s p sp).data.toNat).map fun b => xMod m (xRead ty b)
  | _ => List.replicate (elems ty) (sread s p ty sp m)

/-- The specifiers of a group, part 0 first (R175). -/
def groupSpecs (k : Nat) (sp : SpecBits) : List SpecBits :=
  match clsOf sp with
  | .w => (List.range k).map fun j => sp - BitVec.ofNat 7 j
  | _ => (List.range k).map fun j => sp + BitVec.ofNat 7 j

/-- `lane(e)` of R8: the predicate mask's bit, or true when the word is unpredicated. -/
def laneMask (s : State) (p : Party) (pr : BitVec 3) : Mask :=
  if pr = 0 then BitVec.allOnes 1024 else rdMaskNo (taskOf s p) pr.toNat
def lanesOf (s : State) (p : Party) (pr : BitVec 3) (n : Nat) : List Bool :=
  (List.range n).map fun e => (laneMask s p pr).getLsbD e

/-! ## What a word reads: fields for EXP, FMT and CHK (R62, R65, R165) -/

/-- A field read: its code (1 A, 2 B, 3 C, 4 D as data, 5 X or CNT), its specifier, and the tag the entry
declares for it, if it declares one. -/
structure Rd where
  field : Nat
  spec : SpecBits
  tag : Option TyCode := none
  deriving DecidableEq, Repr, Inhabited

/-- A stair entry that has expired (R62). -/
def lifeOver : Life → Bool
  | .expired => true
  | .left 0 => true
  | _ => false

def rdExpired (t : Task) (r : Rd) : Bool :=
  match clsOf r.spec with
  | .t => ((t.t[regNo r.spec]?).map fun e => lifeOver e.life).getD false
  | .w => ((t.w[regNo r.spec]?).map fun e => lifeOver e.life).getD false
  | _ => false

def rdMistagged (s : State) (p : Party) (r : Rd) : Bool :=
  match r.tag with
  | none => false
  | some g => cVec.contains (clsOf r.spec) && (rdVec s p r.spec).tag != g

/-- A named register whose stored word holds an uncorrectable error (R165); `m0` is no stored word. -/
def rdBroken (t : Task) (r : Rd) : Bool := clsOf r.spec != .c && clsOf r.spec != .none && t.rfErr.contains r.spec.toNat

/-- The bank of the gain-cell file that a read falls on (R61): named register n lies in bank n mod 8, and so does the stair entry of age n
once it has been copied, which a short-lived one never is and any other is after 16 issue cycles. -/
def rdBank (t : Task) (r : Rd) : Option Nat :=
  let n := regNo r.spec
  let copied (l : Life) : Bool := match l with | .lasting a => decide (16 < a) | _ => false
  match clsOf r.spec with
  | .x | .v | .k | .q | .o | .m => some (n % 8)
  | .t => (t.t[n]?).bind fun e => if copied e.life then some (n % 8) else none
  | .w => (t.w[n]?).bind fun e => if copied e.life then some (n % 8) else none
  | _ => none

/-- The read of a predicate mask (R8); without a predicate there is none. -/
def maskRd (p : BitVec 3) : List Rd := if p = 0 then [] else [{ field := 0, spec := 0x70 + p.setWidth 7 }]

/-- The reads of a source group (R175). -/
def rdGroup (field k : Nat) (sp : SpecBits) (g : Option TyCode) : List Rd :=
  (groupSpecs k sp).map fun x => { field := field, spec := x, tag := g }

/-- Whether an operand is a register with a pending asynchronous write (its read takes a free value). -/
def rdPending (s : State) (p : Party) (r : Rd) : Bool := (unsureReg s p (destOf r.spec) && destOf r.spec != .none) || r.spec == 0x7C

/-! ## Tokens and offsets of format M (R14) -/

/-- The element offset X + IMM21 as a signed sum; X is read as 64-bit signed. -/
def elemOff (s : State) (p : Party) (f : FmtM) : Int := (rdScal s p f.x).toInt + f.imm.toInt

def fmKReg (s : State) (p : Party) (f : FmtM) : KReg := tget noTok (taskOf s p).k f.k.toNat

/-- Byte offset and whether the high nibble is meant (R14). -/
def byteOff (ty : TyCode) (o : Int) : Int × Bool :=
  if tyWidth ty = 4 && ty != tyLs4 then (o / 2, o % 2 = 1)
  else if ty = tyLs4 then (168 * o, false)
  else (o * (tyWidth ty / 8 : Nat), false)

/-- Bytes an element occupies. -/
def tyBytes (ty : TyCode) : Nat := if ty = tyLs4 then 168 else max 1 (tyWidth ty / 8)

end Sys2Proof.Machine
end

