-- ==== Sys2Proof/Machine/Flags.lean ====
section
/-! DEFINITION. The sticky flags (spec 02 R56, R69; spec 03 R95): what a result's elements raise, gathered over true
lanes, and how a landing ORs it in. -/

namespace Sys2Proof.Machine

/-- The flags of the elements in true lanes (R95). -/
def laneFlags : List Bool → List (BitVec 8) → BitVec 8
  | l :: ls, f :: fs => flagIf l f ||| laneFlags ls fs
  | _, _ => 0

/-- A landing result's flags ORed into `flags` (R69). -/
def orFlags (t : Task) (f : BitVec 8) : Task := { t with flags := t.flags ||| f }

/-- The bits a `csrw` of `flags` leaves (R69: reserved bits are ignored). -/
def writeFlags (t : Task) (v : Word) : Task := { t with flags := v.setWidth 8 }

/-- The rounding mode field of `fmode` (R70). -/
def rmOf (t : Task) : Nat := t.fmode.toNat % 8
/-- SEED (R70). -/
def seedOf (t : Task) : Nat := t.fmode.toNat / 2 ^ 32

/-- The draws of a word that rounds `n` results, element 0 first; without sr they are not used (R91). -/
def drawsFor (t : Task) (n : Nat) : List Nat := if rmOf t = 5 then draws n (seedOf t) else List.replicate n 0

/-- SEED after `n` advances under sr (R91). -/
def advanceSeed (t : Task) (n : Nat) : Task :=
  if rmOf t = 5 then { t with fmode := BitVec.ofNat 64 (lfsrN n (seedOf t) * 2 ^ 32 + t.fmode.toNat % 2 ^ 32) } else t

/-- `fmode` as written (R70): SEED 0 stores 1. -/
def fmodeWritten (v : Word) : Word := if v.toNat / 2 ^ 32 = 0 then v ||| 0x100000000#64 else v

end Sys2Proof.Machine
end

