-- ==== Sys2Proof/Machine/Pins.lean ====
section
/-! DEFINITION. Making a slot of the pin store (spec 13, R319, R325, R340; spec 16, R379, R380; spec 12, R277): owners of frames, free slots and
words, pages that are moving, and the token of a core's own slice. -/

namespace Sys2Proof.Machine

/-! ## Slots and pin-frame words (R325) -/

/-- The lowest free slot. -/
def freeSlotNo (s : State) : Option Nat :=
  let cands := 0 :: (s.slots.map fun e => e.1 + 1)
  (cands.filter fun n => decide (n < 65536) && (slotOf s n).state = .free).foldl
    (fun m n => match m with | none => some n | some k => some (min k n)) none

/-- The first gap of `n` free words. -/
def freeWords (s : State) (n : Nat) : Option Nat :=
  let used := (s.words.filter fun e => e.2.used).map (·.1)
  let cands := 0 :: used.map (· + 1)
  (cands.filter fun c => decide (c + n ≤ 262144) && !used.any fun u => decide (c ≤ u) && decide (u < c + n)).foldl
    (fun m c => match m with | none => some c | some k => some (min k c)) none

/-- The recorded owner of a near or far frame, plus 1 (R340). -/
def ownerKey (far : Bool) (frame : Nat) : Nat := 2 * frame + far.toNat

/-- Table entries whose key, times `unit` bytes, lies in a frame, removed. -/
def dropFrame {α : Type} (t : Table α) (unit frame : Nat) : Table α := t.filter fun e => e.1 * unit / 65536 != frame

/-- The lines of a frame leave their slices (R340). -/
def dropLines (s : State) (far : Bool) (frame : Nat) : State :=
  { s with slices := (s.slices.map fun e => (e.1, e.2.filter fun l => l.2.far != far || l.2.line / 512 != frame)).filter fun e => !e.2.isEmpty }

/-- A frame zeroed for a new owner, tags and poison included. -/
def zeroFrame (s0 : State) (far : Bool) (frame : Nat) : State :=
  let s := dropLines s0 far frame
  if far then
    { s with far := dropFrame s.far 1 frame, farTags := dropFrame s.farTags 16 frame, farPoison := dropFrame s.farPoison 32 frame
             farErr := dropFrame s.farErr 32 frame }
  else
    { s with near := dropFrame s.near 1 frame, nearTags := dropFrame s.nearTags 16 frame
             nearPoison := dropFrame s.nearPoison 32 frame, nearErr := dropFrame s.nearErr 32 frame }

def claimFrame (s : State) (ctx : Nat) (far : Bool) (frame : Nat) : State :=
  if tget 0 s.owners (ownerKey far frame) = ctxField ctx + 1 then s
  else { zeroFrame s far frame with owners := tput s.owners (ownerKey far frame) (ctxField ctx + 1) }

def claimPage (s : State) (ctx : Nat) (sp : Space) (pa size : Nat) : State :=
  match sp with
  | .near | .far => (List.range (size / 65536)).foldl (fun s i => claimFrame s ctx (sp = .far) (pa / 65536 + i)) s
  | _ => s

/-- A page fault (R326): DETAIL, LEVEL with bit 7 for stage two, guest-physical address. -/
structure PFault where
  detail : Nat
  level : Nat
  gpa : Nat
  deriving DecidableEq, Repr, Inhabited

/-- What a translation comes to. -/
inductive Xlat where
  | fail
  | fault (l : List (Nat × PFault))
  | full
  | done (s : State) (k : KReg)

/-- The debug block of a party's launch. -/
def launchDebug (s : State) (p : Party) : Debug :=
  match (taskOf s p).launch with
  | some (d, l) => (launchOf s d l).dbg
  | none => default

/-- The watched bytes of an extent (R380): entry, offset in the slot's extent, length, kinds R and W. -/
def watchOf (d : Debug) (va len origin : Nat) : List (Nat × Nat × Nat × Nat) :=
  d.watches.filterMap fun w =>
    if overlap va len w.2.1 w.2.2.1 && w.2.2.2 % 4 != 0 then
      let lo := max va w.2.1
      some (w.1, lo - origin, min (va + len) (w.2.1 + w.2.2.1) - lo, w.2.2.2 % 4)
    else none

/-- A pin word that names a frame of an open swap pair, in which the frames [frame, frame + n) lie whole, or in part. -/
def movingWord (s : State) (sp : Space) (frame n : Nat) (whole : Bool) : Option PinWord :=
  (s.words.find? fun w => w.2.used && w.2.swap != 0 && decide (w.2.space = sp) &&
    (let m := psBytes w.2.ps / 65536
     if whole then decide (w.2.frameA ≤ frame ∧ frame + n ≤ w.2.frameA + m) else overlap frame n w.2.frameA m)).map (·.2)

/-- A new word of a page that is moving moves with it (R319, R405; log 40). -/
def joinSwap (s : State) (w : PinWord) : PinWord :=
  match movingWord s w.space w.frameA (psBytes w.ps / 65536) true with
  | some m => { w with swap := m.swap, frameB := m.frameB + (w.frameA - m.frameA), pair := m.pair }
  | none => w
/-- Its pair counts it, and its slot, unless the pair has been abandoned. -/
def joinPair (s : State) (slot word : Nat) : State :=
  match (wordOf s word).pair with
  | none => s
  | some (d, n) =>
    let ended := (pairOf s (wordOf s word)).any (·.abandoned)
    let s1 := mapDie s d fun e => { e with pairs := tput e.pairs n (let p := tget ⟨[], false, 0, 0, 0, false, false, 0⟩ e.pairs n; { p with words := p.words ++ [(slot, word)] }) }
    if ended then s1 else inflt s1 slot true

/-- A slot made of words: `ws` lists each word's page address, TP, MT, leaf, VA and leaf's page size. A page of which only a part is moving waits (log 40). -/
def makeSlot (s : State) (p : Party) (ctx : Nat) (sp : Space) (ps va len pk : Nat) (ws : List (Nat × Bool × Nat × Nat × Nat × Nat)) :
    Xlat :=
  let size := psBytes ps
  let n := ws.length
  if ws.any fun w => (movingWord s sp (w.1 / 65536) (size / 65536) false).isSome && (movingWord s sp (w.1 / 65536) (size / 65536) true).isNone then .full
  else match freeSlotNo s, freeWords s n with
  | some slot, some first =>
    let s1 := ws.foldl (fun s w => claimPage s ctx sp w.1 size) s
    let words := ((List.range n).zip ws).foldl (fun t e =>
      tput t (first + e.1) (joinSwap s ⟨true, sp, ps, 0, e.2.2.1, e.2.2.2.1, 0, e.2.1 / 65536, e.2.2.2.2.1, e.2.2.2.2.2.1, e.2.2.2.2.2.2, none⟩)) s1.words
    let old := slotOf s1 slot
    let watch := watchOf (launchDebug s p) va len (va / size * size)
    let rec_ : PinSlot := ⟨old.gen, .live, ps, ctx, first, n - 1, sp, 0, n * size, watch, false, false⟩
    let s2 := { s1 with
      words := words
      slots := tput s1.slots slot rec_
      pinCold := (s1.pinCold.filter fun e => e.2 != slot) ++ (List.range 32).map fun c => (c, slot) }
    .done ((List.range n).foldl (fun s i => joinPair s slot (first + i)) s2)
      (mkTok slot old.gen (spaceCode sp) (BitVec.ofNat 4 pk) len (va % size))
  | _, _ => .full

/-- The token of a core's own slice (R277), made when its first task needs one; none while the pin store has no room for it (log 25). -/
def sliceTok (s : State) (core ctx : Nat) : Option (State × KReg) :=
  match (coreOf s core).sliceSlot.filter fun n => (slotOf s n).state = .live && (slotOf s n).ctx = ctx with
  | some n => some (s, mkTok n (slotOf s n).gen 2 0xF (2 ^ 20) (core * 2 ^ 20 % 65536))
  | none =>
    let va := 0xFFFFFFFFE0000000 + core * 2 ^ 20
    match makeSlot s (.slot core 0) ctx .hall 0 va (2 ^ 20) 15
        ((List.range 16).map fun i => (core * 2 ^ 20 + 65536 * i, true, 0, 0, va + 65536 * i, 0)) with
    | .done s1 k => some (mapCore s1 core fun c => { c with sliceSlot := some (kSlot k) }, k)
    | _ => none

/-- `k0` to `k7` of a task (R277). -/
def argToks (s : State) (core : Nat) (e : Launch) : Option (State × Table KReg) :=
  (if e.argmode = 0 then some (s, noTok) else sliceTok s core e.ctx).map fun x =>
    (x.1, (List.range 8).foldl (fun k n => tset noTok k n (kClean x.1 (if e.argmode.getLsbD n then x.2 else e.args.getD n noTok))) [])

end Sys2Proof.Machine
end

