-- ==== Sys2Proof/Machine/Ops.lean ====
section
/-! DEFINITION. The shared operations of a task: results landing and issue cycles (spec 02 R52-R60), tick
bits (spec 01 R29, R30), hardware loops (R72-R75), the Gallery's records (spec 16 R383-R385),
taking a trap and returning from one (spec 16 R367-R374), and the one frame in which every task
word issues (R35, R66). -/

namespace Sys2Proof.Machine

/-! ## Tick queues (spec 05, R156) and signals (R29) -/

def engCode : Engine → Nat
  | .copy => 2 | .matrix => 3 | .epilogue => 4

/-- Key of a tick queue; the task is 1. -/
def tickKey (prod cons : Nat) : Nat := 4 * prod + cons
def ticksOf (c : Core) (prod cons : Nat) : Nat := tget 0 c.ticks (tickKey prod cons)
def setTicks (c : Core) (prod cons n : Nat) : Core := { c with ticks := tset 0 c.ticks (tickKey prod cons) n }

/-- A store of an earlier word than that of signal `i` has still to be performed: a tick is a release (R345). -/
def storeBefore (stores : List Store) (i : Nat) : Bool := stores.any fun e => decide (e.seq ≤ i)

/-- Signals of completed words pushed in order, per queue, while they fit (R29) and every earlier store is performed (R345). -/
def flushGo (stores : List Store) (c : Core) : List (Nat × Engine × Bool) → Bool → Bool → Core × List (Nat × Engine × Bool)
  | [], _, _ => (c, [])
  | (i, e, done) :: r, bc, be =>
    let blocked := if e = .copy then bc else be
    if done && !blocked && !storeBefore stores i && decide (ticksOf c 1 (engCode e) < 32) then
      flushGo stores (setTicks c 1 (engCode e) (ticksOf c 1 (engCode e) + 1)) r bc be
    else
      let x := flushGo stores c r (bc || e = .copy) (be || e != .copy)
      (x.1, (i, e, done) :: x.2)

def flushSigs (s : State) (p : Party) : State :=
  match (taskOf s p).sigq with
  | [] => s
  | q =>
    let x := flushGo (taskOf s p).stores (coreOf s (coreNo p)) q false false
    mapTask (putCore s (coreNo p) x.1) p fun t => { t with sigq := x.2 }

/-- The words with these signals have completed. -/
def completeSigs (s : State) (p : Party) (ids : List Nat) : State :=
  match ids with
  | [] => s
  | _ => flushSigs (mapTask s p fun t =>
      { t with sigq := t.sigq.map fun e => if ids.contains e.1 then (e.1, e.2.1, true) else e }) p

/-- A completed word's tick that waits for nothing but room in its queue: the slot freezes (R29). -/
def heldTick (t : Task) : Bool := t.sigq.any fun e =>
  e.2.2 && !storeBefore t.stores e.1 && !(t.sigq.any fun g => decide (g.1 < e.1) && decide (g.2.1 = e.2.1) && !g.2.2)

/-! ## Landing (R52, R53, R56) -/

def pushT (t : Task) (v : Word) (short : Bool) : Task :=
  { t with t := (⟨v, if short then .left 16 else .lasting 0⟩ :: t.t).take 16 }
def pushW (t : Task) (v : VReg) (short : Bool) : Task :=
  { t with w := (⟨v, if short then .left 16 else .lasting 0⟩ :: t.w).take 16 }

/-- A word that writes a destination of an asynchronous operation before its covering wait has returned spoils it (R58), that register
alone where the operation has two (log 52). -/
def spoil (t : Task) (d : Dest) : Task :=
  { t with
    asyncs := t.asyncs.map fun a => if a.parts.any fun p => decide (p.1 = d) then { a with spoiled := a.spoiled ++ [d] } else a
    exchs := t.exchs.map fun e => if e.load && decide (Dest.v e.dest = d) then { e with spoiled := true } else e
    late := t.late.map fun l => { l with dests := l.dests.map fun q => if q.1 = d then (d, true) else q } }

/-- A CSR written by `csrw` (R131): flags 1, fmode 2, lc0-lc2 3-5, ctimeo 0x10. -/
def writeCsr (t : Task) (n : Nat) (v : Word) : Task :=
  match n with
  | 1 => writeFlags t v
  | 2 => { t with fmode := fmodeWritten v }
  | 3 | 4 | 5 => { t with lc := tset 0 t.lc (n - 3) v }
  | 0x10 => { t with ctimeo := v.setWidth 32 }
  | _ => t

/-- The specifier number of a named register. -/
def specOf : Dest → Option Nat
  | .x n => some (0x10 + n) | .v n => some (0x40 + n) | .k n => some (0x50 + n) | .q n => some (0x60 + n) | .o n => some (0x68 + n)
  | .m n => some (0x70 + n) | _ => none

/-- A value written to a named register; a stored error of it is gone. -/
def writeDest (s : State) (t0 : Task) (d : Dest) (v : Val) : Task :=
  let keep (n : Nat) : Bool := decide (specOf d != some n)
  let t := { t0 with rfErr := t0.rfErr.filter keep, rfSoft := t0.rfSoft.filter keep }
  match d, v with
  | .x n, .word w => { t with x := tset 0 t.x n w }
  | .v n, .vec r => { t with v := tset freshV t.v n r }
  | .k n, .tok k => { t with k := tset noTok t.k n (kClean s k) }
  | .m n, .mask m => { t with m := tset 0 t.m n m }
  | .q n, .series q => { t with q := tset 0 t.q n q }
  | .o n, .order w => { t with o := tset 0 t.o n w }
  | .csr n, .word w => writeCsr t n w
  | _, _ => t

def landStair (t : Task) (f : Flight) : Task :=
  if f.stair then
    match f.val with
    | .word w => pushT t w f.short
    | .vec r => pushW t r f.short
    | _ => t
  else t

/-- A legal expansion-register image (spec 09, R251). -/
def imageLegal (q : Series) : Bool :=
  let w := (q.extractLsb' 4288 64).toNat
  decide (bits w 0 8 ≤ 32) && decide (bits w 8 8 ≤ 2) && decide (bits w 16 8 ≤ 1) && !(bits w 16 8 = 0 && bits w 0 8 != 0)
    && bits w 24 40 = 0

/-- A result whose data came late is completed as it lands: extended by its type, or its image judged. -/
def fixFlight (f : Flight) : Flight :=
  match f.fix, f.val with
  | some ty, .word w => { f with val := .word (extend64 ty w.toNat) }
  | some _, .series q => if imageLegal q then f else { f with val := .series 0, flags := f.flags ||| fIV }
  | _, _ => f

/-- One result written: its stair, its destination, its flags. -/
def landTask (s : State) (t : Task) (f0 : Flight) : Task :=
  let f := fixFlight f0
  let t1 := landStair t f
  let t2 := if f.dest = .none then t1 else writeDest s (spoil t1 f.dest) f.dest f.val
  orFlags t2 f.flags

def isCsrFlags (f : Flight) : Bool := decide (f.dest = .csr 1)

/-- A result whose data has not arrived by its landing cycle freezes the slot (R134). -/
def lateData (t : Task) : Bool := t.flights.any fun f => f.rem = 0 && f.need != []

def ageLife : Life → Life
  | .lasting n => .lasting (min (n + 1) 17)
  | .left n => .left (n - 1)
  | .expired => .expired

/-- The covering wait of asynchronous loads, or of exchanges, has returned for all but the last `n` of the `issued` ones (R58, R130, R207): their
destinations hold their values, and a free value where another word wrote the register meanwhile, under the tag written last (DEDUCED, log 52: R58
speaks of the value alone). -/
def freeDest (s : State) (p : Party) (d : Dest) : State :=
  match d with
  | .x i => let r := free 64 s; mapTask r.2 p fun t => { t with x := tset 0 t.x i r.1 }
  | .v i => let r := free 4096 s; mapTask r.2 p fun t => { t with v := tset freshV t.v i ⟨r.1, (tget freshV t.v i).tag⟩ }
  | _ => s
def cover (s : State) (p : Party) (exch : Bool) (issued n : Nat) : State :=
  let covered (l : Late) : Bool := decide (l.exch = exch) && decide (l.seq + n < issued)
  let gone := (taskOf s p).late.filter covered
  ((gone.flatMap (·.dests)).filter (·.2)).foldl (fun s d => freeDest s p d.1)
    (mapTask s p fun t => { t with late := t.late.filter fun l => !covered l })

/-- The end of an issue cycle: every result in flight and every stair entry moves one cycle (R59, R61, R62). -/
def tickTask (t : Task) : Task :=
  { t with
    ic := t.ic + 1
    flights := t.flights.map fun f => { f with rem := f.rem - 1 }
    t := t.t.map fun e => { e with life := ageLife e.life }
    w := t.w.map fun e => { e with life := ageLife e.life } }
def endCycle (s : State) (p : Party) : State := mapTask s p tickTask

/-- A result put in flight with its latency (R54, R55). -/
def mkFlight (lat : Nat) (stair : Bool) (d : Dest) (v : Val) (fl : BitVec 8) (short : Bool) (sigs : List Nat) : Flight :=
  { rem := lat, stair := stair, dest := d, val := v, flags := fl, short := short, sigs := sigs, need := [], fix := none, word := 0, stage := 0xFF }

/-- The innermost active loop. -/
def innerLoop (t : Task) : Option Loop := t.loops.getLast?
/-- The innermost loop, if its body lies in the buffer that the party runs. -/
def hereLoop (t : Task) : Option Loop := (innerLoop t).filter fun l => decide (l.buf = t.level)
def pipedLoop (t : Task) : Option Loop := t.loops.find? fun l => decide (1 < l.stages)

/-- The pipelined stage of a word (R74). -/
def stageOfWord (l : Loop) (pc : Nat) : Nat := (pc - l.start) / (l.len / l.stages)
/-- A word lies in a loop's body. -/
def bodyHolds (t : Task) (l : Loop) (i : Nat) : Bool := decide (l.buf = t.level ∧ l.start ≤ i ∧ i < l.start + l.len)
/-- The stage of a word in the pipelined loop whose body holds it, or 0xFF (R383). -/
def stageField (t : Task) (word : Nat) : Nat :=
  match (pipedLoop t).filter fun l => bodyHolds t l word with
  | some l => stageOfWord l word
  | none => 0xFF

/-- Results of the word in issue put in flight. -/
def flying (fs : List Flight) (t : Task) : Task :=
  { t with flights := t.flights ++ fs.map fun f => { f with word := t.here, stage := stageField t t.here } }
def addFlight (s : State) (p : Party) (f : Flight) : State := mapTask s p (flying [f])

/-! ## Context of a task: its launch and its Gallery -/

/-- The launch whose binding holds a core. -/
def coreLaunch (s : State) (c : Nat) : Option Launch :=
  match (coreOf s c).bound with
  | some (d, l) => some (launchOf s d l)
  | none => none
def coreDebug (s : State) (c : Nat) : Debug :=
  match coreLaunch s c with
  | some l => l.dbg
  | none => default

/-- Gallery space: frozen by its trigger, lost, or full (R384). -/
def galFrozen (c : Core) : Bool := c.galTrig && c.galPost = 0
def galAppend (c : Core) (bs : List Byte) : Core :=
  if galFrozen c then c
  else if c.galLost || 65536 < c.gal.length + bs.length then
    { c with galDropped := BitVec.ofNat 32 (min (c.galDropped.toNat + 1) (2 ^ 32 - 1)) }
  else { c with gal := c.gal ++ bs, galPost := c.galPost - c.galTrig.toNat }

/-- A Gallery record (R383) of a task, when its kind is enabled, with the block that follows it; then the trigger, whether or not the kind is
enabled (R379, R384). `stage` is that of the word. -/
def galStaged (s : State) (p : Party) (stage kind : Nat) (enabled : Bool) (loop : Option Loop) (pay : Nat) (fires : Bool)
    (block : List Byte := []) : State :=
  if isPorter p || !(enabled || fires) then s
  else
    let rec1 := leBytes 1 kind ++ leBytes 1 (unitField p) ++ leBytes 1 ((loop.map (·.id)).getD 0) ++ leBytes 1 stage
      ++ leBytes 4 ((loop.map (·.iter)).getD 0) ++ leBytes 4 s.clock ++ leBytes 4 pay ++ block
    mapCore s (coreNo p) fun c =>
      let c1 := if enabled then galAppend c rec1 else c
      if fires && !c1.galTrig then { c1 with galTrig := true, galPost := (coreDebug s (coreNo p)).gpost } else c1
/-- The record of the word at index `word`. -/
def galRecord (s : State) (p : Party) (word kind : Nat) (enabled : Bool) (loop : Option Loop) (pay : Nat) (fires : Bool)
    (block : List Byte := []) : State :=
  galStaged s p (stageField (taskOf s p) word) kind enabled loop pay fires block

def galKind (s : State) (p : Party) (bit : Nat) : Bool := (coreDebug s (coreNo p)).gkinds.getLsbD bit

def galBranch (s : State) (p : Party) (word target : Nat) : State :=
  galRecord s p word 1 (galKind s p 0) (innerLoop (taskOf s p)) target false
/-- A mask written, with the stage that its word had as it issued. -/
def galMask (s : State) (p : Party) (stage n : Nat) : State :=
  galStaged s p stage 2 (galKind s p 1) (innerLoop (taskOf s p)) n false
/-- A memory event of the word in issue. -/
def galMem (s : State) (p : Party) (slot : Nat) : State :=
  galRecord s p (taskOf s p).here 3 (galKind s p 2) (innerLoop (taskOf s p)) slot false

/-- A `seminit` lands in the issuing core's semaphores, or the Porter's (spec 15, R363). -/
def setSem (s : State) (p : Party) (n : Nat) (m : Sem) : State :=
  if isPorter p then mapDie s (dieNo p) fun d => { d with psems := tput d.psems n m }
  else mapCore s (coreNo p) fun c => { c with sems := tput c.sems n m }
/-- Its units count as made before any `epiv` finished (R229). -/
def drainInit (s : State) (p : Party) (n v : Nat) : State :=
  if isPorter p then s
  else mapCore s (coreNo p) fun c => { c with drains := c.drains.map fun d => { d with oldV := tset 0 d.oldV n v } }
def landSem (s : State) (p : Party) (f : Flight) : State :=
  match f.dest, f.val with
  | .sem n, .word w => drainInit (setSem s p n ⟨w.extractLsb' 8 8, w.extractLsb' 0 8⟩) p n (w.extractLsb' 0 8).toNat
  | _, _ => s

/-- A result that lands in this cycle: one whose data is still to come stays in flight (R134). -/
def dueNow (f : Flight) : Bool := decide (f.rem = 0) && f.need.isEmpty

/-- Results due in this cycle: first a `csrw` of `flags` (R56), then the rest in issue order (R53). -/
def landDue (s : State) (p : Party) : State :=
  let t := taskOf s p
  let due := t.flights.filter dueNow
  match due with
  | [] => s
  | _ =>
    let order := due.filter isCsrFlags ++ due.filter fun f => !isCsrFlags f
    let t1 := order.foldl (landTask s) { t with flights := t.flights.filter fun f => !dueNow f }
    let s1 := completeSigs (putTask s p t1) p (due.flatMap (·.sigs))
    due.foldl (fun s f => match f.val with
      | .mask m => galMask s p f.stage (popNat 1024 m.toNat)
      | _ => landSem s p f) s1

/-- The status `trmark` returns (R385). The Gallery writes records on a core that a launch holds; after reset none does, and ON reads 0. -/
def galStatus (c : Core) : Word :=
  BitVec.ofNat 64 (c.galDropped.toNat * 2 ^ 32 + (if galFrozen c then 4 else 0) + (if c.galLost then 2 else 0)
    + (if galFrozen c || c.galLost || c.bound.isNone then 0 else 1))

/-- A counter of the conflict matrix with what arbitration added since the last snapshot (log 10). -/
def conflictCount (s : State) (c : Core) (i : Nat) : Nat :=
  min ((tget 0 c.conflict i).toNat + (Config.lostClocks s.freeNo i).toNat) (2 ^ 32 - 1)

/-- The conflict-matrix snapshot appended to the Gallery, and the counters cleared (R172). -/
def snapshot (s : State) (p : Party) (loop : Nat) : State :=
  if isPorter p then s
  else
    let c := coreOf s (coreNo p)
    let counters := (List.range 5120).filterMap fun i =>
      let n := conflictCount s c i
      if n = 0 then none else some (i, n)
    let head := leBytes 2 loop ++ leBytes 1 (unitField p) ++ leBytes 1 0 ++ leBytes 4 counters.length ++ leBytes 8 s.clock
      ++ (List.range 6).flatMap fun i => leBytes 8 (tget 0 c.leaveWait i).toNat
    let body := counters.flatMap fun e => leBytes 8 (e.1 / 512 * 2 ^ 60 + e.1 % 512 * 2 ^ 51 + e.2)
    let s1 := galRecord s p (taskOf s p).here 7 true (innerLoop (taskOf s p)) counters.length false (head ++ body)
    mapCore { s1 with freeNo := s1.freeNo + 1 } (coreNo p) fun c => { c with conflict := [], leaveWait := [] }

/-! ## Code (spec 01 R41, R42, R47; spec 12 R299) -/

/-- A place of a resident image (log 13: no generation check is made on the code). -/
def imgPlace (s : State) (im : Image) (off : Nat) : Place := kPlace s im.tok off

def imgWord (s : State) (im : Image) (off n : Nat) : Nat := leNat ((List.range n).map fun i => rdByte s (imgPlace s im (off + i)))

/-- The image a task runs. -/
def imageOf (s : State) (p : Party) : Image :=
  match (taskOf s p).launch with
  | some (d, l) => (launchOf s d l).image
  | none => default

/-- Words of the code a party runs: its `.task` section, or its command buffer. -/
def codeWords (s : State) (p : Party) : Nat :=
  if isPorter p then kLen (taskOf s p).buf / 8 else (imageOf s p).task.2 / 8

/-- Code word `i`. -/
def codeWord (s : State) (p : Party) (i : Nat) : Option Word :=
  if codeWords s p ≤ i then none
  else if isPorter p then ((taskOf s p).fetched.find? fun e => decide (e.1 = i)).map (·.2)
  else some (BitVec.ofNat 64 (imgWord s (imageOf s p) ((imageOf s p).task.1 + 8 * i) 8))

/-! ## Hardware loops (R72-R75) -/

def lcOf (t : Task) (l : Nat) : Nat := (tget 0 t.lc l).toNat

/-- The core's counter of waits for leave that is a party's (R171): slots 0 to 3, the copy engine, the matrix engine. -/
def leaveIndex : Party → Option (Nat × Nat)
  | .slot c n => some (c, n)
  | .engine c .copy => some (c, 4)
  | .engine c .matrix => some (c, 5)
  | _ => none
/-- The wait of a request for leave ends: its clocks are counted. -/
def leaveWaited (s : State) (p : Party) (asked : Nat) : State :=
  match leaveIndex p with
  | some (c, i) => mapCore s c fun k => { k with leaveWait := tset 0 k.leaveWait i (tget 0 k.leaveWait i + BitVec.ofNat 64 (s.clock - asked)) }
  | none => s
/-- A party asks for leave no longer. -/
def dropAsk (s : State) (p : Party) : State :=
  match s.leaveQ.find? fun e => decide (e.2.1 = p) with
  | some e => leaveWaited { s with leaveQ := s.leaveQ.filter fun e => decide (e.2.1 ≠ p) } p e.2.2.2
  | none => s
/-- Every leave that a party holds ends (R169), and its request; LEAVE_END credits it. -/
def leaveOver (s : State) (p : Party) : State :=
  dropAsk { s with leaveHeld := s.leaveHeld.map fun h => if h.holder = p then { h with spent := true } else h } p
/-- The leave of one of a party's loops or records ends: those of one party have one charge. -/
def spendOne (p : Party) : List Leave → List Leave
  | [] => []
  | h :: r => if h.holder = p && !h.spent then { h with spent := true } :: r else h :: spendOne p r
def leaveOne (s : State) (p : Party) : State := { s with leaveHeld := spendOne p s.leaveHeld }

/-- The last loop ends: its exit records (R73, R172, R383), leave given up, `spred` as without it. -/
def endLoop (s : State) (p : Party) : State :=
  match innerLoop (taskOf s p) with
  | none => s
  | some l =>
    let lc := lcOf (taskOf s p) l.level
    let d := coreDebug s (coreNo p)
    let s1 := galRecord s p (taskOf s p).here 4 (galKind s p 3) (some l) lc (d.gtrig = 3 && d.gtval = l.id)
    let s2 := snapshot s1 p l.id
    let s3 := mapTask s2 p fun t =>
      let rest := t.loops.dropLast
      { t with loops := rest, lbuf := if rest.isEmpty then [] else t.lbuf, spred := if 1 < l.stages then 1 else t.spred }
    if l.leave then leaveOne s3 p else s3

/-- The loops whose bodies do not hold `target` end (R75), innermost first. -/
def leaveLoops (s : State) (p : Party) (target : Nat) : Nat → State
  | 0 => s
  | n + 1 =>
    match hereLoop (taskOf s p) with
    | none => s
    | some l => if l.start ≤ target ∧ target < l.start + l.len then s else leaveLoops (endLoop s p) p target n

/-- A taken transfer of a Porter stream: the buffer is emptied when it does not hold the target (R299), and
a `loopc` whose body is left ends (R310). -/
def porterGo (t : Task) (target : Nat) : Task :=
  { t with
    fetched := if t.fetched.any fun e => decide (e.1 = target) then t.fetched else []
    loopcs := t.loopcs.filter fun l => l.level != t.level || (decide (l.start ≤ target) && decide (target < l.start + l.len)) }

/-- A taken transfer to word `target` (R75, R121). -/
def transfer (s : State) (p : Party) (target : Nat) : State :=
  let s1 := galBranch s p (taskOf s p).here target
  let s2 := leaveLoops s1 p target 3
  mapTask s2 p fun t => { if isPorter p then porterGo t target else t with pc := target, fell := false }

/-- A word in the body of an active loop, and one that an active loop has passed already: it issues from the loop buffer (R72). -/
def inBody (t : Task) (i : Nat) : Bool := t.loops.any fun l => bodyHolds t l i
def pastFirst (t : Task) (i : Nat) : Bool := t.loops.any fun l => bodyHolds t l i && decide (0 < l.iter)

/-- The word that a party issues at index `i`: the loop buffer's after a body's first pass (R72). -/
def issueCode (s : State) (p : Party) (i : Nat) : Option Word :=
  let t := taskOf s p
  match (if pastFirst t i then (t.lbuf.find? fun e => decide (e.1 = i)).map (·.2) else none) with
  | some w => some w
  | none => codeWord s p i

/-- The loop buffer takes the words of a body as its loop opens, those that its first pass will not issue among them; words that it holds of an
enclosing body stay (R72). -/
def takeBody (s : State) (p : Party) (t : Task) (start len : Nat) : Task :=
  { t with lbuf := (List.range len).foldl (fun b i =>
      if b.any fun e => decide (e.1 = start + i) then b
      else match codeWord s p (start + i) with | some w => tput b (start + i) w | none => b) t.lbuf }

/-- The loop buffer takes the word fetched at the pc, if it lies in an active body. -/
def bufferWord (s : State) (p : Party) (w : Word) : State :=
  if inBody (taskOf s p) (taskOf s p).pc then mapTask s p fun t => { t with lbuf := tput t.lbuf t.pc w } else s

/-- The loop buffer of a restored task, refilled: the outermost body holds every other (R72, R76). -/
def refillLoops (s : State) (p : Party) (t : Task) : Task :=
  match t.loops with
  | [] => t
  | l :: _ => { t with lbuf := (List.range l.len).filterMap fun i => (codeWord s p (l.start + i)).map fun w => (l.start + i, w) }

/-- The current word lies in a stage that is not active (R74). -/
def inactive (t : Task) : Bool :=
  match pipedLoop t with
  | some l => l.buf = t.level && decide (l.start ≤ t.pc) && decide (t.pc < l.start + l.len) && !t.spred.getLsbD (stageOfWord l t.pc)
  | none => false

/-! ## Taking a trap (spec 16, R367-R374) -/

def mkTrap (cause detail : Nat) : TrapInfo := ⟨cause, detail, 0, 0, 0, 0, 0, 0, 0, 0, 0⟩
def cILL : Nat := 1
def cFMT : Nat := 2
def cEXP : Nat := 3
def cSEMOVF : Nat := 4
def cPF : Nat := 5
def cCHK : Nat := 6
def cDBG : Nat := 7
def cLAUNCH : Nat := 8
def cPRIV : Nat := 9

/-- `tstat` of a trap (R68). -/
def tstatOf (t : Task) (word : Nat) (i : TrapInfo) : Word :=
  BitVec.ofNat 64 (word * 65536 + (if t.heldC then 32768 else 0) + (if t.heldE then 16384 else 0) + i.detail % 16 * 256
    + i.cause % 256)

/-- Where a party's frame header stands in its context's save area (R369; log 7): its offset there, its offset in the extent of the area's slot,
and the place of each byte, which follows a page of the area that moves (R406). -/
def frameOff (p : Party) : Nat := 128 * partyKey p
def frameAt (s : State) (p : Party) : Nat := (ctxOf s (taskOf s p).ctx).params.saveBase % 65536 + frameOff p
def framePlace (s : State) (p : Party) (i : Nat) : Place := pinLookup s (ctxOf s (taskOf s p).ctx).saveSlot (frameAt s p + i)
/-- A field of the header read. -/
def frameField (s : State) (p : Party) (i n : Nat) : Nat := leNat ((List.range n).map fun j => rdByte s (framePlace s p (i + j)))

/-- The 128-byte frame header (R370). -/
def frameBytes (t : Task) (i : TrapInfo) : List Byte :=
  leBytes 8 t.tstat.toNat ++ leBytes 8 i.resume ++ leBytes 8 i.word.toNat ++ leBytes 8 i.aux0.toNat
    ++ leBytes 8 i.aux1.toNat ++ leBytes 8 i.aux2.toNat ++ leBytes 8 t.flags.toNat ++ leBytes 8 0 ++ leBytes 1 0
    ++ leBytes 1 0 ++ leBytes 1 t.flights.length ++ leBytes 1 (t.heldC.toNat + 2 * t.heldE.toNat) ++ List.replicate 60 0

/-- The handler's window (R51, R369): the tokens of a first issue (R277), but `k0` names the frame header. -/
def handlerTask (s : State) (p : Party) (t : Task) (l : Launch) (args : Table KReg) : Task :=
  let c := ctxOf s t.ctx
  let slot := slotOf s c.saveSlot
  let off := frameOff p
  let k0 : KReg := mkTok c.saveSlot slot.gen 0 0xC 128 (c.params.saveBase % 65536 + off)
  { Task.fresh with
    status := .run
    ctx := t.ctx
    launch := t.launch
    stage := t.stage
    point := t.point
    run := s.runNo
    pc := l.handler
    k := tset noTok args 0 (kClean s k0)
    inHandler := true }

/-- The handler of a trapped task starts in its slot: the task is saved and its header written (R369). It waits while its own-slice token cannot be
made (log 25). -/
def startHandler (s : State) (p : Party) : State :=
  let t := taskOf s p
  match t.launch with
  | none => s
  | some (d, l) => match argToks s (coreNo p) (launchOf s d l) with
    | none => s
    | some (s0, args) =>
      let bs := frameBytes t t.trap
      let s1 := wrPlaces s0 p (ctxOf s t.ctx).saveSlot (frameAt s p) ((List.range bs.length).map fun i => (framePlace s p i, bs.getD i 0, 0xFF#8))
      let s2 := { s1 with saved := tput s1.saved (partyKey p) t, runNo := s1.runNo + 1 }
      noteOrder (putTask s2 p (handlerTask s2 p t (launchOf s d l) args)) p

/-- Asynchronous operations and posted stores of a trapped task complete before the save (R77). -/
def asyncDone (t : Task) : Bool := t.asyncs.isEmpty && t.exchs.isEmpty && t.stores.isEmpty

/-- The party's number in a supervisor frame (R374). -/
def frameSlot : Party → Nat
  | .slot _ n => n
  | .stream _ n => 64 + n
  | .super _ => 0xFF
  | .engine _ _ => 0

/-- A frame for the die's supervisor ring (R374); WORD is a word index, or a byte offset in a Porter buffer. -/
def superFrame (s : State) (p : Party) (i : TrapInfo) : State :=
  let word := (taskOf s p).tstat.toNat / 65536 * (if isPorter p then 8 else 1)
  mapDie s (dieNo p) fun d =>
    { d with frames := d.frames ++ [⟨p, (taskOf s p).run, (taskOf s p).launch, ctxNo s p, coreField p, frameSlot p, i, word, none⟩] }

/-- One task of a point has ended, or its entry is lost; `fail` reports the point failed (R258, R275, R295).
The second answer: the point is completed. A failed point stays in flight for good (R293). -/
def pointDown (e : Launch) (pt : List Nat) (fail : Bool) : Launch × Bool :=
  match e.flying.find? fun g => decide (g.point = pt) with
  | none => (e, false)
  | some g =>
    let bad := g.failed || fail
    let rest := e.flying.filter fun h => h.point != pt
    let e1 := { e with failedN := if fail && !g.failed then e.failedN + 1 else e.failedN }
    if g.live ≤ 1 && !bad then ({ e1 with flying := rest }, true)
    else ({ e1 with flying := e.flying.map fun h => if h.point = pt then { h with live := h.live - 1, failed := bad } else h }, false)

/-- A task's point reported failed. -/
def failTaskPoint (s : State) (p : Party) : State :=
  match (taskOf s p).launch with
  | some (d, l) => mapLaunch s d l fun e => (pointDown e (taskOf s p).point true).1
  | none => s

/-- A point reported failed by its task (R369, R295): its item of kind 9 is logged. -/
def failPoint (s : State) (p : Party) : State :=
  let t := taskOf s p
  failTaskPoint (logErrorAt s t.ctx { kind := 9, core := coreField p, unit := unitField p, record := t.pc }) p

/-- A slot freed: its window is zeroed (R126, R340). The race detector watches what its task accessed no longer (log 35). -/
def freeSlot (s : State) (p : Party) : State := putTask (noteOrder s p) p Task.fresh

/-- The one operation by which every trap is taken (R367-R374). `word` is the trapping word's index;
`i.resume` where the task resumes. PF, LAUNCH and every trap of the Porter go to the supervisor;
a DBG under STOP stops the launch (R382); a trap in a handler ends it as `halt` does, and with it the trapped task (R369); every other
trap goes to the handler task, which starts at once unless asynchronous operations are pending. -/
def takeTrap (s : State) (p : Party) (word : Nat) (i : TrapInfo) : State :=
  let s0 := landDue s p
  let s1 := mapTask s0 p fun t => { t with tstat := tstatOf t word i, trap := i, started := t.started }
  let d := coreDebug s (coreNo p)
  let s2 := galRecord s1 p word 5 (galKind s p 4) (innerLoop (taskOf s1 p)) (i.cause + 256 * i.detail) (d.gtrig = 1)
  let s3 := { s2 with moved := true }
  let t := taskOf s3 p
  if isPorter p then
    if isSuper p then
      mapTask (superFrame s3 p i) p fun t => { t with status := .supervised, pc := (dieOf s (dieNo p)).superEntry, fell := false }
    else mapTask (superFrame s3 p i) p fun t => { t with status := .supervised }
  else if i.cause = cDBG && (launchDebug s p).stop then mapTask s3 p fun t => { t with status := .held }
  else if t.inHandler then mapTask s3 p fun t => { t with status := .halting }
  else if i.cause = cPF || i.cause = cLAUNCH then mapTask (superFrame s3 p i) p fun t => { t with status := .supervised }
  else
    let s4 := mapTask s3 p fun t => { t with status := .trapped }
    if asyncDone t then startHandler s4 p else s4

/-- Return to the trapped task (R373): the frame's writable fields are applied; results in flight,
loops, held ticks and registers are those saved, and a body's end that the task had reached is still its end (R77); a RESUME that is the word
after the trapping one counts as reached from it, as the supervisor's action 1 does. -/
def returnTask (s : State) (p : Party) : State :=
  match s.saved.find? fun e => decide (e.1 = partyKey p) with
  | none => s
  | some (_, t) =>
    let pspec := frameField s p 64 1
    let resume := frameField s p 8 8
    let x := if 0x10 ≤ pspec ∧ pspec ≤ 0x2F then tset 0 t.x (pspec - 0x10) (BitVec.ofNat 64 (frameField s p 56 8)) else t.x
    let t1 := { t with
      status := .run
      pc := resume
      fell := if resume = t.tstat.toNat / 65536 + 1 then true else t.fell && decide (resume = t.pc)
      flags := BitVec.ofNat 8 (frameField s p 48 8)
      x := x
      k := t.k.map fun e => (e.1, kClean s e.2)
      step := frameField s p 65 1 % 2 = 1
      skipBp := true }
    noteOrder (putTask { s with saved := tdel s.saved (partyKey p) } p (refillLoops s p t1)) p

/-! ## The frame in which a task word issues -/

/-- What acting comes to: the word acted; it traps without effect (PF, LAUNCH, SEMOVF ...), or with a change
of its stream's state (R218); or it
completes and then traps (`trap`, `bkpt`); or it has begun and holds its slot until an event
completes it (`xlat`, `seal` ...), not having issued; or its task has left the slot. -/
inductive Act where
  | done (s : State)
  | hold (f : Task → Task)
  | trap (i : TrapInfo)
  | changed (g : State → State) (i : TrapInfo)
  | after (s : State) (i : TrapInfo)
  | gone (s : State)

/-- A watched access: slot, offset in the slot's extent, length, and whether it stores. -/
structure Touch where
  slot : Nat
  off : Nat
  len : Nat
  store : Bool

/-- What is judged of a word before it acts. `lands` are the stair results it has (vector?, how many,
latency), for an inactive stage (R74); a word that drains lets the results in flight land first; one
without leave (`go`) asks for it; `cold` is a pin slot its cluster's pin cache must fill first (R318). -/
structure Plan where
  tk : Tk
  ill : List (Nat × Bool)
  priv : Bool := false
  reads : List Rd := []
  nres : Nat := 0
  lands : Option (Bool × Nat × Nat) := none
  ready : Bool := true
  sync : Bool := false
  touch : List Touch := []
  drain : Bool := false
  cold : Option Nat := none
  go : Bool := true
  ask : State → State := id

/-- The watchpoint a word's access touches: entry, slot and the first watched byte (R380). -/
def watchHit (s : State) (l : List Touch) : Option (Nat × Nat × Nat) :=
  l.findSome? fun t =>
    (slotOf s t.slot).watch.findSome? fun w =>
      if overlap t.off t.len w.2.1 w.2.2.1 && Nat.testBit w.2.2.2 (if t.store then 1 else 0) then
        some (w.1, t.slot, max t.off w.2.1)
      else none

/-- An enabled breakpoint on the word (R380). -/
def bpHit (s : State) (p : Party) : Option Nat :=
  let t := taskOf s p
  if t.skipBp || isPorter p then none
  else ((launchDebug s p).bps.find? fun b => decide (b.2 = t.pc)).map (·.1)

/-- A breakpoint or access watch inside an active pipelined body is held to the end of the iteration (R380). -/
def inPiped (t : Task) : Bool := (pipedLoop t).isSome
def holdEvent (s : State) (p : Party) (i : TrapInfo) : State :=
  mapTask s p fun t => if t.loopEvent.isSome then t else { t with loopEvent := some i }

/-- The word bits a frame shows (R370): for ILL, FMT, EXP and PRIV. -/
def withBits (i : TrapInfo) (w : Word) : TrapInfo :=
  if i.cause = cILL || i.cause = cFMT || i.cause = cEXP || i.cause = cPRIV then { i with word := w } else i

/-- Tick waits (R29); a held tick satisfies its wait (R30). -/
def ticksReady (s : State) (p : Party) (k : Tk) : Bool :=
  let t := taskOf s p
  let c := coreOf s (coreNo p)
  (!k.wc || t.heldC || 0 < ticksOf c 2 1) && (!k.we || t.heldE || 0 < ticksOf c 4 1)

/-- A tick of a queue, or a unit of a semaphore, is taken by a slot, or by an engine (none): one of those that a finished `epiv` found
there, or a later one, which settles that slot's registers (R229). -/
def drainTaken (slot : Option Nat) (old : Drain → Nat) (put : Nat → Drain → Drain) (c : Core) : Core :=
  { c with drains := c.drains.filterMap fun d =>
      if d.filling then some d else if old d = 0 then (if some d.slot = slot then none else some d) else some (put (old d - 1) d) }

def popTick (c : Core) (prod slot : Nat) : Core :=
  drainTaken (some slot) (fun d => if prod = 2 then d.oldC else d.oldE)
    (fun n d => if prod = 2 then { d with oldC := n } else { d with oldE := n }) (setTicks c prod 1 (ticksOf c prod 1 - 1))
/-- The same for a unit of semaphore `n`. -/
def drainUnit (slot : Option Nat) (n : Nat) (c : Core) : Core :=
  drainTaken slot (fun d => tget 0 d.oldV n) (fun v d => { d with oldV := tset 0 d.oldV n v }) c
/-- `ewait` makes the writes of finished records visible (R218). -/
def drainSeen (slot : Nat) (c : Core) : Core := { c with drains := c.drains.filter fun d => d.filling || d.slot != slot }

/-- The wait ticks popped in the issue cycle, held until the word is past its traps (R29, R30): an acquire (R345). -/
def popTicks (s : State) (p : Party) (k : Tk) : State :=
  let t := taskOf s p
  let s1 := if k.wc && !t.heldC then mapCore s (coreNo p) fun c => popTick c 2 (slotNo p) else s
  let s2 := if k.we && !t.heldE then mapCore s1 (coreNo p) fun c => popTick c 4 (slotNo p) else s1
  if k.wc || k.we then noteOrder (mapTask s2 p fun t => { t with heldC := t.heldC || k.wc, heldE := t.heldE || k.we }) p else s2

/-- The first field that expired, then the first mistagged (R62, R65). -/
def expField (t : Task) (l : List Rd) : Option Nat := (l.find? fun r => rdExpired t r).map (·.field)
def fmtField (s : State) (p : Party) (l : List Rd) : Option Nat := (l.find? fun r => rdMistagged s p r).map (·.field)

/-- The lowest pending CHK detail (R167). -/
def lowestChk : List Nat → Nat
  | [] => 0
  | [a] => a
  | a :: r => min a (lowestChk r)

/-- CHK at a synchronisation point (R167, R370); the pending failures are taken. -/
def chkTrap (t : Task) : TrapInfo :=
  { mkTrap cCHK (lowestChk t.chk) with aux0 := BitVec.ofNat 64 t.chk.length, aux1 := t.chkProd }

/-- Operations that the Porter does not have (R35 case 6). -/
def notPorter (op : Nat) : Bool := [0x2E, 0x2F, 0x30, 0x31, 0x32, 0x33, 0x38, 0x39, 0x3A].contains op

/-- ILL breaches that any word has: the count in flight (R371), the Porter (R35 case 6, R30). -/
def commonIll (s : State) (p : Party) (w : Word) (pl : Plan) : List (Nat × Bool) :=
  [(5, decide (24 < ((taskOf s p).flights.filter fun f => f.rem != 0).length + pl.nres)),
   (6, if isPorter p then tkAny pl.tk || notPorter (wOp w) else wOp w = 0x3C)]

/-- The traps at issue after ILL, in the order of R66: PRIV, CHK 1, EXP, FMT, a watch, and the pending
CHK of a synchronisation point. -/
def issueTrap (s : State) (p : Party) (pl : Plan) : Option TrapInfo :=
  let t := taskOf s p
  if pl.priv then some (mkTrap cPRIV 0)
  else if pl.reads.any fun r => rdBroken t r then
    some { mkTrap cCHK 1 with
      aux0 := BitVec.ofNat 64 (t.chk.length + 1), aux1 := if t.chk.isEmpty then BitVec.ofNat 64 (errProd s t.ctx) else t.chkProd }
  else match expField t pl.reads with
    | some f => some (mkTrap cEXP f)
    | none =>
      match fmtField s p pl.reads with
      | some f => some (mkTrap cFMT f)
      | none =>
        match watchHit s pl.touch with
        | some (e, slot, off) =>
          if inPiped t then (if pl.sync && !t.chk.isEmpty then some (chkTrap t) else none)
          else some { mkTrap cDBG 3 with aux0 := BitVec.ofNat 64 e, aux1 := BitVec.ofNat 64 slot, aux2 := BitVec.ofNat 64 off }
        | none => if pl.sync && !t.chk.isEmpty then some (chkTrap t) else none

/-- A trap that the word itself raises: it resumes at the word. -/
def trapHere (s : State) (p : Party) (w : Word) (i : TrapInfo) : State :=
  let t := taskOf s p
  let s1 := if i.cause = cCHK then
      (if i.detail = 1 then logErrorAt s t.ctx { kind := 5, core := coreField p, unit := unitField p, record := t.pc }
       else mapTask s p fun t => { t with chk := [] })
    else s
  takeTrap s1 p t.pc (withBits { i with resume := t.pc } w)

/-- A word of an inactive pipelined stage (R74): its stair results land as zero, tag none. -/
def idleStage (s : State) (p : Party) (pl : Plan) : State :=
  let zero (vec : Bool) : Flight :=
    mkFlight (match pl.lands with | some (_, _, l) => l | none => 0) true .none (if vec then .vec freshV else .word 0) 0 false []
  let fs := match pl.lands with | some (vec, n, _) => List.replicate n (zero vec) | none => []
  endCycle (mapTask { s with moved := true } p fun t =>
    { flying fs { t with here := t.pc } with pc := t.pc + 1, fell := true, skipBp := false }) p

/-- The signals a word registers (R29), in issue order. -/
def newSigs (t : Task) (k : Tk) : List (Nat × Engine × Bool) :=
  (if k.sc then [(t.sigNo, .copy, false)] else []) ++ if k.se then [(t.sigNo + 1, .epilogue, false)] else []

/-- A word that orders its task's accesses toward other parties (R345): one with a tick bit, `halt`, `suspend`, and every word of OP 0x34 and
above but the relaxed atomics (R359). -/
def ordersWord (w : Word) (k : Tk) : Bool :=
  tkAny k || (wOp w = 0x0F && (wFn w = 3 || wFn w = 5)) || (0x34 ≤ wOp w && wOp w != 0x35)
/-- The race detector notes it once it has acted. -/
def noteWord (s : State) (p : Party) (w : Word) (k : Tk) : State := if ordersWord w k then noteOrder s p else s

/-- The word is past its traps: its wait ticks are used, its signals registered, and the next word
is the following one unless the word transfers. -/
def beginWord (s : State) (p : Party) (pl : Plan) : State :=
  mapTask { s with moved := true } p fun t =>
    { t with
      here := t.pc
      heldC := if pl.tk.wc then false else t.heldC
      heldE := if pl.tk.we then false else t.heldE
      sigq := t.sigq ++ newSigs t pl.tk
      sigNo := t.sigNo + 2
      pc := t.pc + 1
      fell := true
      skipBp := false }

/-- After a word acted: its cycle ends; an event held for the end of a kernel iteration lands when the word has left the pipelined loop
(R380), and a single step raises DBG 5 (R381); the step of a word that stood in a pipelined body (`was`) ends with the kernel iteration. -/
def endWord (s : State) (p : Party) (was : Bool) : State :=
  let s1 := endCycle s p
  let t := taskOf s1 p
  if let (some i, true) := (t.loopEvent, t.status = .run && !inPiped t && !t.exits) then
    takeTrap (mapTask s1 p fun t => { t with loopEvent := none }) p t.pc { i with resume := t.pc }
  else if t.step && t.status = .run && !(was && inPiped t) then
    takeTrap (mapTask s1 p fun t => { t with step := false }) p t.pc { mkTrap cDBG 5 with resume := t.pc }
  else s1

/-- A word that completed and then traps; a debug event under STOP that arises in a pipelined body lands at the end of the kernel iteration
(R76, R382). -/
def afterWord (s : State) (p : Party) (word : Nat) (was : Bool) (i : TrapInfo) : State :=
  if was && i.cause = cDBG && (launchDebug s p).stop && !isPorter p && inPiped (taskOf s p) then endWord (holdEvent s p i) p was
  else takeTrap (endCycle s p) p word { i with resume := word + 1 }

/-- The reads of a word that fall on a pending register: they all had the free value of one moment, and it is spent (R7, R58; log 4). -/
def spendFree (s : State) (p : Party) (pl : Plan) (t : State) : State :=
  if pl.reads.any fun r => rdPending s p r then { t with freeNo := t.freeNo + 1 } else t

/-- The registers that a word reads and whose stored word holds a single-bit error (R165). -/
def softReads (s : State) (p : Party) (pl : Plan) : List Nat :=
  ((pl.reads.map fun r => r.spec.toNat).filter fun n => (taskOf s p).rfSoft.contains n).eraseDups
/-- A corrected error is counted (R165). -/
def countSoft (s : State) (p : Party) (pl : Plan) : State :=
  match softReads s p pl with
  | [] => s
  | l => if isPorter p then s else mapCore s (coreNo p) fun c => { c with corrected := c.corrected + l.length }

/-- A legal word whose ticks are present and whose waits hold: its traps at issue, or its effect. -/
def actWord (s : State) (p : Party) (w : Word) (pl : Plan) (act : List Nat → State → Act) : State :=
  let s1 := popTicks s p pl.tk
  match issueTrap s1 p pl with
  | some i => trapHere s1 p w i
  | none =>
    let t := taskOf s1 p
    let hit := if inPiped t then watchHit s1 pl.touch else none
    let s2 := match hit with
      | some (e, slot, off) => holdEvent s1 p { mkTrap cDBG 3 with
          aux0 := BitVec.ofNat 64 e, aux1 := BitVec.ofNat 64 slot, aux2 := BitVec.ofNat 64 (off + t.pc * 2 ^ 32) }
      | none => s1
    let sg := (newSigs t pl.tk).map (·.1)
    let s3 := countSoft s2 p pl
    let s1c := countSoft s1 p pl
    match act sg (beginWord s3 p pl) with
    | .done s4 => endWord (noteWord (spendFree s p pl s4) p w pl.tk) p (inPiped t)
    | .hold f => spendFree s p pl (mapTask { s3 with moved := true } p f)
    | .trap i => trapHere (spendFree s p pl s1c) p w i
    | .changed g i => trapHere (g (spendFree s p pl s1c)) p w i
    | .gone s4 => noteWord (spendFree s p pl s4) p w pl.tk
    | .after s4 i =>
      afterWord (completeSigs (noteWord (spendFree s p pl s4) p w pl.tk) p sg) p t.pc (inPiped t) i

/-- The completion of a word that held its slot: its issue cycle. -/
def finishWord (s : State) (p : Party) (w : Word) (tk : Tk) (act : List Nat → State → Act) : State :=
  let s1 := mapTask s p fun t => { t with wait := .none }
  let t := taskOf s1 p
  let sg := (newSigs t tk).map (·.1)
  match act sg (beginWord s1 p { tk := tk, ill := [] }) with
  | .done s3 => endWord (noteWord s3 p w tk) p (inPiped t)
  | .hold f => mapTask s1 p f
  | .trap i => trapHere s1 p w i
  | .changed g i => trapHere (g s1) p w i
  | .gone s3 => noteWord s3 p w tk
  | .after s3 i => afterWord (completeSigs s3 p sg) p t.pc (inPiped t) i

/-- An operand that the word reads from a bank in refresh (R61): the slot freezes for one visit. -/
def refreshHit (s : State) (p : Party) (l : List Rd) : Bool :=
  match (coreOf s (coreNo p)).refresh with
  | some b => !isPorter p && l.any fun r => rdBank (taskOf s p) r = some b
  | none => false

/-- One issue cycle of a task word (R35, R66). A word that is not ready leaves the state as it was: the
slot is frozen (R60). ILL is judged before any wait (R30), and a word of an inactive stage raises nothing else (R74). -/
def issueWord (w : Word) (mk : State → Party → Plan) (act : List Nat → State → Act) (s : State) : State :=
  let p := s.cur
  let t := taskOf s p
  let pl := mk s p
  if refreshHit s p pl.reads then mapCore s (coreNo p) fun c => { c with refresh := none }
  else if inactive t then match lowest (pl.ill ++ commonIll s p w pl) with
    | some d => trapHere s p w (mkTrap cILL d)
    | none => idleStage s p pl
  else match bpHit s p, inPiped t with
  | some n, false => takeTrap s p t.pc { mkTrap cDBG 2 with resume := t.pc, aux0 := BitVec.ofNat 64 n }
  | bp, _ =>
    let s0 := match bp with
      | some n => holdEvent s p { mkTrap cDBG 2 with aux0 := BitVec.ofNat 64 n }
      | none => s
    match lowest (pl.ill ++ commonIll s p w pl) with
    | some d => trapHere s0 p w (mkTrap cILL d)
    | none =>
      if pl.drain && !(taskOf s0 p).flights.isEmpty then endCycle { s0 with moved := true } p
      else if pl.cold.isSome then mapTask s p fun t => { t with pinMiss := pl.cold }
      else if ticksReady s p pl.tk && pl.ready then (if pl.go then actWord s0 p w pl act else pl.ask s)
      else s

/-- The cluster of a core. -/
def clusterOf (c : Nat) : Nat := c / 16

/-- A token's slot that the cluster's pin cache does not hold (R318). -/
def coldSlot (s : State) (p : Party) (k : KReg) : Option Nat :=
  if !isPorter p && kCurrent s k && s.pinCold.contains (clusterOf (coreNo p), kSlot k) then some (kSlot k) else none

/-- The meaning of a task word as an outcome. -/
def runWord (i : Instr) (mk : State → Party → Plan) (act : List Nat → State → Act) (s : State) :
    Host.Outcome State Fault Refusal :=
  .next (issueWord ((encodeWord i).getD 0) mk act s)

end Sys2Proof.Machine
end

