-- ==== Sys2Proof/Machine/Ring.lean ====
section
/-! DEFINITION. The accumulator ring (spec 05, R151-R154): its tiles, their checksums (R159-R161) and its status. -/

namespace Sys2Proof.Machine

/-- Rounded to binary64, nearest even (R98). -/
def rne64 (f : Fl) : Word := BitVec.ofNat 64 (flRound tyF64 ⟨0, 0⟩ 0 f).1
def f64 (w : Word) : Fl := flDecode tyF64 w.toNat

def tileOf (c : Core) (n : Nat) : Tile := tget Tile.fresh c.tiles n
def mapTile (c : Core) (n : Nat) (f : Tile → Tile) : Core := { c with tiles := tput c.tiles n (f (tileOf c n)) }
def acc (t : Tile) (i : Nat) : Word := tget 0 t.elems i
def setAcc (t : Tile) (i : Nat) (v : Word) : Tile := { t with elems := tset 0 t.elems i v }
def rcOf (t : Tile) (i : Nat) : Word := tget 0 t.rc i
def ccOf (t : Tile) (j : Nat) : Word := tget 0 t.cc j

/-- The exact sum of words of an f64 tile. -/
def flSum (l : List Word) : Fl := l.foldl (fun a w => (flAdd false a (f64 w)).1) (.fin false 0 1 0)
/-- The sum of words in the tile's type (R159): wrapping, or exact and rounded once. -/
def tileSum (int : Bool) (l : List Word) : Word := if int then l.foldl (· + ·) 0 else rne64 (flSum l)
def rowOf (t : Tile) (i : Nat) : List Word := (List.range 128).map fun j => acc t (128 * i + j)
def colOf (t : Tile) (j : Nat) : List Word := (List.range 128).map fun i => acc t (128 * i + j)

/-- The tile with row `i`'s and the columns' checksums formed from its elements (R205). -/
def reRow (t : Tile) (i : Nat) : Tile := { t with rc := tset 0 t.rc i (tileSum t.int (rowOf t i)) }
def reCol (t : Tile) (j : Nat) : Tile := { t with cc := tset 0 t.cc j (tileSum t.int (colOf t j)) }

/-! ## The ring's states (R152) -/

def TileState.code : TileState → Nat
  | .free => 0 | .filling => 1 | .full => 2 | .draining => 3

/-- The tile that is FILLING, which is the head. -/
def filling (c : Core) : Bool := (tileOf c c.head).state = .filling

/-- FILLING ends: the tile is FULL and the head advances (R152). -/
def fillEnd (c : Core) : Core :=
  if filling c then { mapTile c c.head fun t => { t with state := .full } with head := (c.head + 1) % 4, window := [], windowOver := false, replays := 0, ate := [] }
  else c

/-- DRAINING ends: the tile is FREE and the tail advances. -/
def drainEnd (c : Core) : Core := { mapTile c c.tail fun t => { t with state := .free, failed := false } with tail := (c.tail + 1) % 4 }

/-- A tile set to +0 of a type (R151, R152). -/
def zeroTile (int : Bool) (st : TileState) : Tile := { Tile.fresh with state := st, int := int }

/-- Whether a tile holds anything but +0. -/
def holdsData (t : Tile) : Bool := !t.elems.isEmpty || !t.rc.isEmpty || !t.cc.isEmpty

/-- The 64-bit ring status (R154). The sticky bits stand in `ring` at their places. -/
def ringStatus (c : Core) : Word :=
  let states := joinW 2 ((List.range 4).map fun n => (tileOf c n).state.code)
  let types := joinW 2 ((List.range 4).map fun n => (tileOf c n).int.toNat)
  BitVec.ofNat 64 (c.ring.toNat + c.failt.toNat * 2 ^ 40 + types * 2 ^ 24 + states * 2 ^ 16 + c.head * 2 ^ 14 + c.tail * 2 ^ 12)

def rRECONF : Word := 0x80
def rIV : Word := 0x40
def rOF : Word := 0x20
def rUF : Word := 0x10
def rNX : Word := 0x08
def rREPLAY : Word := 0x04
def rCKFAIL : Word := 0x02
def rCKCORR : Word := 0x01

/-- Sticky ring bits of accumulated flags: IV, OF, UF, NX. -/
def ringFlags (f : BitVec 8) : Word :=
  (if f &&& fIV = 0 then 0 else rIV) ||| (if f &&& fOF = 0 then 0 else rOF) ||| (if f &&& fUF = 0 then 0 else rUF)
    ||| (if f &&& fNX = 0 then 0 else rNX)
def setRing (c : Core) (w : Word) : Core := { c with ring := c.ring ||| w }

/-- CORR raised by one, saturating. -/
def addCorr (c : Core) : Core := { c with ring := BitVec.ofNat 64 (satInc c.ring.toNat 48 16) }

/-- A tile reported failed (R161, R164), which it is until it has been drained; `ewait` clears no more than its status bit. -/
def failTile (c : Core) (n : Nat) : Core := { mapTile c n fun t => { t with failed := true } with failt := c.failt ||| (1#4 <<< n) }
def tileFailed (c : Core) (n : Nat) : Bool := (tileOf c n).failed

/-! ## Checking (R160, R161) -/

/-- |c - s| <= 2^-40 m with s, m exact; a non-finite element or checksum is not compared. -/
def agreeF (c : Word) (l : List Word) : Bool :=
  let s := flSum l
  let m := l.foldl (fun a w => (flAdd false a (f64 w).abs).1) (Fl.fin false 0 1 0)
  match f64 c, m with
  | .fin sg n d e, .fin _ mn md me =>
    !flLt (.fin false mn md (me - 40)) (flAdd false (.fin sg n d e) s.neg).1.abs
  | _, _ => true
def agree (int : Bool) (c : Word) (l : List Word) : Bool := if int then c = l.foldl (· + ·) 0 else agreeF c l

def failRows (t : Tile) : List Nat := (List.range 128).filter fun i => !agree t.int (rcOf t i) (rowOf t i)
def failCols (t : Tile) : List Nat := (List.range 128).filter fun j => !agree t.int (ccOf t j) (colOf t j)

/-- The rebuilt element (R161). -/
def rebuilt (t : Tile) (i j : Nat) : Word :=
  let others := ((List.range 128).filter (· != j)).map fun k => acc t (128 * i + k)
  if t.int then rcOf t i - others.foldl (· + ·) 0
  else rne64 (flAdd false (f64 (rcOf t i)) (flSum others).neg).1

end Sys2Proof.Machine
end

