-- ==== Sys2Proof/Machine/Access.lean ====
section
/-! DEFINITION. Loads and stores of a task through tokens (spec 04 R132-R137, spec 06 R195, spec 21 R434-R437):
the elements of an access, checked, read at issue (log 6) or posted to the store queue. -/

namespace Sys2Proof.Machine

/-- An element of an access: its lane, byte offset, size, and pieces. -/
structure El where
  lane : Bool
  off : Int
  size : Nat
  pieces : List Piece
  deriving DecidableEq, Repr, Inhabited

/-! ## Peer requests (R428, R431, R435) -/

/-- A message queued for a device, with the next ESEQ of the pair (R431). -/
def sendMsg (s : State) (m : Msg) : State × Msg :=
  let n := (tget 0 s.eseqOut m.dst + 1) % 65536
  let m1 := { m with src := s.identity, eseq := n }
  ({ s with eseqOut := tset 0 s.eseqOut m.dst n, outbox := s.outbox ++ [m1] }, m1)

/-- What is asked of a peer: bytes of an element, where they go, and the operand that they are of (R341). -/
structure Ask where
  pieces : List Piece
  base : Nat
  size : Nat
  mark : Nat
  op : Nat
  told : Bool

/-- The context that a request names: that of its party, or, of a supervisor, that of the slot which it goes through (log 49). -/
def peerCtx (s : State) (p : Party) (slot : Nat) : Nat := (if isSuper p then (slotOf s slot).ctx else ctxNo s p) % 64

/-- A request to a peer: KIND 1, 3 or 5 (R435), holding one count on the importer's slot until it is answered (R318). A read
names its size in one data byte (log 14), a write in bits [47:46] of ARG the nibble it means, or 3 for a message of an `xst` (log 15). -/
def peerOf (s : State) (p : Party) (kind : Nat) (pl : Place) (slot : Nat) (q : Ask) (data : List Byte) : State × Nat :=
  let x := sendMsg (inflt s slot true)
    ⟨kind, peerCtx s p slot, pl.addr / 2 ^ 46, 0, 0, pl.addr % 2 ^ 46 + (if kind = 3 then q.mark * 2 ^ 46 else 0), data⟩
  let id := s.reqNo
  ({ x.1 with reqNo := id + 1, peers := x.1.peers ++ [⟨id, x.2, p, slot, q.pieces, q.base, q.size, s.clock, whereOf s p, q.op, q.told⟩] }, id)

/-- A request for one whole element, the only one of its operand. -/
def peerRequest (s : State) (p : Party) (kind : Nat) (pl : Place) (slot : Nat) (q : Piece) (data : List Byte) : State × Nat :=
  peerOf s p kind pl slot ⟨[q], 0, q.size, q.nib, s.reqNo, false⟩ data

/-- Bytes (index, peer address) gathered into runs of at most 224 that neighbour in both: index, address and length of each. -/
def peerSpans (l : List (Nat × Nat)) : List (Nat × Nat × Nat) :=
  (l.foldl (fun acc x => match acc with
    | (j, a, n) :: r => if x.1 = j + n && x.2 = a + n && decide (n < 224) then (j, a, n + 1) :: r else (x.1, x.2, 1) :: acc
    | [] => [(x.1, x.2, 1)]) []).reverse
/-- The same for addresses alone: address and length. -/
def peerRuns (l : List Nat) : List (Nat × Nat) := (peerSpans ((List.range l.length).zip l)).map (·.2)

/-- One request of an operand for each of its runs. -/
def askSpans (s : State) (p : Party) (kind slot : Nat) (pieces : List Piece) (mark op : Nat) (told : Bool) (data : Nat × Nat × Nat → List Byte)
    (l : List (Nat × Nat × Nat)) : State × List Nat :=
  l.foldl (fun a r =>
    let x := peerOf a.1 p kind ⟨.peer, r.2.1⟩ slot ⟨pieces, r.1, r.2.2, mark, op, told⟩ (data r)
    (x.1, a.2 ++ [x.2])) (s, [])
/-- The data of a read names its size (log 14). -/
def readData (r : Nat × Nat × Nat) : List Byte := leBytes 1 r.2.2

/-! ### Order among the task's own accesses at a peer (R133, R437) -/

/-- The device that holds a peer byte (R434). -/
def deviceOf (pl : Place) : Option Nat := if pl.space = .peer then some (pl.addr / 2 ^ 46) else none
/-- A posted store has bytes at the device of a place that it has not sent. -/
def unsentTo (s : State) (pl : Place) (e : Store) : Bool :=
  !e.sent && e.cells.any fun c => deviceOf (pinLookup s c.slot c.off) = deviceOf pl
/-- An access to peer bytes waits until the task's earlier stores to their devices are sent: two exports may name the same bytes, and the messages
of a pair are taken in the order in which they are sent (R431). -/
def peerHeld (s : State) (stores : List Store) (pls : List Place) : Bool :=
  pls.any fun pl => pl.space = .peer && stores.any (unsentTo s pl)

/-! ## Loads -/

/-- What a load answers: its result parts as numbers, its flags, the requests it awaits, and whether it read anything. -/
structure Ld where
  st : State
  parts : List Nat
  flags : BitVec 8
  need : List Nat
  good : Bool

/-- The bits of a piece from its bytes. -/
def pieceBits (q : Piece) (v : Nat) : Nat :=
  match q.nib with
  | 0 => v % 2 ^ (8 * q.size)
  | 1 => v % 16
  | _ => v / 16 % 16

/-- The places of a piece. -/
def piecePlaces (s : State) (k : KReg) (e : El) (q : Piece) : List Place :=
  (List.range q.size).map fun i => kPlace s k (e.off.toNat + q.rel + i)

/-- The elements that pass stage 2 of R195. -/
def passing (s : State) (k : KReg) (store : Bool) (els : List El) : List El :=
  els.filter fun e => e.lane && (checkExt s k e.off e.size store).flag = 0

/-- The flags and the event of the elements that fail it. -/
def elemFails (s : State) (k : KReg) (store : Bool) (els : List El) : List Chk :=
  (els.filter (·.lane)).filterMap fun e =>
    let c := checkExt s k e.off e.size store
    if c.flag = 0 then none else some c

def addPart (l : List Nat) (i v : Nat) : List Nat := updAt (· + v) l i

/-- The peer bytes of an element asked for: one request, but for an element that is longer than a message or goes on in another export. -/
def askEl (s : State) (p : Party) (k : KReg) (e : El) (op : Nat) (told : Bool) : State × List Nat :=
  askSpans s p 1 (kSlot k) e.pieces 0 op told readData
    (peerSpans ((List.range e.size).map fun i => (i, (kPlace s k (e.off.toNat + i)).addr)))
/-- An element's bytes on this device put into the result parts. -/
def ownParts (s : State) (stores : List Store) (k : KReg) (e : El) (parts : List Nat) : List Nat :=
  e.pieces.foldl (fun l q => addPart l q.part (pieceBits q (leNat ((piecePlaces s k e q).map (ownByte s stores))) <<< q.pos)) parts

/-- A scalar access in a false lane makes no check (R135); a vector access makes stage 1 of R195 for the whole
instruction, whatever its lanes. -/
def noAccess : List El → Bool
  | [e] => !e.lane
  | _ => false

/-- Elements read through a token: `n` result parts (R132, R195). -/
def loadEls (s : State) (p : Party) (k : KReg) (perm : Bool) (n : Nat) (els : List El) : Ld :=
  let zero := List.replicate n 0
  let c := checkTok s k perm
  if noAccess els then ⟨s, zero, 0, [], false⟩
  else if c.flag != 0 then ⟨galMem (logChk s p k c) p (kSlot k), zero, c.flag, [], false⟩
  else
    let bad := elemFails s k false els
    let s0 := if bad.isEmpty then s else galMem s p (kSlot k)
    let fl := bad.foldl (fun f c => f ||| c.flag) 0
    let ok := passing s k false els
    let places := ok.flatMap fun e => e.pieces.flatMap fun q => (piecePlaces s k e q).map fun pl => (e, pl)
    let s1 := readAtoms (seeAccess s0 p false (places.map (·.2))) (places.map (·.2))
    match places.find? fun x => placePoison s x.2 with
    | some x => ⟨poisonMet s1 p (kSlot k) (kBase k + x.1.off.toNat) x.2, zero, fl, [], false⟩
    | none =>
      ok.foldl (fun (a : Ld) e =>
        if (kPlace s k e.off.toNat).space = .peer then
          let x := askEl a.st p k e s1.reqNo !bad.isEmpty
          { a with st := x.1, need := a.need ++ x.2 }
        else { a with parts := ownParts s (taskOf s p).stores k e a.parts }) ⟨s1, zero, fl, [], true⟩

/-- Bytes may be read: no earlier store of the task is to reach their device first, and none is one of a multicast whose source has not come
(R133). -/
def placesClear (s : State) (p : Party) (pls : List Place) : Bool :=
  let stores := (taskOf s p).stores
  !peerHeld s stores pls && !stores.any fun e => !e.need.isEmpty && pls.any fun pl => (mcastByte e pl).isSome
/-- The load need not wait. -/
def loadClear (s : State) (p : Party) (k : KReg) (els : List El) : Bool :=
  placesClear s p ((passing s k false els).flatMap fun e => e.pieces.flatMap (piecePlaces s k e))

/-! ## Stores -/

/-- The cells of an element written with a number's bits. -/
def elCells (k : KReg) (e : El) (vals : List Nat) : List SCell :=
  e.pieces.flatMap fun q =>
    let v := vals.getD q.part 0 >>> q.pos
    (List.range q.size).map fun i =>
      { slot := kSlot k, off := kBase k + e.off.toNat + q.rel + i, el := kBase k + e.off.toNat
        byte := match q.nib with | 0 => BitVec.ofNat 8 (v >>> (8 * i)) | 1 => BitVec.ofNat 8 (v % 16)
                                 | _ => BitVec.ofNat 8 (v % 16 * 16)
        mask := match q.nib with | 0 => 0xFF | 1 => 0x0F | _ => 0xF0 }

/-- A store posted to the queue (R134): what passes its checks is written when the store is performed,
and its flags are set then. -/
def postStore (s : State) (p : Party) (e : Store) : State :=
  let s1 := e.slots.foldl (fun s n => inflt s n true) s
  mapTask s1 p fun t => { t with stores := t.stores ++ [{ e with seq := t.sigNo, word := t.here }] }

/-- The events of a failed store: at most one per instruction (R195, R341). -/
def logFails (s : State) (p : Party) (k : KReg) (l : List Chk) : State :=
  match l.find? fun c => decide (c.ev != 0) with
  | some c => galMem (logChk s p k c) p (kSlot k)
  | none => if l.isEmpty then s else galMem s p (kSlot k)

/-- Elements stored through a token. -/
def storeEls (s : State) (p : Party) (k : KReg) (els : List El) (vals : List Nat) (act : StoreAct) (sg : List Nat) : State :=
  let c := checkTok s k (kW k)
  if noAccess els then completeSigs s p sg
  else if c.flag != 0 then postStore (logFails s p k [c]) p ⟨[], .bytes, c.flag, sg, [], [], false, 0, 0⟩
  else
    let bad := elemFails s k true els
    let fl := bad.foldl (fun f c => f ||| c.flag) 0
    let ok := passing s k true els
    let s1 := logFails s p k bad
    if !els.any (·.lane) then completeSigs s p sg
    else if ok.isEmpty then postStore s1 p ⟨[], .bytes, fl, sg, [], [], false, 0, 0⟩
    else
      let cells := ok.flatMap fun e => elCells k e vals
      postStore (seeAccess s1 p true (cells.map fun c => pinLookup s c.slot c.off)) p ⟨cells, act, fl, sg, [kSlot k], [], false, 0, 0⟩

/-- The parties that share a store queue: the slots of a core, the streams of a Porter. -/
def queueMates (p : Party) : List Party :=
  if isPorter p then .super (dieNo p) :: (List.range 64).map (.stream (dieNo p)) else (List.range 4).map (.slot (coreNo p))
/-- Space in the core's 32-entry store queue (R134). -/
def storeRoom (s : State) (p : Party) : Bool := decide (((queueMates p).map fun q => (taskOf s q).stores.length).sum < 32)

/-! ## Watched bytes (R380) -/

def elTouch (s : State) (k : KReg) (store : Bool) (els : List El) : List Touch :=
  if kCurrent s k && (if store then kW k else kR k) then
    (passing s k store els).map fun e => ⟨kSlot k, kBase k + e.off.toNat, e.size, store⟩
  else []

/-- One scalar element (R14, R135). -/
def scalarEl (ty : TyCode) (lane : Bool) (o : Int) : El :=
  let b := byteOff ty o
  ⟨lane, b.1, tyBytes ty, [⟨0, 0, 0, tyBytes ty, if tyWidth ty = 4 then (if b.2 then 2 else 1) else 0⟩]⟩

/-- A place at which a tag can stand: a unit of 16 bytes of the module's own storage (R143, R314). DEDUCED (log 58): a token stored through
a base that is no multiple of 16 keeps none. -/
def tagPlace (pl : Place) : Bool :=
  pl.addr % 16 = 0 && match pl.space with
    | .hall | .near | .far => true
    | _ => false
/-- Whether the storage under a byte keeps token tags (R137, R314). -/
def keepsTag (s : State) (k : KReg) (off : Nat) : Bool :=
  let r := slotOf s (kSlot k)
  let w := wordOf s (r.first + (kBase k + off) / psBytes r.ps)
  let pl := kPlace s k off
  tagPlace pl && (pl.space = .hall || w.tp)
/-- The tag kept at a byte of a continuation spill area or of a landing, which keeps tags as a registered token-capable page does (R268, R314). -/
def spillTag (s : State) (k : KReg) (off : Nat) : Bool := tagPlace (kPlace s k off) && rdTag s (kPlace s k off)

end Sys2Proof.Machine
end

