-- ==== Sys2Proof/Machine/Scalar.lean ====
section
/-! DEFINITION. Scalar integer instructions (spec 04, R101-R117). -/

namespace Sys2Proof.Machine

/-! ## Shared by words with a scalar result -/

/-- The reads of a format-A word's sources, untagged, and of its predicate mask. -/
def readsA (f : FmtA) : List Rd :=
  { field := 1, spec := f.a } :: { field := 2, spec := f.b } :: { field := 3, spec := f.c } :: maskRd f.p

/-- What is judged of a format-A word with one scalar result of latency `lat`. -/
def planScal (ill : List (Nat × Bool)) (f : FmtA) (lat : Nat) (_ : State) (_ : Party) : Plan :=
  { tk := f.tk, ill := ill, reads := readsA f, nres := 1, lands := some (false, 1, lat) }

/-- A scalar result put in flight. -/
def putScal (lat : Nat) (d : SpecBits) (short : Bool) (r : Word × BitVec 8) (sg : List Nat) (s : State) : State :=
  addFlight s s.cur (mkFlight lat true (destOf d) (.word r.1) r.2 short sg)

/-- Bit 0 of the predicate governs a scalar result (R102). -/
def scalLane (s : State) (pr : BitVec 3) : Bool := (laneMask s s.cur pr).getLsbD 0

/-- A scalar result under its predicate: a false bit writes 0 and sets no flag (R102). -/
def scalRes (f : FmtA) (s : State) (r : Word × BitVec 8) : Word × BitVec 8 := if scalLane s f.p then r else (0, 0)

/-- The effect of a format-A word with one scalar result. -/
def actScal (lat : Nat) (f : FmtA) (val : State → Word × BitVec 8) (sg : List Nat) (s : State) : Act :=
  .done (putScal lat f.d f.s (scalRes f s (val s)) sg s)

/-- A word with one scalar result. -/
def scalWord (i : Instr) (ill : List (Nat × Bool)) (f : FmtA) (lat : Nat) (val : State → Word × BitVec 8) (s : State) :
    Host.Outcome State Fault Refusal :=
  runWord i (planScal ill f lat) (actScal lat f val) s

def opA (f : FmtA) (s : State) : Word := rdScal s s.cur f.a
def opB (f : FmtA) (s : State) : Word := rdScal s s.cur f.b
def opC (f : FmtA) (s : State) : Word := rdScal s s.cur f.c
def valA (f : FmtA) (s : State) : Xv := sread s s.cur f.ty f.a f.ma
def valB (f : FmtA) (s : State) : Xv := sread s s.cur f.ty f.b f.mb
def valC (f : FmtA) (s : State) : Xv := sread s s.cur f.ty f.c f.mc

/-- `swrite` of an exact integer (R101, R79). -/
def intRes (ty : TyCode) (cl : BitVec 2) (i : Int) : Word × BitVec 8 :=
  let b := intBound ty cl.toNat i
  (extend64 ty b.1, b.2)

/-! ## add, sub, mul (R105) -/

def addVal (f : FmtA) (s : State) : Word × BitVec 8 := intRes f.ty f.cl ((valA f s).toInt + (valB f s).toInt)
def subVal (f : FmtA) (s : State) : Word × BitVec 8 := intRes f.ty f.cl ((valA f s).toInt - (valB f s).toInt)
def mulVal (f : FmtA) (s : State) : Word × BitVec 8 := intRes f.ty f.cl ((valA f s).toInt * (valB f s).toInt)

def execAdd (f : FmtA) (s : State) : Host.Outcome State Fault Refusal :=
  scalWord (.add f) (faultsA (sigIntAri f) f) f 1 (addVal f) s
def execSub (f : FmtA) (s : State) : Host.Outcome State Fault Refusal :=
  scalWord (.sub f) (faultsA (sigIntAri f) f) f 1 (subVal f) s
def execMul (f : FmtA) (s : State) : Host.Outcome State Fault Refusal :=
  scalWord (.mul f) (faultsA (sigIntAri f) f) f 3 (mulVal f) s

/-! ## Minimum and maximum (R106) -/

/-- `min` and `max`: signed 64 bits under none, R82 under a floating type. DEDUCED (log 58): the result is one of the operands' values
or the canonical NaN, nothing is rounded, and SEED does not advance (R91), unlike the vector forms, whose entries round. -/
def minMaxVal (isMax : Bool) (f : FmtA) (s : State) : Word × BitVec 8 :=
  if isNoneTy f.ty then
    let a := (valA f s).toInt
    let b := (valB f s).toInt
    (BitVec.ofInt 64 (if isMax then max a b else min a b), 0)
  else
    let r := flMinMax isMax (valA f s).toFl (valB f s).toFl
    (BitVec.ofNat 64 (flRound f.ty ⟨0, 0⟩ 0 r.1).1, r.2)
def minnVal (f : FmtA) (s : State) : Word × BitVec 8 := (if (opA f s).toNat ≤ (opB f s).toNat then opA f s else opB f s, 0)
def maxnVal (f : FmtA) (s : State) : Word × BitVec 8 := (if (opA f s).toNat ≤ (opB f s).toNat then opB f s else opA f s, 0)

def execMin (f : FmtA) (s : State) : Host.Outcome State Fault Refusal :=
  scalWord (.min f) (faultsA (sigMinMax f) f) f 1 (minMaxVal false f) s
def execMax (f : FmtA) (s : State) : Host.Outcome State Fault Refusal :=
  scalWord (.max f) (faultsA (sigMinMax f) f) f 1 (minMaxVal true f) s
def execMinn (f : FmtA) (s : State) : Host.Outcome State Fault Refusal :=
  scalWord (.minn f) (faultsA (sigNone2 f) f) f 1 (minnVal f) s
def execMaxn (f : FmtA) (s : State) : Host.Outcome State Fault Refusal :=
  scalWord (.maxn f) (faultsA (sigNone2 f) f) f 1 (maxnVal f) s

/-! ## High products and division (R107, R108) -/

def mulhVal (f : FmtA) (s : State) : Word × BitVec 8 :=
  (BitVec.ofInt 64 ((opA f s).toInt * (opB f s).toInt / (2 ^ 64 : Nat)), 0)
def mulhnVal (f : FmtA) (s : State) : Word × BitVec 8 := (BitVec.ofNat 64 ((opA f s).toNat * (opB f s).toNat / 2 ^ 64), 0)

def execMulh (f : FmtA) (s : State) : Host.Outcome State Fault Refusal :=
  scalWord (.mulh f) (faultsA (sigNone2 f) f) f 3 (mulhVal f) s
def execMulhn (f : FmtA) (s : State) : Host.Outcome State Fault Refusal :=
  scalWord (.mulhn f) (faultsA (sigNone2 f) f) f 3 (mulhnVal f) s

/-- Quotient toward zero; by zero 0 with DZ; -2^63 by -1 wraps with OF. -/
def divVal (f : FmtA) (s : State) : Word × BitVec 8 :=
  let a := (opA f s).toInt
  let b := (opB f s).toInt
  if b = 0 then (0, fDZ) else intRes tyI64 0 (a.tdiv b)
def remVal (f : FmtA) (s : State) : Word × BitVec 8 :=
  let a := (opA f s).toInt
  let b := (opB f s).toInt
  if b = 0 then (opA f s, fDZ) else (BitVec.ofInt 64 (a.tmod b), 0)
def divnVal (f : FmtA) (s : State) : Word × BitVec 8 :=
  if opB f s = 0 then (0, fDZ) else (BitVec.ofNat 64 ((opA f s).toNat / (opB f s).toNat), 0)
def remnVal (f : FmtA) (s : State) : Word × BitVec 8 :=
  if opB f s = 0 then (opA f s, fDZ) else (BitVec.ofNat 64 ((opA f s).toNat % (opB f s).toNat), 0)

def execDiv (f : FmtA) (s : State) : Host.Outcome State Fault Refusal :=
  scalWord (.div f) (faultsA (sigNone2 f) f) f 16 (divVal f) s
def execDivn (f : FmtA) (s : State) : Host.Outcome State Fault Refusal :=
  scalWord (.divn f) (faultsA (sigNone2 f) f) f 16 (divnVal f) s
def execRem (f : FmtA) (s : State) : Host.Outcome State Fault Refusal :=
  scalWord (.rem f) (faultsA (sigNone2 f) f) f 16 (remVal f) s
def execRemn (f : FmtA) (s : State) : Host.Outcome State Fault Refusal :=
  scalWord (.remn f) (faultsA (sigNone2 f) f) f 16 (remnVal f) s

/-! ## Logic and shifts (R109, R110) -/

def execAnd (f : FmtA) (s : State) : Host.Outcome State Fault Refusal :=
  scalWord (.and f) (faultsA (sigNone2 f) f) f 1 (fun s => (opA f s &&& opB f s, 0)) s
def execOr (f : FmtA) (s : State) : Host.Outcome State Fault Refusal :=
  scalWord (.or f) (faultsA (sigNone2 f) f) f 1 (fun s => (opA f s ||| opB f s, 0)) s
def execXor (f : FmtA) (s : State) : Host.Outcome State Fault Refusal :=
  scalWord (.xor f) (faultsA (sigNone2 f) f) f 1 (fun s => (opA f s ^^^ opB f s, 0)) s
def execAndn (f : FmtA) (s : State) : Host.Outcome State Fault Refusal :=
  scalWord (.andn f) (faultsA (sigNone2 f) f) f 1 (fun s => (opA f s &&& ~~~ opB f s, 0)) s

/-- The shift amount: B's low 8 bits (R110). -/
def shAmt (f : FmtA) (s : State) : Nat := (opB f s).toNat % 256

def execShl (f : FmtA) (s : State) : Host.Outcome State Fault Refusal :=
  scalWord (.shl f) (faultsA (sigNone2 f) f) f 1 (fun s => (opA f s <<< shAmt f s, 0)) s
def execShr (f : FmtA) (s : State) : Host.Outcome State Fault Refusal :=
  scalWord (.shr f) (faultsA (sigNone2 f) f) f 1 (fun s => (opA f s >>> shAmt f s, 0)) s
def execSra (f : FmtA) (s : State) : Host.Outcome State Fault Refusal :=
  scalWord (.sra f) (faultsA (sigNone2 f) f) f 1 (fun s => ((opA f s).sshiftRight (shAmt f s), 0)) s
def execRot (f : FmtA) (s : State) : Host.Outcome State Fault Refusal :=
  scalWord (.rot f) (faultsA (sigNone2 f) f) f 1 (fun s => ((opA f s).rotateLeft (shAmt f s % 64), 0)) s

/-! ## Compare, select, counts (R111-R113) -/

/-- The integer conditions (R34). -/
def icond (c : ICond) (a b : Word) : Bool :=
  match c with
  | .eq => a = b | .ne => a != b | .lt => a.toInt < b.toInt | .ge => b.toInt ≤ a.toInt
  | .ltn => a.toNat < b.toNat | .gen => b.toNat ≤ a.toNat

def boolWord (b : Bool) : Word := if b then 1 else 0

def execCmp (c : ICond) (f : FmtA) (s : State) : Host.Outcome State Fault Refusal :=
  scalWord (.cmp c f) (faultsA (sigNone2 f) f) f 1 (fun s => (boolWord (icond c (opA f s) (opB f s)), 0)) s
def execSel (f : FmtA) (s : State) : Host.Outcome State Fault Refusal :=
  scalWord (.sel f) (faultsA (sigNone3 f) f) f 1 (fun s => (if opA f s != 0 then opB f s else opC f s, 0)) s

/-- Zero bits below the lowest one bit; `n` for a zero. -/
def ctzNat : Nat → Nat → Nat
  | 0, _ => 0
  | n + 1, v => if v % 2 = 1 then 0 else 1 + ctzNat n (v / 2)
def clzWord (a : Word) : Nat := if a = 0 then 64 else 63 - a.toNat.log2

def execClz (f : FmtA) (s : State) : Host.Outcome State Fault Refusal :=
  scalWord (.clz f) (faultsA (sigNone1 f) f) f 1 (fun s => (BitVec.ofNat 64 (clzWord (opA f s)), 0)) s
def execCtz (f : FmtA) (s : State) : Host.Outcome State Fault Refusal :=
  scalWord (.ctz f) (faultsA (sigNone1 f) f) f 1 (fun s => (BitVec.ofNat 64 (ctzNat 64 (opA f s).toNat), 0)) s
def execPopc (f : FmtA) (s : State) : Host.Outcome State Fault Refusal :=
  scalWord (.popc f) (faultsA (sigNone1 f) f) f 1 (fun s => (BitVec.ofNat 64 (popNat 64 (opA f s).toNat), 0)) s

/-! ## Immediates (R114-R116) -/

/-- The operand a format-I word reads; `bfi` reads D besides. -/
def readsI (f : FmtI) : List Rd := [{ field := 1, spec := f.a }]
def readsBfi (f : FmtI) : List Rd := [{ field := 1, spec := f.a }, { field := 4, spec := f.d }]

/-- What is judged of a format-I word with one scalar result of latency 1. -/
def planImm (ill : List (Nat × Bool)) (f : FmtI) (_ : State) (_ : Party) : Plan :=
  { tk := f.tk, ill := ill, reads := readsI f, nres := 1, lands := some (false, 1, 1) }
def planBfi (f : FmtI) (s : State) (p : Party) : Plan := { planImm (illBfi f) f s p with reads := readsBfi f }
def immWord (i : Instr) (ill : List (Nat × Bool)) (f : FmtI) (val : State → Word × BitVec 8) (s : State) :
    Host.Outcome State Fault Refusal :=
  runWord i (planImm ill f) (fun sg s => .done (putScal 1 f.d f.s (val s) sg s)) s
def immA (f : FmtI) (s : State) : Word := rdScal s s.cur f.a

def execAddi (f : FmtI) (s : State) : Host.Outcome State Fault Refusal :=
  immWord (.addi f) (illAddi f) f (fun s => intRes tyI64 0 ((immA f s).toInt + f.imm.toInt)) s

/-- A field of `len` bits at `pos`. -/
def bfMask (f : FmtI) : Nat := 2 ^ bfLen f - 1
def bfxVal (f : FmtI) (s : State) : Word × BitVec 8 :=
  let v := bits (immA f s).toNat (bfPos f) (bfLen f)
  (if bfSx f then BitVec.ofInt 64 (signed (bfLen f) v) else BitVec.ofNat 64 v, 0)
def bfiVal (f : FmtI) (s : State) : Word × BitVec 8 :=
  let m := BitVec.ofNat 64 (bfMask f) <<< bfPos f
  ((rdScal s s.cur f.d &&& ~~~ m) ||| ((immA f s &&& BitVec.ofNat 64 (bfMask f)) <<< bfPos f), 0)

def execBfx (f : FmtI) (s : State) : Host.Outcome State Fault Refusal := immWord (.bfx f) (illBfx f) f (bfxVal f) s
def execBfi (f : FmtI) (s : State) : Host.Outcome State Fault Refusal :=
  runWord (.bfi f) (planBfi f) (fun sg s => .done (putScal 1 f.d f.s (bfiVal f s) sg s)) s
def execLi (f : FmtI) (s : State) : Host.Outcome State Fault Refusal :=
  immWord (.li f) (illLi f) f (fun _ => (f.imm.signExtend 64, 0)) s
def execLih (f : FmtI) (s : State) : Host.Outcome State Fault Refusal :=
  immWord (.lih f) (illLih f) f (fun s => (f.imm.extractLsb' 0 30 ++ (immA f s).extractLsb' 0 34, 0)) s

/-! ## name (R117) -/

/-- The latency of a `name` by A's class. -/
def nameLat (f : FmtA) : Nat :=
  match clsOf f.a with
  | .w | .v | .m | .q => 2
  | _ => 1

def planName (f : FmtA) (_ : State) (_ : Party) : Plan :=
  let lands := match clsOf f.a with
    | .w | .v => some (true, 1, 2)
    | .t | .x | .c => some (false, 1, 1)
    | _ => none
  { tk := f.tk, ill := faultsA (sigName f) f, reads := readsA f, nres := 1, lands := lands }

/-- A vector row's bytes under its predicate: zero-fill clears false lanes (R27, R117). -/
def nameVec (f : FmtA) (s : State) : VReg :=
  let r := rdVec s s.cur f.a
  if f.z then
    let bytes := splitW 8 512 r.data.toNat
    let lanes := lanesOf s s.cur f.p 512
    ⟨BitVec.ofNat 4096 (joinW 8 ((bytes.zip lanes).map fun e => if e.2 then e.1 else 0)), r.tag⟩
  else r

def nameVal (f : FmtA) (s : State) : Val :=
  match clsOf f.a with
  | .w | .v => .vec (nameVec f s)
  | .k => .tok (rdTok s s.cur f.a)
  | .m => .mask (rdMask s s.cur f.a)
  | .o => .order (rdOrd s s.cur f.a)
  | .q => .series (rdSer s s.cur f.a)
  | _ => .word (opA f s)

def nameAct (f : FmtA) (sg : List Nat) (s : State) : Act :=
  let stair := match clsOf f.a with
    | .w | .v | .t | .x | .c => true
    | _ => false
  .done (addFlight s s.cur (mkFlight (nameLat f) stair (destOf f.d) (nameVal f s) 0 f.s sg))

def execName (f : FmtA) (s : State) : Host.Outcome State Fault Refusal := runWord (.name f) (planName f) (nameAct f) s

end Sys2Proof.Machine
end

