-- ==== Sys2Proof/Machine/Control.lean ====
section
/-! DEFINITION. Control transfer, hardware loops, `halt`, `nop`, `trap`, `waita` (spec 04, R121-R130). -/

namespace Sys2Proof.Machine

/-- What is judged of a word without a result. -/
def planNone (tk : Tk) (ill : List (Nat × Bool)) (reads : List Rd) (_ : State) (_ : Party) : Plan :=
  { tk := tk, ill := ill, reads := reads }

/-- A word without a result that completes in its issue cycle (R103). -/
def doneNow (sg : List Nat) (s : State) : Act := .done (completeSigs s s.cur sg)

/-- The index of the word that acts. -/
def thisWord (s : State) : Nat := (taskOf s s.cur).here

/-- A displaced word index, 48 bits as `tstat` holds it (R68). -/
def dispTarget (s : State) (disp : BitVec 32) : Nat := wrap 48 ((thisWord s : Int) + disp.toInt)

/-! ## br, jmp, call (R121, R122) -/

def readsB (f : FmtB) : List Rd := [{ field := 1, spec := f.a }, { field := 2, spec := f.b }]

/-- A target outside `.task` is no matter of the transferring word: DEDUCED (log 58): the word fetched there is missing, ILL with detail 5 at
that index, which wraps to 48 bits. -/
def brAct (c : ICond) (f : FmtB) (sg : List Nat) (s : State) : Act :=
  let s1 := if icond c (rdScal s s.cur f.a) (rdScal s s.cur f.b) then transfer s s.cur (dispTarget s f.disp) else s
  doneNow sg s1
def execBr (c : ICond) (f : FmtB) (s : State) : Host.Outcome State Fault Refusal :=
  runWord (.br c f) (planNone f.tk (illBr f) (readsB f)) (brAct c f) s

def jmpAct (f : FmtB) (sg : List Nat) (s : State) : Act := doneNow sg (transfer s s.cur (dispTarget s f.disp))
def execJmp (f : FmtB) (s : State) : Host.Outcome State Fault Refusal :=
  runWord (.jmp f) (planNone f.tk (illJmp f) []) (jmpAct f) s

/-- A word that may not stand in an active loop body (R75). -/
def inLoop (s : State) (p : Party) : Bool := !(taskOf s p).loops.isEmpty

def planCall (f : FmtB) (s : State) (p : Party) : Plan :=
  { tk := f.tk, ill := (5, inLoop s p) :: illJmp f, nres := 1 }
/-- The address of the following word goes to x31 one cycle later, on no stair (R122). -/
def callAct (f : FmtB) (sg : List Nat) (s : State) : Act :=
  let link := BitVec.ofNat 64 (8 * (taskOf s s.cur).pc)
  let s1 := addFlight s s.cur (mkFlight 1 false (.x 31) (.word link) 0 false [])
  doneNow sg (transfer s1 s.cur (dispTarget s f.disp))
def execCall (f : FmtB) (s : State) : Host.Outcome State Fault Refusal := runWord (.call f) (planCall f) (callAct f) s

/-! ## jmpr, ret (R123) -/

/-- An address that is no word of `.task` (R123). -/
def badTarget (s : State) (p : Party) (a : Word) : Bool := a.toNat % 8 != 0 || decide (codeWords s p ≤ a.toNat / 8)
def planJmpr (f : FmtA) (s : State) (p : Party) : Plan :=
  { tk := f.tk, ill := (5, inLoop s p || badTarget s p (rdScal s p f.a)) :: illCtl f cTx, reads := readsA f }
def jmprAct (f : FmtA) (sg : List Nat) (s : State) : Act := doneNow sg (transfer s s.cur ((opA f s).toNat / 8))
def execJmpr (f : FmtA) (s : State) : Host.Outcome State Fault Refusal := runWord (.jmpr f) (planJmpr f) (jmprAct f) s
def execRet (f : FmtA) (s : State) : Host.Outcome State Fault Refusal := runWord (.ret f) (planJmpr f) (jmprAct f) s

/-! ## loop, loopx (R72-R74, R124, R125) -/

def levelNo : Level → Nat
  | .l0 => 0 | .l1 => 1 | .l2 => 2

/-- The entry limits of `loop` that depend on the state (R72, R73, R74, R124). -/
def loopBad (l : Level) (f : FmtL) (s : State) (p : Party) : Bool :=
  let t := taskOf s p
  let start := t.pc + 1
  let len := f.len.toNat + 1
  t.loops.length != levelNo l || decide (2 ^ 64 - 8 < (rdScal s p f.cnt).toNat) || (f.stg != 0 && (pipedLoop t).isSome)
    || decide (codeWords s p < start + len)
    || t.loops.any fun e => e.buf != t.level || decide (start < e.start) || decide (e.start + e.len < start + len)

/-- A vector floating arithmetic word with TY f64 (R169). DEDUCED (log 62): OP 0x1C and 0x1D, the operations of vector floating arithmetic, and
neither comparisons, reductions nor conversions. -/
def fp64Vector (w : Word) : Bool :=
  (wOp w = 0x1C || wOp w = 0x1D) && w.extractLsb' 44 5 = tyF64

/-- The loop's body asks power leave (R169). -/
def loopLeave (f : FmtL) (s : State) (p : Party) : Bool :=
  !isPorter p && (List.range (f.len.toNat + 1)).any fun i => ((codeWord s p ((taskOf s p).pc + 1 + i)).map fp64Vector).getD false

/-- A request for leave queued, first-in first-out (R170); charges in milliwatts. -/
def askLeave (s : State) (p : Party) (charge : Nat) : State :=
  if (taskOf s p).leaveAsked then s
  else mapTask { s with leaveQ := s.leaveQ ++ [(clusterOf (coreNo p), p, charge, s.clock)] } p fun t => { t with leaveAsked := true }

def planLoop (l : Level) (f : FmtL) (s : State) (p : Party) : Plan :=
  { tk := f.tk, ill := (5, loopBad l f s p) :: illLoop f, reads := [{ field := 5, spec := f.cnt }]
    go := !loopLeave f s p || (taskOf s p).leaveGot
    ask := fun s => askLeave s p 1200 }

/-- The loop opens with lc := N + S - 1; N = 0 skips the body, and gives back the leave it had (R73, R74, R169). -/
def loopAct (l : Level) (f : FmtL) (sg : List Nat) (s : State) : Act :=
  let n := (rdScal s s.cur f.cnt).toNat
  let st := f.stg.toNat + 1
  let lv := levelNo l
  let s1 := mapTask s s.cur fun t =>
    let lp : Loop := ⟨lv, t.pc, f.len.toNat + 1, st, f.id.toNat, 0, t.leaveGot, t.level⟩
    if n = 0 then { t with lc := tset 0 t.lc lv 0, pc := t.pc + f.len.toNat + 1, fell := true, leaveGot := false }
    else { takeBody s s.cur t t.pc (f.len.toNat + 1) with
      lc := tset 0 t.lc lv (BitVec.ofNat 64 (n + st - 1))
      loops := t.loops ++ [lp]
      spred := if 1 < st then 1 else t.spred
      fell := false
      leaveAsked := false
      leaveGot := false }
  doneNow sg (if n = 0 && (taskOf s s.cur).leaveGot then leaveOne s1 s.cur else s1)
def execLoop (l : Level) (f : FmtL) (s : State) : Host.Outcome State Fault Refusal :=
  runWord (.loop l f) (planLoop l f) (loopAct l f) s

def planLoopx (f : FmtA) (s : State) (p : Party) : Plan :=
  { tk := f.tk, ill := (5, (hereLoop (taskOf s p)).isNone) :: illCtl f cScalN, reads := readsA f }
def loopxAct (f : FmtA) (sg : List Nat) (s : State) : Act :=
  let go := clsOf f.a = .none || opA f s != 0
  match hereLoop (taskOf s s.cur), go with
  | some l, true =>
    doneNow sg (mapTask (endLoop s s.cur) s.cur fun t => { t with pc := l.start + l.len, fell := true })
  | _, _ => doneNow sg s
def execLoopx (f : FmtA) (s : State) : Host.Outcome State Fault Refusal := runWord (.loopx f) (planLoopx f) (loopxAct f) s

/-! ## halt, nop (R126) -/

def planHalt (f : FmtA) (_ : State) (_ : Party) : Plan := { tk := f.tk, ill := illCtl f cNone, sync := true }
/-- Every active loop ends, and the slot issues no further word. -/
def haltAct (sg : List Nat) (s : State) : Act :=
  let p := s.cur
  let s1 := endLoop (endLoop (endLoop s p) p) p
  doneNow sg (mapTask s1 p fun t => { t with status := .halting })
def execHalt (f : FmtA) (s : State) : Host.Outcome State Fault Refusal := runWord (.halt f) (planHalt f) haltAct s

def execNop (f : FmtA) (s : State) : Host.Outcome State Fault Refusal :=
  runWord (.nop f) (planNone f.tk (illCtl f cNone) []) doneNow s

/-! ## waita (R130) and trap (R129) -/

/-- min(A, limit), an absent A reading 0. -/
def waitCount (f : FmtA) (s : State) (p : Party) (limit : Nat) : Nat := min (rdScal s p f.a).toNat limit

/-- A pending CHK traps at once, before any wait (R167). -/
def chkPending (s : State) (p : Party) : Bool := !(taskOf s p).chk.isEmpty

/-- Every asynchronous load but the `n` most recently issued has been written (R130). -/
def asyncsDone (t : Task) (n : Nat) : Bool := t.asyncs.all fun a => decide (t.asyncNo ≤ a.seq + n)

def planWaita (f : FmtA) (s : State) (p : Party) : Plan :=
  { tk := f.tk, ill := illCtl f cScalN, reads := readsA f, sync := true
    ready := chkPending s p || asyncsDone (taskOf s p) (waitCount f s p 64) }
/-- It covers the loads it waited for (R58). -/
def waitaAct (f : FmtA) (sg : List Nat) (s : State) : Act :=
  doneNow sg (cover s s.cur false (taskOf s s.cur).asyncNo (waitCount f s s.cur 64))
def execWaita (f : FmtA) (s : State) : Host.Outcome State Fault Refusal := runWord (.waita f) (planWaita f) (waitaAct f) s

def trapAct (f : FmtI) (_ : List Nat) (s : State) : Act :=
  .after s { mkTrap cDBG 15 with aux0 := (f.imm.extractLsb' 0 16).setWidth 64 }
def execTrap (f : FmtI) (s : State) : Host.Outcome State Fault Refusal :=
  runWord (.trap f) (planNone f.tk (illTrap f) []) (trapAct f) s

end Sys2Proof.Machine
end

