-- ==== Sys2Proof/Machine/ScalarFp.lean ====
section
/-! DEFINITION. Scalar floating point and CSR access (spec 04, R118-R120, R131; spec 02, R67-R71). -/

namespace Sys2Proof.Machine

/-- The rounding of a one-element word: the mode, and the draw its single advance gives (R90, R91). -/
def scalRnd (s : State) (p : Party) : Rnd := ⟨rmOf (taskOf s p), lfsr (seedOf (taskOf s p))⟩
def isRdn (s : State) (p : Party) : Bool := rmOf (taskOf s p) = 3

/-- An exact value with its invalid flags, scaled, rounded once, and written as `swrite` does (R118). -/
def fpRes (f : FmtA) (s : State) (v : Fl × BitVec 8) : Word × BitVec 8 :=
  let r := flRound f.ty (scalRnd s s.cur) f.cl.toNat (flScale f.sc.toInt v.1)
  (BitVec.ofNat 64 r.1, r.2 ||| v.2)

/-- A rounding scalar word: SEED advances once under sr, in a false lane too (R91, R102). -/
def actFp (f : FmtA) (val : State → Word × BitVec 8) (sg : List Nat) (s : State) : Act :=
  .done (putScal 4 f.d f.s (scalRes f s (val s)) sg (mapTask s s.cur fun t => advanceSeed t 1))

def faddVal (f : FmtA) (s : State) : Word × BitVec 8 :=
  fpRes f s (flAdd (isRdn s s.cur) (valA f s).toFl (valB f s).toFl)
def fmulVal (f : FmtA) (s : State) : Word × BitVec 8 := fpRes f s (flMul (valA f s).toFl (valB f s).toFl)
def ffmaVal (f : FmtA) (s : State) : Word × BitVec 8 :=
  fpRes f s (flFma (isRdn s s.cur) (valA f s).toFl (valB f s).toFl (valC f s).toFl)

def execFadd (f : FmtA) (s : State) : Host.Outcome State Fault Refusal :=
  runWord (.fadd f) (planScal (faultsA (sigFp2 f) f) f 4) (actFp f (faddVal f)) s
def execFmul (f : FmtA) (s : State) : Host.Outcome State Fault Refusal :=
  runWord (.fmul f) (planScal (faultsA (sigFp2 f) f) f 4) (actFp f (fmulVal f)) s
def execFfma (f : FmtA) (s : State) : Host.Outcome State Fault Refusal :=
  runWord (.ffma f) (planScal (faultsA (sigFp3 f) f) f 4) (actFp f (ffmaVal f)) s

/-- A floating comparison (R34, R81): equal and less by value, unordered when either is NaN. -/
structure FOrd where
  un : Bool
  lt : Bool
  eq : Bool

def flOrder (a b : Fl) : FOrd :=
  if a.isNan || b.isNan then ⟨true, false, false⟩
  else
    let l := flLt a b
    ⟨false, l, !l && !flLt b a⟩

def fcondHolds (c : FCond) (o : FOrd) : Bool :=
  match c with
  | .eq => o.eq | .ne => !o.eq | .lt => o.lt | .le => o.lt || o.eq | .un => o.un

def fcmpVal (c : FCond) (f : FmtA) (s : State) : Word × BitVec 8 :=
  let a := (valA f s).toFl
  let b := (valB f s).toFl
  (boolWord (fcondHolds c (flOrder a b)), a.sig ||| b.sig)

def execFcmp (c : FCond) (f : FmtA) (s : State) : Host.Outcome State Fault Refusal :=
  scalWord (.fcmp c f) (faultsA (sigFcmp f) f) f 4 (fcmpVal c f) s

/-- `fcvt` (R120): A under SRC, converted and written under DST. -/
def fcvtVal (f : FmtA) (s : State) : Word × BitVec 8 :=
  let r := convert f.ty (scalRnd s s.cur) f.cl.toNat f.sc.toInt (sread s s.cur (cTy f) f.a f.ma)
  (extend64 f.ty r.1, r.2)
def fcvtAct (f : FmtA) (sg : List Nat) (s : State) : Act :=
  if tyFloat f.ty || tyFloat (cTy f) then actFp f (fcvtVal f) sg s else actScal 4 f (fcvtVal f) sg s
def planFcvt (f : FmtA) (_ : State) (_ : Party) : Plan :=
  { tk := f.tk, ill := illFcvt f, reads := { field := 1, spec := f.a } :: maskRd f.p, nres := 1, lands := some (false, 1, 4) }
def execFcvt (f : FmtA) (s : State) : Host.Outcome State Fault Refusal := runWord (.fcvt f) (planFcvt f) (fcvtAct f) s

/-! ## CSRs -/

/-- A CSR's value in the issue cycle (R67-R71). -/
def csrValue (t : Task) (n : Nat) : Word :=
  match n with
  | 0 => t.tstat
  | 1 => t.flags.setWidth 64
  | 2 => t.fmode
  | 3 | 4 | 5 => tget 0 t.lc (n - 3)
  | 6 => t.spred.setWidth 64
  | 8 | 9 | 10 | 11 => BitVec.ofNat 64 (t.point.getD (n - 8) 0)
  | 12 => BitVec.ofNat 64 t.asyncs.length
  | 13 => BitVec.ofNat 64 t.exchs.length
  | 16 => t.ctimeo.setWidth 64
  | 0x20 => BitVec.ofNat 64 (t.level + (if t.cp then 4 else 0) + (t.loopcs.map fun l => 8 * 2 ^ l.level).sum)
  | _ => 0

/-- `cpstat` is no CSR of a task core (R300). -/
def planCsrr (f : FmtI) (s : State) (p : Party) : Plan :=
  planImm ((5, csrNo f = 0x20 && !isPorter p) :: illCsrr f) f s p
def execCsrr (f : FmtI) (s : State) : Host.Outcome State Fault Refusal :=
  runWord (.csrr f) (planCsrr f)
    (fun sg s => .done (putScal 1 f.d f.s (csrValue (taskOf s s.cur) (csrNo f), 0) sg s)) s

/-- Writes that raise ILL (R70, R76). -/
def csrwBad (f : FmtI) (s : State) (p : Party) : Bool :=
  let v := rdScal s p f.a
  match csrNo f with
  | 2 => decide (6 ≤ v.toNat % 8) || v.extractLsb' 3 29 != 0
  | 3 | 4 | 5 => (taskOf s p).loops.any fun l => decide (l.level = csrNo f - 3)
  | _ => false
def planCsrw (f : FmtI) (s : State) (p : Party) : Plan :=
  { tk := f.tk, ill := (5, csrwBad f s p) :: illCsrw f, reads := readsI f, nres := 1 }
/-- The write lands one issue cycle later (R56, R131). -/
def csrwAct (f : FmtI) (sg : List Nat) (s : State) : Act :=
  .done (addFlight s s.cur (mkFlight 1 false (.csr (csrNo f)) (.word (rdScal s s.cur f.a)) 0 false sg))
def execCsrw (f : FmtI) (s : State) : Host.Outcome State Fault Refusal := runWord (.csrw f) (planCsrw f) (csrwAct f) s

end Sys2Proof.Machine
end

