-- ==== Sys2Proof/Machine/ScalarMem.lean ====
section
/-! DEFINITION. Token-addressed scalar memory (spec 04, R135-R139). -/

namespace Sys2Proof.Machine

/-- The token register K and the predicate mask of a format-M word. -/
def readsK (f : FmtM) : List Rd := { field := 0, spec := 0x50 + f.k.setWidth 7 } :: maskRd f.p
def readsM (f : FmtM) : List Rd := { field := 5, spec := f.x } :: readsK f
/-- A store also reads D (R62: field 4). -/
def readsSt (f : FmtM) (tag : Option TyCode) : List Rd := { field := 4, spec := f.d, tag := tag } :: readsM f

/-- The one element of `ld`, `st`, `lda`: mask bit 0 governs it. -/
def memEl (s : State) (p : Party) (f : FmtM) : El := scalarEl f.ty ((laneMask s p f.p).getLsbD 0) (elemOff s p f)

def planLd (f : FmtM) (s : State) (p : Party) : Plan :=
  { tk := f.tk, ill := illLd f, reads := readsM f, nres := 1, lands := some (false, 1, 6)
    ready := loadClear s p (fmKReg s p f) [memEl s p f]
    cold := coldSlot s p (fmKReg s p f), touch := elTouch s (fmKReg s p f) false [memEl s p f] }
/-- The element's value extended by its type (R135), or awaited from a peer (R437). -/
def ldAct (f : FmtM) (sg : List Nat) (s : State) : Act :=
  let p := s.cur
  let k := fmKReg s p f
  let r := loadEls s p k (kR k) 1 [memEl s p f]
  let need := r.need
  let v := r.parts.getD 0 0
  .done (addFlight r.st p { mkFlight 6 true (destOf f.d) (.word (if need = [] then extend64 f.ty v else BitVec.ofNat 64 v))
    r.flags f.s sg with need := need, fix := if need = [] then none else some f.ty })
def execLd (f : FmtM) (s : State) : Host.Outcome State Fault Refusal := runWord (.ld f) (planLd f) (ldAct f) s

def planSt (f : FmtM) (s : State) (p : Party) : Plan :=
  { tk := f.tk, ill := illSt f, reads := readsSt f none, ready := storeRoom s p
    cold := coldSlot s p (fmKReg s p f), touch := elTouch s (fmKReg s p f) true [memEl s p f] }
def stAct (f : FmtM) (sg : List Nat) (s : State) : Act :=
  let p := s.cur
  .done (storeEls s p (fmKReg s p f) [memEl s p f] [(rdScal s p f.d).toNat] .bytes sg)
def execSt (f : FmtM) (s : State) : Host.Outcome State Fault Refusal := runWord (.st f) (planSt f) (stAct f) s

/-- The limit on asynchronous loads (R57). -/
def asyncRoom (s : State) (p : Party) : Bool := decide ((taskOf s p).asyncs.length < 64)

/-- An asynchronous load counted at issue; its signals are pushed at issue (R29, R57). -/
def addAsync (s : State) (p : Party) (a : Async) : State :=
  mapTask s p fun t => { t with asyncs := t.asyncs ++ [{ a with seq := t.asyncNo }], asyncNo := t.asyncNo + 1 }

def planLda (f : FmtM) (s : State) (p : Party) : Plan :=
  { tk := f.tk, ill := illLda f, reads := readsM f
    ready := asyncRoom s p && loadClear s p (fmKReg s p f) [memEl s p f]
    cold := coldSlot s p (fmKReg s p f), touch := elTouch s (fmKReg s p f) false [memEl s p f] }
def ldaAct (f : FmtM) (sg : List Nat) (s : State) : Act :=
  let p := s.cur
  let k := fmKReg s p f
  let r := loadEls s p k (kR k) 1 [memEl s p f]
  let need := r.need
  let v := r.parts.getD 0 0
  let w := if need = [] then extend64 f.ty v else BitVec.ofNat 64 v
  doneNow sg (addAsync r.st p ⟨0, [(destOf f.d, .word w)], r.flags, need, if need = [] then none else some f.ty, []⟩)
def execLda (f : FmtM) (s : State) : Host.Outcome State Fault Refusal := runWord (.lda f) (planLda f) (ldaAct f) s

/-! ## kld, kst (R137) -/

/-- The 16 bytes of a token access; an offset that is no multiple of 16 fails as XB. -/
def tokEl (o : Int) : El := ⟨true, o, 16, [⟨0, 0, 0, 16, 0⟩]⟩
def tokMis (s : State) (p : Party) (f : FmtM) : Bool := elemOff s p f % 16 != 0
/-- A token whose extent holds nothing: every access through it fails as XB after the stage-1 checks. -/
def emptied (k : KReg) : KReg :=
  { k with bits := k.bits &&& ~~~ (0xFFFFFFFFFF#128 <<< 56) }
def tokKReg (s : State) (p : Party) (f : FmtM) : KReg :=
  let k := fmKReg s p f
  if tokMis s p f then emptied k else k

def planKld (f : FmtM) (s : State) (p : Party) : Plan :=
  { tk := f.tk, ill := illKld f, reads := readsM f, nres := 1, ready := loadClear s p (tokKReg s p f) [tokEl (elemOff s p f)]
    cold := coldSlot s p (tokKReg s p f), touch := elTouch s (tokKReg s p f) false [tokEl (elemOff s p f)] }
def kldAct (f : FmtM) (sg : List Nat) (s : State) : Act :=
  let p := s.cur
  let k := tokKReg s p f
  let off := elemOff s p f
  let r := loadEls s p k (kR k) 1 [tokEl off]
  let tag := r.good && r.flags = 0 && keepsTag s k off.toNat && ownTag s (taskOf s p).stores (kPlace s k off.toNat)
  let v := r.parts.getD 0 0
  .done (addFlight r.st p { mkFlight 6 false (destOf f.d) (.tok ⟨BitVec.ofNat 128 v, tag⟩) r.flags false sg with
    need := r.need })
def execKld (f : FmtM) (s : State) : Host.Outcome State Fault Refusal := runWord (.kld f) (planKld f) (kldAct f) s

def planKst (f : FmtM) (s : State) (p : Party) : Plan :=
  { tk := f.tk, ill := illKst f, reads := readsSt f none, ready := storeRoom s p
    cold := coldSlot s p (tokKReg s p f), touch := elTouch s (tokKReg s p f) true [tokEl (elemOff s p f)] }
def kstAct (f : FmtM) (sg : List Nat) (s : State) : Act :=
  let p := s.cur
  let k := tokKReg s p f
  let off := (elemOff s p f).toNat
  let d := rdTok s p f.d
  .done (storeEls s p k [tokEl (elemOff s p f)] [d.bits.toNat]
    (.token (kSlot k) (kBase k + off) (d.tag && keepsTag s k off)) sg)
def execKst (f : FmtM) (s : State) : Host.Outcome State Fault Refusal := runWord (.kst f) (planKst f) (kstAct f) s

/-! ## ksub, kinfo (R138, R139) -/

/-- PK: bits [3:0] keep R, W, A, S. -/
def pkOf (f : FmtA) : BitVec 4 := (low5 f).extractLsb' 0 4

def ksubVal (f : FmtA) (s : State) : KReg × BitVec 8 :=
  let a := rdTok s s.cur f.a
  let b := (opB f s).toNat
  let c := (opC f s).toNat
  let ok := a.tag && decide (b + c ≤ kLen a)
  let bits := a.bits.extractLsb' 100 28 ++ (kPerms a &&& pkOf f) ++ BitVec.ofNat 40 c ++ BitVec.ofNat 56 (kBase a + b)
  (⟨bits, ok⟩, flagIf (a.tag && !ok) fXB)

def planKsub (ill : List (Nat × Bool)) (f : FmtA) (_ : State) (_ : Party) : Plan :=
  { tk := f.tk, ill := ill, reads := readsA f, nres := 1 }
def ksubAct (f : FmtA) (sg : List Nat) (s : State) : Act :=
  let r := ksubVal f s
  .done (addFlight s s.cur (mkFlight 1 false (destOf f.d) (.tok r.1) r.2 false sg))
def execKsub (f : FmtA) (s : State) : Host.Outcome State Fault Refusal := runWord (.ksub f) (planKsub (illKsub f) f) (ksubAct f) s

def kinfoVal (f : FmtA) (s : State) : Word × BitVec 8 :=
  let a := rdTok s s.cur f.a
  (match (opB f s).toNat with
    | 0 => BitVec.ofNat 64 (kLen a)
    | 1 => BitVec.ofNat 64 (kBase a)
    | 2 => a.bits.extractLsb' 96 32 ++ 0#31 ++ BitVec.ofBool a.tag
    | 3 => boolWord (kCurrent s a)
    | _ => 0, 0)
def planKinfo (f : FmtA) (s : State) (p : Party) : Plan :=
  { planScal (faultsA (sigKinfo f) f) f 1 s p with
    cold := if rdScal s p f.b = 3 then coldSlot s p (rdTok s p f.a) else none }
def execKinfo (f : FmtA) (s : State) : Host.Outcome State Fault Refusal :=
  runWord (.kinfo f) (planKinfo f) (actScal 1 f (kinfoVal f)) s

end Sys2Proof.Machine
end

