-- ==== Sys2Proof/Machine/Vector.lean ====
section
/-! DEFINITION. Element-wise vector arithmetic, compare, select, logic, shifts, special functions and reductions
(spec 06, R173-R182, R188, R193; spec 03, R100). -/

namespace Sys2Proof.Machine

/-! ## Shared by the vector entries -/

/-- An element of a result: its pattern and the flags it raises. -/
abbrev Elem := Nat × BitVec 8

/-- The result's elements under the predicate (R27, R174): a false lane is zero, or A's element as read. -/
def mergeLanes (z : Bool) : List Bool → List Elem → List Nat → List Nat
  | l :: ls, r :: rs, o :: os => (if l then r.1 else if z then 0 else o) :: mergeLanes z ls rs os
  | l :: ls, r :: rs, [] => (if l then r.1 else 0) :: mergeLanes z ls rs []
  | _, _, _ => []

/-- A result register of type `ty`. -/
def packV (ty : TyCode) (l : List Nat) : VReg := ⟨BitVec.ofNat 4096 (joinW (tyWidth ty) l), ty⟩

/-- The latency of an element-wise word: 2 for integers, 5 for floats (R177). -/
def latIF (ty : TyCode) : Nat := if tyInt ty then 2 else 5

/-- Tagged sources (R65, R173): `ta tb tc` the types declared. -/
def readsV (f : FmtA) (ta tb tc : Option TyCode) : List Rd :=
  { field := 1, spec := f.a, tag := ta } :: { field := 2, spec := f.b, tag := tb } :: { field := 3, spec := f.c, tag := tc } :: maskRd f.p

/-- What is judged of a word with `n` vector results. -/
def planVec (ill : List (Nat × Bool)) (f : FmtA) (reads : List Rd) (n lat : Nat) (_ : State) (_ : Party) : Plan :=
  { tk := f.tk, ill := ill, reads := reads, nres := n, lands := some (true, n, lat) }

/-- One vector result put in flight. -/
def putVec (lat : Nat) (d : SpecBits) (short : Bool) (r : VReg) (fl : BitVec 8) (sg : List Nat) (s : State) : State :=
  addFlight s s.cur (mkFlight lat true (destOf d) (.vec r) fl short sg)

/-- An element-wise result with tag `ty` (R174). -/
def vecRes (ty : TyCode) (f : FmtA) (s : State) (els : List Elem) : VReg × BitVec 8 :=
  let lanes := lanesOf s s.cur f.p (elems ty)
  let old := if f.p != 0 && !f.z then srcBits s s.cur ty f.a else []
  (packV ty (mergeLanes f.z lanes els old), laneFlags lanes (els.map (·.2)))

/-- The effect of an element-wise word of result type `ty`: SEED advances once per element when it rounds. -/
def actVec (ty : TyCode) (lat : Nat) (rounds : Bool) (f : FmtA) (els : State → List Elem) (sg : List Nat) (s : State) : Act :=
  let r := vecRes ty f s (els s)
  .done (putVec lat f.d f.s r.1 r.2 sg (if rounds then mapTask s s.cur fun t => advanceSeed t (elems ty) else s))

def vA (f : FmtA) (s : State) : List Xv := vread s s.cur f.ty f.a f.ma
def vB (f : FmtA) (s : State) : List Xv := vread s s.cur f.ty f.b f.mb
def vC (f : FmtA) (s : State) : List Xv := vread s s.cur f.ty f.c f.mc

/-- Three operands and a draw, element by element. -/
def map3 {α β : Type} (g : Nat → α → α → α → β) : List Nat → List α → List α → List α → List β
  | d :: ds, a :: as, b :: bs, c :: cs => g d a b c :: map3 g ds as bs cs
  | _, _, _, _ => []

/-! ## Arithmetic (R177) -/

/-- `vwrite` of an exact integer or floating value (R174). -/
def vwriteI (f : FmtA) (ty : TyCode) (i : Int) : Elem := intBound ty f.cl.toNat i
def vwriteF (f : FmtA) (ty : TyCode) (rm draw : Nat) (v : Fl × BitVec 8) : Elem :=
  let r := flRound ty ⟨rm, draw⟩ f.cl.toNat (flScale f.sc.toInt v.1)
  (r.1, r.2 ||| v.2)

/-- The elements of an arithmetic word: `gi` on integers, `gf` on floats (with whether the mode is rdn). -/
def arith (f : FmtA) (gi : Int → Int → Int → Int) (gf : Bool → Fl → Fl → Fl → Fl × BitVec 8) (s : State) : List Elem :=
  let t := taskOf s s.cur
  let rm := rmOf t
  map3 (fun d a b c =>
      if tyInt f.ty then vwriteI f f.ty (gi a.toInt b.toInt c.toInt)
      else vwriteF f f.ty rm d (gf (rm = 3) a.toFl b.toFl c.toFl))
    (drawsFor t (elems f.ty)) (vA f s) (vB f s) (vC f s)

def ariWord (i : Instr) (g : Sig) (f : FmtA) (lat : Nat) (gi : Int → Int → Int → Int)
    (gf : Bool → Fl → Fl → Fl → Fl × BitVec 8) (s : State) : Host.Outcome State Fault Refusal :=
  runWord i (planVec (faultsA g f) f (readsV f f.ty f.ty f.ty) 1 lat)
    (actVec f.ty lat (!tyInt f.ty) f (arith f gi gf)) s

def execVadd (f : FmtA) (s : State) : Host.Outcome State Fault Refusal :=
  ariWord (.vadd f) (sigVec2 f) f (latIF f.ty) (fun a b _ => a + b) (fun r a b _ => flAdd r a b) s
def execVsub (f : FmtA) (s : State) : Host.Outcome State Fault Refusal :=
  ariWord (.vsub f) (sigVec2 f) f (latIF f.ty) (fun a b _ => a - b) (fun r a b _ => flAdd r a b.neg) s
def execVmul (f : FmtA) (s : State) : Host.Outcome State Fault Refusal :=
  ariWord (.vmul f) (sigVec2 f) f (latIF f.ty) (fun a b _ => a * b) (fun _ a b _ => flMul a b) s
def execVfma (f : FmtA) (s : State) : Host.Outcome State Fault Refusal :=
  ariWord (.vfma f) (sigVec3 f) f (latIF f.ty) (fun a b c => a * b + c) (fun r a b c => flFma r a b c) s
def execVfms (f : FmtA) (s : State) : Host.Outcome State Fault Refusal :=
  ariWord (.vfms f) (sigVec3 f) f (latIF f.ty) (fun a b c => a * b - c) (fun r a b c => flFma r a b c.neg) s
def execVmin (f : FmtA) (s : State) : Host.Outcome State Fault Refusal :=
  ariWord (.vmin f) (sigVminmax f) f (latIF f.ty) (fun a b _ => min a b) (fun _ a b _ => flMinMax false a b) s
def execVmax (f : FmtA) (s : State) : Host.Outcome State Fault Refusal :=
  ariWord (.vmax f) (sigVminmax f) f (latIF f.ty) (fun a b _ => max a b) (fun _ a b _ => flMinMax true a b) s
def execVdiv (f : FmtA) (s : State) : Host.Outcome State Fault Refusal :=
  ariWord (.vdiv f) (sigVdiv f) f 24 (fun a _ _ => a) (fun _ a b _ => flDiv a b) s
def execVsqrt (f : FmtA) (s : State) : Host.Outcome State Fault Refusal :=
  ariWord (.vsqrt f) (sigVsqrt f) f 24 (fun a _ _ => a) (fun _ a _ _ => flSqrt a) s

/-! ## Special functions (R193) -/

def specWord (i : Instr) (f : FmtA) (g : Fl → Fl × BitVec 8) (s : State) : Host.Outcome State Fault Refusal :=
  ariWord i (sigVspec f) f 12 (fun a _ _ => a) (fun _ a _ _ => g a) s

def execVexp2 (f : FmtA) (s : State) : Host.Outcome State Fault Refusal := specWord (.vexp2 f) f flExp2 s
def execVlog2 (f : FmtA) (s : State) : Host.Outcome State Fault Refusal := specWord (.vlog2 f) f flLog2 s
def execVrcp (f : FmtA) (s : State) : Host.Outcome State Fault Refusal := specWord (.vrcp f) f flRcp s
def execVrsq (f : FmtA) (s : State) : Host.Outcome State Fault Refusal := specWord (.vrsq f) f flRsq s
def execVsin (f : FmtA) (s : State) : Host.Outcome State Fault Refusal := specWord (.vsin f) f flSinPi s
def execVcos (f : FmtA) (s : State) : Host.Outcome State Fault Refusal := specWord (.vcos f) f flCosPi s
def execVtanh (f : FmtA) (s : State) : Host.Outcome State Fault Refusal := specWord (.vtanh f) f flTanh s

/-! ## Compare (R179) -/

/-- A vector condition on two elements of one kind (R34). -/
def vcondHolds (c : VCond) (o : FOrd) : Bool :=
  match c with
  | .eq => o.eq | .ne => !o.eq | .lt => o.lt | .le => o.lt || o.eq | .gt => !o.un && !o.lt && !o.eq
  | .ge => !o.un && !o.lt | .un => o.un

def xOrder : Xv → Xv → FOrd
  | .int a, .int b => ⟨false, decide (a < b), decide (a = b)⟩
  | a, b => flOrder a.toFl b.toFl
def xSig : Xv → BitVec 8
  | .fl f => f.sig
  | .int _ => 0

/-- A mask of listed bits, bit 0 first. -/
def maskOf (l : List Bool) : Mask := BitVec.ofNat 1024 (joinW 1 (l.map Bool.toNat))

def vcmpEls (c : VCond) (f : FmtA) (s : State) : List Elem :=
  (vA f s).zipWith (fun a b => ((vcondHolds c (xOrder a b)).toNat, xSig a ||| xSig b)) (vB f s)
def vcmpAct (c : VCond) (f : FmtA) (sg : List Nat) (s : State) : Act :=
  let lanes := lanesOf s s.cur f.p (elems f.ty)
  let els := vcmpEls c f s
  let m := maskOf (lanes.zipWith (fun l e => l && e.1 = 1) els)
  .done (addFlight s s.cur (mkFlight (latIF f.ty) false (destOf f.d) (.mask m) (laneFlags lanes (els.map (·.2))) false sg))
def planVcmp (c : VCond) (f : FmtA) (_ : State) (_ : Party) : Plan :=
  { tk := f.tk, ill := illVcmp c f, reads := readsV f f.ty f.ty none, nres := 1 }
def execVcmp (c : VCond) (f : FmtA) (s : State) : Host.Outcome State Fault Refusal :=
  runWord (.vcmp c f) (planVcmp c f) (vcmpAct c f) s

/-! ## Select, logic, shifts (R180-R182): patterns move unchanged -/

def pats (f : FmtA) (sp : SpecBits) (s : State) : List Nat := srcBits s s.cur f.ty sp
def noFlag (l : List Nat) : List Elem := l.map fun v => (v, 0)

def bitWord (i : Instr) (g : Sig) (f : FmtA) (lat : Nat) (reads : List Rd) (els : State → List Nat) (s : State) :
    Host.Outcome State Fault Refusal :=
  runWord i (planVec (faultsA g f) f reads 1 lat) (actVec f.ty lat false f fun s => noFlag (els s)) s

def vselEls (f : FmtA) (s : State) : List Nat :=
  let m := rdMask s s.cur f.c
  let sel := (List.range (elems f.ty)).map fun e => m.getLsbD e
  (sel.zip ((pats f f.a s).zip (pats f f.b s))).map fun e => if e.1 then e.2.1 else e.2.2
def execVsel (f : FmtA) (s : State) : Host.Outcome State Fault Refusal :=
  bitWord (.vsel f) (sigVsel f) f 2 (readsV f f.ty f.ty none) (vselEls f) s

def logicEls (f : FmtA) (g : Nat → Nat → Nat) (s : State) : List Nat := (pats f f.a s).zipWith g (pats f f.b s)
def execVand (f : FmtA) (s : State) : Host.Outcome State Fault Refusal :=
  bitWord (.vand f) (sigVlogic f) f 2 (readsV f f.ty f.ty none) (logicEls f Nat.land) s
def execVor (f : FmtA) (s : State) : Host.Outcome State Fault Refusal :=
  bitWord (.vor f) (sigVlogic f) f 2 (readsV f f.ty f.ty none) (logicEls f Nat.lor) s
def execVxor (f : FmtA) (s : State) : Host.Outcome State Fault Refusal :=
  bitWord (.vxor f) (sigVlogic f) f 2 (readsV f f.ty f.ty none) (logicEls f Nat.xor) s

/-- Shift amounts: the low 8 bits of B's element, or of a scalar's 64 bits (R182). -/
def shiftAmts (f : FmtA) (s : State) : List Nat :=
  if cVec.contains (clsOf f.b) then (pats f f.b s).map (· % 256)
  else List.replicate (elems f.ty) ((rdScal s s.cur f.b).toNat % 256)

/-- The three shifts of one element of width `w`. -/
def shlEl (w v n : Nat) : Nat := if w ≤ n then 0 else v * 2 ^ n % 2 ^ w
def shrEl (w v n : Nat) : Nat := if w ≤ n then 0 else v / 2 ^ n
def sraEl (w v n : Nat) : Nat := wrap w (signed w v / (2 ^ min n w : Nat))

def shiftEls (f : FmtA) (g : Nat → Nat → Nat → Nat) (s : State) : List Nat :=
  (pats f f.a s).zipWith (g (tyWidth f.ty)) (shiftAmts f s)
def execVshl (f : FmtA) (s : State) : Host.Outcome State Fault Refusal :=
  bitWord (.vshl f) (sigVshift f) f 2 (readsV f f.ty f.ty none) (shiftEls f shlEl) s
def execVshr (f : FmtA) (s : State) : Host.Outcome State Fault Refusal :=
  bitWord (.vshr f) (sigVshift f) f 2 (readsV f f.ty f.ty none) (shiftEls f shrEl) s
def execVsra (f : FmtA) (s : State) : Host.Outcome State Fault Refusal :=
  bitWord (.vsra f) (sigVshift f) f 2 (readsV f f.ty f.ty none) (shiftEls f sraEl) s

/-! ## Reduction (R100, R188) -/

/-- A reduction of floats: the operation of a node. -/
inductive RedOp where
  | add | min | max
  deriving DecidableEq, Repr

def redNode (op : RedOp) (rdn : Bool) (a b : Fl) : Fl × BitVec 8 :=
  match op with
  | .add => flAdd rdn a b
  | .min => flMinMax false a b
  | .max => flMinMax true a b

/-- The identity that a false lane enters as (R100). -/
def redIdent (op : RedOp) : Fl :=
  match op with
  | .add => .fin true 0 1 0
  | .min => .inf false
  | .max => .inf true
def redIdentI (op : RedOp) (ty : TyCode) : Int :=
  let w := tyWidth ty
  match op with
  | .add => 0
  | .min => if tySigned ty then (2 ^ (w - 1) : Nat) - 1 else (2 ^ w : Nat) - 1
  | .max => if tySigned ty then -(2 ^ (w - 1) : Nat) else 0

/-- One level of the tree: neighbours combined, each node rounded with the next draw; the clamp and scale
act on the last node only. -/
def redLevel (op : RedOp) (ty : TyCode) (rm cl : Nat) (sc : Int) : List Nat → List Fl → List Nat × List Elem
  | ds, a :: b :: r =>
    let v := redNode op (rm = 3) a b
    let g := flRound ty ⟨rm, ds.headD 0⟩ cl (flScale sc v.1)
    let x := redLevel op ty rm cl sc ds.tail r
    (x.1, (g.1, g.2 ||| v.2) :: x.2)
  | ds, _ => (ds, [])

/-- The whole tree: `n` levels remain. -/
def redTree (op : RedOp) (ty : TyCode) (rm cl : Nat) (sc : Int) : Nat → List Nat → List Fl → BitVec 8 → Nat × BitVec 8
  | 0, _, _, fl => (0, fl)
  | n + 1, ds, l, fl =>
    let last := l.length = 2
    let x := redLevel op ty rm (if last then cl else 0) (if last then sc else 0) ds l
    let fl1 := x.2.foldl (fun f e => f ||| e.2) fl
    if last then ((x.2.headD (0, 0)).1, fl1)
    else redTree op ty rm cl sc n x.1 (x.2.map fun e => flDecode ty e.1) fl1

/-- The least or greatest of a list. -/
def foldHead (g : Int → Int → Int) : List Int → Int
  | [] => 0
  | a :: r => r.foldl g a

def redVal (op : RedOp) (f : FmtA) (s : State) : Word × BitVec 8 :=
  let t := taskOf s s.cur
  let lanes := lanesOf s s.cur f.p (elems f.ty)
  let els := vA f s
  if tyInt f.ty then
    let l := lanes.zipWith (fun b x => if b then x.toInt else redIdentI op f.ty) els
    intRes f.ty f.cl (match op with
      | .add => l.sum
      | .min => foldHead min l
      | .max => foldHead max l)
  else
    let l := lanes.zipWith (fun b x => if b then x.toFl else redIdent op) els
    let r := redTree op f.ty (rmOf t) f.cl.toNat f.sc.toInt 10 (drawsFor t (elems f.ty)) l 0
    (BitVec.ofNat 64 r.1, r.2)

/-- The scalar result of a reduction; SEED advances once per node. -/
def redAct (op : RedOp) (f : FmtA) (sg : List Nat) (s : State) : Act :=
  let s1 := if tyInt f.ty then s else mapTask s s.cur fun t => advanceSeed t (elems f.ty - 1)
  .done (putScal 8 f.d f.s (redVal op f s) sg s1)
def planRed (g : Sig) (f : FmtA) (_ : State) (_ : Party) : Plan :=
  { tk := f.tk, ill := faultsA g f, reads := readsV f f.ty none none, nres := 1, lands := some (false, 1, 8) }
def execVredAdd (f : FmtA) (s : State) : Host.Outcome State Fault Refusal :=
  runWord (.vredAdd f) (planRed (sigVred f) f) (redAct .add f) s
def execVredMin (f : FmtA) (s : State) : Host.Outcome State Fault Refusal :=
  runWord (.vredMin f) (planRed (sigVredMM f) f) (redAct .min f) s
def execVredMax (f : FmtA) (s : State) : Host.Outcome State Fault Refusal :=
  runWord (.vredMax f) (planRed (sigVredMM f) f) (redAct .max f) s

end Sys2Proof.Machine
end

