-- ==== Sys2Proof/Machine/VConv.lean ====
section
/-! DEFINITION. Vector conversions, the ls4 forms, widening, narrowing and bit planes (spec 06, R183-R187, R194;
spec 03, R83-R89, R96, R97). -/

namespace Sys2Proof.Machine

/-! ## ls4 (R83-R86, R97) -/

/-- The value of an E3M5 micro-scale (R84). -/
def microVal (c : Nat) : Fl := if 32 ≤ c then .fin false (32 + c % 32) 1 (c / 32 - 8) else .fin false (c % 32) 1 (-7)

/-- An element of a group: its code, micro-scale and exponent b + d (R85). DEDUCED (log 59): the product of a negative nonzero code and a
micro-scale of 0 is -0, and only the code -0 gives +0 there. -/
def ls4Val (code micro : Nat) (e : Int) : Fl :=
  match flDecode tyFp4 code, microVal micro with
  | .fin s n d x, .fin _ m _ y => if n = 0 && m = 0 then .fin false 0 1 0 else .fin s (n * m) d (x + y + e)
  | a, _ => a

/-- Sixteen-fold split of a group in a pair (R86): its 256 codes, 32 micro-scales and byte 160. -/
structure Grp where
  codes : List Nat
  micros : List Nat
  b160 : Nat

def pairGroup (codes scales : Nat) (g : Nat) : Grp :=
  ⟨splitW 4 256 (codes >>> (1024 * g)), splitW 8 32 (scales >>> (256 * g)), bits scales (1024 + 8 * g) 8⟩

/-- The 256 values of a group (R85). -/
def groupVals (b : Int) (g : Grp) : List Fl :=
  (List.range 256).zipWith (fun i c => ls4Val c (g.micros.getD (i / 8) 0) (b + (g.b160 % 16 : Nat))) g.codes

/-- A malformed group sets IV (R85). -/
def groupBadBits (g : Grp) : Bool := g.b160 / 16 != 0

/-- The magnitude an element counts with (R97 step 1). -/
def magOf : Fl → Fl
  | .nan _ => .inf false
  | f => f.abs
def flMax (a b : Fl) : Fl := if flLt a b then b else a
def blockMax (l : List Fl) : Fl := l.foldl (fun m x => flMax m (magOf x)) (.fin false 0 1 0)

/-- The group delta (R97 step 2). -/
def groupDelta (b : Int) (maxes : List Fl) : Nat :=
  ((List.range 16).find? fun d : Nat => maxes.all fun a => !flLt (.fin false 189 1 (b + (d : Int))) a).getD 15

/-- A block's micro-scale (R97 step 3): the smallest E3M5 value at least A/(6 x 2^(b+d)). -/
def blockMicro (e : Int) (a : Fl) : Nat :=
  match a with
  | .fin _ 0 _ _ => 0
  | .inf _ => 255
  | _ => ((List.range 256).find? fun c =>
      match microVal c with
      | .fin _ m _ x => !flLt (.fin false (6 * m) 1 (x + e)) a
      | _ => false).getD 255

/-- An element's code (R97 step 4). -/
def ls4Code (rm draw cl : Nat) (micro : Nat) (e : Int) (x : Fl) : Elem :=
  match x with
  | .nan s => (0, fIV ||| (Fl.nan s).sig)
  | .inf s => if micro = 0 then (0, 0) else roundInf tyFp4 cl s
  | .fin s n d y =>
    match microVal micro with
    | .fin _ m _ z =>
      if m = 0 then (0, 0)
      else
        let r := flRound tyFp4 ⟨rm, draw⟩ cl (.fin s n (d * m) (y - z - e))
        (r.1, r.2 ||| flagIf (n != 0 && r.1 % 8 = 0) fUF)
    | _ => (0, 0)

/-- 256 elements made a group (R97): codes with their flags, micro-scales, delta. -/
def makeGroup (rm cl : Nat) (b : Int) (ds : List Nat) (xs : List Fl) : List Elem × List Nat × Nat :=
  let maxes := (List.range 32).map fun j => blockMax ((xs.drop (8 * j)).take 8)
  let d := groupDelta b maxes
  let micros := maxes.map (blockMicro (b + d))
  let idx := (List.range 256).map fun i => micros.getD (i / 8) 0
  ((ds.zip (idx.zip xs)).map fun e => ls4Code rm e.1 cl e.2.1 (b + d) e.2.2, micros, d)

/-! ## vcvt (R183-R185) -/

/-- The base exponent of the ls4 forms (R85), under B's modifier (R25). -/
def ls4Base (f : FmtA) (s : State) (p : Party) : Int := (xMod f.mb (.int (rdScal s p f.b).toInt)).toInt

def planVcvt (f : FmtA) (s : State) (p : Party) : Plan :=
  let src := cTy f
  let reads := if isReinterpret f then [{ field := 1, spec := f.a }]
    else (if src = tyLs4 then rdGroup 1 2 f.a (some tyLs4) else [{ field := 1, spec := f.a, tag := some src }])
      ++ (if vcvtLs4 f then [{ field := 2, spec := f.b }] else []) ++ maskRd f.p
  let n := if f.ty = tyLs4 then 2 else 1
  let bad := vcvtLs4 f && !isReinterpret f && (decide (ls4Base f s p < -64) || decide (63 < ls4Base f s p))
  { tk := f.tk, ill := (5, bad) :: illVcvt f, reads := reads, nres := n, lands := some (true, n, 4) }

/-- Whether a conversion takes draws (R91). -/
def cvtDraws (f : FmtA) : Bool := tyFloat f.ty || f.ty = tyLs4 || tyFloat (cTy f) || cTy f = tyLs4

/-- The source elements: decoded groups for ls4. -/
def cvtSrc (f : FmtA) (s : State) : List Xv :=
  if cTy f = tyLs4 then
    match groupSpecs 2 f.a with
    | [c, m] =>
      let codes := (rdVec s s.cur c).data.toNat
      let scales := (rdVec s s.cur m).data.toNat
      (List.range 4).flatMap fun g =>
        (groupVals (ls4Base f s s.cur) (pairGroup codes scales g)).map fun x => xMod f.ma (.fl x)
    | _ => []
  else vread s s.cur (cTy f) f.a f.ma

/-- IV for each malformed group that a true lane reads (R85). -/
def cvtIv (f : FmtA) (lanes : List Bool) (s : State) : BitVec 8 :=
  if cTy f != tyLs4 then 0
  else match groupSpecs 2 f.a with
    | [_, m] =>
      let scales := (rdVec s s.cur m).data.toNat
      flagIf ((List.range 4).any fun g =>
        bits scales (1024 + 8 * g) 8 / 16 != 0 && ((lanes.drop (256 * g)).take 256).any id) fIV
    | _ => 0

/-- Elements of a plain conversion; those beyond the source's count are +0 (R183). -/
def cvtEls (f : FmtA) (s : State) : List Elem :=
  let t := taskOf s s.cur
  let n := elems f.ty
  let ds := if cvtDraws f then drawsFor t n else List.replicate n 0
  let els := (ds.zip (cvtSrc f s)).map fun e => convert f.ty ⟨rmOf t, e.1⟩ f.cl.toNat f.sc.toInt e.2
  els ++ List.replicate (n - els.length) (0, 0)

def vcvtPlain (f : FmtA) (sg : List Nat) (s : State) : Act :=
  let r := vecRes f.ty f s (cvtEls f s)
  let fl := r.2 ||| cvtIv f (lanesOf s s.cur f.p (min (elems f.ty) (elems (cTy f)))) s
  .done (putVec 4 f.d f.s r.1 fl sg (if cvtDraws f then mapTask s s.cur fun t => advanceSeed t (elems f.ty) else s))

/-- Two results landing together, part 0 first; D names the first register (R175). -/
def putPair (lat : Nat) (f : FmtA) (a b : VReg) (fl : BitVec 8) (sg : List Nat) (s : State) : State :=
  let d1 := if clsOf f.d = .v then Dest.v (regNo f.d + 1) else .none
  let s1 := addFlight s s.cur (mkFlight lat true (destOf f.d) (.vec a) fl f.s [])
  addFlight s1 s.cur (mkFlight lat true d1 (.vec b) 0 f.s sg)

/-- Conversion to ls4 (R185, R97): four groups into a pair. -/
def vcvtTo4 (f : FmtA) (sg : List Nat) (s : State) : Act :=
  let t := taskOf s s.cur
  let src := cvtSrc f s
  let lanes := lanesOf s s.cur f.p 1024
  let xs := (src.map Xv.toFl) ++ List.replicate (1024 - src.length) (Fl.fin false 0 1 0)
  let ys := lanes.zipWith (fun l x => if l then x else Fl.fin false 0 1 0) xs
  let ds := drawsFor t 1024
  let gs := (List.range 4).map fun g =>
    makeGroup (rmOf t) f.cl.toNat (ls4Base f s s.cur) ((ds.drop (256 * g)).take 256) ((ys.drop (256 * g)).take 256)
  let codes := gs.flatMap fun g => g.1.map (·.1)
  let scales := joinW 8 (gs.flatMap (·.2.1)) + joinW 8 (gs.map (·.2.2)) * 2 ^ 1024
  let fl := laneFlags lanes (gs.flatMap fun g => g.1.map (·.2))
  .done (putPair 4 f ⟨BitVec.ofNat 4096 (joinW 4 codes), tyLs4⟩ ⟨BitVec.ofNat 4096 scales, tyLs4⟩ fl sg
    (mapTask s s.cur fun t => advanceSeed t 1024))

def vcvtAct (f : FmtA) (sg : List Nat) (s : State) : Act :=
  if isReinterpret f then .done (putVec 4 f.d f.s ⟨(rdVec s s.cur f.a).data, f.ty⟩ 0 sg s)
  else if f.ty = tyLs4 then vcvtTo4 f sg s
  else vcvtPlain f sg s
def execVcvt (f : FmtA) (s : State) : Host.Outcome State Fault Refusal := runWord (.vcvt f) (planVcvt f) (vcvtAct f) s

/-! ## Groups: vnarrow, vwmul, vwadd (R175, R186, R187) -/

/-- Element e of an interleaved group is part e mod k, position e div k. -/
def interleave (parts : List (List Nat)) (n : Nat) : List Nat :=
  let k := parts.length
  (List.range n).map fun e => (parts.getD (e % k) []).getD (e / k) 0

/-- Part j of an interleaved list. -/
def partOf (k j : Nat) (l : List Nat) : List Nat :=
  ((List.range l.length).zip l).filterMap fun e => if e.1 % k = j then some e.2 else none

def planVnarrow (f : FmtA) (_ : State) (_ : Party) : Plan :=
  { tk := f.tk, ill := illVnarrow f, reads := rdGroup 1 (narrowK f) f.a (some (cTy f)) ++ maskRd f.p, nres := 1, lands := some (true, 1, 4) }
def vnarrowEls (f : FmtA) (s : State) : List Elem :=
  let t := taskOf s s.cur
  let src := cTy f
  let parts := (groupSpecs (narrowK f) f.a).map fun sp => splitW (tyWidth src) (elems src) (rdVec s s.cur sp).data.toNat
  let xs := (interleave parts (elems f.ty)).map fun b => xMod f.ma (xRead src b)
  let ds := if cvtDraws f then drawsFor t (elems f.ty) else List.replicate (elems f.ty) 0
  (ds.zip xs).map fun e => convert f.ty ⟨rmOf t, e.1⟩ f.cl.toNat f.sc.toInt e.2
def execVnarrow (f : FmtA) (s : State) : Host.Outcome State Fault Refusal :=
  runWord (.vnarrow f) (planVnarrow f) (actVec f.ty 4 (cvtDraws f) f (vnarrowEls f)) s

/-- A widening result: k parts, all tagged WIDE, landing together in part order. -/
def putGroup (lat k : Nat) (ty : TyCode) (d : SpecBits) (short : Bool) (els : List Nat) (fl : BitVec 8) (sg : List Nat)
    (s : State) : State :=
  (List.range k).foldl (fun s j =>
    addFlight s s.cur (mkFlight lat true (if clsOf d = .v then .v (regNo d + j) else .none)
      (.vec (packV ty (partOf k j els))) (if j = 0 then fl else 0) short (if j + 1 = k then sg else []))) s

def planWide (f : FmtA) (_ : State) (_ : Party) : Plan :=
  { tk := f.tk, ill := illVwide f, reads := readsV f f.ty f.ty none, nres := wideK f
    lands := some (true, wideK f, latIF f.ty) }
def wideEls (f : FmtA) (gi : Int → Int → Int) (gf : Bool → Fl → Fl → Fl × BitVec 8) (s : State) : List Elem :=
  let t := taskOf s s.cur
  let rm := rmOf t
  (((drawsFor t (elems f.ty)).zip (vA f s)).zip (vB f s)).map fun e =>
    if tyInt f.ty then vwriteI f (cTy f) (gi e.1.2.toInt e.2.toInt)
    else vwriteF f (cTy f) rm e.1.1 (gf (rm = 3) e.1.2.toFl e.2.toFl)
def wideAct (f : FmtA) (gi : Int → Int → Int) (gf : Bool → Fl → Fl → Fl × BitVec 8) (sg : List Nat) (s : State) : Act :=
  let lanes := lanesOf s s.cur f.p (elems f.ty)
  let els := wideEls f gi gf s
  let s1 := if tyInt f.ty then s else mapTask s s.cur fun t => advanceSeed t (elems f.ty)
  .done (putGroup (latIF f.ty) (wideK f) (cTy f) f.d f.s (lanes.zipWith (fun l e => if l then e.1 else 0) els)
    (laneFlags lanes (els.map (·.2))) sg s1)
def execVwmul (f : FmtA) (s : State) : Host.Outcome State Fault Refusal :=
  runWord (.vwmul f) (planWide f) (wideAct f (fun a b => a * b) (fun _ a b => flMul a b)) s
def execVwadd (f : FmtA) (s : State) : Host.Outcome State Fault Refusal :=
  runWord (.vwadd f) (planWide f) (wideAct f (fun a b => a + b) (fun r a b => flAdd r a b)) s

/-! ## Planes (R88, R194) -/

/-- The bit of an element that plane i holds. -/
def planeBit (ty : TyCode) (i : Nat) : Nat := if tyInt ty then i else tyWidth ty - 1 - i

/-- One block of 128 elements made planes: plane i as a number of 128 bits. -/
def toPlanes (ty : TyCode) (els : List Nat) : List Nat :=
  (List.range (tyWidth ty)).map fun i => joinW 1 (els.map fun e => (Nat.testBit e (planeBit ty i)).toNat)

/-- The elements of a block from its planes. -/
def fromPlanes (ty : TyCode) (planes : List Nat) : List Nat :=
  let w := tyWidth ty
  (List.range 128).map fun e =>
    joinW 1 ((List.range w).map fun b => (Nat.testBit (planes.getD (planeBit ty b) 0) e).toNat)

/-- Blocks of 128 elements of a register, element order to planes and back. -/
def planeReg (ty : TyCode) (v : Nat) : Nat :=
  let w := tyWidth ty
  joinW 128 ((List.range (32 / w)).flatMap fun b => toPlanes ty (splitW w 128 (v >>> (128 * w * b))))
def unplaneReg (ty : TyCode) (v : Nat) : Nat :=
  let w := tyWidth ty
  joinW w ((List.range (32 / w)).flatMap fun b => fromPlanes ty (splitW 128 w (v >>> (128 * w * b))))

def planPlane (f : FmtA) (tag : TyCode) (_ : State) (_ : Party) : Plan :=
  { tk := f.tk, ill := faultsA (sigVplane f) f, reads := [{ field := 1, spec := f.a, tag := some tag }], nres := 1,
    lands := some (true, 1, 3) }
def planeAct (f : FmtA) (tag : TyCode) (g : Nat → Nat) (sg : List Nat) (s : State) : Act :=
  .done (putVec 3 f.d f.s ⟨BitVec.ofNat 4096 (g (rdVec s s.cur f.a).data.toNat), tag⟩ 0 sg s)
def execVplane (f : FmtA) (s : State) : Host.Outcome State Fault Refusal :=
  runWord (.vplane f) (planPlane f f.ty) (planeAct f tyPlane (planeReg f.ty)) s
def execVunpl (f : FmtA) (s : State) : Host.Outcome State Fault Refusal :=
  runWord (.vunpl f) (planPlane f tyPlane) (planeAct f f.ty (unplaneReg f.ty)) s

end Sys2Proof.Machine
end

