-- ==== Sys2Proof/Machine/VMove.lean ====
section
/-! DEFINITION. Moving elements (spec 06, R189-R192) and mask instructions (R200-R202). -/

namespace Sys2Proof.Machine

/-! ## vbcast, vperm, vzip, vuzp, vpack -/

/-- The element index of `vbcast`, read unsigned (R189); `#0.5`, which a floating TY accepts, is no index: a free value (log 4). -/
def vbcastIndex (f : FmtA) (s : State) : Nat := (if f.b = 0x7C then pendBits 64 s f.b else rdScal s s.cur f.b).toNat % elems f.ty
/-- A pattern under a modifier (R25, R101): the sign bit of a floating one, the value of an integer one, which wraps (R79). -/
def patMod (ty : TyCode) (m : BitVec 2) (b : Nat) : Nat :=
  if m = 0 then b
  else if tyFloat ty then
    let sign := signBit ty
    match m.toNat with
    | 1 => if b / sign % 2 = 1 then b - sign else b + sign
    | 2 => b % sign
    | _ => b % sign + sign
  else wrap (tyWidth ty) (xMod m (.int (intDecode ty b))).toInt
def vbcastEls (f : FmtA) (s : State) : List Nat :=
  let n := elems f.ty
  if cVec.contains (clsOf f.a) then List.replicate n ((pats f f.a s).getD (vbcastIndex f s) 0)
  else (pats f f.a s).map (patMod f.ty f.ma)
def execVbcast (f : FmtA) (s : State) : Host.Outcome State Fault Refusal :=
  bitWord (.vbcast f) (sigVbcast f) f 3 (readsV f f.ty none none) (vbcastEls f) s

/-- The index type of `vperm` for a width (R190). -/
def idxTy (ty : TyCode) : TyCode :=
  match tyWidth ty with | 8 => tyN8 | 16 => tyN16 | 32 => tyN32 | _ => tyN64
def vpermEls (f : FmtA) (s : State) : List Nat :=
  let a := (pats f f.a s).toArray
  let n := elems f.ty
  let b := splitW (tyWidth f.ty) n (rdVec s s.cur f.b).data.toNat
  (List.range n).zipWith (fun e i => a.getD (if tyWidth f.ty = 8 then 256 * (e / 256) + i else i % n) 0) b
def execVperm (f : FmtA) (s : State) : Host.Outcome State Fault Refusal :=
  bitWord (.vperm f) (sigVperm f) f 3 (readsV f f.ty (idxTy f.ty) none) (vpermEls f) s

def planZip (f : FmtA) (_ : State) (_ : Party) : Plan :=
  { tk := f.tk, ill := illVzip f, reads := readsV f f.ty f.ty none, nres := 2, lands := some (true, 2, 3) }

/-- Alternating elements of two lists. -/
def riffle : List Nat → List Nat → List Nat
  | a :: as, b :: bs => a :: b :: riffle as bs
  | _, _ => []
def zipAct (f : FmtA) (sg : List Nat) (s : State) : Act :=
  let h := elems f.ty / 2
  let a := pats f f.a s
  let b := pats f f.b s
  .done (putPair 3 f (packV f.ty (riffle (a.take h) (b.take h))) (packV f.ty (riffle (a.drop h) (b.drop h))) 0 sg s)
def uzpAct (f : FmtA) (sg : List Nat) (s : State) : Act :=
  let l := pats f f.a s ++ pats f f.b s
  .done (putPair 3 f (packV f.ty (partOf 2 0 l)) (packV f.ty (partOf 2 1 l)) 0 sg s)
def execVzip (f : FmtA) (s : State) : Host.Outcome State Fault Refusal := runWord (.vzip f) (planZip f) (zipAct f) s
def execVuzp (f : FmtA) (s : State) : Host.Outcome State Fault Refusal := runWord (.vuzp f) (planZip f) (uzpAct f) s

def vpackEls (f : FmtA) (s : State) : List Nat :=
  let m := rdMask s s.cur f.c
  let kept := ((List.range (elems f.ty)).zip (pats f f.a s)).filterMap fun e => if m.getLsbD e.1 then some e.2 else none
  kept ++ List.replicate (elems f.ty - kept.length) 0
def execVpack (f : FmtA) (s : State) : Host.Outcome State Fault Refusal :=
  bitWord (.vpack f) (sigVpack f) f 3 (readsV f f.ty none none) (vpackEls f) s

/-! ## Masks -/

/-- What is judged of a word whose one result goes to a named register only. -/
def planNamed (ill : List (Nat × Bool)) (f : FmtA) (_ : State) (_ : Party) : Plan :=
  { tk := f.tk, ill := ill, reads := readsA f, nres := 1 }
def maskWord (i : Instr) (g : Sig) (f : FmtA) (val : State → Mask) (s : State) : Host.Outcome State Fault Refusal :=
  runWord i (planNamed (faultsA g f) f)
    (fun sg s => .done (addFlight s s.cur (mkFlight 2 false (destOf f.d) (.mask (val s)) 0 false sg))) s
def execMand (f : FmtA) (s : State) : Host.Outcome State Fault Refusal :=
  maskWord (.mand f) (sigMask2 f) f (fun s => rdMask s s.cur f.a &&& rdMask s s.cur f.b) s
def execMor (f : FmtA) (s : State) : Host.Outcome State Fault Refusal :=
  maskWord (.mor f) (sigMask2 f) f (fun s => rdMask s s.cur f.a ||| rdMask s s.cur f.b) s
def execMnot (f : FmtA) (s : State) : Host.Outcome State Fault Refusal :=
  maskWord (.mnot f) (sigMask1 f) f (fun s => ~~~ rdMask s s.cur f.a) s

/-- Bits counted: the elements of TY, or all 1,024 under none (R201). -/
def mcntVal (f : FmtA) (s : State) : Word × BitVec 8 :=
  let m := (rdMask s s.cur f.a).toNat
  (BitVec.ofNat 64 (if isNoneTy f.ty then popNat 1024 m else popNat (elems f.ty) m), 0)
def execMcnt (f : FmtA) (s : State) : Host.Outcome State Fault Refusal :=
  scalWord (.mcnt f) (faultsA (sigMcnt f) f) f 2 (mcntVal f) s

def mfromVal (f : FmtA) (s : State) : Mask :=
  if cVec.contains (clsOf f.a) then maskOf ((pats f f.a s).map (· != 0))
  else BitVec.ofNat 1024 (2 ^ min (opA f s).toNat 1024 - 1)
def planMfrom (f : FmtA) (_ : State) (_ : Party) : Plan :=
  { tk := f.tk, ill := faultsA (sigMfrom f) f, reads := readsV f f.ty none none, nres := 1 }
def execMfrom (f : FmtA) (s : State) : Host.Outcome State Fault Refusal :=
  runWord (.mfrom f) (planMfrom f)
    (fun sg s => .done (addFlight s s.cur (mkFlight 2 false (destOf f.d) (.mask (mfromVal f s)) 0 false sg))) s

end Sys2Proof.Machine
end

