-- ==== Sys2Proof/Machine/VMem.lean ====
section
/-! DEFINITION. Vector memory (spec 06, R195-R199; spec 03, R83, R86 for ls4). -/

namespace Sys2Proof.Machine

/-- The elements of a `vld`, `vst` or `vlda` (R196): 512 bytes of plane and none, four groups of ls4, or the
elements of TY; element `e` governed by mask bit `e`. -/
def vmEls (s : State) (p : Party) (f : FmtM) : List El :=
  let o := elemOff s p f
  let m := laneMask s p f.p
  if rawTy f.ty then (List.range 512).map fun e : Nat => ⟨true, o + e, 1, [⟨0, 8 * e, 0, 1, 0⟩]⟩
  else if f.ty = tyLs4 then
    (List.range 4).map fun g : Nat => ⟨m.getLsbD g, 168 * (o + g), 168,
      [⟨0, 1024 * g, 0, 128, 0⟩, ⟨1, 256 * g, 128, 32, 0⟩, ⟨1, 1024 + 8 * g, 160, 1, 0⟩]⟩
  else
    let w := tyWidth f.ty
    (List.range (elems f.ty)).map fun e : Nat =>
      let b := byteOff f.ty (o + e)
      ⟨m.getLsbD e, b.1, tyBytes f.ty, [⟨0, w * e, 0, tyBytes f.ty, if w = 4 then (if b.2 then 2 else 1) else 0⟩]⟩

def vmParts (ty : TyCode) : Nat := if ty = tyLs4 then 2 else 1

/-- The registers of a load: D, and the odd one of a pair. -/
def vmDest (d : SpecBits) (j : Nat) : Dest := if clsOf d = .v then .v (regNo d + j) else .none

/-! ## vld, vlda -/

def planVld (f : FmtM) (s : State) (p : Party) : Plan :=
  { tk := f.tk, ill := illVld f, reads := readsM f, nres := vmParts f.ty, lands := some (true, vmParts f.ty, 8)
    ready := loadClear s p (fmKReg s p f) (vmEls s p f)
    cold := coldSlot s p (fmKReg s p f), touch := elTouch s (fmKReg s p f) false (vmEls s p f) }

/-- The parts of a vector load put in flight together; flags with the first, signals with the last; each awaits
all the data of the word. -/
def putLoad (lat : Nat) (f : FmtM) (n : Nat) (r : Ld) (p : Party) (sg : List Nat) : State :=
  (List.range n).foldl (fun s j =>
    addFlight s p { mkFlight lat true (vmDest f.d j) (.vec ⟨BitVec.ofNat 4096 (r.parts.getD j 0), f.ty⟩)
      (if j = 0 then r.flags else 0) f.s (if j + 1 = n then sg else []) with need := r.need }) r.st

def vldAct (f : FmtM) (sg : List Nat) (s : State) : Act :=
  let p := s.cur
  let k := fmKReg s p f
  .done (putLoad 8 f (vmParts f.ty) (loadEls s p k (kR k) (vmParts f.ty) (vmEls s p f)) p sg)
def execVld (f : FmtM) (s : State) : Host.Outcome State Fault Refusal := runWord (.vld f) (planVld f) (vldAct f) s

def planVlda (f : FmtM) (s : State) (p : Party) : Plan :=
  { tk := f.tk, ill := illVlda f, reads := readsM f
    ready := asyncRoom s p && loadClear s p (fmKReg s p f) (vmEls s p f)
    cold := coldSlot s p (fmKReg s p f), touch := elTouch s (fmKReg s p f) false (vmEls s p f) }
def vldaAct (f : FmtM) (sg : List Nat) (s : State) : Act :=
  let p := s.cur
  let k := fmKReg s p f
  let n := vmParts f.ty
  let r := loadEls s p k (kR k) n (vmEls s p f)
  doneNow sg (addAsync r.st p
    ⟨0, (List.range n).map fun j => (vmDest f.d j, .vec ⟨BitVec.ofNat 4096 (r.parts.getD j 0), f.ty⟩), r.flags,
     r.need, none, []⟩)
def execVlda (f : FmtM) (s : State) : Host.Outcome State Fault Refusal := runWord (.vlda f) (planVlda f) (vldaAct f) s

/-! ## vst -/

/-- The data a store reads: one register, or a pair whose group's bytes 161-167 are written zero (R86). -/
def vstReads (f : FmtM) : List Rd := rdGroup 4 (vmParts f.ty) f.d (some f.ty) ++ readsM f
def vstVals (s : State) (p : Party) (f : FmtM) : List Nat :=
  (groupSpecs (vmParts f.ty) f.d).map fun sp => (rdVec s p sp).data.toNat
/-- The seven padding bytes of each stored group, from a third part that is zero. -/
def vstEls (s : State) (p : Party) (f : FmtM) : List El :=
  if f.ty = tyLs4 then (vmEls s p f).map fun e => { e with pieces := e.pieces ++ [⟨2, 0, 161, 7, 0⟩] } else vmEls s p f

def planVst (f : FmtM) (s : State) (p : Party) : Plan :=
  { tk := f.tk, ill := illVst f, reads := vstReads f, ready := storeRoom s p
    cold := coldSlot s p (fmKReg s p f), touch := elTouch s (fmKReg s p f) true (vstEls s p f) }
def vstAct (f : FmtM) (sg : List Nat) (s : State) : Act :=
  let p := s.cur
  .done (storeEls s p (fmKReg s p f) (vstEls s p f) (vstVals s p f) .bytes sg)
def execVst (f : FmtM) (s : State) : Host.Outcome State Fault Refusal := runWord (.vst f) (planVst f) (vstAct f) s

/-! ## vgath, vscat (R199) -/

/-- The signed integer type of a type's width. -/
def offTy (ty : TyCode) : TyCode := match tyWidth ty with | 16 => tyI16 | 32 => tyI32 | _ => tyI64

def gathEls (s : State) (p : Party) (f : FmtM) : List El :=
  let n := elems f.ty
  let w := tyWidth f.ty
  let m := laneMask s p f.p
  ((List.range n).zip (splitW w n (rdVec s p f.x).data.toNat)).map fun e =>
    ⟨m.getLsbD e.1, (signed w e.2 + f.imm.toInt) * (tyBytes f.ty : Nat), tyBytes f.ty, [⟨0, w * e.1, 0, tyBytes f.ty, 0⟩]⟩

def gathX (f : FmtM) : Rd := { field := 5, spec := f.x, tag := some (offTy f.ty) }

def planVgath (f : FmtM) (s : State) (p : Party) : Plan :=
  { tk := f.tk, ill := illVgath f, reads := gathX f :: readsK f, nres := 1, lands := some (true, 1, 12)
    ready := loadClear s p (fmKReg s p f) (gathEls s p f)
    cold := coldSlot s p (fmKReg s p f), touch := elTouch s (fmKReg s p f) false (gathEls s p f) }
def vgathAct (f : FmtM) (sg : List Nat) (s : State) : Act :=
  let p := s.cur
  let k := fmKReg s p f
  .done (putLoad 12 f 1 (loadEls s p k (kR k) 1 (gathEls s p f)) p sg)
def execVgath (f : FmtM) (s : State) : Host.Outcome State Fault Refusal := runWord (.vgath f) (planVgath f) (vgathAct f) s

def planVscat (f : FmtM) (s : State) (p : Party) : Plan :=
  { tk := f.tk, ill := illVscat f, reads := { field := 4, spec := f.d, tag := some f.ty } :: gathX f :: readsK f, ready := storeRoom s p
    cold := coldSlot s p (fmKReg s p f), touch := elTouch s (fmKReg s p f) true (gathEls s p f) }
def vscatAct (f : FmtM) (sg : List Nat) (s : State) : Act :=
  let p := s.cur
  .done (storeEls s p (fmKReg s p f) (gathEls s p f) [(rdVec s p f.d).data.toNat] .bytes sg)
def execVscat (f : FmtM) (s : State) : Host.Outcome State Fault Refusal := runWord (.vscat f) (planVscat f) (vscatAct f) s

end Sys2Proof.Machine
end

