-- ==== Sys2Proof/Machine/AccEx.lean ====
section
/-! DEFINITION. Exchanges between the vector unit and the accumulator ring (spec 06, R203-R207). -/

namespace Sys2Proof.Machine

/-- The tile and index of an exchange that R203 refuses. -/
def exchBad (load : Bool) (f : FmtA) (s : State) (p : Party) : Bool :=
  let tile := (rdScal s p f.a).toNat
  let i := (rdScal s p f.b).toNat
  f.a = 0x7C || f.b = 0x7C || decide (3 < tile) || i % 64 != 0 || decide ((if load then 16576 else 16320) < i)

/-- The limit of 16 outstanding exchanges (R57). -/
def exchRoom (s : State) (p : Party) : Bool := decide ((taskOf s p).exchs.length < 16)

def planAccld (f : FmtA) (s : State) (p : Party) : Plan :=
  { tk := f.tk, ill := (5, exchBad true f s p) :: faultsA (sigAccld f) f, reads := readsV f none none none
    ready := exchRoom s p }
def planAccst (f : FmtA) (s : State) (p : Party) : Plan :=
  { tk := f.tk, ill := (5, exchBad false f s p) :: faultsA (sigAccst f) f
    reads := readsV f none none none ++ [{ field := 4, spec := f.d, tag := some f.ty }]
    ready := exchRoom s p }

/-- An exchange counted at issue; its signals are pushed at issue (R204). -/
def exchAct (load : Bool) (f : FmtA) (sg : List Nat) (s : State) : Act :=
  let p := s.cur
  let e : Exch := ⟨0, load, (rdScal s p f.a).toNat, (rdScal s p f.b).toNat, f.ty, if load then regNo f.d else 0,
    if load then 0 else (rdVec s p f.d).data, false⟩
  doneNow sg (mapTask s p fun t => { t with exchs := t.exchs ++ [{ e with seq := t.exchNo }], exchNo := t.exchNo + 1 })
def execAccld (f : FmtA) (s : State) : Host.Outcome State Fault Refusal := runWord (.accld f) (planAccld f) (exchAct true f) s
def execAccst (f : FmtA) (s : State) : Host.Outcome State Fault Refusal := runWord (.accst f) (planAccst f) (exchAct false f) s

/-- Every exchange but the `n` most recently issued has been performed (R207). -/
def exchsDone (t : Task) (n : Nat) : Bool := t.exchs.all fun e => decide (t.exchNo ≤ e.seq + n)

def planWaitacc (f : FmtA) (s : State) (p : Party) : Plan :=
  { tk := f.tk, ill := illCtl f cScalN, reads := readsA f, sync := true
    ready := chkPending s p || exchsDone (taskOf s p) (waitCount f s p 16) }
/-- A held mismatch of an exchange that the wait covers raises FMT with DETAIL 6, once (R206); else the wait covers its exchanges (R58). -/
def waitaccAct (f : FmtA) (sg : List Nat) (s : State) : Act :=
  let t := taskOf s s.cur
  let n := waitCount f s s.cur 16
  let covered (q : Nat) : Bool := decide (q + n < t.exchNo)
  if t.exchFmt.any covered then
    .changed (fun s => mapTask s s.cur fun t => { t with exchFmt := t.exchFmt.filter fun q => !covered q }) (mkTrap cFMT 6)
  else doneNow sg (cover s s.cur true t.exchNo n)
def execWaitacc (f : FmtA) (s : State) : Host.Outcome State Fault Refusal :=
  runWord (.waitacc f) (planWaitacc f) (waitaccAct f) s

/-- The 64 words an `accld` reads (R203). -/
def exchWords (t : Tile) (i : Nat) : List Word :=
  (List.range 64).map fun n =>
    if i < 16384 then acc t (i + n) else if i < 16512 then ccOf t (i - 16384 + n) else rcOf t (i - 16512 + n)

/-- The tile after an `accst` (R205). -/
def accstTile (t : Tile) (i : Nat) (ws : List Nat) : Tile :=
  let t1 := (List.range 64).foldl (fun t n => setAcc t (i + n) (BitVec.ofNat 64 (ws.getD n 0))) t
  (List.range 64).foldl (fun t n => reCol t (i % 128 + n)) (reRow t1 (i / 128))

/-- An exchange may be performed: its tile is FREE or FULL, and it is the first of its task on the tile (R153, R204). -/
def exchReady (c : Core) (t : Task) (e : Exch) : Bool :=
  let st := (tileOf c e.tile).state
  (st = .free || st = .full) && !(t.exchs.any fun g => decide (g.tile = e.tile) && decide (g.seq < e.seq))

/-- One exchange performed (R204-R206); its register is not to be relied on until the covering wait (R58). -/
def exchDone (s : State) (p : Party) (e : Exch) : State :=
  let tile := tileOf (coreOf s (coreNo p)) e.tile
  let bad := tile.int != (e.ty = tyI64)
  let data := if bad then 0 else joinW 64 ((exchWords tile e.index).map BitVec.toNat)
  let s1 := mapTask s p fun t =>
    let t1 := { t with
      exchs := t.exchs.filter fun g => g.seq != e.seq
      exchFmt := if bad then t.exchFmt ++ [e.seq] else t.exchFmt }
    if e.load then
      let t2 := writeDest s (spoil t1 (.v e.dest)) (.v e.dest) (.vec ⟨BitVec.ofNat 4096 data, e.ty⟩)
      { t2 with late := t2.late ++ [⟨true, e.seq, [(.v e.dest, e.spoiled)]⟩] }
    else t1
  if e.load || bad then s1
  else mapCore s1 (coreNo p) fun c => mapTile c e.tile fun t => accstTile t e.index (splitW 64 64 e.data.toNat)

/-- ACC_EXCHANGE_PERFORMED: exchange `i` of the task, when its tile allows it (R153, R204). -/
def execAccExchangePerformed (p : Party) (i : Nat) (s : State) : Host.Outcome State Fault Refusal :=
  .next (match (taskOf s p).exchs[i]? with
    | none => s
    | some e =>
      if isPorter p || !exchReady (coreOf s (coreNo p)) (taskOf s p) e then s else exchDone s p e)

end Sys2Proof.Machine
end

