-- ==== Sys2Proof/Machine/Legal2.lean ====
section
/-! DEFINITION. Which fields the entries of specs 07, 11, 12, 13, 15, 16, 19 and 21 accept, as breach lists of R35. -/

namespace Sys2Proof.Machine

/-- Entries of TY none whose S, predicate, modifiers, CL and SC are 0; a result's S is refused (R28, R35 case 5). -/
def noneWord (a b c d : List Cls) (f : FmtA) : List (Nat × Bool) :=
  (5, f.s) :: faultsA { a := a, b := b, c := c, d := d, tyOk := isNoneTy f.ty, stair := d != cNone } f

/-! ## Spec 15 -/

def illFence (f : FmtA) : List (Nat × Bool) := noneWord cNone cNone cNone cNone f
/-- Bits [2:0] a scope, CL 0 (R344, R357). -/
def scopeBad (f : FmtA) : Bool := f.cl != 0 || f.sc = 7
def scopeWord (d : List Cls) (f : FmtA) : List (Nat × Bool) :=
  (5, f.s || scopeBad f)
    :: faultsA { a := [.k], b := cScal, c := cScal, d := d, tyOk := isNoneTy f.ty, stair := d != cNone, clamp := .low } f
def illBararr (f : FmtA) : List (Nat × Bool) := scopeWord cXN f
def illBarinit (f : FmtA) : List (Nat × Bool) := noneWord [.k] cScal cScal cNone f
def illTlset (f : FmtA) : List (Nat × Bool) := noneWord [.k] cScal cScal cNone f
def illSeminit (f : FmtA) : List (Nat × Bool) := noneWord cScal cScal cScal cNone f
def illSem (f : FmtA) : List (Nat × Bool) := noneWord cScal cNone cNone cNone f
def atomTy (t : TyCode) : Bool := t = tyI32 || t = tyI64 || t = tyN32 || t = tyN64
/-- S is accepted (R359), D being always a register. DEDUCED (log 39): the entry's own words go before R63's for S with a named D. -/
def illAtom (f : FmtM) : List (Nat × Bool) := faultsM cTxN [.x] (atomTy f.ty) true .no { f with s := false }
def illCas (f : FmtM) : List (Nat × Bool) := (5, oddX f.d) :: illAtom f

/-! ## Spec 13 -/

/-- `xlat`, `xlatl` (R324, R330): bits [4:0] hold PK. -/
def illXlatWord (a c d : List Cls) (f : FmtA) : List (Nat × Bool) :=
  (2, f.cl.getLsbD 1)
    :: (5, f.s) :: faultsA { a := a, b := cScal, c := c, d := d, tyOk := isNoneTy f.ty, stair := d != [.k], clamp := .low } f
def illXlat (f : FmtA) : List (Nat × Bool) := illXlatWord cScal cNone [.k] f
def illXlatl (f : FmtA) : List (Nat × Bool) := illXlatWord [.k] cScal cXN f
def illTrel (f : FmtA) : List (Nat × Bool) := noneWord [.k] cNone cNone cNone f
def illSeal (f : FmtA) : List (Nat × Bool) := noneWord [.k] cNone cNone cXN f
def illKrevoke (f : FmtA) : List (Nat × Bool) := noneWord cScal cScalN cNone cXN f

/-! ## Specs 07, 11, 12, 16, 19, 21 -/

def illEstart (f : FmtA) : List (Nat × Bool) := noneWord cScal cScal cNone cNone f
def illEwait (f : FmtA) : List (Nat × Bool) :=
  faultsA { a := cScal, b := cScal, d := cXN, tyOk := isNoneTy f.ty, stair := true } f

end Sys2Proof.Machine
end

