-- ==== Sys2Proof/Machine/Order.lean ====
section
/-! DEFINITION. Ordering and synchronisation (spec 15): fences, atomics, barrier objects, semaphores, timelines. -/

namespace Sys2Proof.Machine

/-! ## Fences and releases (R345, R358) -/

def scopeNo : Scope → Nat
  | .task => 0 | .core => 1 | .cluster => 2 | .die => 3 | .package => 4 | .fabric => 5 | .system => 6

/-- Every earlier access of the task has been performed: its stores, asynchronous operations and peer loads. -/
def accessesDone (t : Task) : Bool :=
  t.asyncs.isEmpty && t.exchs.isEmpty && t.stores.isEmpty && t.flights.all fun f => f.need = []

/-- A release at a scope is complete; at task scope nothing is waited for. -/
def released (t : Task) (scope : Nat) : Bool := scope = 0 || accessesDone t

def planFence (sc : Scope) (f : FmtA) (s : State) (p : Party) : Plan :=
  { tk := f.tk, ill := illFence f, ready := released (taskOf s p) (scopeNo sc) }
def execFence (sc : Scope) (f : FmtA) (s : State) : Host.Outcome State Fault Refusal :=
  runWord (.fence sc f) (planFence sc f) doneNow s

/-! ## One word or object at its home -/

/-- Tag, permission, alignment and extent of an atomic access (R132, R357, R359). -/
def objChk (s : State) (k : KReg) (perm : Bool) (off : Int) (size : Nat) (store : Bool) : Chk :=
  let c := checkTok s k perm
  if c.flag != 0 then c else if off % (size : Int) != 0 then ⟨fXB, 0⟩ else checkExt s k off size store

/-- The same for a barrier object, which lies in hall space. -/
def barChk (s : State) (k : KReg) (perm : Bool) (off : Int) (store : Bool) : Chk :=
  if !kCurrent s k then ⟨fST, 1⟩
  else if kSpace k != 2 then ⟨fXB, 0⟩
  else objChk s k perm off 16 store

def objPlaces (s : State) (slot off n : Nat) : List Place := (List.range n).map fun i => pinLookup s slot (off + i)
def objVal (s : State) (slot off n : Nat) : Nat := leNat ((objPlaces s slot off n).map (rdByte s))
def objPoison (s : State) (slot off n : Nat) : Option Place := (objPlaces s slot off n).find? (placePoison s)
def objPeer (s : State) (slot off : Nat) : Bool := (pinLookup s slot off).space = .peer

/-- A value written at its home. -/
def objSet (s : State) (p : Party) (slot off n v : Nat) : State :=
  wrPlaces s p slot off ((objPlaces s slot off n).zip ((leBytes n v).map fun b => (b, 0xFF#8)))

/-- The task's own posted stores to the object come first (R133). -/
def objBusy (s : State) (p : Party) (slot off n : Nat) : Bool :=
  let stores := (taskOf s p).stores
  let pls := objPlaces s slot off n
  peerHeld s stores pls || pls.any fun pl => pl.space != .peer && ownCovers s stores pl

/-- The event of a failed check, and the Gallery's record. -/
def chkFail (s : State) (p : Party) (k : KReg) (c : Chk) : State := galMem (logChk s p k c) p (kSlot k)

/-! ## atom, cas (R359) -/

inductive AtomOp where
  | add | and | or | xor | min | max | swap | cas
  deriving DecidableEq, Repr

def AtomOp.code : AtomOp → Nat
  | .add => 0 | .and => 1 | .or => 2 | .xor => 3 | .min => 4 | .max => 5 | .swap => 6 | .cas => 7
def AtomOp.ofCode : Nat → AtomOp
  | 0 => .add | 1 => .and | 2 => .or | 3 => .xor | 4 => .min | 5 => .max | 6 => .swap | _ => .cas

/-- The word left in memory: `a` is xD, `b` x(D+1). -/
def atomNew (op : AtomOp) (ty : TyCode) (old a b : Nat) : Nat :=
  let w := tyWidth ty
  let x := intDecode ty old
  let y := intDecode ty a
  match op with
  | .add => (old + a) % 2 ^ w
  | .and => old &&& a % 2 ^ w
  | .or => old ||| a % 2 ^ w
  | .xor => old ^^^ a % 2 ^ w
  | .min => if x ≤ y then old else a % 2 ^ w
  | .max => if y ≤ x then old else a % 2 ^ w
  | .swap => a % 2 ^ w
  | .cas => if old = a % 2 ^ w then b % 2 ^ w else old

/-- The data of an atomic request (R428): FN, TY and the two operands in the type's width, in 16 bytes (log 15: those of a 64-bit `cas` take
two more). -/
def atomData (op : AtomOp) (ty : TyCode) (a b : Nat) : List Byte :=
  let l := leBytes 1 op.code ++ leBytes 1 ty.toNat ++ leBytes (tyBytes ty) a ++ if op = .cas then leBytes (tyBytes ty) b else []
  l ++ List.replicate (16 - l.length) 0

def atomOff (s : State) (p : Party) (f : FmtM) : Int := elemOff s p f * (tyBytes f.ty : Nat)
def atomAt (s : State) (p : Party) (f : FmtM) : Nat := kBase (fmKReg s p f) + (atomOff s p f).toNat
def atomChk (s : State) (p : Party) (f : FmtM) : Chk :=
  let k := fmKReg s p f
  objChk s k (kA k) (atomOff s p f) (tyBytes f.ty) true

def planAtom (ill : List (Nat × Bool)) (f : FmtM) (s : State) (p : Party) : Plan :=
  let k := fmKReg s p f
  let ok := (atomChk s p f).flag = 0
  { tk := f.tk, ill := ill, reads := readsSt f none, nres := 1, lands := some (false, 1, 6), cold := coldSlot s p k
    ready := !ok || !objBusy s p (kSlot k) (atomAt s p f) (tyBytes f.ty)
    touch := if ok then [⟨kSlot k, atomAt s p f, tyBytes f.ty, false⟩, ⟨kSlot k, atomAt s p f, tyBytes f.ty, true⟩] else [] }

/-- The old value lands on the scalar stair and in D. -/
def putAtom (f : FmtM) (v : Word) (fl : BitVec 8) (need : List Nat) (sg : List Nat) (s : State) : Act :=
  .done (addFlight s s.cur { mkFlight 6 true (destOf f.d) (.word v) fl f.s sg with
    need := need, fix := if need = [] then none else some f.ty })

def atomAct (op : AtomOp) (f : FmtM) (sg : List Nat) (s : State) : Act :=
  let p := s.cur
  let k := fmKReg s p f
  let c := atomChk s p f
  let n := tyBytes f.ty
  let at_ := atomAt s p f
  let a := (rdScal s p f.d).toNat
  let b := if op = .cas then (rdScal s p (f.d + 1)).toNat else 0
  if c.flag != 0 then putAtom f 0 c.flag [] sg (chkFail s p k c)
  else if objPeer s (kSlot k) at_ then
    let x := peerRequest s p 5 (pinLookup s (kSlot k) at_) (kSlot k) ⟨0, 0, 0, n, 0⟩ (atomData op f.ty a b)
    putAtom f 0 0 [x.2] sg x.1
  else
    let s1 := readAtoms s (objPlaces s (kSlot k) at_ n)
    match objPoison s1 (kSlot k) at_ n with
    | some pl => putAtom f 0 0 [] sg (poisonMet s1 p (kSlot k) at_ pl)
    | none =>
      let old := objVal s1 (kSlot k) at_ n
      putAtom f (extend64 f.ty old) 0 [] sg (objSet s1 p (kSlot k) at_ n (atomNew op f.ty old a b))

def execAtomAdd (f : FmtM) (s : State) : Host.Outcome State Fault Refusal :=
  runWord (.atomAdd f) (planAtom (illAtom f) f) (atomAct .add f) s
def execAtomAnd (f : FmtM) (s : State) : Host.Outcome State Fault Refusal :=
  runWord (.atomAnd f) (planAtom (illAtom f) f) (atomAct .and f) s
def execAtomOr (f : FmtM) (s : State) : Host.Outcome State Fault Refusal :=
  runWord (.atomOr f) (planAtom (illAtom f) f) (atomAct .or f) s
def execAtomXor (f : FmtM) (s : State) : Host.Outcome State Fault Refusal :=
  runWord (.atomXor f) (planAtom (illAtom f) f) (atomAct .xor f) s
def execAtomMin (f : FmtM) (s : State) : Host.Outcome State Fault Refusal :=
  runWord (.atomMin f) (planAtom (illAtom f) f) (atomAct .min f) s
def execAtomMax (f : FmtM) (s : State) : Host.Outcome State Fault Refusal :=
  runWord (.atomMax f) (planAtom (illAtom f) f) (atomAct .max f) s
def execAtomSwap (f : FmtM) (s : State) : Host.Outcome State Fault Refusal :=
  runWord (.atomSwap f) (planAtom (illAtom f) f) (atomAct .swap f) s
/-- `cas` also reads x(D+1). -/
def planCas (f : FmtM) (s : State) (p : Party) : Plan :=
  let pl := planAtom (illCas f) f s p
  { pl with reads := pl.reads ++ [{ field := 4, spec := f.d + 1 }] }
def execCas (f : FmtM) (s : State) : Host.Outcome State Fault Refusal := runWord (.cas f) (planCas f) (atomAct .cas f) s

/-! ## Barrier objects (R350, R351, R360-R362) -/

def barExpected (v : Nat) : Nat := bits v 0 48
def barArrived (v : Nat) : Nat := bits v 48 48
def barPhase (v : Nat) : Bool := Nat.testBit v 127
def barCancel (v : Nat) : Bool := Nat.testBit v 126
def barObj (expected arrived : Nat) (phase cancel : Bool) : Nat :=
  expected + arrived * 2 ^ 48 + cancel.toNat * 2 ^ 126 + phase.toNat * 2 ^ 127

/-- `add(obj, n)`; a cancelled prefetch also sets CANCEL. -/
def barAdd (v n : Nat) (cancel : Bool) : Nat :=
  let e := barExpected v
  let a := barArrived v
  let c := barCancel v || cancel
  if e != 0 && decide (e ≤ a + n) then barObj e 0 (!barPhase v) c
  else barObj e (min (a + n) (2 ^ 48 - 1)) (barPhase v) c

/-- An add to the object at an offset of a slot's extent, at its home. -/
def barrierAdd (s : State) (p : Party) (slot off n : Nat) (cancel : Bool) : State :=
  objSet (readAtoms s (objPlaces s slot off 16)) p slot off 16 (barAdd (objVal s slot off 16) n cancel)

/-- PHASE in bit 0, CANCEL in bit 1. -/
def barWord (v : Nat) : Word := BitVec.ofNat 64 ((barPhase v).toNat + 2 * (barCancel v).toNat)

def barOff (f : FmtA) (s : State) (p : Party) : Int := (rdScal s p f.b).toNat
def barAt (f : FmtA) (s : State) (p : Party) : Nat := kBase (rdTok s p f.a) + (rdScal s p f.b).toNat

/-- A result of a barrier or timeline word. -/
def putObj (f : FmtA) (v : Word) (fl : BitVec 8) (sg : List Nat) (s : State) : Act :=
  .done (putScal 1 f.d false (v, fl) sg s)
/-- A failed check: the flag, and all ones in D. -/
def objFailed (f : FmtA) (c : Chk) (sg : List Nat) (s : State) : Act :=
  putObj f (BitVec.allOnes 64) c.flag sg (chkFail s s.cur (rdTok s s.cur f.a) c)

/-- How a barrier or timeline word touches its object (R380); an operation returns what was there. -/
inductive Use where
  | read | write | both
  deriving DecidableEq, Repr

/-- What is judged of a barrier or timeline word whose check is `c`. -/
def planObj (ill : List (Nat × Bool)) (f : FmtA) (c : Chk) (size : Nat) (use : Use) (ready : Bool) (s : State) (p : Party) :
    Plan :=
  { tk := f.tk, ill := ill, reads := readsA f, nres := 1, lands := some (false, 1, 1), cold := coldSlot s p (rdTok s p f.a)
    ready := c.flag != 0 || ready
    touch := if c.flag = 0 then
        (match use with | .read => [false] | .write => [true] | .both => [false, true]).map fun st =>
          ⟨kSlot (rdTok s p f.a), barAt f s p, size, st⟩
      else [] }

def bigCount (f : FmtA) (s : State) (p : Party) : Bool := decide (2 ^ 48 - 1 < (rdScal s p f.c).toNat)

/-- `barinit`'s cells: EXPECTED, then ARRIVED, the reserved bits and CANCEL zero; PHASE is kept. -/
def barinitCells (k : KReg) (off expected : Nat) : List SCell :=
  (List.range 16).map fun i =>
    { slot := kSlot k, off := kBase k + off + i, el := kBase k + off, byte := BitVec.ofNat 8 (if i < 6 then expected >>> (8 * i) else 0)
      mask := if i = 15 then 0x7F else 0xFF }
def planBarinit (f : FmtA) (s : State) (p : Party) : Plan :=
  let k := rdTok s p f.a
  let c := barChk s k (kW k) (barOff f s p) true
  { planObj ((5, bigCount f s p || rdScal s p f.c = 0) :: illBarinit f) f c 16 .write (storeRoom s p) s p with
    nres := 0, lands := none }
/-- A failed check: the flag at once, and nothing written. -/
def barinitAct (f : FmtA) (sg : List Nat) (s : State) : Act :=
  let p := s.cur
  let k := rdTok s p f.a
  let c := barChk s k (kW k) (barOff f s p) true
  if c.flag != 0 then doneNow sg (mapTask (chkFail s p k c) p fun t => orFlags t c.flag)
  else .done (postStore s p
    ⟨barinitCells k (rdScal s p f.b).toNat (rdScal s p f.c).toNat, .bytes, 0, sg, [kSlot k], [], false, 0, 0⟩)
def execBarinit (f : FmtA) (s : State) : Host.Outcome State Fault Refusal := runWord (.barinit f) (planBarinit f) (barinitAct f) s

def bararrChk (f : FmtA) (s : State) (p : Party) : Chk := let k := rdTok s p f.a; barChk s k (kA k) (barOff f s p) true
def planBararr (f : FmtA) (s : State) (p : Party) : Plan :=
  planObj ((5, bigCount f s p) :: illBararr f) f (bararrChk f s p) 16 .both
    (released (taskOf s p) f.sc.toNat && !objBusy s p (kSlot (rdTok s p f.a)) (barAt f s p) 16) s p
/-- The phase before the add is returned; a count of 0 adds nothing. -/
def bararrAct (f : FmtA) (sg : List Nat) (s : State) : Act :=
  let p := s.cur
  let c := bararrChk f s p
  let slot := kSlot (rdTok s p f.a)
  let at_ := barAt f s p
  if c.flag != 0 then objFailed f c sg s
  else
    let s1 := readAtoms s (objPlaces s slot at_ 16)
    match objPoison s1 slot at_ 16 with
    | some pl => putObj f 0 0 sg (poisonMet s1 p slot at_ pl)
    | none =>
      let n := (rdScal s p f.c).toNat
      putObj f (barWord (objVal s slot at_ 16)) 0 sg (if n = 0 then s1 else barrierAdd s1 p slot at_ n false)
def execBararr (f : FmtA) (s : State) : Host.Outcome State Fault Refusal := runWord (.bararr f) (planBararr f) (bararrAct f) s

def barwaitChk (f : FmtA) (s : State) (p : Party) : Chk := let k := rdTok s p f.a; barChk s k (kR k) (barOff f s p) false
/-- The phase differs from bit 0 of C; the task's own stores to the object have been performed (R133). -/
def barFlipped (f : FmtA) (s : State) (p : Party) : Bool :=
  let slot := kSlot (rdTok s p f.a)
  !objBusy s p slot (barAt f s p) 16 &&
    ((objPoison s slot (barAt f s p) 16).isSome || barPhase (objVal s slot (barAt f s p) 16) != (rdScal s p f.c).getLsbD 0)
def planBarwait (f : FmtA) (s : State) (p : Party) : Plan :=
  { planObj (illBararr f) f (barwaitChk f s p) 16 .read (chkPending s p || barFlipped f s p) s p with sync := true }
def barwaitAct (f : FmtA) (sg : List Nat) (s : State) : Act :=
  let p := s.cur
  let c := barwaitChk f s p
  let slot := kSlot (rdTok s p f.a)
  let at_ := barAt f s p
  if c.flag != 0 then objFailed f c sg s
  else
    let s1 := readAtoms s (objPlaces s slot at_ 16)
    match objPoison s1 slot at_ 16 with
    | some pl => putObj f 0 0 sg (poisonMet s1 p slot at_ pl)
    | none => putObj f (barWord (objVal s slot at_ 16)) 0 sg s1
def execBarwait (f : FmtA) (s : State) : Host.Outcome State Fault Refusal := runWord (.barwait f) (planBarwait f) (barwaitAct f) s

/-! ## Core semaphores (R157, R158, R363) -/

def zeroSem : Sem := ⟨0, 0⟩
def semOf (s : State) (p : Party) (n : Nat) : Sem :=
  if isPorter p then tget zeroSem (dieOf s (dieNo p)).psems n else tget zeroSem (coreOf s (coreNo p)).sems n
/-- A P takes a unit. -/
def semTake (s : State) (p : Party) (n : Nat) : State :=
  let m := semOf s p n
  let s1 := setSem s p n { m with value := m.value - 1 }
  if isPorter p then s1 else mapCore s1 (coreNo p) (drainUnit (some (slotNo p)) n)
def semAdd (s : State) (p : Party) (n : Nat) : State := let m := semOf s p n; setSem s p n { m with value := m.value + 1 }
/-- A V at the ceiling is refused. -/
def semFull (m : Sem) : Bool := decide (m.ceil.toNat ≤ m.value.toNat)

def badId (f : FmtA) (s : State) (p : Party) : Bool := decide (63 < (rdScal s p f.a).toNat)
def planSeminit (f : FmtA) (s : State) (p : Party) : Plan :=
  { tk := f.tk, reads := readsA f, nres := 1
    ill := (5, badId f s p || decide ((rdScal s p f.c).toNat < (rdScal s p f.b).toNat) || decide (255 < (rdScal s p f.c).toNat))
      :: illSeminit f }
/-- The new values land one issue cycle later. -/
def seminitAct (f : FmtA) (sg : List Nat) (s : State) : Act :=
  let v := (opC f s).toNat * 256 + (opB f s).toNat
  .done (addFlight s s.cur (mkFlight 1 false (.sem (opA f s).toNat) (.word (BitVec.ofNat 64 v)) 0 false sg))
def execSeminit (f : FmtA) (s : State) : Host.Outcome State Fault Refusal := runWord (.seminit f) (planSeminit f) (seminitAct f) s

def planSem (sync : Bool) (f : FmtA) (s : State) (p : Party) : Plan :=
  { tk := f.tk, ill := (5, badId f s p) :: illSem f, reads := readsA f, sync := sync
    ready := sync || (taskOf s p).stores.isEmpty }
/-- SEMOVF at a task's V (R363, R370). -/
def semovf (n : Nat) (m : Sem) (detail aux2 : Nat) : TrapInfo :=
  { mkTrap cSEMOVF detail with
    aux0 := BitVec.ofNat 64 n, aux1 := BitVec.ofNat 64 (m.ceil.toNat * 256 + m.value.toNat), aux2 := BitVec.ofNat 64 aux2 }
/-! ## Timelines (R353, R364-R366) -/

def tlChk (f : FmtA) (perm : KReg → Bool) (store : Bool) (s : State) (p : Party) : Chk :=
  let k := rdTok s p f.a
  objChk s k (perm k) (barOff f s p) 8 store

def planTlsig (f : FmtA) (s : State) (p : Party) : Plan :=
  planObj (illBararr f) f (tlChk f kA true s p) 8 .both
    (released (taskOf s p) f.sc.toNat && !objBusy s p (kSlot (rdTok s p f.a)) (barAt f s p) 8) s p
/-- C added to the word at its home; the old value is the result. -/
def tlsigAct (f : FmtA) (sg : List Nat) (s : State) : Act :=
  let p := s.cur
  let c := tlChk f kA true s p
  let slot := kSlot (rdTok s p f.a)
  let at_ := barAt f s p
  if c.flag != 0 then objFailed f c sg s
  else if objPeer s slot at_ then
    let x := peerRequest s p 5 (pinLookup s slot at_) slot ⟨0, 0, 0, 8, 0⟩ (atomData .add tyN64 (opC f s).toNat 0)
    .done (addFlight x.1 p { mkFlight 1 true (destOf f.d) (.word 0) 0 false sg with need := [x.2] })
  else
    let s1 := readAtoms s (objPlaces s slot at_ 8)
    match objPoison s1 slot at_ 8 with
    | some pl => putObj f 0 0 sg (poisonMet s1 p slot at_ pl)
    | none =>
      let old := objVal s slot at_ 8
      putObj f (BitVec.ofNat 64 old) 0 sg (objSet s1 p slot at_ 8 ((old + (opC f s).toNat) % 2 ^ 64))
def execTlsig (f : FmtA) (s : State) : Host.Outcome State Fault Refusal := runWord (.tlsig f) (planTlsig f) (tlsigAct f) s

def planTlwait (f : FmtA) (s : State) (p : Party) : Plan :=
  planObj (illBararr f) f (tlChk f kR false s p) 8 .read (!objBusy s p (kSlot (rdTok s p f.a)) (barAt f s p) 8) s p
/-- Released at once, or the slot waits; a word at a peer is read again until it satisfies (log 16). -/
def tlwaitAct (f : FmtA) (sg : List Nat) (s : State) : Act :=
  let p := s.cur
  let c := tlChk f kR false s p
  let slot := kSlot (rdTok s p f.a)
  let at_ := barAt f s p
  if c.flag != 0 then objFailed f c sg s
  else
    let s1 := readAtoms s (objPlaces s slot at_ 8)
    match objPoison s1 slot at_ 8 with
    | some pl => putObj f 0 0 sg (poisonMet s1 p slot at_ pl)
    | none =>
      let v := BitVec.ofNat 64 (objVal s slot at_ 8)
      if !objPeer s slot at_ && tlPassed v (opC f s) then putObj f v 0 sg s1
      else .hold fun t => { t with wait := .timeline f slot at_ (opC f s) none }
/-- What a word that begins to wait does besides (R318): it holds a count on its slot, and asks a peer. -/
def beginWait (s0 s1 : State) (p : Party) : State :=
  match (taskOf s0 p).wait, (taskOf s1 p).wait with
  | .none, .timeline _ slot off _ _ =>
    let s2 := inflt s1 slot true
    if objPeer s2 slot off then (peerRequest s2 p 1 (pinLookup s2 slot off) slot ⟨0, 0, 0, 8, 0⟩ (leBytes 1 8)).1 else s2
  | .none, .line _ slot off _ _ _ =>
    let s2 := inflt s1 slot true
    if objPeer s2 slot off then (peerRequest s2 p 1 (pinLookup s2 slot off) slot ⟨0, 0, 0, 8, 0⟩ (leBytes 1 8)).1 else s2
  | .none, .pred _ slot off _ _ _ =>
    let s2 := inflt s1 slot true
    if objPeer s2 slot off then (peerRequest s2 p 1 (pinLookup s2 slot off) slot ⟨0, 0, 0, 8, 0⟩ (leBytes 1 8)).1 else s2
  | _, _ => s1
def execTlwait (f : FmtA) (s : State) : Host.Outcome State Fault Refusal :=
  match (taskOf s s.cur).wait with
  | .timeline _ slot _ _ (some v) =>
    .next (finishWord (inflt s slot false) s.cur ((encodeWord (.tlwait f)).getD 0) f.tk (putObj f v 0))
  | .timeline _ _ _ _ none => .next s
  | _ => .next (beginWait s (issueWord ((encodeWord (.tlwait f)).getD 0) (planTlwait f) (tlwaitAct f) s) s.cur)

def planTlset (f : FmtA) (s : State) (p : Party) : Plan :=
  { planObj (illTlset f) f (tlChk f kW true s p) 8 .write (released (taskOf s p) 6) s p with
    nres := 0, lands := none, priv := !isSuper p }
def tlsetAct (f : FmtA) (sg : List Nat) (s : State) : Act :=
  let p := s.cur
  let k := rdTok s p f.a
  let c := tlChk f kW true s p
  if c.flag != 0 then doneNow sg (mapTask (chkFail s p k c) p fun t => orFlags t c.flag)
  else if objPeer s (kSlot k) (barAt f s p) then
    .done (storeEls s p k [⟨true, barOff f s p, 8, [⟨0, 0, 0, 8, 0⟩]⟩] [(opC f s).toNat] .bytes sg)
  else doneNow sg (objSet s p (kSlot k) (barAt f s p) 8 (opC f s).toNat)
def execTlset (f : FmtA) (s : State) : Host.Outcome State Fault Refusal := runWord (.tlset f) (planTlset f) (tlsetAct f) s

end Sys2Proof.Machine
end

