-- ==== Sys2Proof/Machine/Engine.lean ====
section
/-! DEFINITION. Engine streams and their records (spec 07, R208-R216, R219, R232; spec 05, R155-R158): where a stream
stands, which records are illegal, the addresses of issues, and an engine's reads and writes. -/

namespace Sys2Proof.Machine

/-! ## Streams (R208, R209) -/

def streamOf (c : Core) : Engine → Stream
  | .copy => c.copyS | .matrix => c.matrixS | .epilogue => c.epiS
def setStream (c : Core) (e : Engine) (x : Stream) : Core :=
  match e with
  | .copy => { c with copyS := x } | .matrix => { c with matrixS := x } | .epilogue => { c with epiS := x }
def theStream (s : State) (c : Nat) (e : Engine) : Stream := streamOf (coreOf s c) e
def mapStream (s : State) (c : Nat) (e : Engine) (f : Stream → Stream) : State :=
  mapCore s c fun k => setStream k e (f (streamOf k e))

def StreamState.code : StreamState → Nat
  | .idle => 0 | .running => 1 | .ended => 2 | .engill => 3 | .semovf => 4

/-- The status word (R209); DONEAFTER is full at 3 (log 42). -/
def statusWord (x : Stream) : Word :=
  BitVec.ofNat 64 (x.ridx % 2 ^ 24 * 2 ^ 40 + x.sval % 256 * 2 ^ 32 + x.sceil % 256 * 2 ^ 24 + x.sid % 64 * 2 ^ 18
    + min x.doneAfter 3 * 2 ^ 16 + x.state.code * 2 ^ 12 + x.ereason % 16 * 2 ^ 8 + x.sticky.toNat)

/-- Status bits (R209); ST, XB and SX stand where `flags` has them (R69). -/
def eDCERR : BitVec 8 := 0x20
def eNSEAL : BitVec 8 := 0x10
def eLOSTV : BitVec 8 := 0x08

def streamImage (s : State) (x : Stream) : Image :=
  match x.launch with
  | some (d, l) => (launchOf s d l).image
  | none => default
def sectionOf (im : Image) : Engine → Nat × Nat
  | .copy => im.copy | .matrix => im.matrix | .epilogue => im.epilogue

/-- Records in an engine's section; a missing section counts as zero records (R217). -/
def recCount (im : Image) (e : Engine) : Nat := (sectionOf im e).2 / 64
def recBits (s : State) (im : Image) (e : Engine) (i : Nat) : BitVec 512 :=
  BitVec.ofNat 512 (imgWord s im ((sectionOf im e).1 + 64 * i) 64)

/-- A stream that runs, or has a record in progress or chained (R217, R218). -/
def streamBusy (x : Stream) : Bool := x.state = .running || !x.prog.isEmpty || !x.chained.isEmpty || !x.active.isEmpty

/-- ENG (R36). -/
def engNo : Engine → Nat
  | .copy => 1 | .matrix => 2 | .epilogue => 3

/-! ## Which records are illegal (R40, R219, R232) -/

inductive RKind where
  | copy | fill | copypl | copyrm | decomp | mma | tcfg | epi | epiv | jrec | endstr
  deriving DecidableEq, Repr

def recKind (bits : BitVec 512) : Option RKind :=
  match (bits.extractLsb' 504 8).toNat with
  | 0x01 => some .copy | 0x02 => some .copypl | 0x03 => some .copyrm | 0x04 => some .fill | 0x05 => some .decomp
  | 0x10 => some .mma | 0x11 => some .tcfg | 0x20 => some .epi | 0x21 => some .epiv | 0xF0 => some .jrec
  | 0xFF => some .endstr | _ => none

def kindEngine (e : Engine) : RKind → Bool
  | .copy | .fill | .copypl | .copyrm | .decomp => e = .copy
  | .mma | .tcfg => e = .matrix
  | .epi | .epiv => e = .epilogue
  | .jrec | .endstr => true

def opdZero (o : Opd) : Bool := o = ⟨0, 0, 0, 0, 0, 0⟩
def noStrides (o : Opd) : Bool := o.s0 = 0 && o.s1 = 0 && o.s2 = 0 && o.s3 = 0
def hasBar (r : Rec) : Bool := r.xf.getLsbD 9
/-- OPD2 as a barrier operand (R216), or unused. -/
def barBad (r : Rec) : Bool := if hasBar r then !noStrides r.opd2 else !opdZero r.opd2
/-- Trip counts. -/
def trips (r : Rec) : Nat := (r.n0.toNat + 1) * (r.n1.toNat + 1) * (r.n2.toNat + 1) * (r.n3.toNat + 1)
/-- A flag set that the record does not take. -/
def flagsBad (r : Rec) (chain mma cks : Bool) : Bool :=
  (r.chain && !chain) || ((r.tsm || r.acc || r.sat || r.wrap) && !mma) || (r.cks && !cks)
/-- The types with a plane layout (R221). -/
def blockTy (t : TyCode) : Bool := planeTy t
def mmaTy (t : TyCode) : Bool := [tyFp4, tyLs4, tyE4m3, tyE5m2, tyF16, tyBf16, tyF32, tyI4, tyI8].contains t
/-- The type of B (R225). -/
def mmaTyB (r : Rec) : TyCode := if r.mode.getLsbD 0 then (if r.ty = tyE4m3 then tyE5m2 else tyE4m3) else r.ty
def xfHi (r : Rec) : Nat := (r.xf.extractLsb' 5 5).toNat
def xfLo (r : Rec) : Nat := (r.xf.extractLsb' 0 5).toNat
def precBad (t : TyCode) (q : Nat) : Bool := q != 31 && (if tyInt t then q = 0 || decide (tyWidth t < q) else decide (mantBits t < q))
def drainInt (t : TyCode) : Bool := [tyI8, tyI16, tyI32, tyI64, tyN8, tyN16, tyN32, tyN64].contains t
def drainTy (t : TyCode) : Bool := drainInt t || [tyE4m3, tyE5m2, tyF16, tyBf16, tyF32, tyF64].contains t
def hasBand (r : Rec) : Bool := r.xf.getLsbD 2
def recCl (r : Rec) : Nat := (r.xf.extractLsb' 0 2).toNat
def vbase (r : Rec) : Nat := (r.xf.extractLsb' 4 4).toNat

/-- What `epi` and `epiv` share (R228). -/
def drainBad (r : Rec) : Bool :=
  flagsBad r false false true || !drainTy r.ty || decide (5 < r.mode.toNat)
    || (drainInt r.ty && (r.mode != 0 || hasBand r || recCl r = 1 || recCl r = 2))
    || (!hasBand r && (!opdZero r.opd1 || !opdZero r.opd2))

/-- Reason 6: a field breaks R219 or the record's entry. DEDUCED (log 41): a field that an entry gives no use (R40) must be zero, the strides of
`jrec`'s operand 0 among them. -/
def shapeBad (k : RKind) (r : Rec) : Bool :=
  match k with
  | .copy => flagsBad r true false false || r.ty != tyNone || r.xf &&& 0x1FF != 0 || barBad r
  | .fill => flagsBad r true false false || r.ty != tyNone || r.xf &&& 0x1E0 != 0 || !opdZero r.opd1 || barBad r
  | .copypl | .copyrm => flagsBad r true false false || !blockTy r.ty || r.mode != 0 || r.xf &&& 0x1FF != 0 || barBad r
  | .decomp =>
    flagsBad r true false false || !blockTy r.ty || decide (2 < r.mode.toNat) || (r.mode = 2 && r.ty != tyBf16)
      || r.xf &&& 0x1FE != 0 || r.opd0.kreg != 0 || !noStrides r.opd1 || barBad r
  | .mma =>
    r.chain || !mmaTy r.ty || r.mode.getLsbD 2 || (r.mode.getLsbD 0 && r.ty != tyE4m3 && r.ty != tyE5m2)
      || !opdZero r.opd0 || r.opd2.kreg != 0 || (if tyInt r.ty then r.sat = r.wrap else r.sat || r.wrap)
      || (r.acc && !r.tsm) || (r.ty != tyLs4 && (precBad r.ty (xfHi r) || precBad (mmaTyB r) (xfLo r)))
  | .tcfg =>
    flagsBad r false false false || (r.ty != tyF64 && r.ty != tyI64) || r.mode != 0 || r.xf &&& 0x3FC != 0 || !opdZero r.opd0
      || !opdZero r.opd1 || !opdZero r.opd2 || trips r != 1
  | .epi => drainBad r || r.xf &&& 0x3F8 != 0 || trips r != 128
  | .epiv =>
    let e := elems r.ty
    drainBad r || r.xf &&& 0x208 != 0 || r.opd0.kreg != 0 || !noStrides r.opd0
      || r.opd0.base.toNat % e != 0 || decide (16384 < r.opd0.base.toNat + trips r * e) || decide (16 < vbase r + trips r)
  | .jrec =>
    flagsBad r false false false || r.ty != tyNone || r.mode != 0 || r.xf &&& 0x3FE != 0 || r.opd0.kreg != 0 || !noStrides r.opd0
      || !opdZero r.opd1 || !opdZero r.opd2 || r.n1 != 0 || r.n2 != 0 || r.n3 != 0 || (r.xf.getLsbD 0 && r.n0 != 0)
  | .endstr =>
    flagsBad r false false false || r.ty != tyNone || r.mode != 0 || r.xf != 0 || !opdZero r.opd0 || !opdZero r.opd1
      || !opdZero r.opd2 || trips r != 1

/-- A tick slot: partner and count (R37). -/
def tickPartner (b : BitVec 8) : Nat := (b.extractLsb' 5 3).toNat
def tickCount (b : BitVec 8) : Nat := (b.extractLsb' 0 5).toNat
/-- No queue joins the task slots and the matrix engine (R156). -/
def joined (a b : Nat) : Bool := !(a = 1 && b = 3) && !(a = 3 && b = 1)
def tickBad (own : Nat) (b : BitVec 8) : Bool :=
  if tickPartner b = 0 then tickCount b != 0
  else tickCount b = 0 || decide (4 < tickPartner b) || tickPartner b = own || !joined own (tickPartner b)
def semHas (b : BitVec 8) : Bool := b.getLsbD 7
def semId (b : BitVec 8) : Nat := (b.extractLsb' 0 6).toNat
def semByteBad (b : BitVec 8) : Bool := !semHas b && semId b != 0

/-- Reasons 1 to 6 (R232); `rop` fills reason 1 for an unknown record. -/
def recReason (e : Engine) (bits : BitVec 512) : Option Nat :=
  let r := recOf bits
  let own := engCode e
  match recKind bits with
  | none => some 1
  | some k => lowest [(1, !kindEngine e k), (2, r.eng.toNat != engNo e),
      (3, r.res != 0 || r.semp.getLsbD 6 || r.semv.getLsbD 6),
      (4, tickBad own r.pop0 || tickBad own r.pop1 || tickBad own r.push0 || tickBad own r.push1 || semByteBad r.semp || semByteBad r.semv),
      (5, r.sat && r.wrap), (6, shapeBad k r)]

/-- Reason 11: the record after one with CHAIN is no legal chained `mma` (R224). -/
def chainBad (s : State) (im : Image) (idx : Nat) : Bool :=
  if recCount im .copy ≤ idx + 1 then true
  else
    let b := recBits s im .copy (idx + 1)
    let r := recOf b
    recKind b != some .mma || (recReason .matrix b).isSome || r.pop0 != 0 || r.pop1 != 0 || r.semp != 0 || r.chain

/-! ## Issues (R213) -/

/-- The address of an operand at issue `n`, an exact signed sum. -/
def opdAddr (r : Rec) (o : Opd) (n : Nat) : Int :=
  let a0 := r.n0.toNat + 1
  let a1 := r.n1.toNat + 1
  let a2 := r.n2.toNat + 1
  (o.base.toNat : Int) + (n % a0 : Nat) * o.s0.toInt + (n / a0 % a1 : Nat) * o.s1.toInt + (n / (a0 * a1) % a2 : Nat) * o.s2.toInt
    + (n / (a0 * a1 * a2) : Nat) * o.s3.toInt

/-! ## A record's run -/

/-- The record that acts: its core, the stream it belongs to, whether it is a chained record in the array, and its
progress. -/
structure Run where
  core : Nat
  own : Engine
  chained : Bool
  prog : Prog

def runParty (u : Run) : Party := .engine u.core u.own
def runStream (s : State) (u : Run) : Stream := theStream s u.core u.own
def runRec (u : Run) : Rec := recOf u.prog.bits
def runTok (s : State) (u : Run) (o : Opd) : KReg := tget noTok (runStream s u).kshadow o.kreg.toNat
def failed (u : Run) (n : Nat) : Bool := u.prog.fails.contains n

/-- The first record of a list that has not acted, changed. -/
def mapFirst (f : Prog → Prog) : List Prog → List Prog
  | [] => []
  | p :: r => if p.done then p :: mapFirst f r else f p :: r

def mapRun (s : State) (u : Run) (f : Prog → Prog) : State :=
  mapStream s u.core u.own fun x =>
    if u.chained then { x with active := mapFirst f x.active } else { x with prog := mapFirst f x.prog }

/-- The record that an engine's visit runs: for the matrix engine a chained one in the array first. -/
def currentRun (s : State) : Option Run :=
  match s.cur with
  | .engine c e =>
    let k := coreOf s c
    let find (own : Engine) (ch : Bool) (l : List Prog) : Option Run := (l.find? fun p => !p.done).map fun p => ⟨c, own, ch, p⟩
    match e, find .copy true k.copyS.active with
    | .matrix, some u => some u
    | _, _ => find e false (streamOf k e).prog
  | _ => none

def runEvent (s : State) (u : Run) (kind slot : Nat) : State :=
  logEventAt s (runStream s u).ctx kind (unitField (runParty u)) (coreField (runParty u)) slot u.prog.idx
/-- An error item of a record. DEDUCED (log 62): a chained `mma`'s names the unit of the stream whose record it is, 4. -/
def runItem (s : State) (u : Run) (e : ErrItem) : State :=
  logErrorAt s (runStream s u).ctx { e with core := coreField (runParty u), unit := unitField (runParty u) }

/-- The slot of the task with a run number, wherever it goes on. -/
def slotOfRun (s : State) (run : Nat) : Option Party :=
  (s.tasks.find? fun e => decide (e.1 < 2048) && e.2.status != .idle && decide (e.2.run = run)).map fun e => slotOfKey e.1

/-- A failure charged to the task that last issued `estart` on the stream, if it lives (R167). -/
def charge (s : State) (c : Nat) (own : Engine) (detail prod : Nat) : State :=
  let x := theStream s c own
  match slotOfRun s x.run with
  | some p => addChk s p detail prod
  | none => match s.saved.find? fun e => decide (e.1 < 2048) && decide (e.2.run = x.run) with
    | some (k, v) => { s with saved := tput s.saved k { v with
        chk := v.chk ++ [detail], chkProd := if v.chk.isEmpty then BitVec.ofNat 64 prod else v.chkProd } }
    | none => s

/-- An item logged, and its CHK. -/
def failRun (s : State) (u : Run) (e : ErrItem) (detail : Nat) : State :=
  charge (runItem s u e) u.core u.own detail (errProd s (runStream s u).ctx)

def orSticky (s : State) (c : Nat) (own : Engine) (b : BitVec 8) : State :=
  if b = 0 then s else mapStream s c own fun x => { x with sticky := x.sticky ||| b.setWidth 6 }

/-! ## Operand checks at start (R214 stage 1, R216) -/

/-- How an operand is used: a source, a destination, the A operand of `mma` (R225), or a barrier object. -/
inductive Role where
  | src | dst | own | bar
  deriving DecidableEq, Repr

def roles (k : RKind) (r : Rec) : List (Nat × Opd × Role) :=
  let bar := if hasBar r then [(2, r.opd2, Role.bar)] else []
  match k with
  | .copy | .copypl | .copyrm => [(0, r.opd0, .dst), (1, r.opd1, .src)] ++ bar
  | .fill => (0, r.opd0, .dst) :: bar
  | .decomp => (1, r.opd1, .src) :: bar
  | .mma => [(1, r.opd1, .own)]
  | .epi => (0, r.opd0, .dst) :: if hasBand r then [(1, r.opd1, .src), (2, r.opd2, .src)] else []
  | .epiv => if hasBand r then [(1, r.opd1, .src), (2, r.opd2, .src)] else []
  | .tcfg | .jrec | .endstr => []

/-- The token's extent lies in the core's own slice. -/
def inSlice (s : State) (core : Nat) (k : KReg) : Bool :=
  kLen k = 0 || ([0, kLen k - 1].all fun o => let pl := kPlace s k o; pl.space = .hall && pl.addr / 2 ^ 20 = core)

def roleChk (s : State) (core : Nat) (k : KReg) (role : Role) : Chk :=
  let perm := kS k && match role with | .dst => kW k | .bar => kA k | _ => kR k
  let place := match role with | .own => kSpace k = 2 && inSlice s core k | .bar => kSpace k = 2 | _ => true
  let c := checkTok s k perm
  if c.flag != 0 then c else if place then chkOk else ⟨fXB, 2⟩

/-- One operand checked: its slot held in flight, or its failure raised and logged. -/
def checkOpd (u : Run) (a : State × List Nat × List Nat) (o : Nat × Opd × Role) : State × List Nat × List Nat :=
  let s := a.1
  let k := runTok s u o.2.1
  let c := roleChk s u.core k o.2.2
  if c.flag = 0 then (inflt s (kSlot k) true, a.2.1, a.2.2 ++ [kSlot k])
  else (orSticky (runEvent s u c.ev (kSlot k)) u.core u.own c.flag, a.2.1 ++ [o.1], a.2.2)

/-! ## Reads and writes of an issue (R214 stage 2, R144, R402) -/

/-- What an issue gathers: the status bits raised, whether the record's SX event is logged, its peer writes by address, with the slot, whether
the record ends with it, and whether it does not end though its last issue has acted. -/
structure Rn where
  st : State
  bits : BitVec 8
  sx : Bool
  out : Table Byte
  slot : Nat
  ends : Bool
  keep : Bool

def Rn.raise (a : Rn) (b : BitVec 8) : Rn := { a with bits := a.bits ||| b }

/-- Offsets within the extent. -/
def within (k : KReg) (off : Int) (i : Nat) : Bool := decide (0 ≤ off + i) && decide (off + i < kLen k)
def clipped (k : KReg) (off : Int) (n : Nat) : Bool := (List.range n).any fun i => !within k off i

/-- Bytes read, each with its poison. A failed source reads +0. -/
def engRead (u : Run) (a : Rn) (k : KReg) (bad : Bool) (off : Int) (n : Nat) : List (Byte × Bool) × Rn :=
  if bad then (List.replicate n (0, false), a)
  else
    let place (i : Nat) := kPlace a.st k (off + i).toNat
    let s1 := readAtoms a.st (((List.range n).filter (within k off)).map place)
    let byte (i : Nat) : Byte × Bool :=
      if !within k off i then (0, false)
      else
        let pl := place i
        if pl.space = .peer then tget (0, false) u.prog.peer pl.addr
        else (rdByte s1 pl, placePoison s1 pl)
    ((List.range n).map byte, { a with st := s1, bits := a.bits ||| flagIf (clipped k off n) fXB })

/-- The poison mark of a byte carried to its row or atom. -/
def carryPoison (s : State) (pl : Place) : State :=
  match pl.space with
  | .hall => mapCore s (pl.addr / 2 ^ 20) fun c => { c with bad := tset false c.bad (pl.addr % 2 ^ 20 / 8) true }
  | .near => markAtom s false (pl.addr / 32) true
  | .far => markAtom s true (pl.addr / 32) true
  | _ => s

/-- Bytes written, clipped to the extent and outside seals; poison that cannot be carried is reported (R402). -/
def engWrite (u : Run) (a : Rn) (k : KReg) (bad : Bool) (off : Int) (data : List (Byte × Bool)) : Rn :=
  if bad then a
  else
    let s := a.st
    let n := data.length
    let all := ((List.range n).filter (within k off)).map fun (i : Nat) => (kPlace s k (off + i).toNat, data.getD i (0, false), i)
    let hit := all.any fun c => sealedPlace s c.1
    let ok := all.filter fun c => !sealedPlace s c.1
    let lost (c : Place × (Byte × Bool) × Nat) : Bool := c.2.1.2 && (c.1.space = .peer || c.1.space = .host)
    let value (c : Place × (Byte × Bool) × Nat) : Byte := if lost c then 0 else c.2.1.1
    let s1 := if hit && !a.sx then runEvent s u 3 (kSlot k) else s
    let s2 := wrPlaces s1 (runParty u) (kSlot k) (kBase k + off.toNat)
      ((ok.filter fun c => c.1.space != .peer).map fun c => (c.1, value c, 0xFF#8))
    let s3 := ok.foldl (fun s c => if c.2.1.2 then carryPoison s c.1 else s) s2
    let s4 := match ok.find? lost with
      | some c => failRun s3 u { kind := 12, core := 0, unit := 0, record := kSlot k, old := kBase k + (off + c.2.2).toNat } 5
      | none => s3
    { a with
      st := s4
      bits := a.bits ||| flagIf (clipped k off n) fXB ||| flagIf hit fSX
      sx := a.sx || hit
      slot := kSlot k
      out := (ok.filter fun c => c.1.space = .peer).foldl (fun o c => tput o c.1.addr (value c)) a.out }

/-! ## Peer memory (R215, R437) -/

/-- One request of the run for each run of an operand's peer bytes. -/
def askRuns (u : Run) (s : State) (kind slot op : Nat) (told : Bool) (data : Nat × Nat × Nat → List Byte) (l : List Nat) : State × List Nat :=
  askSpans s (runParty u) kind slot [] 0 op (told || u.prog.told.contains op) data (peerSpans ((List.range l.length).zip l))

/-- The peer bytes that a run's sources (token, offset, size) need, with the slot of each. -/
def peerNeeds (s : State) (l : List (KReg × Int × Nat)) : List (Nat × List Nat) :=
  l.map fun e => (kSlot e.1, ((List.range e.2.2).filter (within e.1 e.2.1)).filterMap fun i =>
    let pl := kPlace s e.1 (e.2.1 + i).toNat
    if pl.space = .peer then some pl.addr else none)

/-- The reads of the next issue asked, beside the peer writes of the issues before it that are still to be acknowledged (R215). -/
def askPeers (u : Run) (s : State) (l : List (KReg × Int × Nat)) : State :=
  let x := ((List.range l.length).zip (peerNeeds s l)).foldl (fun (a : State × List Nat) e =>
    let y := askRuns u a.1 1 e.2.1 e.1 false readData e.2.2
    (y.1, a.2 ++ y.2)) (s, [])
  mapRun x.1 u fun p => { p with asked := true, waits := p.waits ++ x.2 }

/-- The end of an issue (R212, R213): its status bits, its peer writes, and the record's place: the next issue, or that all have acted. -/
def endIssue (u : Run) (last : Bool) (a : Rn) : State :=
  let y := askRuns u a.st 3 a.slot 15 a.sx (fun r => (List.range r.2.2).map fun i => tget 0 a.out (r.2.1 + i)) (a.out.map (·.1))
  orSticky (mapRun y.1 u fun p =>
    { p with issue := p.issue + 1, asked := false, waits := y.2, peer := [], sx := a.sx, done := (last || a.ends) && !a.keep })
    u.core u.own a.bits

/-- Peer writes of an earlier record of the stream are still to be acknowledged: they come before what this record reads (R213). -/
def behindWrites (s : State) (u : Run) : Bool :=
  ((if u.chained then (runStream s u).active else (runStream s u).prog).takeWhile (·.done)).any fun p => !p.waits.isEmpty

/-- A record's next issue (R213; log 23): its peer reads are asked, and once they have come it acts. `count` is how many issues the record has,
`srcs` the sources of an issue that may lie in peer memory. -/
def runRecord (i : Instr) (count : Rec → Nat) (srcs : State → Run → List (KReg × Int × Nat)) (act : Run → Rn → Rn) (s : State) : State :=
  match currentRun s with
  | none => s
  | some u =>
    let same := match decodeRecord u.prog.bits with | .ok j => decide (j = i) | .bad _ => false
    if !same || behindWrites s u then s
    else
      let s1 := if u.prog.asked then s else askPeers u s (srcs s u)
      match currentRun s1 with
      | some v =>
        if v.prog.waits.isEmpty then
          endIssue v (decide (count (runRec v) ≤ v.prog.issue + 1)) (act v ⟨s1, 0, v.prog.sx, [], 0, false, false⟩)
        else s1
      | none => s1

end Sys2Proof.Machine
end

