-- ==== Sys2Proof/Machine/EngineCtl.lean ====
section
/-! DEFINITION. Starting and finishing records (spec 05, R149-R158, R162, R169, R170; spec 07, R210-R218, R224), and `estart`
and `ewait`. -/

namespace Sys2Proof.Machine

/-! ## estart (R210, R217) -/

def engOf : Nat → Engine
  | 1 => .copy | 2 => .matrix | _ => .epilogue

def engBad (f : FmtA) (s : State) (p : Party) : Bool := let a := (rdScal s p f.a).toNat; a = 0 || decide (3 < a)
def engArg (f : FmtA) (s : State) (p : Party) : Engine := engOf (rdScal s p f.a).toNat

def planEstart (f : FmtA) (s : State) (p : Party) : Plan :=
  let e := engArg f s p
  { tk := f.tk, reads := readsA f
    ill := (5, engBad f s p || (!isPorter p && decide (recCount (imageOf s p) e ≤ (rdScal s p f.b).toNat))) :: illEstart f
    ready := !streamBusy (theStream s (coreNo p) e) }

/-- The scalar registers that an asynchronous load is still to write. -/
def pendingX (t : Task) : List Nat := (List.range 32).filter fun n => pendingDest t (.x n)
/-- The scalar registers as an `estart` captures them: a pending one reads as a free value (R58, R7). -/
def captureX (s : State) (t : Task) : Table Word :=
  (pendingX t).foldl (fun x n => tset 0 x n (pendBits 64 s (BitVec.ofNat 7 (0x10 + n)))) t.x

/-- The stream as an `estart` leaves it: what it captures (R210; a swept slot's tokens without their tags, R334), and what it clears. What the
array holds for a chained record is the array's and stays. -/
def started (s : State) (t : Task) (slot b : Nat) : Stream :=
  { Stream.fresh with
    state := .running
    ridx := b
    kshadow := (t.k.filter fun e => e.1 < 16).map fun e => (e.1, kClean s e.2)
    xshadow := captureX s t
    lfsr := BitVec.ofNat 32 (seedOf t)
    slot := slot
    run := t.run
    ctx := t.ctx
    launch := t.launch
    reported := false }

/-- A halt that no `ewait` has reported is logged (R217). -/
def unreported (s : State) (c : Nat) (e : Engine) : State :=
  let x := theStream s c e
  if (x.state = .engill || x.state = .semovf) && !x.reported then
    logErrorAt s x.ctx { kind := 14, core := coreField (.engine c e), unit := unitField (.engine c e), record := x.ridx,
                         old := (statusWord x).toNat }
  else s

def estartAct (f : FmtA) (sg : List Nat) (s : State) : Act :=
  let p := s.cur
  let e := engArg f s p
  let s1 := mapStream (unreported s (coreNo p) e) (coreNo p) e fun x =>
    let y := started s (taskOf s p) (slotNo p) (rdScal s p f.b).toNat
    if e = .matrix then { y with held := x.held, leaveAsked := x.leaveAsked, leaveGot := x.leaveGot } else y
  let s1 := if (pendingX (taskOf s p)).isEmpty then s1 else { s1 with freeNo := s1.freeNo + 1 }
  doneNow sg (mapTask s1 p fun t => { t with started := if t.started.contains e then t.started else t.started ++ [e] })
def execEstart (f : FmtA) (s : State) : Host.Outcome State Fault Refusal := runWord (.estart f) (planEstart f) (estartAct f) s

/-! ## ewait (R218) -/

/-- What is judged of an `ewait`. One that is to raise ILL for its stream's halt waits for no tick (R30); one that a trap of another cause
overtakes (CHK, EXP) does. -/
def planEwait (f : FmtA) (s : State) (p : Party) : Plan :=
  let e := engArg f s p
  let sel := (rdScal s p f.b).toNat
  let x := theStream s (coreNo p) e
  let pl : Plan := { tk := f.tk, reads := readsA f, nres := 1, lands := some (false, 1, 1), sync := true
                     ill := (5, engBad f s p || decide (1 < sel) || (sel = 1 && e = .copy)) :: illEwait f
                     ready := !streamBusy x }
  if x.state = .engill && (issueTrap s p pl).isNone then { pl with tk := { f.tk with wc := false, we := false } } else pl

/-- The trap that a halted stream raises (R157, R218, R370). -/
def streamTrap (x : Stream) (e : Engine) : Option TrapInfo :=
  match x.state with
  | .engill => some { mkTrap cILL 8 with
      aux0 := BitVec.ofNat 64 x.ridx, aux1 := BitVec.ofNat 64 x.ereason, aux2 := BitVec.ofNat 64 (engNo e) }
  | .semovf => some (semovf x.sid ⟨BitVec.ofNat 8 x.sceil, BitVec.ofNat 8 x.sval⟩ 0 x.ridx)
  | _ => none

/-- The flags that an `ewait` of the stream status raises: ST, XB and SX. -/
def stickyFlags (x : Stream) : BitVec 8 := x.sticky.setWidth 8 &&& 0x07

def ewaitAct (f : FmtA) (sg : List Nat) (s : State) : Act :=
  let p := s.cur
  let c := coreNo p
  let e := engArg f s p
  let x := theStream s c e
  match streamTrap x e with
  | some i => .changed (fun s => mapStream s c e fun x => { x with state := .ended, reported := true }) i
  | none =>
    let seen (k : Core) : Core := if e = .epilogue then drainSeen (slotNo p) k else k
    if (rdScal s p f.b).toNat = 1 then
      .done (putScal 1 f.d f.s (ringStatus (coreOf s c), 0) sg (mapCore s c fun k => seen { k with ring := 0, failt := 0 }))
    else .done (putScal 1 f.d f.s (statusWord x, stickyFlags x) sg (mapCore (mapStream s c e fun x => { x with sticky := 0 }) c seen))
def execEwait (f : FmtA) (s : State) : Host.Outcome State Fault Refusal := runWord (.ewait f) (planEwait f) (ewaitAct f) s

/-! ## What a record takes when it starts (R155, R157) -/

/-- Ticks that the pop slots ask of a partner. -/
def popsFrom (r : Rec) (q : Nat) : Nat :=
  (if tickPartner r.pop0 = q then tickCount r.pop0 else 0) + (if tickPartner r.pop1 = q then tickCount r.pop1 else 0)
def popsOk (c : Core) (own : Nat) (r : Rec) : Bool :=
  [1, 2, 3, 4].all fun q => decide (popsFrom r q ≤ ticksOf c q own)
def takePops (c : Core) (own : Nat) (r : Rec) : Core :=
  [1, 2, 3, 4].foldl (fun c q => setTicks c q own (ticksOf c q own - popsFrom r q)) c

def coreSem (c : Core) (n : Nat) : Sem := tget zeroSem c.sems n
def putSem (c : Core) (n : Nat) (m : Sem) : Core := { c with sems := tput c.sems n m }
def semOk (c : Core) (b : BitVec 8) : Bool := !semHas b || (coreSem c (semId b)).value != 0
def takeSem (c : Core) (b : BitVec 8) : Core :=
  if semHas b then let m := coreSem c (semId b); drainUnit none (semId b) (putSem c (semId b) { m with value := m.value - 1 }) else c

/-! ## Resources (R149, R151, R152, R225-R228) -/

/-- Whether a record could start: it waits, halts its stream for a reason, or goes. -/
inductive Ready where
  | wait
  | halt (reason : Nat)
  | go
  deriving DecidableEq, Repr

def bufOf (k : RKind) (r : Rec) : Option Nat :=
  match k with
  | .mma => some (r.mode.getLsbD 1).toNat
  | .decomp => some (r.xf.getLsbD 0).toNat
  | _ => none

/-- A record of a kind that has not acted and uses a weight buffer. -/
def usesBuf (l : List Prog) (k : RKind) (b : Option Nat) : Bool :=
  l.any fun p => !p.done && recKind p.bits = some k && bufOf k (recOf p.bits) = b

/-- The scalar-shadow base exponents of an ls4 record (R85, R226). -/
def baseA (x : Stream) (r : Rec) : Word := tget 0 x.xshadow (xfHi r)
def baseB (x : Stream) (r : Rec) : Word := tget 0 x.xshadow (xfLo r)
def baseBad (w : Word) : Bool := decide (w.toInt < -64) || decide (63 < w.toInt)

/-- The tile that an `mma` will fill (R152). -/
def mmaHead (c : Core) (r : Rec) : Nat := if r.tsm && filling c then (c.head + 1) % 4 else c.head

/-- The target of a `jrec`, and where it goes (R230). -/
def jrecTarget (idx : Nat) (r : Rec) : Int := (idx : Int) + r.opd0.base.toInt
def jrecNext (x : Stream) (idx : Nat) (r : Rec) : Int :=
  let back := jrecTarget idx r
  if r.xf.getLsbD 0 then back
  else if tget 0 x.passes idx + 1 < r.n0.toNat + 1 then back
  else (idx : Int) + 1

/-- The target lies outside the section, whether or not this pass goes there. -/
def jrecBad (idx count : Nat) (r : Rec) : Bool :=
  decide (jrecTarget idx r < 0) || decide ((count : Int) ≤ jrecTarget idx r)

def resources (c : Core) (x : Stream) (count idx : Nat) (k : RKind) (r : Rec) : Ready :=
  match k with
  | .mma =>
    let t := tileOf c (mmaHead c r)
    if usesBuf c.copyS.prog .decomp (bufOf .mma r) || (r.tsm && t.state != .free) then .wait
    else match lowest [(7, r.ty = tyLs4 && (baseBad (baseA x r) || baseBad (baseB x r))), (8, t.int != tyInt r.ty),
        (9, !r.tsm && t.state != .filling)] with
      | some n => .halt n
      | none => .go
  | .tcfg => if (tileOf c (xfLo r % 4)).state = .draining then .wait else .go
  | .epi | .epiv =>
    let t := tileOf c c.tail
    if t.state = .free || t.state = .filling then .wait else if t.int != drainInt r.ty then .halt 8 else .go
  | .decomp =>
    if usesBuf (c.matrixS.prog ++ c.copyS.active) .mma (bufOf .decomp r) then .wait else .go
  | .jrec => if jrecBad idx count r then .halt 10 else .go
  | _ => .go

/-! ## Power leave (R169, R170) -/

def leaveCharge : RKind → Option Nat
  | .mma => some 2600
  | .decomp => some 600
  | _ => none

/-- A stream's request queued once, first-in first-out. -/
def askStream (s : State) (c : Nat) (e : Engine) (charge : Nat) : State :=
  if (theStream s c e).leaveAsked || (theStream s c e).leaveGot then s
  else mapStream { s with leaveQ := s.leaveQ ++ [(clusterOf c, .engine c e, charge, s.clock)] } c e fun x => { x with leaveAsked := true }

/-! ## Starting (R155, R214, R232) -/

def haltStream (s : State) (c : Nat) (e : Engine) (idx reason : Nat) : State :=
  mapStream s c e fun x =>
    if x.state = .running || x.state = .ended then { x with state := .engill, ridx := idx, ereason := reason, reported := false } else x

/-- What an `mma` does to the ring as it starts (R152, R162). -/
def openMma (c : Core) (w : WinRec) : Core :=
  let r := recOf w.bits
  if r.tsm then
    let c1 := fillEnd c
    let t0 := tileOf c1 c1.head
    let t1 : Tile := { if r.acc then t0 else zeroTile t0.int .filling with state := .filling, checked := r.cks }
    { mapTile c1 c1.head fun _ => t1 with
      failt := c1.failt &&& ~~~(1#4 <<< c1.head), window := [w], windowOver := false, opened := t0, refilled := [], replays := 0
      ate := [] }
  else
    { mapTile c c.head fun t => { t with checked := t.checked && r.cks } with
      window := if c.window.length < 64 then c.window ++ [w] else c.window, windowOver := c.windowOver || decide (64 ≤ c.window.length) }

/-- The tiles as a record starts. -/
def startRing (c : Core) (k : RKind) (w : WinRec) : Core :=
  match k with
  | .mma => openMma c w
  | .tcfg =>
    if filling c && xfLo (recOf w.bits) % 4 = c.head then
      { c with window := if c.window.length < 64 then c.window ++ [w] else c.window
               windowOver := c.windowOver || decide (64 ≤ c.window.length) }
    else c
  | .epi | .epiv => mapTile c c.tail fun t => { t with state := .draining }
  | _ => c

/-- The records that hold their stream's next index until they have acted (R230, R231). -/
def pausing (p : Prog) : Bool :=
  match recKind p.bits with
  | some .jrec => !p.done
  | some .endstr => true
  | _ => false

/-- An `epiv` is about to fill its registers (R229); what a task that is gone waited for is dropped. -/
def startDrain (s : State) (c : Nat) (x : Stream) (r : Rec) : State :=
  mapCore s c fun m =>
    let live := m.drains.filter fun d => (taskOf s (.slot c d.slot)).run = d.run && (taskOf s (.slot c d.slot)).status != .idle
    { m with drains := live ++ [⟨x.slot, x.run, vbase r, trips r, true, 0, 0, []⟩] }

/-- A record begins: operands checked, its progress entered. -/
def enterRecord (s : State) (c : Nat) (own : Engine) (chained : Bool) (order idx : Nat) (bits : BitVec 512) (k : RKind) : State :=
  let r := recOf bits
  let x := theStream s c own
  let u : Run := ⟨c, own, chained, Prog.fresh idx bits⟩
  let a := (roles k r).foldl (checkOpd u) (s, [], [])
  let p : Prog := { Prog.fresh idx bits with order := order, fails := a.2.1, slots := a.2.2 }
  let w : WinRec := ⟨own, idx, bits, tget noTok x.kshadow r.opd1.kreg.toNat, a.2.1.contains 1, baseA x r, baseB x r⟩
  let s1 := mapCore a.1 c fun m => startRing m k w
  let s1 := if k = .epiv then startDrain s1 c x r else s1
  mapStream s1 c own fun x => if chained then { x with active := x.active ++ [p] } else { x with prog := x.prog ++ [p] }

/-- A synchronisation record (R376); a `jrec` by its target, wherever this pass of it goes. -/
def syncRecord (e : Engine) (idx : Nat) (k : RKind) (r : Rec) : Bool :=
  e = .copy || r.pop0 != 0 || r.pop1 != 0 || semHas r.semp || (k = .jrec && decide (jrecTarget idx r ≤ idx))

/-- The stream has room for another record (R155, R156). -/
def hasRoom (c : Core) (e : Engine) : Bool :=
  let x := streamOf c e
  x.held.isNone && !(x.prog.any pausing) && match e with
    | .copy => decide (x.prog.length < 4)
    | .matrix => x.prog.isEmpty && c.copyS.active.isEmpty
    | .epilogue => x.prog.isEmpty

/-- An illegal record halts the stream once the records before it have finished. -/
def haltInTurn (s : State) (c : Nat) (e : Engine) (idx reason : Nat) : State :=
  if (theStream s c e).prog.isEmpty then haltStream s c e idx reason else s

/-- What becomes of a stream's next record: none where it has to wait. -/
def tryNext (s : State) (c : Nat) (e : Engine) : Option State :=
  let m := coreOf s c
  let x := streamOf m e
  let im := streamImage s x
  let n := recCount im e
  let bits := recBits s im e x.ridx
  let r := recOf bits
  if n ≤ x.ridx then some (haltInTurn s c e x.ridx 10)
  else match lowest [((recReason e bits).getD 0, (recReason e bits).isSome), (11, r.chain && chainBad s im x.ridx)], recKind bits with
    | some q, _ => some (haltInTurn s c e x.ridx q)
    | none, none => none
    | none, some k =>
      if (x.cut && syncRecord e x.ridx k r) || !popsOk m (engCode e) r || !semOk m r.semp then none
      else match resources m x n x.ridx k r with
        | .wait => none
        | .halt q => some (haltInTurn s c e x.ridx q)
        | .go =>
          match leaveCharge k, x.leaveGot with
          | some w, false => if x.cut then none else some (askStream s c e w)
          | _, _ =>
            let s1 := mapCore s c fun m => takeSem (takePops m (engCode e) r) r.semp
            let s2 := enterRecord s1 c e false (x.starts + 1) x.ridx bits k
            some (mapStream s2 c e fun y =>
              { y with ridx := if k = .jrec || k = .endstr then y.ridx else y.ridx + (if r.chain then 2 else 1)
                       starts := y.starts + 1
                       leaveGot := if (leaveCharge k).isSome then false else y.leaveGot })

/-- The next record of a stream starts, or halts the stream, or asks leave, or waits; at a switch one that has to wait halts it (R376). -/
def startNext (s : State) (c : Nat) (e : Engine) : State :=
  let m := coreOf s c
  let x := streamOf m e
  if x.state != .running || !hasRoom m e || m.stopped || x.cutHalt then s
  else match tryNext s c e with
    | some t => t
    | none => if x.cut then mapStream s c e fun x => { x with cutHalt := true } else s

/-- A switch cuts a stream: one that waits already has come to its halting point (R376). -/
def cutStream (s : State) (c : Nat) (e : Engine) : State :=
  let x := theStream s c e
  if x.cut then s
  else
    let s1 := mapStream s c e fun x => { x with cut := true }
    if x.state = .running && hasRoom (coreOf s1 c) e && (tryNext s1 c e).isNone then mapStream s1 c e fun x => { x with cutHalt := true } else s1
def cutStreams (s : State) (core : Nat) (l : List Engine) : State := l.foldl (fun s e => cutStream s core e) s

/-- The oldest chained record starts when the array, its leave and its tile allow (R150, R224). -/
def startChained (s : State) (c : Nat) : State :=
  let m := coreOf s c
  match m.copyS.chained with
  | [] => s
  | p :: rest =>
    if m.stopped || m.copyS.cut || !hasRoom m .matrix then s
    else match resources m m.copyS 0 p.idx .mma (recOf p.bits) with
      | .wait => s
      | .halt q => haltStream (mapStream s c .copy fun x => { x with chained := rest }) c .copy p.idx q
      | .go =>
        if m.matrixS.leaveGot then
          let s1 := mapStream s c .copy fun x => { x with chained := rest }
          mapStream (enterRecord s1 c .copy true p.order p.idx p.bits .mma) c .matrix fun x => { x with leaveGot := false }
        else askStream s c .matrix 2600

/-! Of two Ps that wait for one unit, and of two Vs, the copy engine's comes first, then the matrix engine's, the epilogue's and the slots' (R158):
a party takes a unit, or adds one, only after every earlier one that can. -/

/-- The engines before one in that order. -/
def earlier : Engine → List Engine
  | .copy => [] | .matrix => [.copy] | .epilogue => [.copy, .matrix]
/-- The semaphore that a running stream's next record takes a unit of. -/
def nextP (s : State) (c : Nat) (e : Engine) : Option Nat :=
  let x := theStream s c e
  let r := recOf (recBits s (streamImage s x) e x.ridx)
  if x.state = .running && semHas r.semp then some (semId r.semp) else none
/-- The engines' Ps on semaphore `n`, of those engines, that can be granted. -/
def unitsFirst (l : List Engine) (n c : Nat) (s : State) : State :=
  l.foldl (fun s e => if nextP s c e = some n then startNext s c e else s) s

/-- RECORD_START: on the matrix engine a chained record that is ready goes first (R150). -/
def execRecordStart (core : Nat) (e : Engine) (s : State) : Host.Outcome State Fault Refusal :=
  let s1 := if e = .matrix then startChained s core else s
  let s2 := match nextP s1 core e with | some n => unitsFirst (earlier e) n core s1 | none => s1
  .next (startNext s2 core e)

/-- CHAINED_MMA_HANDOFF: the chaining record has written its last byte (R224). -/
def execChainedMmaHandoff (core : Nat) (s : State) : Host.Outcome State Fault Refusal :=
  let x := theStream s core .copy
  .next (match indexWhere (fun p : Prog => (recOf p.bits).chain && p.done && p.waits.isEmpty && !p.handed) x.prog with
    | none => s
    | some i =>
      let p := (x.prog[i]?).getD default
      let q : Prog := { Prog.fresh (p.idx + 1) (recBits s (streamImage s x) .copy (p.idx + 1)) with order := p.order }
      mapStream s core .copy fun x =>
        { x with prog := updAt (fun p => { p with handed := true }) x.prog i, chained := x.chained ++ [q] })

/-! ## Finishing (R155-R158, R215, R216) -/

/-- The pushes of a record: partner and count, slot 0 first. -/
def pushesOf (r : Rec) : List (Nat × Nat) :=
  [(tickPartner r.push0, tickCount r.push0), (tickPartner r.push1, tickCount r.push1)].filter fun e => e.1 != 0

/-- Pushes made in order while each fits whole; what is left. -/
def makePushes (c : Core) (own : Nat) : List (Nat × Nat) → Core × List (Nat × Nat)
  | [] => (c, [])
  | (q, n) :: r =>
    if ticksOf c own q + n ≤ 32 then makePushes (setTicks c own q (ticksOf c own q + n)) own r else (c, (q, n) :: r)

/-- A record's V (R157): at the ceiling the stream halts after the record; DONEAFTER counts the records started after it, which finish. -/
def recordV (s : State) (c : Nat) (own : Engine) (idx order : Nat) (b : BitVec 8) : State :=
  if !semHas b then s
  else
    let m := coreSem (coreOf s c) (semId b)
    if semFull m then
      mapStream s c own fun x =>
        if x.state = .engill || x.state = .semovf then x
        else { x with state := .semovf, ridx := idx, sid := semId b, sval := m.value.toNat, sceil := m.ceil.toNat
                      doneAfter := if own = .copy then x.starts - order else 0, reported := false }
    else mapCore s c fun k => putSem k (semId b) { m with value := m.value + 1 }

/-- Destination bytes that a record's issues address (R216). -/
def destBytes (k : RKind) (r : Rec) : Nat :=
  trips r * match k with
    | .copy | .fill => 4 * 2 ^ r.mode.toNat
    | _ => if r.ty = tyLs4 then 168 else 16 * tyWidth r.ty

/-- The barrier add after the completions (R216); one whose place fails raises XB. -/
def recordBar (s : State) (u : Run) : State :=
  let r := runRec u
  match recKind u.prog.bits with
  | some k =>
    if !([RKind.copy, .fill, .copypl, .copyrm, .decomp].contains k) || !hasBar r || failed u 2 then s
    else
      let t := runTok s u r.opd2
      let off : Int := r.opd2.base.toNat
      let c := if off % 16 != 0 then (⟨fXB, 0⟩ : Chk) else checkExt s t off 16 true
      if c.flag != 0 then orSticky (if c.ev = 0 then s else runEvent s u c.ev (kSlot t)) u.core u.own c.flag
      else match objPoison s (kSlot t) (kBase t + off.toNat) 16 with
        | some pl => failRun s u { kind := 4, core := 0, unit := 0, record := u.prog.idx, old := pl.addr / 8 * 8 } 2
        | none => barrierAdd s (runParty u) (kSlot t) (kBase t + off.toNat) (destBytes k r) false
  | none => s

/-- The record leaves its engine. -/
def dropRun (s : State) (u : Run) : State :=
  let s1 := mapStream s u.core u.own fun x => if u.chained then { x with active := x.active.drop 1 } else { x with prog := x.prog.drop 1 }
  let s2 := u.prog.slots.foldl (fun s n => inflt s n false) s1
  let e := if u.chained then Engine.matrix else u.own
  match (recKind u.prog.bits).bind leaveCharge with
  | some _ => leaveOne s2 (.engine u.core e)
  | none => s2

/-- The completions of a record whose writes are performed: pushes, then V, then the barrier add. A push that does
not fit is held, and with it the rest (R156). -/
def finishRun (s : State) (u : Run) : State :=
  let e := if u.chained then Engine.matrix else u.own
  let r := runRec u
  let todo := match (theStream s u.core e).held with | some l => l | none => pushesOf r
  let s1 := if e = .matrix && todo.any fun q => q.1 = 4 then mapCore s u.core fillEnd else s
  let y := makePushes (coreOf s1 u.core) (engCode e) todo
  let s2 := putCore s1 u.core y.1
  if !y.2.isEmpty then mapStream s2 u.core e fun x => { x with held := some y.2 }
  else
    let s3 := dropRun (mapStream s2 u.core e fun x => { x with held := none }) u
    recordBar (recordV s3 u.core u.own u.prog.idx u.prog.order r.semv) u

/-- The record of an engine that may finish: its writes performed, its chained record handed over. Under a debug stop those whose completions
are held already come before it (R382). -/
def finishing (s : State) (c : Nat) (e : Engine) : Option Run :=
  let k := coreOf s c
  let head (own : Engine) (ch : Bool) (l : List Prog) : Option Run :=
    match (if k.stopped then l.dropWhile (·.finished) else l) with
    | p :: _ => if p.done && p.waits.isEmpty && (ch || !(recOf p.bits).chain || p.handed) then some ⟨c, own, ch, p⟩ else none
    | [] => none
  match e, head .copy true k.copyS.active with
  | .matrix, some u => some u
  | _, _ => head e false (streamOf k e).prog

/-- The completions held by a debug stop, in their order (R382). -/
def holdFinish (s : State) (c : Nat) (e : Engine) (u : Run) : State :=
  let mark (l : List Prog) : List Prog := l.map fun p => if p.order = u.prog.order && p.idx = u.prog.idx then { p with finished := true } else p
  let s1 := mapStream s u.core u.own fun x => if u.chained then { x with active := mark x.active } else { x with prog := mark x.prog }
  match (runStream s u).launch with
  | some (d, l) => mapLaunch s1 d l fun n => { n with heldDone := n.heldDone ++ [(c, e)] }
  | none => s1

/-- The engines' Vs on semaphore `n`, of those engines, whose records finish now (R158). -/
def vsFirst (l : List Engine) (n c : Nat) (s : State) : State :=
  l.foldl (fun s e => match finishing s c e with
    | some u => if semHas (runRec u).semv && semId (runRec u).semv = n && !(coreOf s c).stopped then finishRun s u else s
    | none => s) s

/-- RECORD_FINISH. -/
def execRecordFinish (core : Nat) (e : Engine) (s : State) : Host.Outcome State Fault Refusal :=
  .next (match finishing s core e with
    | some u =>
      if (coreOf s core).stopped then holdFinish s core e u
      else finishRun (if semHas (runRec u).semv then vsFirst (earlier e) (semId (runRec u).semv) core s else s) u
    | none => s)

/-! ## semp, semv (R157, R158, R363) -/

/-- What a slot's P, or its V, comes after. -/
def engines : List Engine := [.copy, .matrix, .epilogue]
def psBefore (n : Nat) (s : State) : State := if isPorter s.cur then s else unitsFirst engines n (coreNo s.cur) s
def vsBefore (n : Nat) (s : State) : State := if isPorter s.cur then s else vsFirst engines n (coreNo s.cur) s

/-- A P that proceeds takes its unit; else the issued word waits. -/
def sempAct (f : FmtA) (sg : List Nat) (s0 : State) : Act :=
  let n := (opA f s0).toNat
  let s := psBefore n s0
  if (semOf s s.cur n).value != 0 then doneNow sg (semTake s s.cur n) else .hold fun t => { t with wait := .sem n }
/-- The unit a waiting P takes when it can. -/
def sempLater (n : Nat) (sg : List Nat) (s : State) : Act := doneNow sg (semTake s s.cur n)
def execSemp (f : FmtA) (s : State) : Host.Outcome State Fault Refusal :=
  match (taskOf s s.cur).wait with
  | .sem n =>
    let s1 := psBefore n s
    .next (if (semOf s1 s.cur n).value != 0 then finishWord s1 s.cur ((encodeWord (.semp f)).getD 0) f.tk (sempLater n) else s)
  | _ => runWord (.semp f) (planSem true f) (sempAct f) s

def semvAct (f : FmtA) (sg : List Nat) (s0 : State) : Act :=
  let n := (opA f s0).toNat
  let s := vsBefore n s0
  if semFull (semOf s s.cur n) then .trap (semovf n (semOf s s.cur n) 1 0) else doneNow sg (semAdd s s.cur n)
def execSemv (f : FmtA) (s : State) : Host.Outcome State Fault Refusal := runWord (.semv f) (planSem false f) (semvAct f) s

/-- A stream has come to its halting point (R376): no record of it acts, none may finish that is not held, and none starts. -/
def streamQuiet (s : State) (core : Nat) (e : Engine) : Bool :=
  let m := coreOf s core
  let x := streamOf m e
  let still (p : Prog) : Bool := p.done && p.waits.isEmpty && (!(recOf p.bits).chain || p.handed)
  let stuck := match finishing s core e with
    | none => true
    | some u => match x.held with
      | some l => (makePushes m (engCode (if u.chained then .matrix else u.own)) l).2 = l
      | none => false
  x.prog.all still && x.active.all (fun p => p.done && p.waits.isEmpty) && stuck
    && (x.state != .running || x.cutHalt || !hasRoom m e || m.stopped)

/-! ## The cluster power governor (R170, R423, R424) -/

/-- A cluster's budget in milliwatts; the word counts tenths of a watt and resets to 480 (R423). -/
def budgetOf (s : State) (cluster : Nat) : Nat := 100 * tget 480 s.budgets cluster
def leaveUsed (s : State) (cluster : Nat) : Nat :=
  ((s.leaveHeld.filter fun h => decide (h.cluster = cluster) && !h.spent).map (·.charge)).sum

def leaveWanted (s : State) (p : Party) : Bool :=
  match p with
  | .engine c e => (theStream s c e).leaveAsked
  | _ => (taskOf s p).leaveAsked
def leaveGive (s : State) (p : Party) : State :=
  match p with
  | .engine c e => mapStream s c e fun x => { x with leaveAsked := false, leaveGot := true }
  | _ => mapTask s p fun t => { t with leaveAsked := false, leaveGot := true }

/-- The first request of a cluster, and the queue without it. -/
def firstAsk (q : List (Nat × Party × Nat × Nat)) (cluster : Nat) : Option ((Party × Nat × Nat) × List (Nat × Party × Nat × Nat)) :=
  match indexWhere (fun e : Nat × Party × Nat × Nat => decide (e.1 = cluster)) q with
  | some i => (q[i]?).map fun e => (e.2, dropAt q i)
  | none => none

/-- LEAVE_GRANT: the oldest request, when it fits, whose wait is counted (R171); one whose party wants it no more is dropped. -/
def execLeaveGrant (cluster : Nat) (s : State) : Host.Outcome State Fault Refusal :=
  .next (match firstAsk s.leaveQ cluster with
    | none => s
    | some ((p, w, asked), rest) =>
      if !leaveWanted s p then { s with leaveQ := rest }
      else if leaveUsed s cluster + w ≤ budgetOf s cluster then
        leaveGive { leaveWaited s p asked with leaveQ := rest, leaveHeld := s.leaveHeld ++ [⟨cluster, p, w, false⟩] } p
      else s)

/-- LEAVE_END: a grant whose work is over is credited back. -/
def execLeaveEnd (cluster i : Nat) (s : State) : Host.Outcome State Fault Refusal :=
  .next (match s.leaveHeld[i]? with
    | some h => if h.cluster = cluster && h.spent then { s with leaveHeld := dropAt s.leaveHeld i } else s
    | none => s)

end Sys2Proof.Machine
end

