-- ==== Sys2Proof/Machine/Cont.lean ====
section
/-! DEFINITION. Continuation records (spec 11, R268; spec 04, R127, R128; spec 01, R44) and `suspend`. -/

namespace Sys2Proof.Machine

/-! ## Live sets (R44) -/

/-- The live set of a checkpoint word. -/
def ckptOf (s : State) (p : Party) (pc : Nat) : Option (List Nat) :=
  if isPorter p then none else ((imageOf s p).ckpt.find? fun e => decide (e.1 = pc)).map (·.2)

/-- The value of a register by its specifier; one that an operation is still to write is as unpredictable here as for any read (R58). -/
def regVal (s : State) (p : Party) (n : Nat) : Val :=
  let sp := BitVec.ofNat 7 n
  match clsOf sp with
  | .v => .vec (rdVec s p sp)
  | .k => .tok (kClean s (rdTok s p sp))
  | .m => .mask (rdMask s p sp)
  | .q => .series (rdSer s p sp)
  | .o => .order (rdOrd s p sp)
  | _ => .word (rdScal s p sp)

def liveVals (s : State) (p : Party) (regs : List Nat) : List (Nat × Val) := regs.map fun n => (n, regVal s p n)
/-- The free values that a saved live set held are spent (log 4). -/
def spendLive (s : State) (p : Party) (regs : List Nat) : State :=
  if regs.any fun n => unsureReg s p (destOf (BitVec.ofNat 7 n)) then { s with freeNo := s.freeNo + 1 } else s

/-! ## The 64-byte units of a record (R268) -/

/-- A value's bytes, its format tag and its token tag. -/
def valBytes : Val → List Byte × Nat × Bool
  | .word w => (leBytes 8 w.toNat, 31, false)
  | .vec r => (leBytes 512 r.data.toNat, r.tag.toNat, false)
  | .tok k => (leBytes 16 k.bits.toNat, 31, k.tag)
  | .mask m => (leBytes 128 m.toNat, 31, false)
  | .series q => (leBytes 544 q.toNat, 31, false)
  | .order o => (leBytes 8 o.toNat, 31, false)

def pad16 (l : List Byte) : List Byte := l ++ List.replicate ((16 - l.length % 16) % 16) 0

/-- A live register: its 16-byte header, its bytes padded to 16. -/
def regBytes (e : Nat × Val) : List Byte :=
  let v := valBytes e.2
  leBytes 1 e.1 ++ leBytes 1 v.2.1 ++ leBytes 1 v.2.2.toNat ++ List.replicate 13 0 ++ pad16 v.1

/-- Four coordinates of 32 bits (R257). -/
def pointBytes (pt : List Nat) : List Byte := (List.range 4).flatMap fun i => leBytes 4 (pt.getD i 0 % 2 ^ 20)
def insBytes (ins : List Nat) : List Byte := (List.range 8).flatMap fun i => leBytes 4 (ins.getD i 0)

def contBytes (c : Cont) : List Byte :=
  leBytes 8 (8 * c.pc) ++ leBytes 8 c.fmode.toNat ++ pointBytes c.point ++ leBytes 8 c.bar ++ leBytes 1 c.phase.toNat
    ++ leBytes 1 c.stage ++ leBytes 1 c.live.length ++ List.replicate 5 0 ++ insBytes c.ins ++ c.live.flatMap regBytes

def contUnits (c : Cont) : Nat := ((contBytes c).length + 63) / 64

/-- Byte offsets of the tagged tokens within a record. -/
def tokOffs : List (Nat × Val) → Nat → List Nat
  | [], _ => []
  | e :: r, o =>
    let here := match e.2 with | .tok k => if k.tag then [o + 16] else [] | _ => []
    here ++ tokOffs r (o + (regBytes e).length)

/-- The size and shape of a register's value by its specifier. -/
def readVal (sp : Nat) (bs : List Byte) (tag : Nat) (tok : Bool) : Val :=
  let v := leNat bs
  match clsOf (BitVec.ofNat 7 sp) with
  | .v => .vec ⟨BitVec.ofNat 4096 v, BitVec.ofNat 5 tag⟩
  | .k => .tok ⟨BitVec.ofNat 128 v, tok⟩
  | .m => .mask (BitVec.ofNat 1024 v)
  | .q => .series (BitVec.ofNat 4352 v)
  | .o => .order (BitVec.ofNat 64 v)
  | _ => .word (BitVec.ofNat 64 v)
def valSize (sp : Nat) : Nat :=
  match clsOf (BitVec.ofNat 7 sp) with | .v => 512 | .k => 16 | .m => 128 | .q => 544 | _ => 8

/-- The registers of a record read back: `tags` answers the token tag kept at a byte offset. -/
def readRegs (get : Nat → Nat → List Byte) (tags : Nat → Bool) : Nat → Nat → List (Nat × Val)
  | 0, _ => []
  | n + 1, o =>
    let sp := leNat (get o 1)
    let sz := valSize sp
    (sp, readVal sp (get (o + 16) sz) (leNat (get (o + 1) 1)) (tags (o + 16)))
      :: readRegs get tags n (o + 16 + (sz + 15) / 16 * 16)

/-! ## The areas: 8,192 units per cluster, then the launch's spill area -/

def allConts (s : State) : List (Nat × Nat × Cont) :=
  s.dies.flatMap fun d => d.2.launches.flatMap fun l => l.2.conts.map fun c => (d.1, l.1, c)
def areaUsed (s : State) (cluster : Nat) : Nat :=
  (((allConts s).filter fun e => decide (e.2.2.cluster = cluster) && !e.2.2.spilled).map fun e => contUnits e.2.2).sum

/-- The first free place for `n` units in a launch's spill area. -/
def spillPlace (e : Launch) (n : Nat) : Nat :=
  let held := (e.conts.filter (·.spilled)).map fun c => (c.off, 64 * contUnits c)
  let cands := 0 :: held.map fun h => h.1 + h.2
  (cands.filter fun o => !held.any fun h => overlap o (64 * n) h.1 h.2).foldl min (cands.foldl max 0)

/-- A record written to the continuation spill area, its token tags kept as in a token-capable page; a swept slot's tokens lose theirs (R334). -/
def cleanCont (s : State) (c : Cont) : Cont :=
  { c with live := c.live.map fun e => (e.1, match e.2 with | .tok k => .tok (kClean s k) | v => v) }
def writeCont (s : State) (p : Party) (k : KReg) (c0 : Cont) : State :=
  let c := cleanCont s c0
  let s1 := wrExtent s p k c.off (contBytes c)
  (tokOffs c.live 80).foldl (fun s o => if tagPlace (kPlace s k (c.off + o)) then wrTag s (kPlace s k (c.off + o)) true else s) s1

/-- Whether the spill area takes or gives back a record: token, permission, extent, poison (R275). -/
def spillOk (s : State) (k : KReg) (off n : Nat) (store : Bool) : Bool :=
  (access s k off n store).flag = 0 && (store || !(List.range n).any fun i => placePoison s (kPlace s k (off + i)))

/-- An item of the Usher (R275). -/
def usherItem (s : State) (ctx kind core record : Nat) : State :=
  logErrorAt s ctx { kind := kind, core := core, unit := 7, record := record }

def contOf (s : State) (p : Party) (pc bar : Nat) (phase ready : Bool) (regs : List Nat) : Cont :=
  let t := taskOf s p
  { pc := pc, fmode := t.fmode, point := t.point, bar := bar, phase := phase, stage := t.stage, ins := t.entry.ins
    live := liveVals s p regs, ready := ready, spilled := false, cluster := clusterOf (coreNo p), off := 0, refused := [], xb := false
    fixed := t.qsent || t.suspended, run := t.run, streams := [] }

/-- A record entered in the cluster's area, or in the launch's spill area (`forced`, or the area is full). -/
def storeCont (s : State) (p : Party) (c : Cont) (forced : Bool) : State :=
  match (taskOf s p).launch with
  | none => s
  | some (d, l) =>
    let n := contUnits c
    let e := launchOf s d l
    if !forced && decide (areaUsed s c.cluster + n ≤ 8192) then mapLaunch s d l fun e => { e with conts := e.conts ++ [c] }
    else
      let c1 := { c with spilled := true, off := spillPlace e n }
      if spillOk s e.cspill c1.off (64 * n) true then
        mapLaunch (writeCont s p e.cspill c1) d l fun e => { e with conts := e.conts ++ [c1] }
      else failTaskPoint (usherItem s (taskOf s p).ctx 6 (coreField p) 0) p

/-- The task leaves its slot as a continuation record (R128). -/
def suspendTask (s : State) (p : Party) (pc bar : Nat) (phase ready : Bool) (regs : List Nat) : State :=
  freeSlot (spendLive (storeCont (noteOrder s p) p (contOf s p pc bar phase ready regs) false) p regs) p

/-! ## suspend -/

def suspendBad (s : State) (p : Party) : Bool :=
  inLoop s p || match ckptOf s p (taskOf s p).pc with
    | some l => decide (16 < l.length)
    | none => true
/-- DEDUCED (log 62): A and B are read once step 1 has drained the results in flight (R128). -/
def planSuspend (f : FmtA) (s : State) (p : Party) : Plan :=
  let t := taskOf s p
  { tk := f.tk, ill := (5, suspendBad s p) :: illSuspend f, reads := readsA f, drain := true
    cold := coldSlot s p (rdTok s p f.a)
    ready := t.asyncs.isEmpty && t.exchs.isEmpty && t.stores.isEmpty
    touch := if (barwaitChk f s p).flag = 0 then [⟨kSlot (rdTok s p f.a), barAt f s p, 16, false⟩] else [] }
/-- A failed check sets its flag and the word is a `nop`; else the record is made and the slot freed. -/
def suspendAct (f : FmtA) (sg : List Nat) (s : State) : Act :=
  let p := s.cur
  let c := barwaitChk f s p
  let slot := kSlot (rdTok s p f.a)
  let at_ := barAt f s p
  if c.flag != 0 then doneNow sg (mapTask (chkFail s p (rdTok s p f.a) c) p fun t => orFlags t c.flag)
  else
    let s1 := readAtoms s (objPlaces s slot at_ 16)
    match objPoison s1 slot at_ 16 with
    | some pl => doneNow sg (poisonMet s1 p slot at_ pl)
    | none =>
      let regs := (ckptOf s p (thisWord s)).getD []
      let s2 := mapTask s1 p fun t => { t with suspended := true }
      .gone (suspendTask s2 p (thisWord s + 1) (pinLookup s slot at_).addr (barPhase (objVal s slot at_ 16)) false regs)
def execSuspend (f : FmtA) (s : State) : Host.Outcome State Fault Refusal := runWord (.suspend f) (planSuspend f) (suspendAct f) s

end Sys2Proof.Machine
end

