-- ==== Sys2Proof/Machine/Frontier.lean ====
section
/-! DEFINITION. The frontier of a launch (spec 12, R279-R285): lines, readiness, firing order, folding, the riser list
and its spill. -/

namespace Sys2Proof.Machine

/-! ## Points and lines (R280) -/

def extOf (e : Launch) (a : Nat) : Nat := e.ext.getD a 1

/-- The axes other than the sweep axis, the most significant first. -/
def lineAxes (e : Launch) : List Nat := [0, 1, 2, 3].filter (· != e.sweepAxis)
def lineCount (e : Launch) : Nat := (lineAxes e).foldl (fun n a => n * extOf e a) 1
def lineOf (e : Launch) (pt : List Nat) : Nat := (lineAxes e).foldl (fun n a => n * extOf e a + pt.getD a 0) 0
def sweepOf (e : Launch) (pt : List Nat) : Nat := pt.getD e.sweepAxis 0

/-- The coordinates of a line on the axes given, the last varying fastest. -/
def lineCoords (e : Launch) : List Nat → Nat → List (Nat × Nat)
  | [], _ => []
  | a :: r, n => (a, n % extOf e a) :: lineCoords e r (n / extOf e a)
/-- The point at a sweep coordinate of a line. -/
def pointAt (e : Launch) (sw line : Nat) : List Nat :=
  let cs := lineCoords e (lineAxes e).reverse line
  (List.range 4).map fun a => if a = e.sweepAxis then sw else ((cs.find? fun c => decide (c.1 = a)).map (·.2)).getD 0

/-- A point (of any integers) inside the space. -/
def insideSpace (e : Launch) (q : List Int) : Bool :=
  (List.range 4).all fun a => decide (0 ≤ q.getD a 0) && decide (q.getD a 0 < extOf e a)
/-- p - d. -/
def minusDep (pt : List Nat) (d : List Int) : List Int := (List.range 4).map fun a => (pt.getD a 0 : Int) - d.getD a 0

/-! ## Completed, ready, eligible (R281) -/

/-- The tread that holds a line. -/
def treadOf (l : List Riser) (line : Nat) : Riser :=
  l.foldl (fun a r => if r.first ≤ line then r else a) ⟨0, 0, 0⟩

def doneIn (e : Launch) (r : Riser) (sw : Nat) : Bool :=
  decide (sw < r.height) || (decide (sw < r.height + e.win) && r.window.testBit (sw - r.height))
def completed (e : Launch) (pt : List Nat) : Bool := doneIn e (treadOf e.risers (lineOf e pt)) (sweepOf e pt)

def readyPoint (e : Launch) (pt : List Nat) : Bool :=
  e.deps.all fun d =>
    let q := minusDep pt d
    !insideSpace e q || completed e (q.map Int.toNat)
def isFlying (e : Launch) (pt : List Nat) : Bool := e.flying.any fun g => decide (g.point = pt)

/-- Inside its line's window. -/
def inWindow (e : Launch) (r : Riser) (sw : Nat) : Bool := decide (r.height ≤ sw) && decide (sw < r.height + e.win)
def eligible (e : Launch) (pt : List Nat) : Bool :=
  insideSpace e (pt.map Int.ofNat) && readyPoint e pt && !completed e pt
    && inWindow e (treadOf e.risers (lineOf e pt)) (sweepOf e pt) && !isFlying e pt

/-! ## Firing order (R282): the lower sweep coordinate, then the lower line -/

/-- The first line of [at_, at_ + n) whose point at `sw` is eligible and allowed. -/
def firstLine (e : Launch) (ok : List Nat → Bool) (sw : Nat) : Nat → Nat → Option Nat
  | 0, _ => none
  | n + 1, at_ => if eligible e (pointAt e sw at_) && ok (pointAt e sw at_) then some at_ else firstLine e ok sw n (at_ + 1)

/-- Treads with the number of their lines. -/
def treads (e : Launch) : List (Riser × Nat) :=
  (e.risers.zip ((e.risers.drop 1).map (·.first) ++ [lineCount e])).map fun x => (x.1, x.2 - x.1.first)

def firstInTreads (e : Launch) (ok : List Nat → Bool) (sw : Nat) : List (Riser × Nat) → Option Nat
  | [] => none
  | (r, n) :: rest =>
    if inWindow e r sw && !doneIn e r sw then
      match firstLine e ok sw n r.first with
      | some l => some l
      | none => firstInTreads e ok sw rest
    else firstInTreads e ok sw rest

def insSorted (n : Nat) : List Nat → List Nat
  | [] => [n]
  | a :: r => if n < a then n :: a :: r else if n = a then a :: r else a :: insSorted n r

/-- The sweep coordinates that some window names, rising. -/
def sweepCands (e : Launch) : List Nat :=
  (e.risers.flatMap fun r => (List.range e.win).map fun i => r.height + i).foldl (fun l n => insSorted n l) []

/-- The first point, in firing order, that is eligible and allowed. -/
def nextPoint (e : Launch) (ok : List Nat → Bool) : Option (List Nat) :=
  (sweepCands e).findSome? fun sw => (firstInTreads e ok sw (treads e)).map fun l => pointAt e sw l

/-! ## Folding a completion (R283, R284) -/

/-- The window shifts while its bit 0 is set. -/
def advance (ext : Nat) : Nat → Riser → Riser
  | 0, r => r
  | n + 1, r => if r.window.testBit 0 && decide (r.height < ext) then
      advance ext n { r with window := r.window / 2, height := r.height + 1 } else r

/-- Neighbours with equal height and window are one tread. -/
def mergeRisers : List Riser → List Riser
  | [] => []
  | a :: r =>
    match mergeRisers r with
    | b :: s => if a.height = b.height ∧ a.window = b.window then a :: s else a :: b :: s
    | [] => [a]

/-- A tread with one of its lines replaced. -/
def splitTread (line : Nat) (f : Riser → Riser) (x : Riser × Nat) : List Riser :=
  let r := x.1
  if r.first ≤ line ∧ line < r.first + x.2 then
    (if r.first < line then [r] else []) ++ [{ f r with first := line }]
      ++ (if line + 1 < r.first + x.2 then [{ r with first := line + 1 }] else [])
  else [r]

/-- The riser list after a point completes. -/
def foldedRisers (e : Launch) (pt : List Nat) : List Riser :=
  let sw := sweepOf e pt
  let ext := extOf e e.sweepAxis
  mergeRisers ((treads e).flatMap (splitTread (lineOf e pt) fun r =>
    if doneIn e r sw then r else advance ext (e.win + 1) { r with window := r.window + 2 ^ (sw - r.height) }))

/-- The initial riser list (R280). -/
def firstRisers : List Riser := [⟨0, 0, 0⟩]

/-! ## Riser entries held by the die, and spilled (R285) -/

def riserBytes (r : Riser) : List Byte :=
  leBytes 8 r.first ++ leBytes 8 r.window ++ leBytes 4 r.height ++ List.replicate 12 0

/-- Riser entries that the die holds for all its launches that have not ended. -/
def heldRisers (s : State) (d : Nat) : Nat :=
  ((dieOf s d).launches.map fun l => if l.2.state = .done || l.2.state = .failed then 0 else l.2.risers.length - l.2.spillN).sum

/-- Whether the spill area takes entries below number `n` (R132). -/
def spillFits (s : State) (e : Launch) (from_ n : Nat) : Bool :=
  (List.range (n - from_)).all fun i =>
    let o := 32 * (from_ + i)
    (access s e.fspill o 32 true).flag = 0 && (access s e.fspill o 32 false).flag = 0
      && !(List.range 32).any fun j => placePoison s (kPlace s e.fspill (o + j))

/-- Entries that the points in flight of a launch may come to need: a fold adds at most two. -/
def reservedRisers (e : Launch) : Nat := 2 * e.flying.length
/-- The entries of the die that are not another launch's, held or reserved for its points in flight. -/
def riserRoom (s : State) (d l : Nat) : Nat :=
  4096 - ((dieOf s d).launches.map fun x =>
    if decide (x.1 = l) || x.2.state = .done || x.2.state = .failed then 0 else x.2.risers.length - x.2.spillN + reservedRisers x.2).sum
/-- A list of `n` entries can be held: by the die, or with the spill area. -/
def canHold (s : State) (d l n : Nat) : Bool :=
  let room := riserRoom s d l
  decide (n ≤ room) || spillFits s (launchOf s d l) room n
/-- The point that fires next: the launch fires none whose fold, with those of its points in flight, would need an entry it cannot hold (R285;
log 60). -/
def firingPoint (s : State) (d l : Nat) : Option (List Nat) :=
  let e := launchOf s d l
  nextPoint e fun pt => canHold s d l ((foldedRisers e pt).length + reservedRisers e)

/-- The spilled entries written, entry n at byte 32n. DESIGN CHOICE (log 60): the spec says of an area that has become stale or short since
its point fired only that no such point fires; the entries that it does not take are not written, and the list stays whole. -/
def writeRisers (s : State) (d l : Nat) : State :=
  let e := launchOf s d l
  (List.range e.spillN).foldl (fun s i =>
    let n := e.risers.length - e.spillN + i
    if (access s e.fspill (32 * n : Nat) 32 true).flag = 0 then
      wrExtent s (.stream d e.ctx) e.fspill (32 * n) (riserBytes (e.risers.getD n ⟨0, 0, 0⟩))
    else s) s

/-- A new riser list taken: what the die cannot hold is spilled. -/
def setRisers (s : State) (d l : Nat) (rs : List Riser) : State :=
  let e := launchOf s d l
  let room := 4096 - (heldRisers s d - (e.risers.length - e.spillN))
  let n := max (rs.length - room) (min e.spillN rs.length)
  let s1 := mapLaunch s d l fun e => { e with risers := rs, spillN := n, everSpilled := e.everSpilled || decide (0 < n) }
  if n = 0 then s1 else writeRisers s1 d l

/-- A completed point folded into its frontier. -/
def foldPoint (s : State) (d l : Nat) (pt : List Nat) : State :=
  let e := launchOf s d l
  mapLaunch (setRisers s d l (foldedRisers e pt)) d l fun e => { e with completed := e.completed + 1 }

/-- RISER_RETURN: spilled entries come back as merges free room. -/
def execRiserReturn (die l : Nat) (s : State) : Host.Outcome State Fault Refusal :=
  let e := launchOf s die l
  .next (if 0 < e.spillN && decide (heldRisers s die < 4096) then mapLaunch s die l fun e => { e with spillN := e.spillN - 1 }
  else s)

/-! ## Points in flight (R258, R293) -/

/-- Whether the frontier of a launch is frozen by `frsave` (R305): a fold is then kept with fate 1 (R293). -/
def frozenFrontier (e : Launch) : Bool := e.victimBy = some 32 || e.state = .saved

/-- One task of a point ended; the point completes when it was the last (R258). -/
def settlePoint (s : State) (d l : Nat) (pt : List Nat) (fail : Bool) : State :=
  let x := pointDown (launchOf s d l) pt fail
  let s1 := mapLaunch s d l fun _ => x.1
  if !x.2 then s1
  else if frozenFrontier (launchOf s d l) then
    mapLaunch s1 d l fun e => { e with flying := e.flying ++ [⟨pt, 0, true, false, 1, 0⟩] }
  else foldPoint s1 d l pt

/-- A task more of a point. -/
def pointUp (s : State) (d l : Nat) (pt : List Nat) : State :=
  mapLaunch s d l fun e => { e with flying := e.flying.map fun g => if g.point = pt then { g with live := g.live + 1 } else g }

end Sys2Proof.Machine
end

