-- ==== Sys2Proof/Machine/Xlat.lean ====
section
/-! DEFINITION. Page tables, `xlat` and `xlatl`, page requests and their replies (spec 13, R320-R330; spec 20, R419). -/

namespace Sys2Proof.Machine

/-! ## Reading table entries (R321, R326) -/

/-- Near and far addresses that name memory (R393, R396). -/
def nearOk (a : Nat) : Bool := decide (a < 2 ^ 41) && decide (a / 2 ^ 37 < 12)
def farOk (a : Nat) : Bool := decide (a < 2 ^ 42)

/-- Where a table entry stands, as one number: a near address, or 2^42 + a far address, in which a guest's stage-two leaf may place a table
(R322); every other number names no memory. -/
def keyPlace (a : Nat) : Place := if a < 2 ^ 42 then ⟨.near, a⟩ else ⟨.far, a - 2 ^ 42⟩
def keyOk (a : Nat) : Bool := nearOk a || (decide (2 ^ 42 ≤ a) && decide (a < 2 ^ 43))
/-- A table address that a physical entry names is near (log 18). -/
def nearKey (a : Nat) : Nat := if a < 2 ^ 42 then a else 2 ^ 43
def rdKey (s : State) (a n : Nat) : Nat := leNat ((List.range n).map fun i => rdByte s (keyPlace (a + i)))
/-- Written for a context, to which a write that poison drops is logged (R403). -/
def wrKey (s : State) (ctx slot a : Nat) (bs : List Byte) : State :=
  wrPlaces s (.stream 0 ctx) slot a ((List.range bs.length).map fun i => (keyPlace (a + i), bs.getD i 0, 0xFF#8))

/-- A table entry read; none where the read fails. -/
def tableEntry (s : State) (a : Nat) : Option Nat :=
  if !keyOk a || placePoison s (keyPlace a) then none else some (rdKey s a 8)

def pteV (e : Nat) : Bool := Nat.testBit e 0
def ptePerms (e : Nat) : Nat := bits e 2 4
def pteLeaf (e : Nat) : Bool := Nat.testBit e 6
def ptePS (e : Nat) : Bool := Nat.testBit e 7
def pteMT (e : Nat) : Nat := bits e 9 2
def pteTP (e : Nat) : Bool := Nat.testBit e 11
def pteAddr (e : Nat) : Nat := bits e 12 44 * 4096
def pteSpace (e : Nat) : Nat := bits e 60 4

/-- Page size of a leaf at a level. -/
def leafSize (level : Nat) (e : Nat) : Nat := if level = 2 then 2 ^ 30 else if ptePS e then 2 ^ 21 else 65536

/-- The page a physical leaf names exists, and its memory type is the controller's (R321, R395). -/
def physBad (s : State) (e size : Nat) : Bool :=
  let a := pteAddr e
  match pteSpace e with
  | 0 => !nearOk a || !nearOk (a + size - 1) || decide (1 < pteMT e)
    || (List.range (size / 65536)).any fun i => gangAt s (a + 65536 * i) != (pteMT e = 1)
  | 1 => !farOk (a + size - 1) || pteMT e != 0
  | _ => false

/-- An entry that is malformed in itself; `phys` where its address is physical. Peer pages are 64 KiB (R434), so a larger one is malformed
(DESIGN CHOICE, log 49). -/
def malformed (s : State) (phys : Bool) (level e : Nat) : Bool :=
  bits e 56 4 != 0 || Nat.testBit e 8 || Nat.testBit e 1
    || (pteLeaf e && (decide (level < 2) || (level = 2 && !ptePS e) || bits e 12 4 != 0 || !([0, 1, 3, 4].contains (pteSpace e))
          || (pteSpace e = 3 && ptePS e) || (phys && physBad s e (leafSize level e))))
    || (!pteLeaf e && level = 3)

/-! ## The walk (R322, R323, R326) -/

/-- A leaf found: its entry, level and place, and whether every entry of the path has TP. -/
structure Leaf where
  entry : Nat
  level : Nat
  place : Nat
  deriving DecidableEq, Repr, Inhabited

/-- A walk: the table entries it reads, and what it comes to: a fault with the size of the page that fails (64 KiB where no leaf says), or a value. -/
structure Walk (α : Type) where
  seen : List Nat
  res : (PFault × Nat) ⊕ α

def Walk.ok {α : Type} (a : α) : Walk α := ⟨[], .inr a⟩
def Walk.fault {α : Type} (f : PFault) (size : Nat := 65536) : Walk α := ⟨[], .inl (f, size)⟩
def Walk.bind {α β : Type} (x : Walk α) (f : α → Walk β) : Walk β :=
  match x.res with
  | .inr a => let y := f a; ⟨x.seen ++ y.seen, y.res⟩
  | .inl e => ⟨x.seen, .inl e⟩
/-- An entry read, or the fault that its failure is. -/
def Walk.entry (s : State) (a : Nat) (f : PFault) : Walk Nat :=
  ⟨[a], match tableEntry s a with | some e => .inr e | none => .inl (f, 65536)⟩

/-- The 32 entries of a group, read through `tr`, all equal and the page aligned. -/
def groupOk (s : State) (tr : Nat → Walk Nat) (addr e size : Nat) (mal rd : PFault) : Walk Unit :=
  if pteAddr e % size != 0 then .fault mal size
  else (List.range 32).foldl (fun (x : Walk Unit) i => x.bind fun _ =>
    (tr (addr / 256 * 256 + 8 * i)).bind fun a => (Walk.entry s a rd).bind fun g => if g = e then .ok () else .fault mal size) (.ok ())

/-- One stage: levels `lv` upward. `tr` places a table address; `stage2` marks stage-two entries; `soft` gives
DETAIL 4 for every breach of a stage-two translation, except a requested permission of the final page. -/
def walkStage (s : State) (tr : Nat → Walk Nat) (phys stage2 final : Bool) (gpa va pk : Nat) : Nat → Nat → Nat → Walk Leaf
  | 0, lv, _ => .fault ⟨3, lv, gpa⟩
  | n + 1, lv, table =>
    let mark := if stage2 then lv + 128 else lv
    let soft (d : Nat) : PFault := ⟨if stage2 then 4 else d, mark, gpa⟩
    let addr := table + bits va (43 - 9 * lv) 9 * 8
    (tr addr).bind fun a => (Walk.entry s a ⟨5, mark, gpa⟩).bind fun e =>
        let size := if pteLeaf e then leafSize lv e else 65536
        if !pteV e then .fault (soft 1)
        else if malformed s phys lv e then .fault (soft 3) size
        else if pk &&& ptePerms e != pk then .fault (if final then ⟨2, mark, gpa⟩ else soft 2) size
        else if pteLeaf e then
          (if ptePS e then groupOk s tr addr e (leafSize lv e) (soft 3) ⟨5, mark, gpa⟩ else .ok ()).bind fun _ =>
            .ok ⟨e, lv, a⟩
        else walkStage s tr phys stage2 final gpa va pk n (lv + 1) (pteAddr e)

/-- The physical address a leaf gives an address. -/
def leafAddr (l : Leaf) (va : Nat) : Nat := pteAddr l.entry + va % leafSize l.level l.entry

/-- A guest-physical address translated. -/
def stage2 (s : State) (root2 : Nat) (final : Bool) (pk gpa : Nat) : Walk Leaf :=
  walkStage s (fun a => .ok (nearKey a)) true true final gpa gpa pk 4 0 root2
/-- Where a stage-one table entry stands; a guest's by its stage-two leaf, in near or far memory. -/
def tableAddr (s : State) (c : Ctx) (gpa : Nat) : Walk Nat :=
  if !c.params.guest then .ok (nearKey gpa)
  else (stage2 s c.params.root2 false 8 gpa).bind fun l =>
    match pteSpace l.entry with
    | 0 => .ok (leafAddr l gpa)
    | 1 => .ok (2 ^ 42 + leafAddr l gpa)
    | _ => .fault ⟨5, l.level + 128, gpa⟩

/-- An effective page (R322), with the place of the leaf that a swap rewrites and that leaf's page size (R407). -/
structure Page where
  va : Nat
  size : Nat
  pa : Nat
  space : Nat
  tp : Bool
  mt : Nat
  leaf : Nat
  span : Nat
  deriving DecidableEq, Repr, Inhabited

def walkPage (s : State) (ctx va pk : Nat) : Walk Page :=
  let c := ctxOf s ctx
  (walkStage s (tableAddr s c) (!c.params.guest) false true 0 va pk 4 0 c.params.root1).bind fun l =>
    let z1 := leafSize l.level l.entry
    if !c.params.guest then
      .ok ⟨va / z1 * z1, z1, pteAddr l.entry, pteSpace l.entry, pteTP l.entry, pteMT l.entry, l.place, z1⟩
    else
      let gpa := leafAddr l va
      (stage2 s c.params.root2 true pk gpa).bind fun m =>
        let z := min z1 (leafSize m.level m.entry)
        .ok ⟨va / z * z, z, leafAddr m gpa / z * z, pteSpace m.entry, pteTP l.entry && pteTP m.entry, pteMT m.entry, m.place, leafSize m.level m.entry⟩

/-- The pages of [v, stop), each walked: pages, or faults with the VA that fails, one for each faulting page (R328). -/
def walkPages (s : State) (ctx pk stop first : Nat) : Nat → Nat → List (Page ⊕ (Nat × PFault))
  | 0, _ => []
  | n + 1, v =>
    if stop ≤ v then []
    else match (walkPage s ctx v pk).res with
      | .inr p => .inl p :: walkPages s ctx pk stop first n (p.va + p.size)
      | .inl f => .inr (max v first, f.1) :: walkPages s ctx pk stop first n (v / f.2 * f.2 + f.2)
/-- What the walks of [v, stop) read, read by the controllers (R398). -/
def walkReads (ctx pk stop : Nat) : Nat → Nat → State → State
  | 0, _, s => s
  | n + 1, v, s =>
    if stop ≤ v then s
    else
      let w := walkPage s ctx v pk
      let s1 := readAtoms s (w.seen.flatMap fun a => (List.range 8).map fun i => keyPlace (a + i))
      walkReads ctx pk stop n (match w.res with | .inr p => p.va + p.size | .inl f => v / f.2 * f.2 + f.2) s1

/-- A near page by its address, a far page by 2^42 + its address, on the context's token-page list (R333; log 20). -/
def registered (s : State) (ctx : Nat) (sp : Space) (pa size : Nat) : Bool :=
  let a := if sp = .far then 2 ^ 42 + pa else pa
  (sp = .near || sp = .far) && (ctxOf s ctx).pages.any fun r => decide (r.1 ≤ a) && decide (a + size ≤ r.1 + r.2)

/-! ## Slots and pin-frame words (R325) -/

/-- Cores whose slices a context may name: those bound to its launches. -/
def boundTo (s : State) (ctx core : Nat) : Bool :=
  match (coreOf s core).bound with
  | some (d, l) => (launchOf s d l).ctx = ctx
  | none => false

/-- A page size's code. -/
def psCode (size : Nat) : Nat := if size = 65536 then 0 else if size = 2 ^ 21 then 1 else 2

/-- `xlat` of R325, on the tables as they stand. -/
def xlat (s : State) (p : Party) (ctx va len pk : Nat) : Xlat :=
  if len = 0 ∨ 2 ^ 40 ≤ len then .fail
  else if 0xFFFFFFFFE0000000 ≤ va then
    let h := va % 2 ^ 29
    if 2 ^ 64 < va + len then .fail
    else
      let c0 := h / 2 ^ 20
      if !(List.range ((h + len - 1) / 2 ^ 20 + 1 - c0)).all fun i => boundTo s ctx (c0 + i) then .fail
      else
        let n := (h % 65536 + len + 65535) / 65536
        makeSlot s p ctx .hall 0 va len pk
          ((List.range n).map fun i => (h / 65536 * 65536 + 65536 * i, false, 0, 0, va / 65536 * 65536 + 65536 * i, 0))
  else if 2 ^ 52 ≤ va ∨ 2 ^ 52 < va + len then .fail
  else
    let l := walkPages s ctx pk (va + len) va (2 ^ 24 + 2) (va / 65536 * 65536)
    let faults := l.filterMap fun x => match x with | .inr f => some f | .inl _ => none
    let pages := l.filterMap fun x => match x with | .inl q => some q | .inr _ => none
    if !faults.isEmpty then .fault faults
    else match pages, spaceOf ((pages.head?.map (·.space)).getD 0) with
      | q :: r, some sp =>
        if r.any fun x => x.space != q.space then .fail
        else
          let size := pages.foldl (fun m x => min m x.size) q.size
          let n := (va % size + len + size - 1) / size
          if 262144 < n then .fail
          else
            let o := va / size * size
            makeSlot s p ctx sp (psCode size) va len pk ((List.range n).map fun i =>
              let v := o + size * i
              match pages.find? fun x => decide (x.va ≤ v) && decide (v < x.va + x.size) with
              | some x =>
                let pa := x.pa + (v - x.va)
                (pa, x.tp && registered s ctx sp pa size, x.mt, x.leaf, v, psCode x.span)
              | none => (0, false, 0, 0, v, 0))
      | _, _ => .fail

/-- The tables of an `xlat`'s pages read by the controllers, whatever it comes to (R398). -/
def walked (s : State) (ctx va len pk : Nat) : State :=
  if len = 0 ∨ 2 ^ 40 ≤ len ∨ 2 ^ 52 ≤ va ∨ 2 ^ 52 < va + len then s
  else walkReads ctx pk (va + len) (2 ^ 24 + 2) (va / 65536 * 65536) s

/-- XLATFAIL (R325, R341). -/
def xlatFailed (s : State) (p : Party) (va : Nat) : State := logEvent s p 5 0xFFFFFFFF va

/-- PF (R327). -/
def pfTrap (va : Nat) (f : PFault) (mask : Nat) : TrapInfo :=
  { mkTrap cPF f.detail with va := va, gpa := if f.detail = 4 then f.gpa else 0, level := f.level, mask := mask }

/-- An XLAT watch on the extent raises DBG 4 once the `xlat` completes (R380). -/
def xlatWatch (s : State) (p : Party) (va len : Nat) : Option Nat :=
  ((launchDebug s p).watches.find? fun w => overlap va len w.2.1 w.2.2.1 && Nat.testBit w.2.2.2 2).map (·.1)

/-! ## Page requests (R328, R329, R419) -/

def requestBytes (ctx group : Nat) (e : Nat × Nat × Nat) (f : PFault) : List Byte :=
  leBytes 8 e.2.1 ++ leBytes 2 (ctxField ctx) ++ leBytes 1 e.1 ++ leBytes 1 (e.2.2 % 16 + (if f.level < 128 then 0 else 128))
    ++ leBytes 4 group ++ leBytes 8 (if f.detail = 4 then f.gpa else 0) ++ leBytes 1 f.detail ++ List.replicate 7 0

def ringFull (s : State) (ctrl : Nat) : Bool :=
  decide (2 ^ (rdNear s (ctrl + 8) 1) ≤ rdNear s (ctrl + 16) 8 - rdNear s (ctrl + 24) 8)

/-- Held requests leave while the function's ring has room, oldest first. -/
def flushHeld (s : State) (ctx : Nat) : Nat → State
  | 0 => s
  | n + 1 =>
    match (ctxOf s ctx).held with
    | [] => s
    | r :: rest =>
      let ctrl := (ctxOf s ctx).params.reqRing
      if ringFull s ctrl then s
      else flushHeld (mapCtx (queuePush s ctx ctrl 32 r) ctx fun c => { c with held := rest }) ctx n

/-- Held requests go out wherever their ring has room (R419). -/
def flushAll (s : State) : State :=
  (s.ctxs.filter fun c => !c.2.held.isEmpty).foldl (fun s c => flushHeld s c.1 c.2.held.length) s

def sendRequest (s : State) (ctx : Nat) (item : List Byte) : State :=
  let s1 := mapCtx s ctx fun c => { c with held := c.held ++ [item] }
  flushHeld s1 ctx ((ctxOf s1 ctx).held.length)

/-- A free group of a die, if it holds fewer than 512. -/
def freeGroup (s : State) (die : Nat) : Option Nat :=
  (List.range 512).find? fun g => !s.groups.any fun e => decide (e.1 = 512 * die + g)

def zeroGroup : Group := ⟨.slot 0 0, 0, 0, 0, none, [], [], false⟩
def groupOf (s : State) (key : Nat) : Group := tget zeroGroup s.groups key

/-- A group opened with one request per fault, and the task suspended on it at its own word. Its id, in requests, replies and BAR, is
512 times the die and its number there: DESIGN CHOICE (log 22). -/
def openGroup (s : State) (p : Party) (list : Option (KReg × Nat)) (l : List (Nat × Nat × Nat × PFault)) : Option State :=
  match freeGroup s (dieNo p), (taskOf s p).launch with
  | some g, some (d, ln) =>
    let key := 512 * d + g
    let ctx := (taskOf s p).ctx
    let grp : Group := ⟨p, ctx, d, ln, list, l.map fun e => (e.1, e.2.1, e.2.2.1), [], false⟩
    let s1 := { s with groups := tput s.groups key grp }
    let s2 := l.foldl (fun s e => sendRequest s ctx (requestBytes ctx key (e.1, e.2.1, e.2.2.1) e.2.2.2)) s1
    let pc := (taskOf s2 p).pc
    some (suspendTask s2 p pc (2 ^ 63 + key) false false ((ckptOf s2 p pc).getD []))
  | _, _ => none

/-! ## xlat -/

/-- PK (R324). -/
def pkBits (f : FmtA) : Nat := (low5 f).toNat % 16

/-- Constants, or x registers of the live set (R328). -/
def liveOperand (regs : List Nat) (sp : SpecBits) : Bool := clsOf sp = .c || (clsOf sp != .t && regs.contains sp.toNat)
def waitBad (ops : List SpecBits) (s : State) (p : Party) : Bool :=
  inLoop s p || match ckptOf s p (taskOf s p).pc with
    | some l => decide (16 < l.length) || !ops.all (liveOperand l)
    | none => true

def planXlat (wait : Bool) (f : FmtA) (s : State) (p : Party) : Plan :=
  { tk := f.tk, ill := (5, wait && waitBad [f.a, f.b] s p) :: illXlat f, reads := readsA f, nres := 1 }
def xlatAct (wait : Bool) (f : FmtA) (_ : List Nat) (s : State) : Act :=
  let va := (opA f s).toNat
  let len := (opB f s).toNat
  .hold fun t => { t with wait := .xlat f wait va len }

/-- A word that waits for its event does nothing when it is visited. -/
def orWaits (s : State) (r : Host.Outcome State Fault Refusal) : Host.Outcome State Fault Refusal :=
  if (taskOf s s.cur).wait = .none then r else .next s

def execXlatTrap (f : FmtA) (s : State) : Host.Outcome State Fault Refusal :=
  orWaits s (runWord (.xlatTrap f) (planXlat false f) (xlatAct false f) s)
def execXlatWait (f : FmtA) (s : State) : Host.Outcome State Fault Refusal :=
  orWaits s (runWord (.xlatWait f) (planXlat true f) (xlatAct true f) s)

/-- The completed word: its token, or 0 with XB. -/
def putTok (f : FmtA) (k : KReg) (fl : BitVec 8) (watch : Option Nat) (va : Nat) (sg : List Nat) (s : State) : Act :=
  let s1 := mapTask (addFlight s s.cur (mkFlight 1 false (destOf f.d) (.tok k) fl false sg)) s.cur fun t => { t with refused := [] }
  match watch with
  | some e => .after s1 { mkTrap cDBG 4 with aux0 := BitVec.ofNat 64 e, aux1 := BitVec.ofNat 64 va }
  | none => .done s1

def xlatInstr (wait : Bool) (f : FmtA) : Word := (encodeWord (if wait then .xlatWait f else .xlatTrap f)).getD 0

/-- A word whose walk faults in wait mode suspends as `suspend` does: with its results landed and its accesses done (R128, R328). -/
def suspendFaults (s : State) (p : Party) (list : Option (KReg × Nat)) (l : List (Nat × Nat × Nat × PFault)) : State :=
  let t := taskOf s p
  if !t.flights.isEmpty then (if lateData t then s else endCycle (landDue s p) p)
  else if !accessesDone t then s
  else (openGroup s p list l).getD s

/-- A page refused by a reply has failed, and its event was REFUSED (R329). -/
def refusedIn (s : State) (p : Party) (va len : Nat) : Bool := (taskOf s p).refused.any fun r => decide (va ≤ r) && decide (r < va + len)

def completeXlat (s : State) (p : Party) (f : FmtA) (wait : Bool) (va len : Nat) : State :=
  if refusedIn s p va len then finishWord s p (xlatInstr wait f) f.tk (putTok f noTok fXB none va)
  else
  let s0 := s
  let s := walked s (ctxNo s p) va len (pkBits f)
  match xlat s p (ctxNo s p) va len (pkBits f) with
  | .full => s0
  | .fail => finishWord (xlatFailed s p va) p (xlatInstr wait f) f.tk (putTok f noTok fXB none va)
  | .done s1 k =>
    finishWord (galMem s1 p (kSlot k)) p (xlatInstr wait f) f.tk (putTok f k 0 (xlatWatch s p va len) va)
  | .fault [] => s
  | .fault (x :: r) =>
    if wait then suspendFaults s p none ((x :: r).map fun e => (0xFF, e.1, pkBits f, e.2))
    else trapHere (mapTask s p fun t => { t with wait := .none }) p (xlatInstr wait f) (pfTrap x.1 x.2 0)

/-! ## xlatl (R330) -/

def listChk (f : FmtA) (s : State) (p : Party) : Chk :=
  let k := rdTok s p f.a
  let n := 32 * (rdScal s p f.c).toNat
  let c := checkTok s k (kR k && kW k)
  if c.flag != 0 then c else checkExt s k (rdScal s p f.b).toNat n true

def xlatlBad (f : FmtA) (s : State) (p : Party) : Bool :=
  let k := rdTok s p f.a
  let c := (rdScal s p f.c).toNat
  kSpace k != 2 || !kR k || !kW k || (rdScal s p f.b).toNat % 32 != 0 || decide (c < 1) || decide (16 < c)

def planXlatl (wait : Bool) (f : FmtA) (s : State) (p : Party) : Plan :=
  let k := rdTok s p f.a
  let at_ := kBase k + (rdScal s p f.b).toNat
  let ok := (listChk f s p).flag = 0
  { tk := f.tk, reads := readsA f, nres := 1, lands := some (false, 1, 1), cold := coldSlot s p k
    ill := (5, xlatlBad f s p || (wait && waitBad [f.a, f.b, f.c] s p)) :: illXlatl f
    ready := !ok || !objBusy s p (kSlot k) at_ (32 * (rdScal s p f.c).toNat)
    touch := if ok then [false, true].map fun st => ⟨kSlot k, at_, 32 * (rdScal s p f.c).toNat, st⟩ else [] }
def xlatlAct (wait : Bool) (f : FmtA) (sg : List Nat) (s : State) : Act :=
  let c := listChk f s s.cur
  if c.flag != 0 then putObj f 0 c.flag sg (chkFail s s.cur (rdTok s s.cur f.a) c)
  else
    let off := (opB f s).toNat
    let n := (opC f s).toNat
    .hold fun t => { t with wait := .xlatl f wait off n }
/-- The list, checked, is in flight while the word holds its slot (R318). -/
def holdList (f : FmtA) (s : State) (o : Host.Outcome State Fault Refusal) : Host.Outcome State Fault Refusal :=
  match o with
  | .next r => .next (match (taskOf r s.cur).wait with | .xlatl _ _ _ _ => inflt r (kSlot (rdTok s s.cur f.a)) true | _ => r)
  | x => x
def execXlatlTrap (f : FmtA) (s : State) : Host.Outcome State Fault Refusal :=
  orWaits s (holdList f s (runWord (.xlatlTrap f) (planXlatl false f) (xlatlAct false f) s))
def execXlatlWait (f : FmtA) (s : State) : Host.Outcome State Fault Refusal :=
  orWaits s (holdList f s (runWord (.xlatlWait f) (planXlatl true f) (xlatlAct true f) s))

/-- A list entry's field. -/
def listField (s : State) (k : KReg) (o at_ n : Nat) : Nat := leNat (rdExtent s k (o + at_) n)

/-- TOKEN and STATUS written; the tag kept as `kst` keeps it. -/
def settleEntry (s : State) (p : Party) (k : KReg) (o : Nat) (tok : KReg) (status : Nat) : State :=
  let t := kClean s tok
  let s1 := wrExtent s p k (o + 16) (leBytes 16 t.bits.toNat)
  let s2 := if t.tag && keepsTag s k (o + 16) then wrTag s1 (kPlace s1 k (o + 16)) true else s1
  wrExtent s2 p k (o + 14) (leBytes 1 status)

/-- What the entries of a list come to: state, XB raised, faults, entries that found no slot. -/
structure ListRun where
  st : State
  xb : Bool
  faults : List (Nat × Nat × Nat × PFault)
  full : Bool

def listEntry (p : Party) (ctx : Nat) (k : KReg) (off : Nat) (r : ListRun) (i : Nat) : ListRun :=
  let o := off + 32 * i
  if listField r.st k o 14 1 != 0 then r
  else
    let va := listField r.st k o 0 8
    let len := listField r.st k o 8 5
    let pk := listField r.st k o 13 1 % 16
    let s := walked r.st ctx va len pk
    match xlat s p ctx va len pk with
    | .full => { r with full := true }
    | .fail => { r with st := settleEntry (xlatFailed s p va) p k o noTok 2, xb := true }
    | .done s1 t => { r with st := settleEntry (galMem s1 p (kSlot t)) p k o t 1 }
    | .fault [] => r
    | .fault (x :: _) => { r with st := s, faults := r.faults ++ [(i, x.1, pk, x.2)] }

/-- An XLAT watch on an entry that is done raises DBG 4 once the list completes: DESIGN CHOICE (log 61), for R380 speaks of an `xlat`. -/
def listWatch (s : State) (p : Party) (k : KReg) (off n : Nat) : Option (Nat × Nat) :=
  (List.range n).findSome? fun i =>
    let o := off + 32 * i
    let va := listField s k o 0 8
    if listField s k o 14 1 = 1 then (xlatWatch s p va (listField s k o 8 5)).map fun e => (e, va) else none
def doneMask (s : State) (k : KReg) (off n : Nat) : Word :=
  BitVec.ofNat 64 (((List.range n).map fun i => if listField s k (off + 32 * i) 14 1 = 1 then 2 ^ i else 0).sum)

/-- The completed list: the entries that are done. -/
def putList (f : FmtA) (k : KReg) (off n : Nat) (sg : List Nat) (s : State) : Act :=
  let s1 := putScal 1 f.d false (doneMask s k off n, 0) sg s
  match listWatch s s.cur k off n with
  | some (e, va) => .after s1 { mkTrap cDBG 4 with aux0 := BitVec.ofNat 64 e, aux1 := BitVec.ofNat 64 va }
  | none => .done s1

def xlatlInstr (wait : Bool) (f : FmtA) : Word := (encodeWord (if wait then .xlatlWait f else .xlatlTrap f)).getD 0

def completeXlatl (s : State) (p : Party) (f : FmtA) (wait : Bool) (off n : Nat) : State :=
  let k := rdTok s p f.a
  let r := (List.range n).foldl (listEntry p (ctxNo s p) k off) ⟨s, false, [], false⟩
  let s1 := if r.xb then mapTask r.st p fun t => orFlags t fXB else r.st
  let closed (s : State) : State := inflt s (kSlot k) false
  if r.full then s1
  else match r.faults with
    | [] => finishWord (closed s1) p (xlatlInstr wait f) f.tk (putList f k off n)
    | x :: rest =>
      if wait then
        let s2 := suspendFaults s1 p (some (k, off)) (x :: rest)
        if (taskOf s2 p).wait = .none then closed s2 else s2
      else
        let mask := ((x :: rest).map fun e => 2 ^ e.1).sum
        trapHere (mapTask (closed s1) p fun t => { t with wait := .none }) p (xlatlInstr wait f) (pfTrap x.2.1 x.2.2.2 mask)

/-- XLAT_COMPLETE: the walk of the word a party waits at. -/
def execXlatComplete (p : Party) (s : State) : Host.Outcome State Fault Refusal :=
  .next (let s0 := { s with cur := p }
    match (taskOf s p).wait with
    | .xlat f w va len => completeXlat s0 p f w va len
    | .xlatl f w off n => completeXlatl s0 p f w off n
    | _ => s)

/-! ## Page replies -/

/-- The record that waits on a group is resumable, with the pages refused. -/
def closeGroup (s : State) (key : Nat) : State :=
  let g := groupOf s key
  if !g.entries.isEmpty then s
  else
    let s1 := { s with groups := tdel s.groups key }
    mapLaunch s1 g.die g.launch fun e =>
      { e with conts := e.conts.map fun c =>
          if c.bar = 2 ^ 63 + key then { c with ready := true, refused := g.refused, xb := g.xb } else c }

def dropEntry (s : State) (key i : Nat) (refused : List Nat) : State :=
  { s with groups := tput s.groups key { groupOf s key with
      entries := dropAt (groupOf s key).entries i, refused := (groupOf s key).refused ++ refused } }

/-- A group's list may still be read and written (R132): its slot may have been revoked since, and the entry then ends untouched. -/
def listOk (s : State) (l : KReg × Nat) (i : Nat) : Bool :=
  (access s l.1 (l.2 + 32 * i : Nat) 32 true).flag = 0 && kR l.1
def groupXb (s : State) (key : Nat) (b : Bool) : State :=
  if b then { s with groups := tput s.groups key { groupOf s key with xb := true } } else s

/-- A page walked again for its group: settled, or a new request in the same group. -/
def replay (s : State) (key i : Nat) : State :=
  let g := groupOf s key
  match g.entries[i]? with
  | none => s
  | some e =>
    match g.list with
    | none =>
      let s1 := walked s g.ctx (e.2.1 / 65536 * 65536) 1 e.2.2
      match (walkPage s g.ctx (e.2.1 / 65536 * 65536) e.2.2).res with
      | .inr _ => closeGroup (dropEntry s1 key i []) key
      | .inl f => sendRequest s1 g.ctx (requestBytes g.ctx key e f.1)
    | some (k, off) =>
      if !listOk s (k, off) e.1 then closeGroup (dropEntry s key i []) key
      else
        let r := listEntry g.party g.ctx k off ⟨s, false, [], false⟩ e.1
        match r.faults with
        | [] => closeGroup (dropEntry (groupXb r.st key r.xb) key i []) key
        | x :: _ => sendRequest r.st g.ctx (requestBytes g.ctx key (e.1, x.2.1, x.2.2.1) x.2.2.2)

/-- A page refused: event REFUSED; an entry of a list takes STATUS 3. -/
def refuse (s : State) (key i : Nat) : State :=
  let g := groupOf s key
  match g.entries[i]? with
  | none => s
  | some e =>
    let s1 := logEventAt s g.ctx 4 (unitField g.party) (coreField g.party) 0xFFFFFFFF e.2.1
    let s2 := match g.list with
      | some (k, off) => groupXb (if listOk s1 (k, off) e.1 then settleEntry s1 g.party k (off + 32 * e.1) noTok 3 else s1) key true
      | none => s1
    let s2 := match g.party with
      | .super _ => mapLaunch s2 g.die g.launch fun l => { l with ovfRefused := e.2.1 :: l.ovfRefused }
      | _ => s2
    closeGroup (dropEntry s2 key i (if g.list.isNone then [e.2.1] else [])) key

/-- One 16-byte reply (R329); one that names no open request is logged to the context's error queue, with a
kind that the spec does not state: a free value (log 22). -/
def takeReply (s : State) (ctx r : Nat) : State :=
  let g := bits r 0 32
  let idx := bits r 32 8
  let code := bits r 40 8
  match s.groups.find? fun e => decide (e.1 = g) && decide (e.2.ctx = ctx) && e.2.entries.any fun x => decide (x.1 = idx) with
  | none => let k := free 16 s; logErrorAt k.2 ctx { kind := k.1.toNat, core := 0, unit := 0xFF, record := g }
  | some (key, grp) =>
    match indexWhere (fun x : Nat × Nat × Nat => decide (x.1 = idx)) grp.entries with
    | none => s
    | some i => if code = 0 then replay s key i else refuse s key i

/-- A reply for a group of a die that its context is switched off: it, and what follows it, is taken on restore (R419). -/
def replyOff (s : State) (ctx r : Nat) : Bool :=
  s.groups.any fun e => decide (e.1 = bits r 0 32) && decide (e.2.ctx = ctx) && (ctxOf s ctx).off.contains e.2.die

/-- Replies taken in ring order up to PROD; then CONS advances. -/
def takeReplies (s : State) (ctx ctrl : Nat) : Nat → State
  | 0 => s
  | n + 1 =>
    let cons := rdNear s (ctrl + 24) 8
    if rdNear s (ctrl + 16) 8 ≤ cons then s
    else
      let r := rdNear s (rdNear s ctrl 8 + 16 * (cons % 2 ^ (rdNear s (ctrl + 8) 1))) 16
      if replyOff s ctx r then s else takeReplies (wrNear (takeReply s ctx r) (ctrl + 24) (leBytes 8 (cons + 1))) ctx ctrl n

/-- The replies of a context's ring taken. -/
def readReplies (s : State) (ctx : Nat) : State :=
  if (ctxOf s ctx).live then
    let ctrl := (ctxOf s ctx).params.repRing
    takeReplies s ctx ctrl (2 ^ (rdNear s (ctrl + 8) 1))
  else s

/-- PAGE_REPLY: the device takes what the reply ring of a function holds. -/
def execPageReply (vf : Nat) (s : State) : Host.Outcome State Fault Refusal := .next (readReplies s vf)

end Sys2Proof.Machine
end

