-- ==== Sys2Proof/Machine/Revoke.lean ====
section
/-! DEFINITION. Revocation and sealing (spec 13, R331-R339): `trel`, `krevoke`, `seal`, `unseal`, and the events of
drain, sweep and free. -/

namespace Sys2Proof.Machine

/-! ## Revocation (R332) -/

/-- Step 1: the generation is bumped and the slot joins the sweep set. -/
def bump (s : State) (slot : Nat) : State :=
  mapSlot { s with sweepSet := s.sweepSet ++ [slot] } slot fun r =>
    { r with gen := r.gen + 1, state := .sweeping, drained := false, swept := false }

/-- Revocations that wait for room in the sweep set of 16 begin in order. -/
def startRevokes (s : State) : Nat → State
  | 0 => s
  | n + 1 =>
    match s.revokeQ with
    | [] => s
    | k :: r => if 16 ≤ s.sweepSet.length then s else startRevokes (bump { s with revokeQ := r } k) n

/-- Requests of `tierpf` on a revoked slot are cancelled (R411): each adds its bytes and sets CANCEL. -/
def cancelTier (s : State) (die : Nat) (sel : TierReq → Bool) : State :=
  let hit := (dieOf s die).tier.filter sel
  let s1 := mapDie s die fun d => { d with tier := d.tier.filter fun r => !sel r }
  hit.foldl (fun s r => barrierAdd s (.stream die r.ctx) r.barSlot r.barOff r.bytes true) s1

def revoke (s : State) (slot : Nat) : State :=
  if (slotOf s slot).state != .live || s.revokeQ.contains slot then s
  else
    let s1 := startRevokes { s with revokeQ := s.revokeQ ++ [slot] } 1
    [0, 1, 2, 3].foldl (fun s d => cancelTier s d fun r => decide (r.slot = slot)) s1

/-- A slot being revoked: waiting for the sweep set, or sweeping. -/
def revoking (s : State) (slot : Nat) : Bool := s.revokeQ.contains slot || (slotOf s slot).state = .sweeping

/-- REVOCATION_DRAIN_DONE: with no access in flight the frames are unpinned (step 2). -/
def execRevocationDrainDone (slot : Nat) (s : State) : Host.Outcome State Fault Refusal :=
  let r := slotOf s slot
  .next (if r.state = .sweeping && r.inflt = 0 then mapSlot s slot fun r => { r with drained := true } else s)

/-- The slots that a sweep covers: those drained. -/
def sweptNow (s : State) : List Nat := s.sweepSet.filter fun n => (slotOf s n).drained

def clearK (l : List Nat) (k : KReg) : KReg := if l.contains (kSlot k) then { k with tag := false } else k
def clearVal (l : List Nat) : Val → Val
  | .tok k => .tok (clearK l k)
  | v => v
def clearTask (l : List Nat) (t : Task) : Task :=
  { t with
    k := t.k.map fun e => (e.1, clearK l e.2)
    flights := t.flights.map fun f => { f with val := clearVal l f.val }
    buf := clearK l t.buf
    stack := t.stack.map fun e => (clearK l e.1, e.2)
    wait := match t.wait with | .frsave n k off sent => .frsave n (clearK l k) off sent | w => w
    stores := t.stores.map fun st => match st.act with
      | .token slot off true =>
        if st.cells.length = 16 && l.contains (leNat ((st.cells.drop 14).map (·.byte))) then { st with act := .token slot off false } else st
      | _ => st }
def clearStream (l : List Nat) (e : Stream) : Stream := { e with kshadow := e.kshadow.map fun k => (k.1, clearK l k.2) }

/-- The tag bits of 16-byte units whose SLOT field is swept. -/
def clearTags (m : Memory) (tags : Table Bool) (keep : Nat → Bool) (l : List Nat) : Table Bool :=
  tags.filter fun e => !e.2 || keep e.1 || !l.contains (leNat [mget m (16 * e.1 + 14), mget m (16 * e.1 + 15)])

def clearCore (l : List Nat) (c : Core) : Core :=
  { c with tags := clearTags c.mem c.tags (fun _ => false) l, copyS := clearStream l c.copyS, matrixS := clearStream l c.matrixS
           epiS := clearStream l c.epiS, window := c.window.map fun w => { w with tok := clearK l w.tok } }
def clearLaunch (l : List Nat) (e : Launch) : Launch :=
  { e with
    image := { e.image with tok := clearK l e.image.tok }
    doneTok := clearK l e.doneTok
    dbg := { e.dbg with gspill := clearK l e.dbg.gspill }
    fspill := clearK l e.fspill
    cspill := clearK l e.cspill
    args := e.args.map (clearK l)
    conts := e.conts.map fun c => { c with
      live := c.live.map fun v => (v.1, clearVal l v.2), streams := c.streams.map fun x => (x.1, clearStream l x.2) } }

/-- A unit of near (or far) memory that no context has registered: its tag bit is ignored and not visited. -/
def unregistered (s : State) (far : Bool) (u : Nat) : Bool :=
  let a := if far then 2 ^ 42 + 16 * u else 16 * u
  !s.ctxs.any fun c => c.2.pages.any fun r => decide (r.1 ≤ a) && decide (a < r.1 + r.2)

/-- SWEEP (step 3, R333): every copy of a token that names a drained slot of the sweep set loses its tag. -/
def execSweep (s : State) : Host.Outcome State Fault Refusal :=
  let l := sweptNow s
  let s1 := { s with
    tasks := s.tasks.map fun e => (e.1, clearTask l e.2)
    saved := s.saved.map fun e => (e.1, clearTask l e.2)
    shelf := s.shelf.map fun e => (e.1, e.2.1, clearTask l e.2.2)
    cores := s.cores.map fun e => (e.1, clearCore l e.2)
    coreShelf := s.coreShelf.map fun e => (e.1, e.2.1, clearCore l e.2.2)
    dies := s.dies.map fun d => (d.1, { d.2 with ringTok := clearK l d.2.ringTok, launches := d.2.launches.map fun e => (e.1, clearLaunch l e.2) })
    groups := s.groups.map fun g => (g.1, { g.2 with list := g.2.list.map fun x => (clearK l x.1, x.2) })
    colls := s.colls.map fun c => { c with src := clearK l c.src, dst := clearK l c.dst }
    nearTags := clearTags s.near s.nearTags (unregistered s false) l
    farTags := clearTags s.far s.farTags (unregistered s true) l }
  .next (l.foldl (fun s n => mapSlot s n fun r => { r with swept := true }) s1)

/-- An abandoned pair ends with the last word that is looked up through it (R408). -/
def dropPairs (s : State) : State :=
  let kept (d : Nat) (p : Nat × SwapPair) : Bool := !p.2.abandoned || s.words.any fun w => decide (w.2.pair = some (d, p.1))
  { s with dies := s.dies.map fun d => (d.1, { d.2 with pairs := d.2.pairs.filter (kept d.1) }) }

/-- SLOT_FREE (step 4, R340): every field but GEN zeroed, the words freed, the slot leaves the sweep set. -/
def execSlotFree (slot : Nat) (s : State) : Host.Outcome State Fault Refusal :=
  let r := slotOf s slot
  .next (if r.state = .sweeping && r.swept then
    startRevokes (dropPairs { s with
      slots := tput s.slots slot { PinSlot.fresh with gen := r.gen }
      words := s.words.filter fun e => !(decide (r.first ≤ e.1) && decide (e.1 ≤ r.first + r.nwords))
      pinCold := s.pinCold.filter fun e => e.2 != slot
      images := s.images.filter fun i => kSlot i.tok != slot
      sweepSet := s.sweepSet.filter (· != slot) }) 1
  else s)

/-! ## trel, krevoke (R335, R336) -/

def trelAct (f : FmtA) (sg : List Nat) (s : State) : Act :=
  let k := rdTok s s.cur f.a
  if kCurrent s k then
    doneNow sg (revoke (mapTask s s.cur fun t => { t with k := tset noTok t.k (regNo f.a) { k with tag := false } }) (kSlot k))
  else doneNow sg s
def planTrel (f : FmtA) (s : State) (p : Party) : Plan :=
  { tk := f.tk, ill := illTrel f, reads := readsA f, cold := coldSlot s p (rdTok s p f.a) }
def execTrel (f : FmtA) (s : State) : Host.Outcome State Fault Refusal := runWord (.trel f) (planTrel f) (trelAct f) s

def planKrevoke (f : FmtA) (s : State) (p : Party) : Plan :=
  { tk := f.tk, ill := (5, decide (65535 < (rdScal s p f.a).toNat)) :: illKrevoke f, reads := readsA f, nres := 1
    priv := !isSuper p, lands := some (false, 1, 1) }
def krevokeAct (f : FmtA) (sg : List Nat) (s : State) : Act :=
  let n := (opA f s).toNat
  let r := slotOf s n
  if r.state = .sweeping then .hold fun t => { t with wait := .revoke f n 0 }
  else if r.state = .live && (clsOf f.b = .none || (opB f s).extractLsb' 0 8 = r.gen) then
    .hold fun t => { t with wait := .revoke f n 1 }
  else putObj f 0 0 sg s
/-- The revocation starts as the word begins to wait. -/
def beginRevoke (s0 s1 : State) (p : Party) : State :=
  match (taskOf s0 p).wait, (taskOf s1 p).wait with
  | .none, .revoke _ n r => if r = 1 then revoke s1 n else s1
  | _, _ => s1
def execKrevoke (f : FmtA) (s : State) : Host.Outcome State Fault Refusal :=
  match (taskOf s s.cur).wait with
  | .revoke _ n r =>
    .next (if revoking s n then s else finishWord s s.cur ((encodeWord (.krevoke f)).getD 0) f.tk (putObj f r 0))
  | _ => .next (beginRevoke s (issueWord ((encodeWord (.krevoke f)).getD 0) (planKrevoke f) (krevokeAct f) s) s.cur)

/-! ## seal, unseal (R337-R339) -/

/-- The physical runs of an extent: page by page, neighbours merged. -/
def addRun (l : List (Space × Nat × Nat)) (r : Space × Nat × Nat) : List (Space × Nat × Nat) :=
  match l.getLast? with
  | some (sp, a, n) => if sp = r.1 && a + n = r.2.1 then l.dropLast ++ [(sp, a, n + r.2.2)] else l ++ [r]
  | none => [r]
/-- The bytes [lo, hi) of one unit of 64 KiB of an extent: where they stand, and the second frame in which a retirement move holds them too (R414).
Bytes of any other pair are looked up line by line (R405, R408). -/
def unitRuns (s : State) (slot lo hi : Nat) : List (Space × Nat × Nat) × List (Space × Nat × Nat) :=
  let r := slotOf s slot
  let w := wordOf s (r.first + lo / psBytes r.ps)
  let run (a b : Nat) : Space × Nat × Nat := let pl := pinLookup s slot a; (pl.space, pl.addr, b - a)
  match (if w.swap = 0 then none else pairOf s w) with
  | none => ([run lo hi], [])
  | some p =>
    let x := lo % psBytes r.ps
    if p.retire && !p.abandoned then ([(w.space, w.frameA * 65536 + x, hi - lo)], [(spaceB p w.space, w.frameB * 65536 + x, hi - lo)])
    else ((List.range ((hi + 127) / 128 - lo / 128)).map fun i => run (max lo (128 * (lo / 128 + i))) (min hi (128 * (lo / 128 + i + 1))), [])
def runsOf (s : State) (k : KReg) : List (Space × Nat × Nat) :=
  let b := kBase k
  let n := kLen k
  let first := b / 65536
  let count := (b + n + 65535) / 65536 - first
  let l := (List.range count).map fun i => unitRuns s (kSlot k) (max b (65536 * (first + i))) (min (b + n) (65536 * (first + i + 1)))
  ((l.flatMap (·.1)) ++ l.flatMap (·.2)).foldl addRun []

/-- A page of the extent takes part in an open swap, in which no byte is sealed (R404): its seal waits (DESIGN CHOICE, log 40). -/
def swapIn (s : State) (k : KReg) : Bool :=
  let r := slotOf s (kSlot k)
  let pb := psBytes r.ps
  (List.range ((kBase k + kLen k + pb - 1) / pb - kBase k / pb)).any fun i =>
    let w := wordOf s (r.first + kBase k / pb + i)
    decide (w.swap ≠ 0) && (pairOf s w).any fun p => !p.abandoned && !p.retire

def runsOverlap (a b : List (Space × Nat × Nat)) : Bool :=
  a.any fun x => b.any fun y => decide (x.1 = y.1) && overlap x.2.1 x.2.2 y.2.1 y.2.2

def planSealWord (f : FmtA) (s : State) (p : Party) : Plan :=
  { tk := f.tk, ill := illSeal f, reads := readsA f, nres := 1, lands := some (false, 1, 1), cold := coldSlot s p (rdTok s p f.a)
    ready := (taskOf s p).stores.isEmpty }
/-- The code of a refused seal, or the runs to enter. -/
def sealAct (f : FmtA) (sg : List Nat) (s : State) : Act :=
  let k := rdTok s s.cur f.a
  let c := checkTok s k (kR k && kW k)
  let runs := runsOf s k
  if c.flag != 0 then putObj f (if c.flag = fST then 1 else 2) c.flag sg (chkFail s s.cur k c)
  else if kBase k % 128 != 0 || kLen k % 128 != 0 || kLen k = 0 || runsOverlap runs s.sealRuns then putObj f 2 0 sg s
  else if 1024 < s.sealRuns.length + runs.length then putObj f 3 0 sg s
  else .hold fun t => { t with wait := .seal f runs }
def execSeal (f : FmtA) (s : State) : Host.Outcome State Fault Refusal :=
  orWaits s (runWord (.seal f) (planSealWord f) (sealAct f) s)

/-- The runs of a waiting seal as its pages stand now; those it issued with, if its token has been revoked since. -/
def sealNow (s : State) (k : KReg) (runs : List (Space × Nat × Nat)) : List (Space × Nat × Nat) := if kCurrent s k then runsOf s k else runs
/-- SEAL_IN_FORCE: the seal takes effect on every die and its code lands, once none of its pages takes part in a swap. Another seal that came first
is met again. -/
def execSealInForce (p : Party) (s : State) : Host.Outcome State Fault Refusal :=
  let s0 := { s with cur := p }
  .next (match (taskOf s p).wait with
    | .seal f runs0 =>
      let w := (encodeWord (.seal f)).getD 0
      let k := rdTok s p f.a
      let runs := sealNow s k runs0
      if kCurrent s k && swapIn s k then s
      else if runsOverlap runs s.sealRuns then finishWord s0 p w f.tk (putObj f 2 0)
      else if 1024 < s.sealRuns.length + runs.length then finishWord s0 p w f.tk (putObj f 3 0)
      else finishWord { s0 with sealRuns := s0.sealRuns ++ runs } p w f.tk (putObj f 0 0)
    | _ => s)

/-- The bytes [lo, hi) of a space lie within runs, of which each step passes one. -/
def bytesWithin (sp : Space) (l : List (Space × Nat × Nat)) : Nat → Nat → Nat → Bool
  | 0, lo, hi => decide (hi ≤ lo)
  | n + 1, lo, hi =>
    decide (hi ≤ lo) || match l.find? fun x => decide (x.1 = sp ∧ x.2.1 ≤ lo ∧ lo < x.2.1 + x.2.2) with
      | some x => bytesWithin sp l n (x.2.1 + x.2.2) hi
      | none => false
/-- A run wholly within runs. -/
def runWithin (r : Space × Nat × Nat) (l : List (Space × Nat × Nat)) : Bool :=
  bytesWithin r.1 l l.length r.2.1 (r.2.1 + r.2.2)

/-- A weight buffer filled from sealed bytes that are unsealed is zeroed (R339). -/
def zeroWb (c : Core) (gone : List (Space × Nat × Nat)) : Core :=
  let hit (w : Nat) : Bool := c.wbRuns.any fun r => decide (r.1 = w) && gone.any fun g =>
    decide (g.1 = r.2.1) && overlap g.2.1 g.2.2 r.2.2.1 r.2.2.2
  let z0 := hit 0
  let z1 := hit 1
  { c with
    wb0 := if z0 then [] else c.wb0
    wb1 := if z1 then [] else c.wb1
    wbBad := c.wbBad.filter fun e => !(z0 && e.1 < 1024) && !(z1 && 1024 ≤ e.1)
    wbRuns := c.wbRuns.filter fun r => !(z0 && r.1 = 0) && !(z1 && r.1 = 1) }

def goneRuns (s : State) (k : KReg) : List (Space × Nat × Nat) := s.sealRuns.filter fun r => runWithin r (runsOf s k)

/-- No `mma` in progress reads a weight buffer filled from the runs. -/
def wbQuiet (s : State) (gone : List (Space × Nat × Nat)) : Bool :=
  s.cores.all fun e => e.2.matrixS.prog.isEmpty || !e.2.wbRuns.any fun r => gone.any fun g =>
    decide (g.1 = r.2.1) && overlap g.2.1 g.2.2 r.2.2.1 r.2.2.2

def planUnseal (f : FmtA) (s : State) (p : Party) : Plan :=
  { planSealWord f s p with ready := wbQuiet s (goneRuns s (rdTok s p f.a)) }
def unsealAct (f : FmtA) (sg : List Nat) (s : State) : Act :=
  let k := rdTok s s.cur f.a
  if !kCurrent s k then putObj f 1 0 sg s
  else
    let gone := goneRuns s k
    if !(kR k && kW k) || gone.isEmpty then putObj f 2 0 sg s
    else putObj f 0 0 sg (dropReplicas { s with
      sealRuns := s.sealRuns.filter fun r => !gone.contains r
      cores := s.cores.map fun e => (e.1, zeroWb e.2 gone)
      coreShelf := s.coreShelf.map fun e => (e.1, e.2.1, zeroWb e.2.2 gone) })
def execUnseal (f : FmtA) (s : State) : Host.Outcome State Fault Refusal := runWord (.unseal f) (planUnseal f) (unsealAct f) s

end Sys2Proof.Machine
end

