-- ==== Sys2Proof/Machine/Cluster.lean ====
section
/-! DEFINITION. The cluster (spec 11, R256-R275): stage queues and their overflow, residency and the start rule, multicast,
moves between stages, `qsend`, `qtake`, `stage`, `mcast`; and firing (spec 12, R282). -/

namespace Sys2Proof.Machine

/-! ## Cores of a launch and of a stage (R256) -/

def coresBound (s : State) (d l : Nat) : List (Nat × Core) := s.cores.filter fun e => decide (e.2.bound = some (d, l))
/-- The cores of a stage in a cluster, rising; one that faulted has left its stage (R275). -/
def stageCores (s : State) (d l cluster stage : Nat) : List (Nat × Core) :=
  (coresBound s d l).filter fun e => decide (clusterOf e.1 = cluster) && decide (e.2.stage = some stage) && !e.2.dead
/-- The clusters that hold cores of a stage, rising. -/
def stageClusters (s : State) (d l stage : Nat) : List Nat :=
  ((coresBound s d l).filter fun e => decide (e.2.stage = some stage) && !e.2.dead).map (fun e => clusterOf e.1) |>.eraseDups

/-- A launch that starts and fires: bound, running, no victim (R291), not stopped (R382). -/
def starting (e : Launch) : Bool := e.state = .running && e.victimBy.isNone && !e.stopHeld && !e.switched

/-! ## Queues and their overflow (R257, R266, R267) -/

def queueKey (cluster stage : Nat) : Nat := 8 * cluster + stage
def queueOf (e : Launch) (key : Nat) : List Entry := tget [] e.queues key
def setQueue (e : Launch) (key : Nat) (l : List Entry) : Launch := { e with queues := tset [] e.queues key l }
def overflowOf (e : Launch) (key : Nat) : List (Nat × Nat × Entry) := e.overflow.filter fun o => decide (o.1 = key)
/-- Room for an arrival without spill: spilled entries return before any later arrival. -/
def queueRoom (e : Launch) (key : Nat) : Bool := decide ((queueOf e key).length < 256) && (overflowOf e key).isEmpty

/-- The next place of the overflow area in arrival order (R266): DESIGN CHOICE (log 24): the first free one after the newest entry's, the area
taken as a ring, and place 0 in an empty area. -/
def overflowPlace (e : Launch) : Option Nat :=
  let n := e.ovfLen / 64
  let first := match e.overflow.getLast? with | some o => o.2.1 / 64 + 1 | none => 0
  (List.range (min n (e.overflow.length + 1))).findSome? fun i =>
    let at_ := 64 * ((first + i) % n)
    if e.overflow.any fun o => decide (o.2.1 = at_) then none else some at_

/-- The place of a byte of the overflow area, translated as `xlat` does. -/
def overflowByte (s : State) (e : Launch) (pk va : Nat) : Walk Place :=
  if 0xFFFFFFFFE0000000 ≤ va then
    (if boundTo s e.ctx (va % 2 ^ 29 / 2 ^ 20) && decide (va < 2 ^ 64) then .ok ⟨.hall, va % 2 ^ 29⟩ else .fault ⟨0, 0, 0⟩)
  else (walkPage s e.ctx va pk).bind fun p =>
    match spaceOf p.space with
    | some sp => .ok ⟨sp, p.pa + (va - p.va)⟩
    | none => .fault ⟨0, 0, 0⟩
/-- The 64 places of an entry, or the first fault and its address. -/
def overflowPlaces (s : State) (e : Launch) (pk place : Nat) : List Place ⊕ (Nat × PFault) :=
  (List.range 64).foldl (fun a i =>
    match a with
    | .inr f => .inr f
    | .inl l =>
      match (overflowByte s e pk (e.ovfl + place + i)).res with
      | .inr p => .inl (l ++ [p])
      | .inl f => .inr (e.ovfl + place + i, f.1)) (.inl [])
/-- The tables that lead to them read (R398). -/
def overflowWalked (s : State) (e : Launch) (pk place : Nat) : State :=
  if 2 ^ 52 ≤ e.ovfl + place then s else walked s e.ctx (e.ovfl + place) 64 pk

def entryBytes (n : Entry) : List Byte :=
  leBytes 8 n.pay0.toNat ++ leBytes 8 n.pay1.toNat ++ insBytes n.ins ++ pointBytes n.point

/-- An entry read back from its 64 bytes; arrival and class are the Usher's own. -/
def entryOfBytes (bs : List Byte) (n : Entry) : Entry :=
  let fld (o w : Nat) : Nat := leNat ((bs.drop o).take w)
  { n with
    pay0 := BitVec.ofNat 64 (fld 0 8), pay1 := BitVec.ofNat 64 (fld 8 8)
    ins := (List.range 8).map fun i => fld (16 + 4 * i) 4
    point := (List.range 4).map fun i => fld (48 + 4 * i) 4 % 2 ^ 20 }

/-- What becomes of an arriving entry. -/
inductive Placed where
  | done (s : State)
  | wait (s : State)

/-- A request group for the overflow area (R267): the cluster's senders wait on it. -/
def openOverflow (s : State) (d l cluster va : Nat) (f : PFault) : State :=
  match freeGroup s d with
  | none => s
  | some g =>
    let ctx := (launchOf s d l).ctx
    let key := 512 * d + g
    let grp : Group := ⟨.super d, ctx, d, l, none, [(0xFF, va, 12)], [], false⟩
    let s1 := { s with groups := tput s.groups key grp }
    let s2 := sendRequest s1 ctx (requestBytes ctx key (0xFF, va, 12) f)
    mapLaunch s2 d l fun e => { e with ovfWait := if e.ovfWait.contains cluster then e.ovfWait else e.ovfWait ++ [cluster] }

/-- A spilled entry lost (R275, kind 7). -/
def loseEntry (s : State) (d l stage core : Nat) (n : Entry) : State :=
  settlePoint (usherItem s (launchOf s d l).ctx 7 core stage) d l n.point true

/-- The Core field of an item that names a cluster's first core. -/
def clusterField (cluster : Nat) : Nat := cluster * 64

/-- A page of the area that a reply has refused, taken note of (R329): the entry that needs it is lost (R275). -/
def dropRefused (s : State) (d l va : Nat) : State := mapLaunch s d l fun e => { e with ovfRefused := e.ovfRefused.filter (· != va) }

/-- An entry goes to the next place of the overflow area (R266). -/
def toOverflow (s0 : State) (d l key : Nat) (n : Entry) : Placed :=
  let e := launchOf s0 d l
  match overflowPlace e with
  | none => .wait s0
  | some place =>
    let s := overflowWalked s0 e 12 place
    match overflowPlaces s e 12 place with
    | .inr (va, f) =>
      if f.detail = 0 || e.ovfRefused.contains va then .done (loseEntry (dropRefused s d l va) d l (key % 8) (clusterField (key / 8)) n)
      else if e.ovfWait.contains (key / 8) then .wait s
      else .wait (openOverflow s d l (key / 8) va f)
    | .inl pls =>
      let s1 := wrPlaces s (.stream d e.ctx) 0xFFFF (e.ovfl + place) (pls.zip ((entryBytes n).map fun b => (b, 0xFF#8)))
      .done (mapLaunch s1 d l fun e => { e with overflow := e.overflow ++ [(key, place, n)] })

/-- An entry placed in its queue, or in the overflow area (R266). -/
def placeEntry (s : State) (d l cluster stage : Nat) (n : Entry) : Placed :=
  let e := launchOf s d l
  let key := queueKey cluster stage
  if queueRoom e key then .done (mapLaunch s d l fun e => setQueue e key (queueOf e key ++ [n])) else toOverflow s d l key n

/-- The overflow area holds entries and has no place left. -/
def areaFull (e : Launch) : Bool := !e.overflow.isEmpty && (overflowPlace e).isNone
/-- A group waits (R267): a translation of the area is pending, no place of it is left, or its queue is full and there is no area. -/
def arrivalWaits (e : Launch) (cluster stage : Nat) : Bool :=
  e.ovfWait.contains cluster || areaFull e || (!queueRoom e (queueKey cluster stage) && (overflowPlace e).isNone)

/-- The task slots of a cluster in order. -/
def clusterSlots (cluster : Nat) : List Party :=
  (List.range 16).flatMap fun c => (List.range 4).map fun n => .slot (16 * cluster + c) n

/-- A task of a run stands at the `qsend` at a word: its entry has come to its queue and waits, or the word itself has not issued. -/
def sendsAt (t : Task) (x : Nat × Nat) : Bool :=
  decide (t.run = x.1) && match t.stores.find? fun e => match e.act with | .qsend _ _ _ => true | _ => false with
    | some e => decide (e.word = x.2)
    | none => t.status = .run && decide (t.here = x.2)
/-- The tasks of a cluster that wait with a `qsend`, in the order in which they came (R267), by run number and word. -/
def senders (s : State) (e : Launch) (cluster : Nat) : List (Nat × Nat) :=
  e.ovfSend.filter fun x => (clusterSlots cluster).any fun p => sendsAt (taskOf s p) x
/-- A sender comes, once. -/
def sendComes (s : State) (d l : Nat) (x : Nat × Nat) : State :=
  mapLaunch s d l fun e => { e with ovfSend := if e.ovfSend.contains x then e.ovfSend else e.ovfSend ++ [x] }

/-- The oldest spilled entry whose queue has a free place. -/
def returning (e : Launch) : Option Nat := indexWhere (fun o => decide ((queueOf e o.1).length < 256)) e.overflow

/-- SPILL_ENTRY_RETURN: spilled entries return oldest first (R266); one that cannot be read back is lost (R275). -/
def execSpillEntryReturn (die l : Nat) (s : State) : Host.Outcome State Fault Refusal :=
  let e := launchOf s die l
  .next (match returning e with
    | none => s
    | some i =>
      match e.overflow[i]? with
      | none => s
      | some (key, place, n) =>
        let out (s : State) : State := mapLaunch s die l fun e => { e with overflow := dropAt e.overflow i }
        let s := overflowWalked s e 12 place
        match overflowPlaces s e 12 place with
        | .inr (va, f) =>
          if f.detail = 0 || e.ovfRefused.contains va then loseEntry (dropRefused (out s) die l va) die l (key % 8) (clusterField (key / 8)) n
          else if e.ovfWait.contains (key / 8) then s else openOverflow s die l (key / 8) va f
        | .inl pls =>
          let s := readAtoms s pls
          if pls.any (placePoison s) then loseEntry (out s) die l (key % 8) (clusterField (key / 8)) n
          else
            let n1 := entryOfBytes (pls.map (rdByte s)) n
            mapLaunch (out s) die l fun e => setQueue e key (queueOf e key ++ [n1]))

/-- OVERFLOW_TRANSLATION_DONE: no page request of the area is open any longer, and the group resumes. -/
def execOverflowTranslationDone (die l : Nat) (s : State) : Host.Outcome State Fault Refusal :=
  let open_ := s.groups.any fun g => decide (g.2.party = .super die) && decide (g.2.die = die) && decide (g.2.launch = l)
  .next (if open_ then s else mapLaunch s die l fun e => { e with ovfWait := [] })

/-! ## Firing (R282, R285, R291) -/

/-- The launches of a die in the order the Stairwell takes them. -/
def fireOrder (s : State) (d : Nat) : List Nat :=
  let better (a b : Nat × Launch) : Bool := decide (b.2.prio < a.2.prio) || (a.2.prio = b.2.prio && decide (a.2.seq < b.2.seq))
  let ins (x : Nat × Launch) : List (Nat × Launch) → List (Nat × Launch) := fun l => (l.takeWhile fun y => !better x y) ++ [x] ++ l.dropWhile fun y => !better x y
  ((((dieOf s d).launches.filter fun e => starting e.2).foldl (fun l x => ins x l) []).map (·.1))

/-- The cluster whose stage 0 queue receives the next fired point. -/
def fireCluster (s : State) (d l : Nat) : Option Nat :=
  let e := launchOf s d l
  (stageClusters s d l 0).foldl (fun a c =>
    match a with
    | none => some c
    | some b => if (queueOf e (queueKey c 0)).length < (queueOf e (queueKey b 0)).length then some c else some b) none

/-- Points in flight of the launches that have not ended. -/
def flyingOn (s : State) (d : Nat) : Nat :=
  ((dieOf s d).launches.map fun l => if l.2.state = .done || l.2.state = .failed then 0 else l.2.flying.length).sum

/-- What a launch would fire: the point and its cluster. -/
def fireable (s : State) (d l : Nat) : Option (List Nat × Nat) :=
  let e := launchOf s d l
  match firingPoint s d l, fireCluster s d l with
  | some pt, some c => if arrivalWaits e c 0 || !(senders s e c).isEmpty then none else some (pt, c)
  | _, _ => none

def firedEntry (s : State) (e : Launch) (pt : List Nat) : Entry := ⟨0, 0, [], pt, s.clock, e.prio, false⟩

/-- STAIRWELL_FIRE: at most one point, and none while the die holds 4,096 in flight. -/
def execStairwellFire (die : Nat) (s : State) : Host.Outcome State Fault Refusal :=
  .next (if 4096 ≤ flyingOn s die then s
  else match (fireOrder s die).findSome? fun l => (fireable s die l).map fun x => (l, x) with
    | none => s
    | some (l, pt, c) =>
      let s1 := mapLaunch s die l fun e => { e with flying := e.flying ++ [⟨pt, 1, false, false, 0, 0⟩] }
      match placeEntry s1 die l c 0 (firedEntry s (launchOf s die l) pt) with
      | .done s2 => s2
      | .wait s2 => mapLaunch s2 die l fun e => { e with flying := e.flying.filter fun g => g.point != pt })

/-! ## The start rule (R260, R261, R269) -/

/-- The declared inputs of an entry. -/
def declared (ins : List Nat) : List Nat := ins.filter (· != 0)
def resident (c : Core) (ins : List Nat) : Bool := (declared ins).all fun i => c.residents.any fun r => decide (r.1 = i)

/-- A party's window in a slot of a core is empty. -/
def slotIdle (s : State) (core n : Nat) : Bool := (taskOf s (.slot core n)).status = .idle
def freeTaskSlot (s : State) (core : Nat) : Option Nat := [0, 1, 2, 3].find? (slotIdle s core)

/-- The core a task of the stage with these inputs starts on: the lowest that meets R260. -/
def startCore (s : State) (d l cluster stage : Nat) (ins : List Nat) (ok : Nat → Bool := fun _ => true) : Option (Nat × Nat) :=
  (stageCores s d l cluster stage).findSome? fun e =>
    if e.2.moving.isNone && !e.2.stopped && resident e.2 ins && ok e.1 then (freeTaskSlot s e.1).map fun n => (e.1, n) else none

/-- The line compared axis by axis (R261). -/
def lineKey (e : Launch) (pt : List Nat) : List Nat := (lineAxes e).map fun a => pt.getD a 0
def lexLess : List Nat → List Nat → Bool
  | a :: r, b :: s => decide (a < b) || (a = b && lexLess r s)
  | [], _ :: _ => true
  | _, [] => false

/-- A candidate for a start: what R261 compares, and where it stands. -/
structure Cand where
  cls : Nat
  sweep : Nat
  line : List Nat
  arrived : Nat
  die : Nat
  launch : Nat
  key : Nat
  idx : Nat
  core : Nat
  slot : Nat

/-- `a` before `b` by class, sweep and line. -/
def Cand.ahead (a b : Cand) : Bool :=
  decide (b.cls < a.cls) || (a.cls = b.cls &&
    (decide (a.sweep < b.sweep) || (a.sweep = b.sweep && lexLess a.line b.line)))
def Cand.before (a b : Cand) : Bool := a.ahead b || (!b.ahead a && decide (a.arrived < b.arrived))
def bestCand (l : List Cand) : Option Cand :=
  l.foldl (fun m c => match m with | none => some c | some b => if c.before b then some c else some b) none

def launchesIn (s : State) (cluster : Nat) : List (Nat × Nat × Launch) :=
  (s.dies.flatMap fun d => d.2.launches.map fun l => (d.1, l.1, l.2)).filter fun x =>
    starting x.2.2 && (coresBound s x.1 x.2.1).any fun e => decide (clusterOf e.1 = cluster)

/-- The startable entries of a cluster. -/
def entryCands (s : State) (cluster : Nat) : List Cand :=
  (launchesIn s cluster).flatMap fun x =>
    let e := x.2.2
    (List.range e.stages.length).flatMap fun st =>
      let q := queueOf e (queueKey cluster st)
      ((List.range q.length).zip q).filterMap fun y =>
        (startCore s x.1 x.2.1 cluster st y.2.ins).map fun c =>
          ⟨y.2.cls, sweepOf e y.2.point, lineKey e y.2.point, y.2.arrived, x.1, x.2.1, queueKey cluster st, y.1, c.1, c.2⟩
/-- The resumable records of a cluster; one in the launch's spill area resumes in any cluster of its stage. -/
def contCands (s : State) (cluster : Nat) : List Cand :=
  (launchesIn s cluster).flatMap fun x =>
    let e := x.2.2
    ((List.range e.conts.length).zip e.conts).filterMap fun y =>
      if y.2.ready && (y.2.spilled || y.2.cluster = cluster) then
        (startCore s x.1 x.2.1 cluster y.2.stage y.2.ins fun c =>
            y.2.streams.all fun q => !streamBusy (theStream s c q.1)).map fun c =>
          ⟨e.prio, sweepOf e y.2.point, lineKey e y.2.point, 0, x.1, x.2.1, y.2.stage, y.1, c.1, c.2⟩
      else none

/-- The point has a task that started. -/
def beginPoint (e : Launch) (pt : List Nat) : Launch :=
  { e with flying := e.flying.map fun g => if g.point = pt then { g with begun := true } else g }

/-- A task started from an entry, in the window of R51 (R257, R277); its start is an acquire (R345). -/
def startTask (s : State) (d l core n stage : Nat) (ent : Entry) : Option State :=
  let e := launchOf s d l
  (argToks s core e).map fun x =>
    let s1 := { x.1 with runNo := x.1.runNo + 1 }
    let t : Task := { Task.fresh with
      status := .run, ctx := e.ctx, launch := some (d, l), stage := stage, point := ent.point, run := s1.runNo
      pc := ((e.stages[stage]?).map (·.word)).getD 0, k := x.2, entry := ent }
    noteOrder (mapLaunch (putTask s1 (.slot core n) t) d l fun e => beginPoint e ent.point) (.slot core n)

/-- USHER_TASK_START: the first startable entry by R261, unless a resumable record goes ahead of it (R269). -/
def execUsherTaskStart (cluster : Nat) (s : State) : Host.Outcome State Fault Refusal :=
  .next (match bestCand (entryCands s cluster), bestCand (contCands s cluster) with
    | some c, r =>
      if r.any fun q => !c.ahead q then s
      else match (queueOf (launchOf s c.die c.launch) c.key)[c.idx]? with
        | none => s
        | some ent =>
          let s1 := mapLaunch s c.die c.launch fun e => setQueue e c.key (dropAt (queueOf e c.key) c.idx)
          (startTask s1 c.die c.launch c.core c.slot (c.key % 8) ent).getD s
    | none, _ => s)

/-- A spilled record as memory holds it (R268): its PC, FMODE and live registers. -/
def reReadCont (s : State) (k : KReg) (c : Cont) : Option Cont :=
  if !spillOk s k c.off (64 * contUnits c) false then none
  else
    let get (o n : Nat) : List Byte := rdExtent s k (c.off + o) n
    let tags (o : Nat) : Bool := spillTag s k (c.off + o)
    some { c with
      pc := leNat (get 0 8) / 8
      fmode := BitVec.ofNat 64 (leNat (get 8 8))
      live := readRegs get tags c.live.length 80 }

/-- A live register put back. -/
def setReg (s : State) (t : Task) (e : Nat × Val) : Task := writeDest s t (destOf (BitVec.ofNat 7 e.1)) e.2

/-- The window of R48; an `xlatl.wait` whose list failed at a replay has set XB (R330). -/
def resumedTask (s : State) (d l : Nat) (c : Cont) : Task :=
  let e := launchOf s d l
  c.live.foldl (setReg s) { Task.fresh with
    status := .run, ctx := e.ctx, launch := some (d, l), stage := c.stage, point := c.point, run := c.run, pc := c.pc
    fmode := c.fmode, entry := ⟨0, 0, c.ins, c.point, 0, 0, false⟩, resumed := true, refused := c.refused
    flags := if c.xb then fXB else 0, suspended := c.fixed }

/-- CONTINUATION_RESUME: streams saved with a record go on, on the core where it resumes (R291, R378). The first resumable record, when no entry goes
ahead of it (R269). -/
def execContinuationResume (cluster : Nat) (s : State) : Host.Outcome State Fault Refusal :=
  .next (match bestCand (contCands s cluster) with
    | none => s
    | some c =>
      if (bestCand (entryCands s cluster)).any fun q => q.ahead c then s
      else match (launchOf s c.die c.launch).conts[c.idx]? with
        | none => s
        | some r =>
          let s1 := mapLaunch s c.die c.launch fun e => { e with conts := dropAt e.conts c.idx }
          let e := launchOf s c.die c.launch
          match (if r.spilled then reReadCont s e.cspill r else some r) with
          | none => settlePoint (usherItem s1 e.ctx 6 (4 * c.core) 0) c.die c.launch r.point true
          | some q0 =>
            let s2 := if q0.run = 0 then { s1 with runNo := s1.runNo + 1 } else s1
            let q := { q0 with run := if q0.run = 0 then s2.runNo else q0.run }
            q.streams.foldl (fun s x => mapStream s c.core x.1 fun _ => { x.2 with run := q.run, slot := c.slot })
              (noteOrder (putTask s2 (.slot c.core c.slot) (resumedTask s2 c.die c.launch q)) (.slot c.core c.slot)))

/-- Entries waiting in queues and spill, in that order. -/
def riseEntry (now : Nat) (n : Entry) : Entry :=
  if !n.risen && decide (n.arrived + 65536 ≤ now) && decide (n.cls < 7) then { n with cls := n.cls + 1, risen := true } else n
/-- Entry `i` of the queues raised. -/
def riseIn (now : Nat) : Table (List Entry) → Nat → Table (List Entry)
  | [], _ => []
  | (k, q) :: r, i => if i < q.length then (k, updAt (riseEntry now) q i) :: r else (k, q) :: riseIn now r (i - q.length)

/-- ENTRY_CLASS_RISE: entry `i` of a launch has waited 65,536 clocks (R261). -/
def execEntryClassRise (die l i : Nat) (s : State) : Host.Outcome State Fault Refusal :=
  .next (mapLaunch s die l fun e =>
    let n := (e.queues.map fun q => q.2.length).sum
    if i < n then { e with queues := riseIn s.clock e.queues i }
    else { e with overflow := updAt (fun o => (o.1, o.2.1, riseEntry s.clock o.2.2)) e.overflow (i - n) })

/-! ## Multicast (R259, R263) -/

/-- The tiles that running tasks of a core declare, one in its handler among them (R290). -/
def declaredOn (s : State) (core : Nat) : List Nat :=
  [0, 1, 2, 3].flatMap fun n =>
    let p := Party.slot core n
    let t := taskOf s p
    if t.status = .idle then [] else declared t.entry.ins ++ declared (tget Task.fresh s.saved (partyKey p)).entry.ins
def tileOverlaps (r : Nat × Nat × Nat) (dest len : Nat) : Bool := overlap r.2.1 r.2.2 dest len

/-- A multicast to a core waits (steps 1 and 3). -/
def mcastWaits (s : State) (core dest len : Nat) : Bool :=
  let c := coreOf s core
  let decl := declaredOn s core
  let left := c.residents.filter fun r => !tileOverlaps r dest len
  c.residents.any (fun r => decl.contains r.1 && tileOverlaps r dest len)
    || (decide (16 ≤ left.length) && left.all fun r => decl.contains r.1)

/-- Steps 2 and 3 of R263: what the map keeps. -/
def mcastKeeps (s : State) (core dest len : Nat) : List (Nat × Nat × Nat) :=
  let left := (coreOf s core).residents.filter fun r => !tileOverlaps r dest len
  if 16 ≤ left.length then
    match indexWhere (fun r => !(declaredOn s core).contains r.1) left with
    | some i => dropAt left i
    | none => left
  else left

/-- The places of a multicast's bytes on a core. -/
def mcastPlaces (core dest len : Nat) : List Place := (List.range len).map fun i => ⟨.hall, core * 2 ^ 20 + dest + i⟩

/-- The tile written and entered on one core; a sealed byte is left as it is (R337). -/
def mcastCore (s : State) (p : Party) (core tile dest : Nat) (data : List Byte) : State :=
  let keep := mcastKeeps s core dest data.length
  let cells := ((mcastPlaces core dest data.length).zip data).filter fun x => !sealedPlace s x.1
  mapCore (wrPlaces s p 0xFFFF dest (cells.map fun x => (x.1, x.2, 0xFF#8))) core fun c =>
    { c with residents := if tile = 0 then keep else keep ++ [(tile, dest, data.length)] }

/-- A multicast that meets a seal sets SX and logs one event, of no slot: DEDUCED from R337 (log 58). -/
def mcastSeal (s : State) (p : Party) (core dest : Nat) (e : Store) (len : Nat) : State × Store :=
  if e.flags &&& fSX = 0 && (mcastPlaces core dest len).any (sealedPlace s) then
    (logEvent s p 3 0xFFFFFFFF e.word, { e with flags := e.flags ||| fSX })
  else (s, e)

/-- A store that completes: its flags, its signals and those that waited for it, its counts. -/
def finishStore (s : State) (p : Party) (i : Nat) (e : Store) : State :=
  let s1 := mapTask s p fun t => orFlags { t with stores := dropAt t.stores i } e.flags
  flushSigs (completeSigs (e.slots.foldl (fun s n => inflt s n false) s1) p e.sigs) p

/-- A multicast of the store queue at its next core. -/
structure McStep where
  idx : Nat
  store : Store
  tile : Nat
  stage : Nat
  len : Nat
  dest : Nat
  data : List Byte
  core : Nat
  rest : List Nat

def cellPlace (s : State) (c : SCell) : Place := pinLookup s c.slot c.off
/-- A posted store has bytes to write in a core's slice. -/
def writesSlice (s : State) (core : Nat) (e : Store) : Bool :=
  (e.cells.any fun c => let pl := cellPlace s c; decide (pl.space = .hall ∧ pl.addr / 2 ^ 20 = core))
    || match e.act with | .mcast _ _ _ _ _ cores => cores.contains core | _ => false

/-- A multicast of a task that may place its next core: its source has arrived, the core does not make it wait, and no earlier store of the task
has bytes to write in that slice (R133, R355). -/
def mcastNext (s : State) (p : Party) : Option McStep :=
  let l := (taskOf s p).stores
  ((List.range l.length).zip l).findSome? fun x =>
    match x.2.act with
    | .mcast tile st len dest data (c :: r) =>
      if !x.2.need.isEmpty || mcastWaits s c dest len || (l.take x.1).any (writesSlice s c) then none else some ⟨x.1, x.2, tile, st, len, dest, data, c, r⟩
    | _ => none

/-- MCAST_PLACE: the first multicast of the cluster that can go on writes and enters its tile on its next core. -/
def execMcastPlace (cluster : Nat) (s : State) : Host.Outcome State Fault Refusal :=
  .next (match (clusterSlots cluster).findSome? fun p => (mcastNext s p).map fun x => (p, x) with
    | none => s
    | some (p, m) =>
      let x := mcastSeal s p m.core m.dest m.store m.len
      let s1 := mcastCore x.1 p m.core m.tile m.dest m.data
      if m.rest.isEmpty then finishStore s1 p m.idx x.2
      else
        let act : StoreAct := .mcast m.tile m.stage m.len m.dest m.data m.rest
        mapTask s1 p fun t => { t with stores := updAt (fun _ => { x.2 with act := act }) t.stores m.idx })

/-! ## Moves between stages (R264, R265) -/

def occupancy (e : Launch) (cluster stage : Nat) : Nat := (queueOf e (queueKey cluster stage)).length

/-- A core is the last of its stage to hold a tile that a waiting entry of the stage declares. -/
def lastHolder (s : State) (e : Launch) (cluster stage : Nat) (cores : List (Nat × Core)) (core : Nat) : Bool :=
  (queueOf e (queueKey cluster stage) ++ (overflowOf e (queueKey cluster stage)).map (·.2.2)).any fun n => (declared n.ins).any fun i =>
    resident (coreOf s core) [i] && !cores.any fun c => c.1 != core && resident c.2 [i]

/-- USHER_REBALANCE: every 1,024 clocks a multi-stage launch may move one core from its emptiest to its fullest stage. -/
def execUsherRebalance (die l : Nat) (s : State) : Host.Outcome State Fault Refusal :=
  let e := launchOf s die l
  let n := e.stages.length
  let cluster := ((coresBound s die l).head?.map fun c => clusterOf c.1).getD 0
  let full := (List.range n).foldl (fun b i => if occupancy e cluster b < occupancy e cluster i then i else b) 0
  let empty := (List.range n).foldl (fun b i => if occupancy e cluster i ≤ occupancy e cluster b then i else b) 0
  let cores := stageCores s die l cluster empty
  .next (if !starting e || decide (n < 2) || (coresBound s die l).any (fun c => c.2.moving.isSome) || decide (cores.length < 2)
      || decide (occupancy e cluster full < occupancy e cluster empty + 128) then s
  else match cores.find? fun c => !lastHolder s e cluster empty cores c.1 with
    | none => s
    | some c => mapCore s c.1 fun k => { k with moving := some full })

/-- CORE_STAGE_MOVE: the chosen core moves when every slot on it is empty. -/
def execCoreStageMove (core : Nat) (s : State) : Host.Outcome State Fault Refusal :=
  .next (match (coreOf s core).moving with
    | none => s
    | some f =>
      if [0, 1, 2, 3].all (slotIdle s core) then mapCore s core fun c => { c with residents := [], stage := some f, moving := none }
      else s)

/-! ## mcast (R271) -/

def illMcast (f : FmtA) : List (Nat × Bool) := noneWord [.k] cScal cTx cNone f
def mcDesc (f : FmtA) (s : State) (p : Party) : Nat := (rdScal s p f.c).toNat
def mcLen (v : Nat) : Nat := 512 * (bits v 20 8 + 1)
/-- A descriptor that is refused with XB. -/
def mcBad (s : State) (p : Party) (v : Nat) : Bool :=
  Nat.testBit v 31 || bits v 0 9 != 0 || decide (2 ^ 20 < bits v 0 20 + mcLen v)
    || match (taskOf s p).launch with
      | some (d, l) => decide ((launchOf s d l).stages.length ≤ bits v 28 3)
      | none => true

def mcAccess (f : FmtA) (s : State) (p : Party) : Chk := access s (rdTok s p f.a) (rdScal s p f.b).toNat (mcLen (mcDesc f s p)) false
def planMcast (f : FmtA) (s : State) (p : Party) : Plan :=
  let k := rdTok s p f.a
  let v := mcDesc f s p
  let ok := !mcBad s p v && (mcAccess f s p).flag = 0
  { tk := f.tk, ill := illMcast f, reads := readsA f, cold := coldSlot s p k
    ready := storeRoom s p && (!ok || placesClear s p ((List.range (mcLen v)).map fun i => kPlace s k ((rdScal s p f.b).toNat + i)))
    touch := if ok then [⟨kSlot k, kBase k + (rdScal s p f.b).toNat, mcLen v, false⟩] else [] }

/-- The source of a multicast as the task sees it. -/
def mcSource (s : State) (p : Party) (k : KReg) (off n : Nat) : List Byte :=
  (List.range n).map fun i => ownByte s (taskOf s p).stores (kPlace s k (off + i))

/-- Bytes of a source that lie at a peer are asked for as a load's data is (R435). -/
def askSource (s : State) (p : Party) (k : KReg) (off n : Nat) : State × List Nat :=
  if kSpace k != 3 then (s, [])
  else askSpans s p 1 (kSlot k) [] 0 s.reqNo false readData (peerSpans ((List.range n).map fun i => (i, (kPlace s k (off + i)).addr)))

/-- A multicast with nothing to write completes as a store does. -/
def emptyStore (fl : BitVec 8) (sg : List Nat) : Store := ⟨[], .bytes, fl, sg, [], [], false, 0, 0⟩

def mcastAct (f : FmtA) (sg : List Nat) (s : State) : Act :=
  let p := s.cur
  let k := rdTok s p f.a
  let v := mcDesc f s p
  let off := (opB f s).toNat
  let n := mcLen v
  if mcBad s p v then .done (postStore s p (emptyStore fXB sg))
  else
    let c := mcAccess f s p
    if c.flag != 0 then .done (postStore (chkFail s p k c) p (emptyStore c.flag sg))
    else
      let s1 := readAtoms s ((List.range n).map fun i => kPlace s k (off + i))
      match (List.range n).find? fun i => placePoison s1 (kPlace s1 k (off + i)) with
      | some i => .done (postStore (poisonMet s1 p (kSlot k) (kBase k + off) (kPlace s1 k (off + i))) p (emptyStore 0 sg))
      | none =>
        let cores := match (taskOf s p).launch with
          | some (d, l) => (stageCores s d l (clusterOf (coreNo p)) (bits v 28 3)).map (·.1)
          | none => []
        let data := mcSource s1 p k off n
        let act : StoreAct := .mcast (bits v 32 32) (bits v 28 3) n (bits v 0 20) data cores
        if cores.isEmpty then .done (postStore s1 p (emptyStore 0 sg))
        else
          let x := askSource s1 p k off n
          .done (postStore x.1 p ⟨[], act, 0, sg, [kSlot k], x.2, false, 0, 0⟩)
def execMcast (f : FmtA) (s : State) : Host.Outcome State Fault Refusal := runWord (.mcast f) (planMcast f) (mcastAct f) s

/-! ## qsend, qtake, stage (R272-R274) -/

/-- N even, at most 26; B is an x register. -/
def illQsend (f : FmtA) : List (Nat × Bool) :=
  (5, clsOf f.b = .x && (decide (26 < regNo f.b) || regNo f.b % 2 = 1)) :: noneWord cScal [.x] cNone cNone f
def launchStages (s : State) (p : Party) : Nat :=
  match (taskOf s p).launch with
  | some (d, l) => (launchOf s d l).stages.length
  | none => 0
/-- A value naming a stage of the task's launch. -/
def stageOk (s : State) (p : Party) (v : Word) : Bool := decide (v.toNat < launchStages s p)

/-- The group does not wait for the overflow area, and no other sender came first (R267). -/
def qsendReady (f : FmtA) (s : State) (p : Party) : Bool :=
  !stageOk s p (rdScal s p f.a) || match (taskOf s p).launch with
    | some (d, l) =>
      let e := launchOf s d l
      let cluster := clusterOf (coreNo p)
      !arrivalWaits e cluster (rdScal s p f.a).toNat && (senders s e cluster).head?.all fun x => decide (x.1 = (taskOf s p).run)
    | none => true
def planQsend (f : FmtA) (s : State) (p : Party) : Plan :=
  { tk := f.tk, ill := illQsend f, ready := storeRoom s p, go := qsendReady f s p
    ask := fun s => match (taskOf s p).launch with | some (d, l) => sendComes s d l ((taskOf s p).run, (taskOf s p).here) | none => s
    reads := { field := 1, spec := f.a } :: rdGroup 2 6 f.b none }

/-- The entry that a `qsend` builds. -/
def sentEntry (f : FmtA) (s : State) : Entry :=
  let t := taskOf s s.cur
  let x (i : Nat) : Word := rdScal s s.cur (f.b + BitVec.ofNat 7 i)
  ⟨x 0, x 1, (List.range 8).map fun i => bits (x (2 + i / 2)).toNat (32 * (i % 2)) 32, t.point, s.clock, 0, false⟩
def qsendAct (f : FmtA) (sg : List Nat) (s : State) : Act :=
  let p := s.cur
  if !stageOk s p (opA f s) then .done (postStore s p (emptyStore fXB sg))
  else match (taskOf s p).launch with
    | none => doneNow sg s
    | some (d, l) =>
      let s1 := mapTask (pointUp s d l (taskOf s p).point) p fun t => { t with qsent := true }
      .done (postStore s1 p ⟨[], .qsend (opA f s).toNat (sentEntry f s) (taskOf s p).exchNo, 0, sg, [], [], false, 0, 0⟩)
def execQsend (f : FmtA) (s : State) : Host.Outcome State Fault Refusal := runWord (.qsend f) (planQsend f) (qsendAct f) s

def illQtake (f : FmtA) : List (Nat × Bool) := noneWord cScal cNone cNone cXN f
def qtakeVal (f : FmtA) (s : State) : Word × BitVec 8 :=
  let t := taskOf s s.cur
  let n := (opA f s).toNat
  let id (i : Nat) : Nat := t.entry.ins.getD i 0
  let v : Word :=
    if n = 0 then t.entry.pay0
    else if n = 1 then t.entry.pay1
    else if n = 2 then BitVec.ofNat 64 t.stage
    else if n = 3 then BitVec.ofNat 64 (declared t.entry.ins).length
    else if n < 4 then 0
    else if n < 12 then BitVec.ofNat 64 (id (n - 4))
    else if n < 20 then
      (if id (n - 12) = 0 then BitVec.allOnes 64
       else match (coreOf s (coreNo s.cur)).residents.find? fun r => decide (r.1 = id (n - 12)) with
        | some r => BitVec.ofNat 64 r.2.1
        | none => BitVec.allOnes 64)
    else if n = 20 then (if t.resumed then 1 else 0)
    else 0
  (v, 0)
def execQtake (f : FmtA) (s : State) : Host.Outcome State Fault Refusal := scalWord (.qtake f) (illQtake f) f 1 (qtakeVal f) s

def illStage (f : FmtA) : List (Nat × Bool) := noneWord cScal cNone cNone cXN f
def stageVal (f : FmtA) (s : State) : Word × BitVec 8 :=
  let p := s.cur
  match (taskOf s p).launch with
  | none => (0, 0)
  | some (d, l) =>
    let e := launchOf s d l
    let st := (opA f s).toNat
    let c := clusterOf (coreNo p)
    if !stageOk s p (opA f s) then (0, 0)
    else
      let spill := (overflowOf e (queueKey c st)).isEmpty
      (BitVec.ofNat 64 ((if spill then 0 else 2 ^ 32) + (stageCores s d l c st).length * 2 ^ 16 + occupancy e c st), 0)
def execStage (f : FmtA) (s : State) : Host.Outcome State Fault Refusal := scalWord (.stage f) (illStage f) f 4 (stageVal f) s

end Sys2Proof.Machine
end

