-- ==== Sys2Proof/Machine/Image.lean ====
section
/-! DEFINITION. The checks of a Grindomi image (spec 01, R41-R45) and of a launch record (spec 12, R276-R279), on bytes. -/

namespace Sys2Proof.Machine

/-! ## CRC-32C (Castagnoli; R41) -/

def crcBit (c : Nat) : Nat := if c % 2 = 1 then (c / 2) ^^^ 0x82F63B78 else c / 2
def crcByte (c : Nat) (b : Byte) : Nat :=
  let x := c ^^^ b.toNat
  crcBit (crcBit (crcBit (crcBit (crcBit (crcBit (crcBit (crcBit x)))))))
def crc32c (bs : List Byte) : Nat := (bs.foldl crcByte 0xFFFFFFFF) ^^^ 0xFFFFFFFF

/-! ## Image checks (R45) -/

/-- A little-endian field of bytes. -/
def fld (bs : List Byte) (o n : Nat) : Nat := leNat ((bs.drop o).take n)

/-- A section: type, reserved fields, offset, length, alignment. -/
structure Section_ where
  ty : Nat
  rsv : Nat
  off : Nat
  len : Nat
  align : Nat
  deriving DecidableEq, Repr, Inhabited

def sectionAt (bs : List Byte) (o : Nat) : Section_ :=
  ⟨fld bs o 4, fld bs (o + 4) 4 + fld bs (o + 28) 4, fld bs (o + 8) 8, fld bs (o + 16) 8, fld bs (o + 24) 4⟩
def findSection (l : List Section_) (ty : Nat) : Option Section_ := l.find? fun x => decide (x.ty = ty)
def sectionPair (l : List Section_) (ty : Nat) : Nat × Nat := ((findSection l ty).map fun x => (x.off, x.len)).getD (0, 0)

/-- Specifiers a live set may name: x, v, k, m but not `m0`, q, o (R45). -/
def liveSpec (n : Nat) : Bool :=
  decide (n < 128) && [Cls.x, .v, .k, .m, .q, .o].contains (clsOf (BitVec.ofNat 7 n)) && n != 0x70

/-- `.ckpt` records from offset `o` to `stop` (R44); none where one is malformed. -/
def ckptRecs (bs : List Byte) (words stop : Nat) : Nat → Nat → Option (List (Nat × List Nat))
  | 0, _ => none
  | n + 1, o =>
    if o = stop then some []
    else
      let count := fld bs (o + 4) 2
      let padded := (count + 7) / 8 * 8
      let specs := (List.range padded).map fun i => fld bs (o + 8 + i) 1
      if decide (stop < o + 8) || decide (stop < o + 8 + padded) || decide (words ≤ fld bs o 4) || decide (64 < count)
          || fld bs (o + 6) 2 != 0 || !(specs.take count).all liveSpec || (specs.drop count).any (· != 0x7F) then none
      else (ckptRecs bs words stop n (o + 8 + padded)).map fun l => (fld bs o 4, specs.take count) :: l

/-- One `.sync` entry names a directed pair with a tick queue, once, balanced, both streams present (R43, R45). -/
def syncOk (bs : List Byte) (secs : List Section_) (o : Nat) : Bool :=
  let a := fld bs o 1
  let b := fld bs (o + 1) 1
  let n := fld bs (o + 4) 2
  decide (1 ≤ a) && decide (a ≤ 4) && decide (1 ≤ b) && decide (b ≤ 4) && a != b && joined a b && fld bs (o + 2) 2 = 0
    && n = fld bs (o + 6) 2 && decide (1 ≤ n) && decide (n ≤ 32) && (findSection secs a).isSome && (findSection secs b).isSome

/-- The image read from its bytes; none where a check of R45 fails. DESIGN CHOICE (log 58): check 3 is made of the reserved fields of R41 to R44; the
reserved bytes of the `.launch` templates are those of a record and are judged in the record (R278). Bytes of `.sync` after its last whole entry
are no entry and are not judged. -/
def parseImage (tok : KReg) (bs : List Byte) : Option Image :=
  let n := fld bs 12 4
  let table := fld bs 16 8
  let size := fld bs 24 8
  let secs := (List.range (min n 11)).map fun i => sectionAt bs (table + 32 * i)
  let tys := secs.map (·.ty)
  let words := (sectionPair secs 1).2 / 8
  let sync := sectionPair secs 7
  let pairs := (List.range (sync.2 / 8)).map fun i => fld bs (sync.1 + 8 * i) 2
  let ck := sectionPair secs 8
  let crc := crc32c (bs.take 32 ++ List.replicate 4 0 ++ bs.drop 36)
  if fld bs 0 4 != 0x4D495247 || fld bs 4 2 != 2 || crc != fld bs 32 4
      || fld bs 8 4 != 0 || fld bs 40 24 != 0 || secs.any (fun x => x.rsv != 0)
      || n = 0 || decide (11 < n) || tys.any (fun t => t = 0 || decide (11 < t)) || tys.eraseDups.length != tys.length
      || (findSection secs 1).isNone || (findSection secs 9).isNone || (sectionPair secs 9).2 % 320 != 0
      || fld bs 36 4 != (sectionPair secs 9).2 / 320
      || table % 64 != 0 || decide (size < table + 32 * n)
      || secs.any (fun x => decide (x.align < 6) || decide (30 < x.align) || x.off % 2 ^ x.align != 0 || decide (size < x.off + x.len))
      || !((List.range (sync.2 / 8)).all fun i => syncOk bs secs (sync.1 + 8 * i)) || pairs.eraseDups.length != pairs.length then none
  else (ckptRecs bs words (ck.1 + ck.2) (ck.2 / 8 + 1) ck.1).map fun l =>
    ⟨tok, sectionPair secs 1, sectionPair secs 2, sectionPair secs 3, sectionPair secs 4, l⟩

/-- The image a launch record names: its access, then R45 unless the resident image passed before. DEDUCED (log 49): an image at a peer is not
resident here. -/
def checkImage (s : State) (k : KReg) : Option Image :=
  if (access s k 0 64 false).flag != 0 then none
  else match s.images.find? fun i => decide (i.tok = k) with
    | some i => some i
    | none =>
      let size := leNat (rdExtent s k 24 8)
      if (access s k 0 size false).flag != 0 || decide (size < 64) then none
      else if kSpace k = 3 || (List.range size).any fun i => placePoison s (kPlace s k i) then none
      else parseImage k (rdExtent s k 0 size)

/-! ## Launch records (R276-R279) -/

def depOf (bs : List Byte) (v : Nat) : List Int := (List.range 4).map fun a => signed 32 (fld bs (32 + 16 * v + 4 * a) 4)
def stageOf (bs : List Byte) (i : Nat) : StageRec :=
  let o := 160 + 16 * i
  ⟨fld bs o 4, fld bs (o + 4) 4, fld bs (o + 8) 1, fld bs (o + 9) 1 % 2 = 1⟩

/-- A static field outside its range, or a reserved one nonzero (DETAIL 3). -/
def staticBad (bs : List Byte) (words : Nat) : Bool :=
  let rank := fld bs 0 1
  let ndep := fld bs 3 1
  let nst := fld bs 8 1
  let out (v lo hi : Nat) : Bool := decide (v < lo) || decide (hi < v)
  out rank 1 4 || decide (rank ≤ fld bs 1 1) || out (fld bs 2 1) 1 64 || decide (8 < ndep) || decide (7 < fld bs 4 1)
    || decide (15 < fld bs 5 1) || out (fld bs 6 1) 1 16 || out (fld bs 7 1) 1 8 || out nst 1 8 || decide (1 < fld bs 9 1)
    || fld bs 11 5 != 0 || fld bs 292 28 != 0 || fld bs 400 112 != 0
    || (List.range 4).any (fun a => let x := fld bs (16 + 4 * a) 4; if a < rank then out x 1 (2 ^ 20) else x != 1)
    || (List.range 8).any (fun v => if v < ndep then (List.range 4).any fun a => decide (rank ≤ a) && (depOf bs v).getD a 0 != 0
        else fld bs (32 + 16 * v) 16 != 0)
    || (List.range 8).any (fun i => if i < nst then fld bs (160 + 16 * i + 9) 1 / 2 != 0 || fld bs (160 + 16 * i + 10) 6 != 0
          || decide (words ≤ fld bs (160 + 16 * i) 4)
        else fld bs (160 + 16 * i) 16 != 0)
    || decide (words ≤ fld bs 288 4)

/-- Lexicographically positive, the sweep component first (R279). -/
def lexPositive : List Int → Bool
  | [] => false
  | a :: r => decide (0 < a) || (a = 0 && lexPositive r)
def depLegal (sweep : Nat) (d : List Int) : Bool :=
  d.all (fun x => decide (-2 ^ 20 < x) && decide (x < 2 ^ 20))
    && lexPositive (d.getD sweep 0 :: ([0, 1, 2, 3].filter (· != sweep)).map fun a => d.getD a 0)
def depsBad (bs : List Byte) : Bool := (List.range (fld bs 3 1)).any fun v => !depLegal (fld bs 1 1) (depOf bs v)

/-- A placement that cannot exist (DETAIL 5). -/
def placeBad (bs : List Byte) : Bool :=
  let st := (List.range (fld bs 8 1)).map (stageOf bs)
  decide (fld bs 6 1 * fld bs 7 1 < (st.map (·.cores)).sum) || st.any (fun x => x.cores = 0)
    || (decide (1 < st.length) && (decide (4 < fld bs 6 1) || decide (4 < fld bs 7 1)))

/-- A token field of a record, its tag kept where the storage keeps tags (R277). -/
def recTok (s : State) (k : KReg) (off : Nat) (bs : List Byte) (o : Nat) : KReg :=
  kClean s ⟨BitVec.ofNat 128 (fld bs o 16), keepsTag s k (off + o) && rdTag s (kPlace s k (off + o))⟩

/-- The launch that a record states. -/
def launchFrom (s : State) (k : KReg) (off : Nat) (bs : List Byte) (im : Image) (ctx : Nat) : Launch :=
  { Launch.fresh with
    ctx := ctx
    rank := fld bs 0 1
    sweepAxis := fld bs 1 1
    win := fld bs 2 1
    deps := (List.range (fld bs 3 1)).map (depOf bs)
    prio := fld bs 4 1
    urg := fld bs 5 1
    pw := fld bs 6 1
    ph := fld bs 7 1
    ext := (List.range 4).map fun a => fld bs (16 + 4 * a) 4
    argmode := BitVec.ofNat 8 (fld bs 10 1)
    stages := (List.range (fld bs 8 1)).map (stageOf bs)
    handler := fld bs 288 4
    image := im
    doneTok := recTok s k off bs 336
    fspill := recTok s k off bs 352
    ovfl := fld bs 368 8
    ovfLen := fld bs 376 8
    cspill := recTok s k off bs 384
    args := (List.range 8).map fun i => recTok s k off bs (512 + 16 * i)
    risers := firstRisers
    held := fld bs 9 1 % 2 = 1 }

/-! ## Records and landings read whole, wherever they lie (R132, R435) -/

/-- The peer bytes of an extent that the party has not read yet. -/
def peerMissing (s : State) (p : Party) (k : KReg) (off n : Nat) : List Nat :=
  ((List.range n).map fun i => kPlace s k (off + i)).filterMap fun pl =>
    if pl.space = .peer && !(taskOf s p).peerBuf.any (fun e => decide (e.1 = pl.addr)) then some pl.addr else none

/-- They are asked for, once. -/
def askBytes (s : State) (p : Party) (k : KReg) (off n : Nat) : State :=
  if !(taskOf s p).peerAsk.isEmpty then s
  else
    let l := peerMissing s p k off n
    let x := askSpans s p 1 (kSlot k) [] 0 s.reqNo false readData (peerSpans ((List.range l.length).zip l))
    mapTask x.1 p fun t => { t with peerAsk := x.2 }

/-- The bytes of an extent; none where one is poisoned or did not come. -/
def bytesOf (s : State) (p : Party) (k : KReg) (off n : Nat) : Option (List Byte) :=
  (List.range n).foldr (fun i a =>
    let pl := kPlace s k (off + i)
    let b := if pl.space = .peer then tget none (taskOf s p).peerBuf pl.addr else if placePoison s pl then none else some (rdByte s pl)
    match b, a with | some b, some l => some (b :: l) | _, _ => none) (some [])

/-- A byte that a word reads itself: one read at a peer, and +0 where it did not come (R402, R435). -/
def byteAt (s : State) (p : Party) (pl : Place) : Byte :=
  if pl.space = .peer then (tget none (taskOf s p).peerBuf pl.addr).getD 0 else rdByte s pl
/-- No byte of an extent that lies at a peer has failed to come. -/
def allCame (s : State) (p : Party) (k : KReg) (off n : Nat) : Bool :=
  (List.range n).all fun i =>
    let pl := kPlace s k (off + i)
    pl.space != .peer || (tget none (taskOf s p).peerBuf pl.addr).isSome

/-- What a word that has done with them read at a peer is dropped. -/
def dropPeer (p : Party) (s : State) : State := mapTask s p fun t => { t with peerBuf := [], peerAsk := [], peerFlags := 0 }

/-- The access of a record passes (R132). -/
def recordAccess (s : State) (k : KReg) (off : Int) : Bool := (access s k off 640 false).flag = 0 && off % 64 = 0

/-- The record at an offset read and checked (R278): the DETAIL of the first failed check, with the image if that has passed; or the launch. -/
def checkRecord (s : State) (p : Party) (k : KReg) (off : Nat) (ctx : Nat) : (Nat × Option Image) ⊕ Launch :=
  if !recordAccess s k off then .inl (1, none)
  else match bytesOf s p k off 640 with
    | none => .inl (1, none)
    | some bs =>
      match checkImage s (recTok s k off bs 320) with
      | none => .inl (2, none)
      | some im =>
        if staticBad bs (im.task.2 / 8) then .inl (3, some im)
        else if depsBad bs then .inl (4, some im)
        else if placeBad bs then .inl (5, some im)
        else .inr (launchFrom s k off bs im ctx)

end Sys2Proof.Machine
end

