-- ==== Sys2Proof/Machine/Launch.lean ====
section
/-! DEFINITION. Launches (spec 12): acceptance, `ptc`, `frstat`, binding, pre-emption and its fates, and the end of a launch. -/

namespace Sys2Proof.Machine

/-! ## Handles and slots (R302, R307) -/

def handleWord (d : Nat) (gen : BitVec 8) (l : Nat) : Word := BitVec.ofNat 64 (d * 65536 + gen.toNat * 256 + l)
/-- The launch a handle names, unless it is stale. -/
def handleLaunch (s : State) (v : Word) : Option (Nat × Nat) :=
  let n := v.toNat
  let d := bits n 16 2
  let l := bits n 0 5
  if n < 2 ^ 18 ∧ bits n 5 3 = 0 ∧ (launchOf s d l).state ≠ .free ∧ (launchOf s d l).gen.toNat = bits n 8 8 then some (d, l) else none

/-- The next number in the order of acceptances, bindings and ends. -/
def nextOrder (s : State) : Nat :=
  (s.dies.flatMap fun d => d.2.launches.map fun l => max l.2.seq (max l.2.bindSeq l.2.endSeq)).foldl max 0 + 1

def ended (e : Launch) : Bool := e.state = .done || e.state = .failed
/-- The slot that the next launch takes: never used or torn down, else the one that ended longest ago. -/
def pickSlot (s : State) (d : Nat) : Option Nat :=
  match (List.range 32).find? fun l => (launchOf s d l).state = .free with
  | some l => some l
  | none => (List.range 32).foldl (fun a l =>
      if !ended (launchOf s d l) then a
      else match a with
        | some b => if (launchOf s d l).endSeq < (launchOf s d b).endSeq then some l else some b
        | none => some l) none

/-! ## launch (R302) -/

def illLaunch (f : FmtA) : List (Nat × Bool) := noneWord [.k] cScal cNone cXN f
def planLaunch (f : FmtA) (s : State) (p : Party) : Plan :=
  let t := taskOf s p
  { tk := f.tk, ill := illLaunch f, reads := readsA f, nres := 1, priv := !isPorter p
    ready := accessesDone t && (!t.cp || (pickSlot s (dieNo p)).isSome)
    go := !t.cp || !recordAccess s (rdTok s p f.a) (rdScal s p f.b).toNat
      || (peerMissing s p (rdTok s p f.a) (rdScal s p f.b).toNat 640).isEmpty
    ask := fun s => askBytes s p (rdTok s p f.a) (rdScal s p f.b).toNat 640 }
/-- An image that has passed its checks is not checked again while it stays (R45). -/
def keepImage (s : State) (im : Image) : State := { s with images := if s.images.contains im then s.images else s.images ++ [im] }
/-- A checked launch enters its slot with a new generation. -/
def acceptLaunch (s : State) (d l : Nat) (n : Launch) : State :=
  setRisers (mapLaunch (keepImage s n.image) d l fun e => { n with
    gen := e.gen + 1, state := if n.held then .saved else .queued, seq := nextOrder s
    switched := (ctxOf s n.ctx).off.contains d }) d l firstRisers
def launchTrap (n : Nat) : TrapInfo := mkTrap cLAUNCH n
def launchAct (f : FmtA) (sg : List Nat) (s : State) : Act :=
  let p := s.cur
  let d := dieNo p
  if !(taskOf s p).cp then .done (putScal 1 f.d false (BitVec.allOnes 64, 0) sg s)
  else match checkRecord s p (rdTok s p f.a) (opB f s).toNat (taskOf s p).ctx, pickSlot s d with
    | .inl (n, im), _ => .changed (fun s => dropPeer p (match im with | some im => keepImage s im | none => s)) (launchTrap n)
    | .inr _, none => .trap (launchTrap 1)
    | .inr n, some l =>
      let s1 := acceptLaunch (dropPeer p s) d l n
      .done (putScal 1 f.d false (handleWord d (launchOf s1 d l).gen l, 0) sg s1)
def execLaunch (f : FmtA) (s : State) : Host.Outcome State Fault Refusal := runWord (.launch f) (planLaunch f) (launchAct f) s

/-! ## ptc (R303) -/

def illPtc (f : FmtA) : List (Nat × Bool) := noneWord cScal cNone cNone cXN f
/-- Row-major index of a point, modulo 2^63. -/
def pointIndex (e : Launch) (q : List Nat) : Nat := ((List.range 4).foldl (fun n a => n * extOf e a + q.getD a 0) 0) % 2 ^ 63
def ptcVal (f : FmtA) (s : State) : Word × BitVec 8 :=
  let t := taskOf s s.cur
  match t.launch with
  | none => (BitVec.allOnes 64, 0)
  | some (d, l) =>
    let e := launchOf s d l
    let n := (opA f s).toNat
    let q := if n = 8 then some (t.point.map Int.ofNat) else (e.deps[n]?).map (minusDep t.point)
    match q with
    | some q => if insideSpace e q then (BitVec.ofNat 64 (pointIndex e (q.map Int.toNat)), 0) else (BitVec.allOnes 64, 0)
    | none => (BitVec.allOnes 64, 0)
def execPtc (f : FmtA) (s : State) : Host.Outcome State Fault Refusal := scalWord (.ptc f) (illPtc f) f 3 (ptcVal f) s

/-! ## frstat (R307) -/

def lstateCode : LState → Nat
  | .free => 0 | .queued => 1 | .running => 2 | .preempted => 3 | .saved => 4 | .done => 5 | .failed => 6
def stateWord (e : Launch) : Word :=
  BitVec.ofNat 64 (min e.risers.length 65535 * 2 ^ 32 + min e.flying.length 65535 * 2 ^ 16 + (if 0 < e.spillN then 256 else 0)
    + (if e.seam then 128 else 0) + lstateCode e.state)
def bindWord (d : Nat) (e : Launch) : Word :=
  if e.bound then BitVec.ofNat 64 (e.x0 * 4096 + e.y0 * 512 + e.xform * 64 + d * 16 + 1) else BitVec.ofNat 64 (d * 16)
def frstatRef (f : FmtA) (s : State) (p : Party) : Option (Nat × Nat) :=
  if isPorter p then handleLaunch s (rdScal s p f.a) else (taskOf s p).launch
def frstatVal (f : FmtA) (s : State) : Word × BitVec 8 :=
  match frstatRef f s s.cur with
  | none => (0, 0)
  | some (d, l) =>
    let e := launchOf s d l
    (match (opB f s).toNat with
      | 0 => stateWord e
      | 1 => bindWord d e
      | 2 => BitVec.ofNat 64 e.completed
      | 3 => BitVec.ofNat 64 e.failedN
      | _ => 0, 0)
/-- A is a handle on the Porter and absent on a task core. -/
def illFrstat (f : FmtA) (p : Party) : List (Nat × Bool) := noneWord (if isPorter p then cTx else cNone) cScal cNone cXN f
def planFrstat (f : FmtA) (s : State) (p : Party) : Plan := planScal (illFrstat f p) f 4 s p
def execFrstat (f : FmtA) (s : State) : Host.Outcome State Fault Refusal := runWord (.frstat f) (planFrstat f) (actScal 4 f (frstatVal f)) s

/-! ## Binding (R286-R289) -/

def posCluster (x y : Nat) : Nat := 4 * (y / 4) + x / 4
/-- The core at a mesh position of a die (R142, R286). -/
def coreAt (d x y : Nat) : Nat := 128 * d + 16 * posCluster x y + 4 * (y % 4) + x % 4
def turn : Nat → Int × Int → Int × Int
  | 0, q => q
  | n + 1, q => turn n (-q.2, q.1)
/-- T of R286. -/
def xformAt (xf : Nat) (x y : Nat) : Int × Int := turn (xf % 4) (if xf.testBit 2 then -(x : Int) else x, y)
/-- The positions of the logical cores in order; none where one leaves the mesh. -/
def positions (e : Launch) (x0 y0 xf : Nat) : Option (List (Nat × Nat)) :=
  (List.range (e.pw * e.ph)).foldr (fun i a =>
    let q := xformAt xf (i % e.pw) (i / e.pw)
    let x := (x0 : Int) + q.1
    let y := (y0 : Int) + q.2
    if 0 ≤ x ∧ x < 16 ∧ 0 ≤ y ∧ y < 8 then a.map fun l => (x.toNat, y.toNat) :: l else none) (some [])

/-- A core that a binding may take; `extra` cores count as free. -/
def coreFree (s : State) (extra : Nat → Bool) (c : Nat) : Bool :=
  let k := coreOf s c
  !k.dead && (k.bound.isNone || extra c)
/-- The cores of a binding, logical core 0 first; none where it cannot be. -/
def bindCores (s : State) (d : Nat) (e : Launch) (extra : Nat → Bool) (x0 y0 xf : Nat) : Option (List Nat) :=
  match positions e x0 y0 xf with
  | none => none
  | some l =>
    let cs := l.map fun q => coreAt d q.1 q.2
    let one := (cs.map clusterOf).eraseDups.length ≤ 1
    if cs.all (coreFree s extra) && (one || decide (e.stages.length ≤ 1)) then some cs else none
/-- Some rectangle is free. -/
def canBind (s : State) (d : Nat) (e : Launch) (extra : Nat → Bool) : Bool :=
  (List.range 8).any fun xf => (List.range 8).any fun y => (List.range 16).any fun x => (bindCores s d e extra x y xf).isSome

def waitingLaunch (e : Launch) : Bool := (e.state = .queued || e.state = .preempted) && !e.switched
/-- `a` is considered before `b` (R289). -/
def boundFirst (a b : Launch) : Bool := decide (b.prio < a.prio) || (a.prio = b.prio && decide (a.seq < b.seq))

/-- The stage of each logical core (R256). -/
def dealStages (st : List StageRec) (n : Nat) : List (Option Nat) :=
  let l := (List.range st.length).flatMap fun i => List.replicate ((st[i]?).map (·.cores) |>.getD 0) (some i)
  (l ++ List.replicate n none).take n

/-- Fused-out column of a row of a die; 16 for none (R288). -/
def fusedCol (s : State) (d y : Nat) : Nat := tget 16 s.fuses (8 * d + y)
/-- Two neighbours of the rectangle lie across a seam (R287). -/
def hasSeam (s : State) (d : Nat) (l : List (Nat × Nat)) : Bool :=
  l.any fun q => decide (0 < q.1) && fusedCol s d q.2 = q.1 && l.contains (q.1 - 1, q.2)

/-- The context's debug block as it stands (R379). -/
def readDebug (s : State) (ctx : Nat) : Debug :=
  let a := (ctxOf s ctx).params.dbg
  if !(ctxOf s ctx).live then default
  else
    let bp (n : Nat) : Nat := rdNear s (a + 8 * n) 8
    let wp (n : Nat) : Nat := a + 64 + 32 * n
    { bps := ((List.range 8).filter fun n => (bp n).testBit 63).map fun n => (n, bits (bp n) 0 32)
      watches := ((List.range 4).filter fun n => (rdNear s (wp n + 17) 1).testBit 0).map fun n =>
        (n, rdNear s (wp n) 8, rdNear s (wp n + 8) 8, rdNear s (wp n + 16) 1 % 8)
      stop := (rdNear s (a + 192) 1).testBit 0
      gkinds := BitVec.ofNat 8 (rdNear s (a + 193) 1)
      gtrig := rdNear s (a + 194) 1
      gtval := rdNear s (a + 196) 4
      gpost := rdNear s (a + 200) 2 % 4096
      gspill := kClean s ⟨BitVec.ofNat 128 (rdNear s (a + 208) 16), tget false s.nearTags ((a + 208) / 16)⟩ }

/-- What a core held for another context is cleared (R340). -/
def clearOwner (c : Core) (ctx : Nat) : Core :=
  if c.owner = ctx then c
  else { c with
    mem := [], tags := [], bad := [], wb0 := [], wb1 := [], wbBad := [], wbRuns := [], tiles := [], head := 0, tail := 0, ring := 0
    failt := 0, window := [], windowOver := false, opened := Tile.fresh, refilled := [], replays := 0, ate := [], soft := [], owner := ctx }

/-- The hall-space slots of a context that name a core's slice and are not yet out of use (R331). -/
def sliceSlots (s : State) (ctx core : Nat) : List Nat :=
  if ctxField ctx = 0xFFF then []
  else (s.slots.filter fun e =>
    e.2.ctx = ctx && e.2.space = .hall && e.2.state != .free && !(e.2.state = .sweeping && e.2.drained)
      && (List.range (e.2.nwords + 1)).any fun i => decide ((wordOf s (e.2.first + i)).frameA / 16 = core)).map (·.1)
/-- Those that a binding to `ctx` has to see revoked first. -/
def slotsInWay (s : State) (ctx : Nat) (cores : List Nat) : List Nat :=
  (cores.flatMap fun c => if (coreOf s c).owner = ctx then [] else sliceSlots s (coreOf s c).owner c).eraseDups

def bindCore (s : State) (d l ctx : Nat) (x : Nat × Option Nat) : State :=
  mapCore s x.1 fun c =>
    { clearOwner c ctx with
      bound := some (d, l), stage := x.2, residents := [], moving := none, stopped := false
      sliceSlot := if c.owner = ctx then c.sliceSlot else none }

/-- Spilled entries of a launch bound again wait for the cluster that now hosts their stage. -/
def rekey (s : State) (d l : Nat) (o : Nat × Nat × Entry) : Nat × Nat × Entry :=
  match stageClusters s d l (o.1 % 8) with
  | c :: _ => (queueKey c (o.1 % 8), o.2)
  | [] => o

/-- LAUNCH_BIND: a waiting launch takes a free rectangle, when none that is considered before it could be bound. Before a core passes to another
context, the slots that name its slice are revoked and their accesses end (R331, R340). -/
def execLaunchBind (die l x0 y0 xform : Nat) (s : State) : Host.Outcome State Fault Refusal :=
  let e := launchOf s die l
  let ahead := (dieOf s die).launches.any fun o =>
    o.1 != l && waitingLaunch o.2 && boundFirst o.2 e && canBind s die o.2 fun _ => false
  .next (match bindCores s die e (fun _ => false) x0 y0 xform, positions e x0 y0 xform with
    | some cs, some ps =>
      let old := slotsInWay s e.ctx cs
      if !waitingLaunch e || ahead || decide (7 < xform) then s
      else if !old.isEmpty then old.foldl revoke s
      else
        let s1 := (cs.zip (dealStages e.stages cs.length)).foldl (fun s x => bindCore s die l e.ctx x) s
        let s2 := mapLaunch s1 die l fun e => { e with
          state := .running, bound := true, x0 := x0, y0 := y0, xform := xform, seam := e.seam || hasSeam s die ps
          bindSeq := nextOrder s, dbg := readDebug s e.ctx, ovfWait := [] }
        mapLaunch s2 die l fun e => { e with overflow := e.overflow.map (rekey s2 die l) }
    | _, _ => s)

/-! ## Pre-emption (R289-R291) -/

/-- The streams of a core that this task started and that are running; and its unfinished chained records (R290, R294). -/
def ownStreams (s : State) (core : Nat) (run : Nat) : List Engine :=
  [Engine.copy, .matrix, .epilogue].filter fun e => let x := theStream s core e; x.run = run && x.state = .running
def ownChained (s : State) (core : Nat) (run : Nat) : Bool :=
  let x := theStream s core .copy
  x.run = run && (!x.chained.isEmpty || !x.active.isEmpty)
/-- No stream that the task started runs, and none holds a chained record of it, on whatever core it has been. -/
def streamsOver (s : State) (run : Nat) : Bool := s.cores.all fun c => (ownStreams s c.1 run).isEmpty && !ownChained s c.1 run

/-- A task that may be killed (R290). -/
def restartableTask (s : State) (p : Party) : Bool :=
  let t := taskOf s p
  match t.launch with
  | none => false
  | some (d, l) =>
    (((launchOf s d l).stages[t.stage]?).map (·.restartable)).getD false && !t.qsent && !t.suspended
      && streamsOver s t.run

/-- The first row of R290 that applies, under a budget; none to be killed at once. A handler drains (R369). -/
def fateOf (s : State) (p : Party) (budget : Nat) : Option Fate :=
  let t := taskOf s p
  match t.launch with
  | none => some .drain
  | some (d, l) =>
    let e := launchOf s d l
    let est := ((e.stages[t.stage]?).map (·.est)).getD 0
    let cks := !e.image.ckpt.isEmpty
    if t.inHandler || decide (est - t.ic ≤ budget) then some .drain
    else if cks && restartableTask s p then some (.checkpointWithin (t.ic + budget))
    else if restartableTask s p then none
    else if cks then some .checkpointNext
    else some .drain

/-- What a waiting word that is abandoned holds is given back: its count on a slot, its ring slot. -/
def dropWait (s : State) (p : Party) (w : Wait) : State :=
  match w with
  | .timeline _ n _ _ _ => inflt s n false
  | .xlatl f _ _ _ => inflt s (kSlot (rdTok s p f.a)) false
  | .line _ n _ _ _ _ => inflt s n false
  | .pred _ n _ _ _ _ => inflt s n false
  | .ring _ key _ _ _ _ _ _ _ _ _ _ => { s with rings := tdel s.rings key }
  | _ => s
/-- A timeline wait that has been released: it stays released (R353). -/
def latched : Wait → Bool
  | .timeline _ _ _ _ (some _) => true
  | _ => false
/-- The slot on which it holds its count. -/
def latchedSlot : Wait → Option Nat
  | .timeline _ n _ _ (some _) => some n
  | _ => none
def dropSlots (s : State) (t : Task) : State := (t.stores.flatMap (·.slots)).foldl (fun s n => inflt s n false) s

/-- A task killed (R291): its unperformed stores and pending values are gone, its point leaves the in-flight set. -/
def killTask (s : State) (p : Party) : State :=
  let t := taskOf s p
  let s1 := dropWait (dropSlots s t) p t.wait
  let s2 := match t.launch with
    | some (d, l) => mapLaunch s1 d l fun e => { e with flying := e.flying.filter fun g => g.point != t.point }
    | none => s1
  freeSlot (leaveOver s2 p) p

/-- The task slots of a die that run a launch. -/
def slotParties (core : Nat) : List Party := (List.range 4).map fun n => .slot core n
def launchTasks (s : State) (d l : Nat) : List Party :=
  (((coresBound s d l).map (·.1)).flatMap slotParties).filter fun p =>
    (taskOf s p).status != .idle && decide ((taskOf s p).launch = some (d, l))

def settleTask (s : State) (p : Party) (budget : Nat) : State :=
  match fateOf s p budget with
  | none => killTask s p
  | some f => mapTask s p fun t => { t with fate := f }

/-- A launch becomes a victim: every task of it gets its fate. -/
def makeVictim (s : State) (d l by_ budget : Nat) : State :=
  let s1 := mapLaunch s d l fun e => { e with victimBy := some by_ }
  (launchTasks s1 d l).foldl (fun s p => settleTask s p budget) s1

/-- Cores of a bound launch below class `k` of a die for which `ok` holds (R289). -/
def boundBelow (s : State) (d k : Nat) (ok : Launch → Bool) (c : Nat) : Bool :=
  match (coreOf s c).bound with
  | some (e, l) => e = d && decide ((launchOf s d l).prio < k) && ok (launchOf s d l)
  | none => false
/-- Cores that become free to a launch of class `k`: those of lower ones being pre-empted. -/
def freeing (s : State) (d k : Nat) : Nat → Bool := boundBelow s d k fun e => e.victimBy.isSome

/-- The next victim: the lowest class below `c`, then the most recently bound. -/
def nextVictim (s : State) (d c : Nat) : Option Nat :=
  ((dieOf s d).launches.filter fun e => e.2.state = .running && e.2.victimBy.isNone && decide (e.2.prio < c)).foldl (fun a e =>
    match a with
    | none => some e.1
    | some b =>
      let o := launchOf s d b
      if decide (e.2.prio < o.prio) || (e.2.prio = o.prio && decide (o.bindSeq < e.2.bindSeq)) then some e.1 else some b) none

def preemptGo (d l : Nat) : Nat → State → State
  | 0, s => s
  | n + 1, s =>
    let e := launchOf s d l
    if canBind s d e (freeing s d e.prio) then s
    else match nextVictim s d e.prio with
      | some v => preemptGo d l n (makeVictim s d v l (2 ^ (20 - e.urg)))
      | none => s

/-- PREEMPT: a waiting launch makes victims of lower classes, when all of them together would free a rectangle. -/
def execPreempt (die l : Nat) (s : State) : Host.Outcome State Fault Refusal :=
  let e := launchOf s die l
  .next (if waitingLaunch e && canBind s die e (boundBelow s die e.prio fun v => v.state = .running) then preemptGo die l 32 s else s)

/-- The current word is a checkpoint word of the image (R290). -/
def atCheckpoint (s : State) (p : Party) : Bool := (ckptOf s p (taskOf s p).pc).isSome
/-- A task whose fate makes it stop at this word. -/
def checkpointDue (s : State) (p : Party) : Bool :=
  let t := taskOf s p
  t.status = .run && !t.inHandler && atCheckpoint s p && match t.fate with
    | .checkpointWithin b => decide (t.ic ≤ b) || !restartableTask s p
    | .checkpointNext => true
    | _ => false
/-- A task that is restartable still is killed at the end of its budget; any other runs on to its next checkpoint word (R290). -/
def killDue (s : State) (p : Party) : Bool :=
  let t := taskOf s p
  !isPorter p && t.status != .idle && match t.fate with
    | .checkpointWithin b => decide (b ≤ t.ic) && restartableTask s p && !checkpointDue s p
    | _ => false

/-- TASK_CHECKPOINT: at its checkpoint word the task's results land, its accesses end and its streams halt; then its
record, resumable at once, goes to the launch's continuation spill area (R291). -/
def execTaskCheckpoint (p : Party) (s : State) : Host.Outcome State Fault Refusal :=
  let t := taskOf s p
  let core := coreNo p
  let own := ownStreams s core t.run
  let s1 := cutStreams s core own
  .next (if isPorter p || !checkpointDue s p then s
  else if !t.flights.isEmpty then endCycle (landDue s p) p
  else if !accessesDone t || !own.all (streamQuiet s1 core) then s1
  else
    let regs := (ckptOf s p t.pc).getD []
    let strs := own.map fun e => (e, { theStream s1 core e with cut := false, cutHalt := false, leaveAsked := false, leaveGot := false })
    let s2 := own.foldl (fun s e => mapStream s core e fun _ => Stream.fresh) s1
    freeSlot (leaveOver (spendLive (storeCont s2 p { contOf s2 p t.pc 0 false true regs with streams := strs } true) p regs) p) p)

/-- PREEMPT_BUDGET_EXPIRY: a task that met no checkpoint word within its budget is killed. -/
def execPreemptBudgetExpiry (p : Party) (s : State) : Host.Outcome State Fault Refusal := .next (if killDue s p then killTask s p else s)

/-! ## A victim settled (R291) -/

/-- Records moved to the launch's continuation spill area. -/
def moveConts (s : State) (d l : Nat) : State :=
  let e := launchOf s d l
  (e.conts.filter fun c => !c.spilled).foldl (fun s c =>
    let e := launchOf s d l
    let c1 := { c with spilled := true, off := spillPlace e (contUnits c) }
    let rest := e.conts.filter fun x => x != c
    if spillOk s e.cspill c1.off (64 * contUnits c) true then
      mapLaunch (writeCont s (.stream d e.ctx) e.cspill c1) d l fun e => { e with conts := rest ++ [c1] }
    else settlePoint (usherItem (mapLaunch s d l fun e => { e with conts := rest }) e.ctx 6 (clusterField c.cluster) 0) d l c.point true) s

/-- The first entry that still stands in a queue. -/
def firstQueued (e : Launch) : Option (Nat × Entry) :=
  e.queues.findSome? fun q => q.2.head?.map fun n => (q.1, n)

/-- A point no task of which has started. -/
def notBegun (e : Launch) (pt : List Nat) : Bool := e.flying.any fun g => decide (g.point = pt) && !g.begun
def withdraw (e : Launch) (pt : List Nat) : Launch := { e with flying := e.flying.filter fun g => g.point != pt }

/-- Queued entries withdrawn or moved to the overflow area in order. -/
def moveEntries (d l : Nat) : Nat → State → Placed
  | 0, s => .done s
  | n + 1, s =>
    let e := launchOf s d l
    match firstQueued e with
    | none => .done s
    | some (key, x) =>
      let out (s : State) : State := mapLaunch s d l fun e => setQueue e key ((queueOf e key).drop 1)
      if key % 8 = 0 && notBegun e x.point then moveEntries d l n (mapLaunch (out s) d l fun e => withdraw e x.point)
      else match toOverflow (out s) d l key x with
        | .done s1 => moveEntries d l n s1
        | .wait s1 => .wait (mapLaunch s1 d l fun e => setQueue e key (x :: queueOf e key))

/-- Spilled stage 0 entries of points never begun fire again too. -/
def withdrawSpilled (e : Launch) : Launch :=
  let gone := e.overflow.filter fun o => o.1 % 8 = 0 && notBegun e o.2.2.point
  { e with overflow := e.overflow.filter fun o => !gone.contains o, flying := e.flying.filter fun g => !gone.any fun o => decide (o.2.2.point = g.point) }

/-- A tick queue of the launch's cores holds ticks (R296). -/
def ticksHeld (s : State) (d l : Nat) : Bool := (coresBound s d l).any fun c => c.2.ticks.any fun t => t.2 != 0
/-- The launch's cores are freed and their tick queues emptied. -/
def freeCores (s : State) (d l : Nat) : State :=
  (coresBound s d l).foldl (fun s c => mapCore s c.1 fun k =>
    { k with bound := none, stage := none, residents := [], moving := none, ticks := [], stopped := false }) s

/-- A core is quiet for a launch: no task of it holds a slot and no stream of it runs (R294). -/
def coreQuiet (s : State) (d l core : Nat) : Bool :=
  ((slotParties core).all fun p => (taskOf s p).status = .idle || (taskOf s p).launch != some (d, l))
    && [Engine.copy, .matrix, .epilogue].all fun e =>
      let x := theStream s core e
      x.launch != some (d, l) || (x.state != .running && x.prog.isEmpty && x.active.isEmpty && x.chained.isEmpty)
def launchQuiet (s : State) (d l : Nat) : Bool :=
  (coresBound s d l).all (fun c => coreQuiet s d l c.1) && !s.saved.any fun e => decide (e.2.launch = some (d, l))

/-- VICTIM_SETTLED: with every task settled, records and entries move, the cores are freed, and the launch is PRE-EMPTED, or
SAVED for `frsave` (R291, R305). -/
def execVictimSettled (die l : Nat) (s : State) : Host.Outcome State Fault Refusal :=
  let e := launchOf s die l
  .next (match e.victimBy with
    | none => s
    | some by_ =>
      if !launchQuiet s die l || e.switched then s
      else
        let s1 := mapLaunch (moveConts s die l) die l withdrawSpilled
        match moveEntries die l ((e.queues.map fun q => q.2.length).sum) s1 with
        | .wait s2 => s2
        | .done s2 =>
          mapLaunch (freeCores s2 die l) die l fun e => { e with
            state := if by_ = 32 then .saved else .preempted, victimBy := none, bound := false, ovfWait := [] })

/-! ## The end of a launch (R295, R296) -/

def allLinesDone (e : Launch) : Bool := e.risers.all fun r => decide (extOf e e.sweepAxis ≤ r.height)

/-- The status with which a launch ends now, if it ends. -/
def endStatus (s : State) (d l : Nat) : Option Nat :=
  let e := launchOf s d l
  let idle := (e.queues.all fun q => q.2.isEmpty) && e.overflow.isEmpty && e.conts.isEmpty && launchQuiet s d l
    && e.flying.all fun g => g.failed || g.fate = 4
  if e.state != .running || e.victimBy.isSome || e.switched || !idle then none
  else if (firingPoint s d l).isSome then none
  else if (nextPoint e fun _ => true).isSome then some 3
  else if allLinesDone e then some 1 else some 2

def doneBytes (e : Launch) (status : Nat) (ticks : Bool) : List Byte :=
  leBytes 1 status ++ leBytes 1 (e.seam.toNat + 2 * ticks.toNat + 4 * e.everSpilled.toNat) ++ leBytes 2 0 ++ leBytes 4 e.failedN
    ++ leBytes 8 e.completed

/-- A device write to a token's extent; peer bytes go as messages of the party or of the slot's context, which are to be acknowledged (R435). -/
def wrAny (s : State) (p : Party) (k : KReg) (off : Nat) (bs : List Byte) : State × List Nat :=
  if kSpace k = 3 then
    askSpans s p 3 (kSlot k) [] 0 s.reqNo false (fun r => (bs.drop r.1).take r.2.2)
      (peerSpans ((List.range bs.length).map fun i => (i, (kPlace s k (off + i)).addr)))
  else (wrExtent s p k off bs, [])

/-- The completion record written, or its failure logged; and the writes to be acknowledged. -/
def writeDone (s : State) (d l status : Nat) (ticks : Bool) : State × List Nat :=
  let e := launchOf s d l
  let c := access s e.doneTok 0 16 true
  if c.flag = 0 then wrAny s (.stream d e.ctx) e.doneTok 0 (doneBytes e status ticks)
  else (logErrorAt s e.ctx { kind := 15, core := d * 512, unit := 8, record := l, old := e.completed }, [])

/-- The context's launch timeline rises by 1 (R353). -/
def bumpTimeline (s : State) (p : Party) (ctx : Nat) : State :=
  if !(ctxOf s ctx).live then s
  else
    let a := (ctxOf s ctx).params.timeline
    let bs := leBytes 8 ((rdNear s a 8 + 1) % 2 ^ 64)
    wrPlaces s p 0xFFFF a ((List.range 8).map fun i => (⟨.near, a + i⟩, bs.getD i 0, 0xFF#8))

/-- The completion record is written: the timeline rises, and the launch is DONE or FAILED. -/
def concludeLaunch (s : State) (die l st : Nat) : State :=
  mapLaunch (bumpTimeline s (.stream die (launchOf s die l).ctx) (launchOf s die l).ctx) die l fun e => { e with
    state := if st = 1 then .done else .failed, bound := false, endSeq := nextOrder s, ending := none }

/-- LAUNCH_END; a failed point stays in flight for good (R293). A completion record that lies at a peer is acknowledged first (R296, R437). -/
def execLaunchEnd (die l : Nat) (s : State) : Host.Outcome State Fault Refusal :=
  .next (match endStatus s die l with
    | none => s
    | some st => match (launchOf s die l).ending with
      | some (st0, ids) => if ids.isEmpty then concludeLaunch s die l st0 else s
      | none =>
        let x := writeDone (freeCores s die l) die l st (ticksHeld s die l)
        if x.2.isEmpty then concludeLaunch x.1 die l st else mapLaunch x.1 die l fun e => { e with ending := some (st, x.2) })

end Sys2Proof.Machine
end

