-- ==== Sys2Proof/Machine/Landing.lean ====
section
/-! DEFINITION. Landings (spec 12, R293, R304-R306): `frsave` and `frload`. -/

namespace Sys2Proof.Machine

/-- The launch of a handle in one of the states given. -/
def handleIn (s : State) (v : Word) (ok : List LState) : Option (Nat × Nat) :=
  match handleLaunch s v with
  | some (d, l) => if ok.contains (launchOf s d l).state then some (d, l) else none
  | none => none

def illFr (f : FmtA) : List (Nat × Bool) := noneWord cTx [.k] cScal cNone f
def frOff (f : FmtA) (s : State) (p : Party) : Nat := (rdScal s p f.c).toNat

/-! ## The landing's bytes -/

/-- FATE and REC of a point in flight at the save. -/
def landFate (e : Launch) (g : Flying) : Nat × Nat :=
  if g.failed then (4, 0)
  else if g.fate = 1 then (1, 0)
  else match e.conts.find? fun c => decide (c.point = g.point) with
    | some c => (if c.bar = 0 then 2 else 3, c.off)
    | none => if g.fate = 0 then (3, 0) else (g.fate, g.record)

def landEntry (e : Launch) (g : Flying) : List Byte :=
  let f := landFate e g
  pointBytes g.point ++ leBytes 1 f.1 ++ List.replicate 7 0 ++ leBytes 8 f.2

def landBytes (e : Launch) : List Byte :=
  leBytes 1 e.rank ++ leBytes 1 e.sweepAxis ++ leBytes 1 e.win ++ leBytes 1 0 ++ leBytes 4 e.risers.length ++ leBytes 4 e.flying.length
    ++ leBytes 4 0 ++ (List.range 4).flatMap (fun a => leBytes 4 (extOf e a)) ++ leBytes 8 e.completed ++ leBytes 8 e.failedN
    ++ List.replicate 16 0 ++ e.risers.flatMap riserBytes ++ e.flying.flatMap (landEntry e)

/-! ## frsave (R304, R305) -/

def savable : List LState := [.queued, .running, .preempted, .saved]
def planFrsave (f : FmtA) (s : State) (p : Party) : Plan :=
  { tk := f.tk, ill := illFr f, reads := readsA f, priv := !isSuper p, ready := accessesDone (taskOf s p) }
def frsaveAct (f : FmtA) (_ : List Nat) (s : State) : Act :=
  match handleIn s (opA f s) savable with
  | none => .trap (launchTrap 6)
  | some (d, l) =>
    if (opC f s).toNat % 64 != 0 then .trap (launchTrap 8)
    else
      let k := rdTok s s.cur f.b
      let off := (opC f s).toNat
      .hold fun t => { t with wait := .frsave (32 * d + l) k off false }

/-- As the word begins to wait the frontier is frozen and the tasks are settled with u = 15 (R305). -/
def beginSave (s0 s1 : State) (p : Party) : State :=
  match (taskOf s0 p).wait, (taskOf s1 p).wait with
  | .none, .frsave n _ _ _ =>
    let e := launchOf s1 (n / 32) (n % 32)
    if e.state = .running then makeVictim s1 (n / 32) (n % 32) 32 32
    else mapLaunch s1 (n / 32) (n % 32) fun e => { e with state := .saved, ovfWait := [] }
  | _, _ => s1

def frsaveWord (f : FmtA) : Word := (encodeWord (.frsave f)).getD 0
/-- The landing cannot be written. -/
def failSave (s : State) (p : Party) (f : FmtA) : State :=
  trapHere (mapTask (dropPeer p s) p fun t => { t with wait := .none }) p (frsaveWord f) (launchTrap 8)
/-- The launch is SAVED: its landing is written, or LAUNCH 8 raised. At a peer the word waits until its writes are answered (R305, R437). -/
def completeSave (s : State) (p : Party) (f : FmtA) (n : Nat) (k : KReg) (off : Nat) : State :=
  let bs := landBytes (launchOf s (n / 32) (n % 32))
  let c := access s k off bs.length true
  if c.flag != 0 then failSave (logChk s p k c) p f
  else
    let x := wrAny s p k off bs
    if x.2.isEmpty then finishWord x.1 p (frsaveWord f) f.tk doneNow
    else mapTask x.1 p fun t => { t with wait := .frsave n k off true, peerAsk := x.2 }
/-- All the writes of a landing to a peer are answered. -/
def endSave (s : State) (p : Party) (f : FmtA) : State :=
  let t := taskOf s p
  if !t.peerAsk.isEmpty then s
  else if t.peerFlags != 0 then failSave s p f
  else finishWord (dropPeer p s) p (frsaveWord f) f.tk doneNow
def execFrsave (f : FmtA) (s : State) : Host.Outcome State Fault Refusal :=
  match (taskOf s s.cur).wait with
  | .frsave _ _ _ true => .next (endSave s s.cur f)
  | .frsave n k off false => .next (if (launchOf s (n / 32) (n % 32)).state = .saved then completeSave s s.cur f n k off else s)
  | _ => .next (beginSave s (issueWord (frsaveWord f) (planFrsave f) (frsaveAct f) s) s.cur)

/-! ## frload (R306) -/

def riserFrom (bs : List Byte) (o : Nat) : Riser := ⟨fld bs o 8, fld bs (o + 8) 8, fld bs (o + 16) 4⟩
def pointFrom (bs : List Byte) (o : Nat) : List Nat := (List.range 4).map fun a => fld bs (o + 4 * a) 4

/-- A riser list is well formed (R284). -/
def risersOk (e : Launch) (l : List Riser) : Bool :=
  let ext := extOf e e.sweepAxis
  let single (r : Riser) : Bool :=
    decide (r.first < lineCount e) && decide (r.height ≤ ext) && decide (r.window < 2 ^ e.win)
      && !(r.window.testBit 0 && decide (r.height < ext)) && !(List.range e.win).any fun i => r.window.testBit i && decide (ext ≤ r.height + i)
  (l.head?.map (·.first)) = some 0 && l.all single
    && (l.zip (l.drop 1)).all fun x => decide (x.1.first < x.2.first) && (x.1.height != x.2.height || x.1.window != x.2.window)

/-- A landing that does not match the launch, or is malformed. -/
def landingBad (e : Launch) (bs : List Byte) : Bool :=
  let nr := fld bs 4 4
  let ni := fld bs 8 4
  let rs := (List.range nr).map fun i => riserFrom bs (64 + 32 * i)
  let at_ (i : Nat) : Nat := 64 + 32 * nr + 32 * i
  let pts := (List.range ni).map fun i => pointFrom bs (at_ i)
  let e1 := { e with risers := rs, flying := [] }
  fld bs 0 1 != e.rank || fld bs 1 1 != e.sweepAxis || fld bs 2 1 != e.win
    || (List.range 4).any (fun a => fld bs (16 + 4 * a) 4 != extOf e a)
    || fld bs 3 1 != 0 || fld bs 12 4 != 0 || fld bs 48 16 != 0
    || (List.range nr).any (fun i => fld bs (64 + 32 * i + 20) 12 != 0) || (List.range ni).any (fun i => fld bs (at_ i + 17) 7 != 0)
    || !risersOk e rs || decide (4096 < ni)
    || (List.range ni).any (fun i => decide (fld bs (at_ i + 16) 1 < 1) || decide (4 < fld bs (at_ i + 16) 1))
    || pts.any (fun q => !insideSpace e (q.map Int.ofNat) || completed e1 q || !inWindow e1 (treadOf rs (lineOf e q)) (sweepOf e q))
    || pts.eraseDups.length != pts.length

/-- A continuation record read from the spill area (R268). -/
def contFrom (s : State) (k : KReg) (off : Nat) (pt : List Nat) : Option Cont :=
  if !spillOk s k off 80 false then none
  else
    let get (o n : Nat) : List Byte := rdExtent s k (off + o) n
    let bar := leNat (get 32 8)
    let phase := (leNat (get 40 1)).testBit 0
    let tags (o : Nat) : Bool := spillTag s k (off + o)
    let c : Cont := {
      pc := leNat (get 0 8) / 8, fmode := BitVec.ofNat 64 (leNat (get 8 8)), point := pt, bar := bar, phase := phase
      stage := leNat (get 41 1), ins := (List.range 8).map fun i => leNat (get (48 + 4 * i) 4)
      live := readRegs get tags (min (leNat (get 42 1)) 64) 80, ready := bar = 0 || (decide (bar < 2 ^ 63) && phaseAt s bar != phase)
      spilled := true, cluster := 0, off := off, refused := [], xb := false, fixed := true, run := 0, streams := [] }
    some c

/-- What one in-flight entry of a landing gives a launch: the record that REC names (R293), which is the one that the launch still holds there
together with what else it holds of the point, or else is read from the area. -/
def loadEntry (d l : Nat) (old : List Cont) (bs : List Byte) (o : Nat) (s : State) : State :=
  let pt := pointFrom bs o
  let fate := fld bs (o + 16) 1
  let rec_ := fld bs (o + 24) 8
  let e := launchOf s d l
  let more := (e.overflow.filter fun x => decide (x.2.2.point = pt)).length
  let enter (conts : List Cont) : State := mapLaunch s d l fun e => { e with
    conts := e.conts ++ conts
    flying := e.flying ++ [⟨pt, max 1 (conts.length + more), true, fate = 4, fate, rec_⟩] }
  match fate with
  | 1 => foldPoint s d l pt
  | 2 | 3 =>
    let mine := old.filter fun c => decide (c.point = pt) && c.spilled
    if mine.any fun c => decide (c.off = rec_) then enter mine
    else if fate = 3 && rec_ = 0 && 0 < more then enter []
    else match contFrom s e.cspill rec_ pt with
      | some c => enter [c]
      | none => settlePoint (usherItem (enter []) e.ctx 6 (d * 512) 0) d l pt true
  | _ => enter []

/-- The landing replaces the held frontier. -/
def loadLanding (s : State) (d l : Nat) (bs : List Byte) : State :=
  let nr := fld bs 4 4
  let e := launchOf s d l
  let pts := (List.range (fld bs 8 4)).map fun i => pointFrom bs (64 + 32 * nr + 32 * i)
  let s1 := mapLaunch s d l fun e => { e with
    completed := fld bs 32 8, failedN := fld bs 40 8, flying := [], conts := [], state := .queued
    overflow := e.overflow.filter fun x => pts.contains x.2.2.point }
  let s2 := setRisers s1 d l ((List.range nr).map fun i => riserFrom bs (64 + 32 * i))
  (List.range (fld bs 8 4)).foldl (fun s i => loadEntry d l e.conts bs (64 + 32 * nr + 32 * i) s) s2

/-- The access of `n` bytes of a landing passes. -/
def landingAccess (s : State) (k : KReg) (off n : Nat) : Bool := (access s k off n false).flag = 0 && off % 64 = 0
/-- What a landing's header says: its size; none where a count cannot be. -/
def landingSize (h : List Byte) : Option Nat :=
  if fld h 4 4 = 0 || decide (4096 < fld h 8 4) then none else some (64 + 32 * (fld h 4 4 + fld h 8 4))

/-- The bytes of the landing that are to be read next: its header, then all of it. -/
def landingNeeds (f : FmtA) (s : State) (p : Party) : Nat :=
  let k := rdTok s p f.b
  let off := (rdScal s p f.c).toNat
  if !landingAccess s k off 64 then 0
  else if !(peerMissing s p k off 64).isEmpty then 64
  else match (bytesOf s p k off 64).bind landingSize with
    | some n => if landingAccess s k off n && !(peerMissing s p k off n).isEmpty then n else 0
    | none => 0

def planFrload (f : FmtA) (s : State) (p : Party) : Plan :=
  { tk := f.tk, ill := illFr f, reads := readsA f, priv := !isSuper p, ready := (taskOf s p).stores.isEmpty
    go := landingNeeds f s p = 0
    ask := fun s => askBytes s p (rdTok s p f.b) (rdScal s p f.c).toNat (landingNeeds f s p) }

/-- The landing read and checked: the DETAIL, or its bytes (R306). -/
def landingOf (s : State) (p : Party) (e : Launch) (k : KReg) (off : Nat) : Nat ⊕ List Byte :=
  if !landingAccess s k off 64 then .inl 8
  else match bytesOf s p k off 64 with
    | none => .inl 8
    | some h => match landingSize h with
      | none => .inl 7
      | some n =>
        if !landingAccess s k off n then .inl 8
        else match bytesOf s p k off n with
          | none => .inl 8
          | some bs => if landingBad e bs then .inl 7 else .inr bs

def frloadAct (f : FmtA) (sg : List Nat) (s : State) : Act :=
  let p := s.cur
  match handleIn s (opA f s) [.saved] with
  | none => .changed (dropPeer p) (launchTrap 6)
  | some (d, l) => match landingOf s p (launchOf s d l) (rdTok s p f.b) (opC f s).toNat with
    | .inl n => .changed (dropPeer p) (launchTrap n)
    | .inr bs => doneNow sg (loadLanding (dropPeer p s) d l bs)
def execFrload (f : FmtA) (s : State) : Host.Outcome State Fault Refusal := runWord (.frload f) (planFrload f) (frloadAct f) s

end Sys2Proof.Machine
end

