-- ==== Sys2Proof/Machine/Porter.lean ====
section
/-! DEFINITION. The Porter's streams and the words of OP 0x3C (spec 12, R297-R300, R308-R312). -/

namespace Sys2Proof.Machine

/-! ## callb, retb (R308) -/

def illCallb (f : FmtA) : List (Nat × Bool) := noneWord [.k] cScal cNone cNone f
def planCallb (f : FmtA) (s : State) (p : Party) : Plan :=
  { tk := f.tk, reads := readsA f, ill := (5, decide (2 ≤ (taskOf s p).level)) :: illCallb f }
/-- Tag, generation, R, and a multiple of 8. -/
def callbChk (f : FmtA) (s : State) : Chk :=
  let c := checkTok s (rdTok s s.cur f.a) (kR (rdTok s s.cur f.a))
  if c.flag != 0 then c else if (opB f s).toNat % 8 != 0 then ⟨fXB, 0⟩ else chkOk
def callbAct (f : FmtA) (sg : List Nat) (s : State) : Act :=
  let p := s.cur
  let k := rdTok s p f.a
  let c := callbChk f s
  let b := (opB f s).toNat
  if !(taskOf s p).cp then doneNow sg s
  else if c.flag != 0 then doneNow sg (mapTask (chkFail s p k c) p fun t => orFlags t c.flag)
  else doneNow sg (mapTask s p fun t =>
    { t with stack := (t.buf, t.pc) :: t.stack, level := t.level + 1, buf := k, pc := b / 8, fell := false, fetched := [] })
def execCallb (f : FmtA) (s : State) : Host.Outcome State Fault Refusal := runWord (.callb f) (planCallb f) (callbAct f) s

def illNoOps (f : FmtA) : List (Nat × Bool) := noneWord cNone cNone cNone cNone f
def planRetb (f : FmtA) (s : State) (p : Party) : Plan :=
  { tk := f.tk, ill := (5, isPorter p && (taskOf s p).level = 0) :: illNoOps f }
/-- A hardware loop whose body lies in the buffer left ends as well: DESIGN CHOICE (log 58). -/
def endHere (s : State) (p : Party) : State := if (hereLoop (taskOf s p)).isSome then endLoop s p else s
def retbAct (sg : List Nat) (s : State) : Act :=
  doneNow sg (mapTask (endHere (endHere (endHere s s.cur) s.cur) s.cur) s.cur fun t =>
    match t.stack with
    | (k, pc) :: r =>
      { t with stack := r, level := t.level - 1, buf := k, pc := pc, fell := true, fetched := []
               loopcs := t.loopcs.filter fun l => l.level != t.level }
    | [] => t)
def execRetb (f : FmtA) (s : State) : Host.Outcome State Fault Refusal := runWord (.retb f) (planRetb f) retbAct s

/-! ## predm (R309) -/

/-- Bits [4:0] hold an integer condition. -/
def condOf (f : FmtA) : Option ICond := icondOf (low5 f).toNat
def condWord (f : FmtA) : List (Nat × Bool) :=
  (5, (condOf f).isNone || f.s)
    :: faultsA { a := [.k], b := cScal, c := cScal, d := cXN, tyOk := isNoneTy f.ty, stair := true, clamp := .low } f
def memChk (f : FmtA) (s : State) (p : Party) : Chk :=
  let k := rdTok s p f.a
  objChk s k (kR k) (barOff f s p) 8 false
def condHolds (f : FmtA) (v c : Word) : Bool := icond ((condOf f).getD .eq) v c

def planPredm (f : FmtA) (s : State) (p : Party) : Plan :=
  { planObj (condWord f) f (memChk f s p) 8 .read (!objBusy s p (kSlot (rdTok s p f.a)) (barAt f s p) 8) s p with cold := none }
/-- CP and the result take cond(word, C). -/
def setCp (f : FmtA) (v c : Word) (fl : BitVec 8) (sg : List Nat) (s : State) : Act :=
  let b := condHolds f v c
  putObj f (if b then 1 else 0) fl sg (mapTask s s.cur fun t => { t with cp := b })
def predmAct (f : FmtA) (sg : List Nat) (s : State) : Act :=
  let p := s.cur
  let c := memChk f s p
  let slot := kSlot (rdTok s p f.a)
  let at_ := barAt f s p
  if c.flag != 0 then setCp f 0 (opC f s) c.flag sg (chkFail s p (rdTok s p f.a) c)
  else if objPeer s slot at_ then .hold fun t => { t with wait := .pred f slot at_ ((condOf f).getD .eq) (opC f s) none }
  else match objPoison s slot at_ 8 with
    | some pl => setCp f 0 (opC f s) 0 sg (poisonMet s p slot at_ pl)
    | none => setCp f (BitVec.ofNat 64 (objVal s slot at_ 8)) (opC f s) 0 sg (readAtoms s (objPlaces s slot at_ 8))
def execPredm (f : FmtA) (s : State) : Host.Outcome State Fault Refusal :=
  let w := (encodeWord (.predm f)).getD 0
  match (taskOf s s.cur).wait with
  | .pred _ slot _ _ c (some v) => .next (finishWord (inflt s slot false) s.cur w f.tk (setCp f v c 0))
  | .pred _ _ _ _ _ none => .next s
  | _ => .next (beginWait s (issueWord w (planPredm f) (predmAct f) s) s.cur)

/-! ## loopc (R310), ffence (R311) -/

def illLoopc (f : FmtA) : List (Nat × Bool) := noneWord cScal cScal cNone cNone f
def loopcBad (f : FmtA) (s : State) (p : Party) : Bool :=
  let t := taskOf s p
  let n := (rdScal s p f.b).toNat
  n = 0 || decide (63 < n)
    || (isPorter p && (t.loopcs.any (fun l => l.level = t.level) || decide (codeWords s p < t.pc + 1 + n)))
def planLoopc (f : FmtA) (s : State) (p : Party) : Plan :=
  { tk := f.tk, reads := readsA f, ill := (5, loopcBad f s p) :: illLoopc f }
def loopcAct (f : FmtA) (sg : List Nat) (s : State) : Act :=
  let a := (opA f s).toNat
  let n := (opB f s).toNat
  doneNow sg (mapTask s s.cur fun t =>
    if a = 0 then { t with pc := t.pc + n, fell := true }
    else { t with loopcs := t.loopcs ++ [⟨t.level, t.pc, n, a⟩], fell := false })
def execLoopc (f : FmtA) (s : State) : Host.Outcome State Fault Refusal := runWord (.loopc f) (planLoopc f) (loopcAct f) s

def ffenceAct (sg : List Nat) (s : State) : Act := doneNow sg (mapTask s s.cur fun t => { t with fetched := [] })
def execFfence (f : FmtA) (s : State) : Host.Outcome State Fault Refusal := runWord (.ffence f) (planNone f.tk (illNoOps f) []) ffenceAct s

/-! ## waitline (R312) -/

/-- A failed access reads 0 and is judged as such: unless 0 satisfies, the stream stays frozen. -/
def planWaitline (f : FmtA) (s : State) (p : Party) : Plan :=
  let c := memChk f s p
  { planObj (condWord f) f c 8 .read (!objBusy s p (kSlot (rdTok s p f.a)) (barAt f s p) 8) s p with
    cold := none
    ready := if c.flag != 0 then condHolds f 0 (rdScal s p f.c) else !objBusy s p (kSlot (rdTok s p f.a)) (barAt f s p) 8 }
def waitlineAct (f : FmtA) (sg : List Nat) (s : State) : Act :=
  let p := s.cur
  let c := memChk f s p
  let slot := kSlot (rdTok s p f.a)
  let at_ := barAt f s p
  if c.flag != 0 then putObj f 0 c.flag sg (chkFail s p (rdTok s p f.a) c)
  else .hold fun t => { t with wait := .line f slot at_ ((condOf f).getD .eq) (opC f s) none }
/-- The word is read: its atoms are corrected and counted (R398), and poison is what a load meets (R402). -/
def lineRead (s : State) (p : Party) (slot off : Nat) : State :=
  let s1 := readAtoms s (objPlaces s slot off 8)
  match objPoison s slot off 8 with
  | some pl => poisonMet s1 p slot off pl
  | none => s1
/-- The word as a visit finds it (log 26); a poisoned word reads 0. -/
def lineValue (s : State) (slot off : Nat) : Word :=
  if (objPoison s slot off 8).isSome then 0 else BitVec.ofNat 64 (objVal s slot off 8)
def execWaitline (f : FmtA) (s : State) : Host.Outcome State Fault Refusal :=
  let w := (encodeWord (.waitline f)).getD 0
  let p := s.cur
  match (taskOf s p).wait with
  | .line _ slot _ _ _ (some v) => .next (finishWord (inflt s slot false) p w f.tk (putObj f v 0))
  | .line _ slot off _ c none =>
    .next (if !objPeer s slot off && condHolds f (lineValue s slot off) c then
      finishWord (inflt (lineRead s p slot off) slot false) p w f.tk (putObj f (lineValue s slot off) 0)
    else s)
  | _ => .next (beginWait s (issueWord w (planWaitline f) (waitlineAct f) s) p)

/-! ## Starting, stopping and fetching (R298, R299) -/

/-- What a start resets; the registers, `ctimeo` and semaphores stay. -/
def startedStream (t : Task) (ctx : Nat) (k : KReg) (off : Nat) : Task :=
  { t with
    status := .run, ctx := ctx, pc := off / 8, fell := false, wait := .none, level := 0, stack := [], loopcs := [], loops := [], lbuf := []
    exits := false, cp := true, buf := k, fetched := [], peerBuf := [], peerAsk := [] }

/-- COMMAND_STREAM_START: the hypervisor starts a stopped stream at a buffer token and offset. -/
def execCommandStreamStart (die ctx : Nat) (tok : BitVec 128) (off : Nat) (s : State) : Host.Outcome State Fault Refusal :=
  let p : Party := .stream die ctx
  .next (if (taskOf s p).status = .idle && (ctxOf s ctx).live && decide (ctx < 64) && decide (die < 4) then
    mapTask s p fun t => startedStream t ctx (kClean s ⟨tok, true⟩) off
  else s)

/-- A stream stopped: its window keeps the registers (R298). -/
def stopStream (t : Task) : Task :=
  { t with status := .idle, wait := .none, flights := [], asyncs := [], exchs := [], stores := [], sigq := [] }
/-- What a stopped party's stores and waiting word hold is given back. -/
def dropCounts (s : State) (p : Party) : State := dropWait (dropSlots s (taskOf s p)) p (taskOf s p).wait

/-- COMMAND_STREAM_STOP: the hypervisor stops a stream; stores already posted are performed first. -/
def execCommandStreamStop (die ctx : Nat) (s : State) : Host.Outcome State Fault Refusal :=
  let p : Party := .stream die ctx
  .next (if (taskOf s p).stores.isEmpty then mapTask (dropCounts s p) p stopStream else s)

/-- Fetch-ahead wants the words from the current one to 63 further, within the buffer. -/
def wantedWords (s : State) (p : Party) : List Nat :=
  let t := taskOf s p
  ((List.range 64).map (t.pc + ·)).filter fun i => decide (i < codeWords s p)
def missingWords (s : State) (p : Party) : List Nat :=
  (wantedWords s p).filter fun i => !(taskOf s p).fetched.any fun e => decide (e.1 = i)

/-- A word fetched through the buffer token by the checks of R132; one that fails them, or cannot be read, reads 0. -/
def fetchOne (s : State) (p : Party) (k : KReg) (i : Nat) : Word :=
  if (access s k (8 * i) 8 false).flag != 0 then 0 else BitVec.ofNat 64 (((bytesOf s p k (8 * i) 8).map leNat).getD 0)

/-- The missing words that pass their checks, as one extent. -/
def fetchSpan (s : State) (p : Party) : Nat × Nat :=
  let l : List Nat := (missingWords s p).filter fun i => decide ((access s (taskOf s p).buf ((8 * i : Nat) : Int) 8 false).flag = 0)
  match l.head?, l.getLast? with
  | some a, some b => (8 * a, 8 * (b + 1 - a))
  | _, _ => (0, 0)

/-- COMMAND_FETCH: every missing word of the fetch-ahead, after the stream's earlier stores; words at a peer are asked for first. The 128 most
recent stay. -/
def execCommandFetch (p : Party) (s : State) : Host.Outcome State Fault Refusal :=
  let t := taskOf s p
  let span := fetchSpan s p
  .next (if !isPorter p || !t.stores.isEmpty || t.status != .run then s
  else if !(peerMissing s p t.buf span.1 span.2).isEmpty then askBytes s p t.buf span.1 span.2
  else
    let s1 := readAtoms s ((missingWords s p).flatMap fun i => (List.range 8).map fun j => kPlace s t.buf (8 * i + j))
    let new := (missingWords s p).map fun i => (i, fetchOne s1 p t.buf i)
    mapTask (dropPeer p s1) p fun t => { t with
      fetched := (new.reverse ++ t.fetched).take 128
      lbuf := new.foldl (fun b e => if inBody t e.1 && !b.any (fun g => decide (g.1 = e.1)) then tput b e.1 e.2 else b) t.lbuf })

end Sys2Proof.Machine
end

