-- ==== Sys2Proof/Machine/Pipeline.lean ====
section
/-! DEFINITION. The pipeline's own events (spec 02, R55-R62, R72-R75; spec 04, R126, R134; spec 05, R156; spec 13, R318):
results, asynchronous loads and stores, expiry, refresh, loop ends, retirement, and the start of a handler. -/

namespace Sys2Proof.Machine

/-! ## Results (R55, R57, R58) -/

/-- RESULT_WRITE: the results due in this issue cycle land; data that is late freezes the slot (R134). -/
def execResultWrite (p : Party) (s : State) : Host.Outcome State Fault Refusal :=
  .next (if lateData (taskOf s p) then s else landDue s p)

/-- One part of an asynchronous load written. -/
def writePart (a : Async) (p : Party) (s : State) (x : Dest × Val) : State :=
  let f := fixFlight { mkFlight 0 false x.1 x.2 0 false [] with fix := a.fix }
  mapTask s p fun t => orFlags (writeDest s (spoil t x.1) x.1 f.val) f.flags

/-- ASYNC_LOAD_DATA_WRITTEN: load `i` of the party, its data arrived; its registers are not to be relied on until the covering wait (R58);
a halting task discards it (R126). -/
def execAsyncLoadDataWritten (p : Party) (i : Nat) (s : State) : Host.Outcome State Fault Refusal :=
  .next (match (taskOf s p).asyncs[i]? with
    | none => s
    | some a =>
      if !a.need.isEmpty then s
      else
        let s1 := mapTask s p fun t => { t with asyncs := dropAt t.asyncs i }
        if (taskOf s p).status = .halting then s1
        else mapTask (a.parts.foldl (writePart a p) s1) p fun t =>
          { orFlags t a.flags with late := t.late ++ [⟨false, a.seq, a.parts.map fun x => (x.1, a.spoiled.contains x.1)⟩] })

/-! ## Stores (R133, R134) -/

def storePlaces (s : State) (e : Store) : List Place := e.cells.map (cellPlace s)

/-- A store that an earlier store of the task holds back: one with bytes in common (R133), or with bytes in the same scratchpad slice (R355). A
`qsend` releases all before it, the exchanges that store included (R272). -/
def storeHeld (s : State) (t : Task) (i : Nat) (e : Store) : Bool :=
  match e.act with
  | .qsend _ _ n => i != 0 || t.exchs.any fun x => !x.load && decide (x.seq < n)
  | _ => (t.stores.take i).any fun g => (storePlaces s e).any fun pl =>
      (mcastByte g pl).isSome || (pl.space = .hall && writesSlice s (pl.addr / 2 ^ 20) g)
        || if pl.space = .peer then unsentTo s pl g else (storePlaces s g).contains pl

/-- Peer cells of a store, an element's gathered into runs of at most 224: the first cell and the bytes. -/
def peerCells (s : State) (e : Store) : List (SCell × List Byte) :=
  ((e.cells.filter fun c => (cellPlace s c).space = .peer).foldl (fun acc c =>
    match acc with
    | (d, bs) :: r =>
      if c.el = d.el && c.mask = 0xFF && d.mask = 0xFF && (cellPlace s c).addr = (cellPlace s d).addr + bs.length && decide (bs.length < 224) then
        (d, bs ++ [c.byte]) :: r
      else (c, [c.byte]) :: acc
    | [] => [(c, [c.byte])]) []).reverse

/-- Which nibble a cell writes: 0 the whole byte. -/
def cellNib (c : SCell) : Nat := if c.mask = 0x0F then 1 else if c.mask = 0xF0 then 2 else 0
/-- The mark of a store's messages: 3 for the three that carry the image of an `xst`, which the exporter checks as one (R251, log 15). -/
def storeMark (l : List (SCell × List Byte)) (c : SCell) : Nat :=
  if l.map (fun x => (x.1.el, x.2.length)) = [(c.el, 224), (c.el, 224), (c.el, 96)] then 3 else cellNib c

/-- A store loses the bytes that a seal has come to cover since it issued: they are dropped, with SX and an event (R337). -/
def dropSealed (s : State) (p : Party) (i : Nat) (e : Store) : State × Store :=
  match e.cells.find? fun c => sealedPlace s (cellPlace s c) with
  | none => (s, e)
  | some c =>
    let e1 := { e with cells := e.cells.filter fun c => !sealedPlace s (cellPlace s c), flags := e.flags ||| fSX }
    (mapTask (logEvent s p 3 c.slot e.word) p fun t => { t with stores := updAt (fun _ => e1) t.stores i }, e1)

/-- Its writes to peers are sent and awaited (R435), charged to its own word; its bytes on this device are written. -/
def sendStore (s0 : State) (p : Party) (i : Nat) (e : Store) : State :=
  let now := (taskOf s0 p).here
  let s := mapTask s0 p fun t => { t with here := e.word }
  let l := peerCells s e
  let x := l.foldl (fun (a : State × List Nat) r =>
    let y := peerOf a.1 p 3 (cellPlace s r.1) r.1.slot ⟨[], 0, r.2.length, storeMark l r.1, s.reqNo, e.flags != 0⟩ r.2
    (y.1, a.2 ++ [y.2])) (s, [])
  let here := e.cells.filter fun c => (cellPlace s c).space != .peer
  let first := here.headD ⟨0, 0, 0, 0, 0⟩
  let s1 := if here.isEmpty then x.1 else wrPlaces x.1 p first.slot first.off (here.map fun c => (cellPlace s c, c.byte, c.mask))
  mapTask s1 p fun t => { t with here := now, stores := updAt (fun e => { e with
    sent := true, need := x.2, cells := e.cells.filter fun c => (cellPlace s c).space = .peer }) t.stores i }

/-- A store whose bytes lie on this device, performed. -/
def performStore (s : State) (p : Party) (i : Nat) (e : Store) : State :=
  let first := e.cells.headD ⟨0, 0, 0, 0, 0⟩
  let s1 := if e.cells.isEmpty then s else wrPlaces s p first.slot first.off (e.cells.map fun c => (cellPlace s c, c.byte, c.mask))
  let s2 := match e.act with
    | .token slot off tag =>
      let k := kClean s ⟨BitVec.ofNat 128 (leNat (e.cells.map (·.byte))), tag⟩
      if k.tag && e.cells.length = 16 then wrTag s1 (pinLookup s slot off) true else s1
    | _ => s1
  finishStore s2 p i e

/-- An entry sent by `qsend` reaches its queue (R266, R272), after those that have come and wait (R267). -/
def performSend (s : State) (p : Party) (i : Nat) (e : Store) (stage : Nat) (n : Entry) : State :=
  match (taskOf s p).launch with
  | none => finishStore s p i e
  | some (d, l) =>
    let me := ((taskOf s p).run, e.word)
    let cluster := clusterOf (coreNo p)
    if (launchOf s d l).ovfWait.contains cluster || (senders s (launchOf s d l) cluster).head?.any (fun x => decide (x.1 ≠ me.1)) then
      sendComes s d l me
    else match placeEntry s d l cluster stage { n with arrived := s.clock, cls := (launchOf s d l).prio } with
      | .done s1 => finishStore (mapLaunch s1 d l fun e => { e with ovfSend := e.ovfSend.filter fun x => decide (x.1 ≠ me.1) }) p i e
      | .wait s1 => sendComes s1 d l me

/-- STORE_PERFORMED: store `i` of the queue, when no earlier one holds it back. -/
def execStorePerformed (p : Party) (i : Nat) (s : State) : Host.Outcome State Fault Refusal :=
  let l := (taskOf s p).stores
  .next (match l[i]? with
    | none => s
    | some e =>
      if !e.need.isEmpty || storeHeld s (taskOf s p) i e then s
      else match e.act with
        | .mcast _ _ _ _ _ _ => s
        | .qsend stage n _ => performSend s p i e stage n
        | _ =>
          if e.sent then finishStore s p i e
          else
            let x := dropSealed s p i e
            if (storePlaces x.1 x.2).any fun pl => pl.space = .peer then sendStore x.1 p i x.2 else performStore x.1 p i x.2)

/-! ## Expiry, refresh, pin caches, held ticks -/

def expire : Life → Life
  | .left 0 => .expired
  | l => l

/-- SHORT_LIVED_EXPIRY (R62): entries written 16 issue cycles ago. -/
def execShortLivedExpiry (p : Party) (s : State) : Host.Outcome State Fault Refusal :=
  .next (mapTask s p fun t => { t with
    t := t.t.map fun e => { e with life := expire e.life }
    w := t.w.map fun e => { e with life := expire e.life } })

/-- BANK_REFRESH (R61): the core's next visit that reads the bank freezes once. -/
def execBankRefresh (core bank : Nat) (s : State) : Host.Outcome State Fault Refusal :=
  .next (mapCore s core fun c => { c with refresh := some (bank % 8) })

/-- PIN_CACHE_FILL (R318): the cluster's pin cache holds the slot, and the slots that missed it go on. -/
def execPinCacheFill (cluster slot : Nat) (s : State) : Host.Outcome State Fault Refusal :=
  .next { s with
    pinCold := s.pinCold.filter fun e => e != (cluster, slot)
    tasks := s.tasks.map fun e => (e.1, if e.2.pinMiss = some slot then { e.2 with pinMiss := none } else e.2) }

/-- HELD_TICK_PUSH (R29, R156): a task's held signals, or an engine's held pushes, take place as they fit. -/
def execHeldTickPush (p : Party) (s : State) : Host.Outcome State Fault Refusal :=
  .next (match p with
    | .engine c e =>
      (match (theStream s c e).held, finishing s c e with
        | some _, some u => if (coreOf s c).stopped then s else finishRun s u
        | _, _ => s)
    | _ => flushSigs s p)

/-! ## Loop ends (R73, R74, R310, R380, R381) -/

/-- The first word after the innermost body has been reached by falling through. -/
def atLoopEnd (t : Task) : Bool :=
  match hereLoop t with
  | some l => t.fell && !t.exits && decide (t.pc = l.start + l.len)
  | none => false

/-- The Porter's block repeat at this level whose body has ended (R310). -/
def blockEnd (t : Task) : Option LoopC := t.loopcs.find? fun l => l.level = t.level && t.fell && decide (t.pc = l.start + l.len)

/-- The rotation of `spred` (R74). -/
def rotate (spred : BitVec 8) (stages lc : Nat) : BitVec 8 :=
  BitVec.ofNat 8 ((spred.toNat * 2 + (if stages ≤ lc then 1 else 0)) % 2 ^ stages)

/-- Back to the body's first word, or out of it when the count has run down. -/
def loopStep (t : Task) (l : Loop) : Task :=
  let lc := lcOf t l.level - 1
  let t1 := { t with lc := tset 0 t.lc l.level (BitVec.ofNat 64 lc) }
  if lc = 0 then { t1 with exits := true }
  else { t1 with
    pc := l.start, fell := false, loops := t.loops.dropLast ++ [{ l with iter := l.iter + 1 }]
    spred := if 1 < l.stages then rotate t.spred l.stages lc else t.spred }

/-- The event held for the end of a kernel iteration lands (R380); else a step's or a stop's (R381, R382). -/
def boundaryEvent (s : State) (p : Party) : State :=
  let t := taskOf s p
  let stopped := match t.launch with | some (d, l) => (launchOf s d l).stopHeld | none => false
  match t.loopEvent with
  | some i => takeTrap (mapTask s p fun t => { t with loopEvent := none }) p t.pc { i with resume := t.pc }
  | none =>
    if t.step then takeTrap (mapTask s p fun t => { t with step := false }) p t.pc { mkTrap cDBG 5 with resume := t.pc }
    else if stopped then mapTask s p fun t => { t with status := .held }
    else s

/-- A block repeat goes back to its first word, or ends. -/
def blockStep (t : Task) (l : LoopC) : Task :=
  if l.left ≤ 1 then { t with loopcs := t.loopcs.filter fun x => x.level != l.level }
  else { t with pc := l.start, fell := false
                loopcs := t.loopcs.map fun x => if x.level = l.level then { x with left := x.left - 1 } else x }

/-- A kernel iteration of the innermost loop ends. -/
def iterationEnd (s : State) (p : Party) (l : Loop) : State :=
  let s1 := mapTask s p fun t => loopStep t l
  if 1 < l.stages && !(taskOf s1 p).exits then boundaryEvent s1 p else s1

/-- LOOP_ITERATION_END: of the inner one, where a block repeat of the Porter and a hardware loop end at one word. -/
def execLoopIterationEnd (p : Party) (s : State) : Host.Outcome State Fault Refusal :=
  let t := taskOf s p
  .next (match (if isPorter p then blockEnd t else none), (if atLoopEnd t then hereLoop t else none) with
    | none, none => s
    | none, some l => iterationEnd s p l
    | some b, none => mapTask s p fun t => blockStep t b
    | some b, some l => if l.start < b.start then mapTask s p fun t => blockStep t b else iterationEnd s p l)

/-- LOOP_EXIT: the count has reached 0, and control passes to the word after the body. -/
def execLoopExit (p : Party) (s : State) : Host.Outcome State Fault Refusal :=
  .next (if !(taskOf s p).exits then s
  else
    let piped := ((innerLoop (taskOf s p)).map fun l => decide (1 < l.stages)).getD false
    let s1 := mapTask (endLoop s p) p fun t => { t with exits := false, fell := true }
    if piped then boundaryEvent s1 p else s1)

/-! ## Retirement (R126, R294, R369) -/

/-- Everything that `halt` waits for. -/
def haltDone (s : State) (p : Party) : Bool :=
  let t := taskOf s p
  t.status = .halting && t.flights.isEmpty && t.asyncs.isEmpty && t.exchs.isEmpty && t.stores.isEmpty && t.sigq.isEmpty
    && !(s.colls.any fun c => !c.ended && c.run = t.run)
    && (isPorter p || streamsOver s t.run)

/-- A task retires: its point's count falls; in a handler the trapped task is discarded and the point fails. -/
def retireTask (s : State) (p : Party) : State :=
  let t := taskOf s p
  if t.inHandler then
    let s1 := failPoint s p
    freeSlot { s1 with saved := tdel s1.saved (partyKey p) } p
  else
    let s1 := match t.launch with
      | some (d, l) => settlePoint s d l t.point false
      | none => s
    freeSlot s1 p

/-- HALT_RETIRE: on the Porter the stream stops (R298). -/
def execHaltRetire (p : Party) (s : State) : Host.Outcome State Fault Refusal :=
  .next (if !haltDone s p then s
  else if isPorter p then mapTask s p stopStream
  else retireTask (leaveOver s p) p)

/-- HANDLER_START (R369): once its asynchronous operations are complete, a trapped task is saved and its handler starts. -/
def execHandlerStart (p : Party) (s : State) : Host.Outcome State Fault Refusal :=
  .next (if (taskOf s p).status = .trapped && asyncDone (taskOf s p) && !isPorter p then startHandler s p else s)

end Sys2Proof.Machine
end

