-- ==== Sys2Proof/Machine/Traps.lean ====
section
/-! DEFINITION. Traps, the supervisor's frames, debug stops and the Gallery (spec 16, R372-R374, R379-R385): `eret`, `bkpt`,
`trmark`, `perfsnap`. -/

namespace Sys2Proof.Machine

/-! ## The supervisor frame ring (R374) -/

/-- The 64 bytes of a frame. -/
def superFrameBytes (f : Frame) : List Byte :=
  leBytes 2 (ctxField f.ctx) ++ leBytes 2 f.core ++ leBytes 1 f.slot ++ leBytes 1 f.info.cause ++ leBytes 1 f.info.detail
    ++ leBytes 1 f.info.level ++ leBytes 8 f.word ++ leBytes 8 f.info.va ++ leBytes 8 f.info.gpa ++ leBytes 2 f.info.mask
    ++ List.replicate 30 0

/-- The first free place of the ring from its next one. -/
def ringPlace (d : Die) : Option Nat :=
  ((List.range 256).map fun i => (d.ringNext + i) % 256).find? fun i => !d.frames.any fun f => decide (f.written = some i)

/-- SUPERVISOR_FRAME_WRITE: the oldest frame not yet written, with room in the ring and a token that passes R132. Once its own frame is
written the supervisor goes on at its trap entry word. -/
def execSupervisorFrameWrite (die : Nat) (s : State) : Host.Outcome State Fault Refusal :=
  let d := dieOf s die
  .next (match indexWhere (fun f : Frame => f.written.isNone) d.frames, ringPlace d with
    | some i, some n =>
      match d.frames[i]? with
      | none => s
      | some f =>
        if (access s d.ringTok (64 * n) 64 true).flag != 0 then s
        else
          let s1 := wrExtent s (.super die) d.ringTok (64 * n) (superFrameBytes f)
          let s2 := mapDie s1 die fun d => { d with
            ringNext := (n + 1) % 256, frames := updAt (fun f => { f with written := some n }) d.frames i }
          if isSuper f.party then mapTask s2 f.party fun t => if t.status = .supervised then { t with status := .run } else t else s2
    | _, _ => s)

/-! ## Debug stops (R382) -/

/-- A task of a stopped launch stops at its boundary: at once outside a pipelined body; a frozen word has not issued, but a release that it
has taken stays (R353). -/
def holdTask (s : State) (p : Party) : State :=
  let t := taskOf s p
  if t.status = .run && !inPiped t then
    if latched t.wait then mapTask s p fun t => { t with status := .held }
    else dropWait (mapTask s p fun t => { t with status := .held, wait := .none }) p t.wait
  else s

/-- DEBUG_STOP: a debug event under STOP stops the whole launch; one frame with CAUSE 7 goes to the supervisor. -/
def execDebugStop (die l : Nat) (s : State) : Host.Outcome State Fault Refusal :=
  let e := launchOf s die l
  .next (match (launchTasks s die l).find? fun p => (taskOf s p).status = .held with
    | none => s
    | some p =>
      if e.stopHeld || !e.dbg.stop then s
      else
        let s1 := superFrame (mapLaunch s die l fun e => { e with stopHeld := true }) p (taskOf s p).trap
        let s2 := (coresBound s1 die l).foldl (fun s c => mapCore s c.1 fun k => { k with stopped := true }) s1
        (launchTasks s2 die l).foldl holdTask s2)

/-- Completions that a debug stop held take place in their order (R382). -/
def releaseHeld (s : State) (l : List (Nat × Engine)) : State :=
  l.foldl (fun s x => match finishing s x.1 x.2 with | some u => finishRun s u | none => s) s
/-- A launch that no stop holds has its held completions released. -/
def resumeHeld (s : State) (d l : Nat) : State :=
  let e := launchOf s d l
  if e.stopHeld then s else releaseHeld (mapLaunch s d l fun e => { e with heldDone := [] }) e.heldDone

/-- A launch that a context switch keeps off the die resumes: its tasks will run, and its engines start records, when they are restored. -/
def resumeShelved (s : State) (d l ctx : Nat) : State :=
  { s with
    shelf := s.shelf.map fun x => if x.2.2.launch = some (d, l) && decide (x.2.2.status = .held) then
      (x.1, x.2.1, { x.2.2 with status := .cut, skipBp := true }) else x
    coreShelf := s.coreShelf.map fun x => if x.1 = ctx && x.2.2.bound = some (d, l) then (x.1, x.2.1, { x.2.2 with stopped := false }) else x }

/-- The launch resumes: the held completions first, in their order; the debug block is read again (R379). -/
def resumeLaunch (s : State) (d l : Nat) : State :=
  let e := launchOf s d l
  let s1 := mapLaunch s d l fun e => { e with stopHeld := false, dbg := readDebug s e.ctx }
  if e.switched then resumeShelved s1 d l e.ctx
  else
    let s2 := (coresBound s1 d l).foldl (fun s c => mapCore s c.1 fun k => { k with stopped := false }) s1
    let s3 := resumeHeld s2 d l
    (launchTasks s3 d l).foldl (fun s p => mapTask s p fun t =>
      if t.status = .held then { t with status := .run, skipBp := true } else t) s3

/-! ## eret (R373) -/

/-- Classes outside the table's, the handler's absent operands, the supervisor's action and written frame. -/
def eretBad (f : FmtA) (s : State) (p : Party) : Bool :=
  if isSuper p then
    clsOf f.a = .none || clsOf f.b = .none || decide (2 < (rdScal s p f.b).toNat)
      || !(dieOf s (dieNo p)).frames.any fun g => decide (g.written = some (rdScal s p f.a).toNat)
  else isPorter p || !(taskOf s p).inHandler || clsOf f.a != .none || clsOf f.b != .none
def planEret (f : FmtA) (s : State) (p : Party) : Plan :=
  let t := taskOf s p
  { tk := f.tk, ill := (5, tkAny f.tk || eretBad f s p) :: noneWord cScalN cScalN cNone cNone f, reads := readsA f
    drain := t.inHandler, ready := !t.inHandler || accessesDone t }

/-- The trapped party is ended (action 2): a task's point fails, a stream stops. -/
def endParty (s : State) (p : Party) : State :=
  if isPorter p then mapTask (dropCounts s p) p stopStream
  else freeSlot (leaveOver (failPoint (dropCounts s p) p) p) p

/-- The party goes on at its trapping word, or past it (R373). -/
def resumeAt (t : Task) (word action : Nat) : Task :=
  { t with pc := word + action, fell := if action = 1 then true else t.fell && decide (t.pc = word), skipBp := true }

/-- A task that a switch keeps on the shelf is the frame's. -/
def onShelf (g : Frame) (x : Nat × Nat × Task) : Bool := decide (x.1 = g.ctx) && decide (x.2.2.run = g.run) && decide (x.2.2.launch = g.launch)

/-- The action on a task of the shelf: it goes on where it is restored, or it is ended and its point reported failed. -/
def returnShelved (s : State) (g : Frame) (action : Nat) : State :=
  match s.shelf.find? fun x => onShelf g x && decide (x.2.2.status = .supervised) with
  | none => s
  | some (ctx, key, t) =>
    if action = 2 then
      let s1 := logErrorAt { s with shelf := s.shelf.filter fun x => !onShelf g x } ctx
        { kind := 9, core := coreField g.party, unit := unitField g.party, record := t.pc }
      match t.launch with
      | some (d, l) => mapLaunch s1 d l fun e => (pointDown e t.point true).1
      | none => s1
    else
      let go (x : Nat × Nat × Task) : Nat × Nat × Task :=
        if x.1 = ctx && x.2.1 = key then (ctx, key, { resumeAt t g.word action with status := .cut }) else x
      { s with shelf := s.shelf.map go }

/-- The action on the task that trapped, where it is. -/
def returnAct (s : State) (g : Frame) (action : Nat) : State :=
  let p := g.party
  let t := taskOf s p
  let word := if isPorter p then g.word / 8 else g.word
  if isSuper p then (if action = 2 then mapTask s p stopStream else mapTask s p fun t => resumeAt t word action)
  else if t.run != g.run then returnShelved s g action
  else if t.status != .supervised then s
  else if action = 2 then endParty s p
  else mapTask s p fun t => { resumeAt t word action with status := .run }

/-- The frame of a debug stop resumes its launch, whatever has become of the task that stopped it (R382); action 2 ends that task first. -/
def endHeld (s : State) (g : Frame) : State :=
  let t := taskOf s g.party
  if t.run = g.run && t.launch = g.launch && t.status = .held then endParty s g.party
  else
    let mark (x : Nat × Nat × Task) : Nat × Nat × Task :=
      if onShelf g x && decide (x.2.2.status = .held) then (x.1, x.2.1, { x.2.2 with status := .supervised }) else x
    returnShelved { s with shelf := s.shelf.map mark } g 2

/-- A frame returned with an action. -/
def returnFrame (s : State) (g : Frame) (action : Nat) : State :=
  match g.launch with
  | some (d, l) =>
    if g.info.cause = cDBG then
      (if (launchOf s d l).stopHeld then resumeLaunch (if action = 2 then endHeld s g else s) d l else s)
    else returnAct s g action
  | none => returnAct s g action

def eretAct (f : FmtA) (sg : List Nat) (s : State) : Act :=
  let p := s.cur
  if isSuper p then
    let n := (opA f s).toNat
    match (dieOf s (dieNo p)).frames.find? fun g => decide (g.written = some n) with
    | none => doneNow sg s
    | some g =>
      let s1 := mapDie s (dieNo p) fun d => { d with frames := d.frames.filter fun h => h.written != some n }
      doneNow sg (returnFrame s1 g (opB f s).toNat)
  else .gone (returnTask s p)
def execEret (f : FmtA) (s : State) : Host.Outcome State Fault Refusal := runWord (.eret f) (planEret f) (eretAct f) s

/-! ## bkpt, trmark, perfsnap -/

def planBkpt (f : FmtA) (_ : State) (_ : Party) : Plan :=
  { tk := f.tk, ill := noneWord cScalN cNone cNone cNone f, reads := readsA f }
def bkptAct (f : FmtA) (_ : List Nat) (s : State) : Act := .after s { mkTrap cDBG 1 with aux0 := opA f s }
def execBkpt (f : FmtA) (s : State) : Host.Outcome State Fault Refusal := runWord (.bkpt f) (planBkpt f) (bkptAct f) s

def illTrmark (f : FmtA) : List (Nat × Bool) := noneWord cScal cNone cNone cXN f
def planTrmark (f : FmtA) (_ : State) (_ : Party) : Plan := { tk := f.tk, ill := illTrmark f, reads := readsA f, nres := 1, lands := some (false, 1, 1) }
/-- The marker appended; the result is the Gallery's status after it. The Porter has no Gallery. -/
def trmarkAct (f : FmtA) (sg : List Nat) (s : State) : Act :=
  let p := s.cur
  let v := (opA f s).toNat % 2 ^ 32
  let d := coreDebug s (coreNo p)
  let s1 := galRecord s p (thisWord s) 6 true (innerLoop (taskOf s p)) v (d.gtrig = 2 && d.gtval = v)
  .done (putScal 1 f.d false (if isPorter p then 0 else galStatus (coreOf s1 (coreNo p)), 0) sg s1)
def execTrmark (f : FmtA) (s : State) : Host.Outcome State Fault Refusal := runWord (.trmark f) (planTrmark f) (trmarkAct f) s

def perfsnapAct (sg : List Nat) (s : State) : Act := doneNow sg (snapshot s s.cur 0xFFFF)
def execPerfsnap (f : FmtA) (s : State) : Host.Outcome State Fault Refusal :=
  runWord (.perfsnap f) (planNone f.tk (noneWord cNone cNone cNone cNone f) []) perfsnapAct s

/-! ## The Gallery's spill (R384) -/

def galBlock : Nat := 32768
/-- The next block of the spill area; none where its access fails R132. -/
def galSpillAt (s : State) (core : Nat) : Option (KReg × Nat) :=
  let k := (coreDebug s core).gspill
  let n := kLen k / galBlock
  let off := galBlock * ((coreOf s core).galSpilled % max n 1)
  if n = 0 || kSpace k != 0 || (access s k off galBlock true).flag != 0 then none else some (k, off)

/-- GALLERY_SPILL: 32 KiB of unspilled records go to the spill area, or the Gallery stops with LOST. -/
def execGallerySpill (core : Nat) (s : State) : Host.Outcome State Fault Refusal :=
  let c := coreOf s core
  .next (if decide (c.gal.length < galBlock) || galFrozen c || c.galLost then s
  else match galSpillAt s core with
    | none => mapCore s core fun c => { c with galLost := true }
    | some (k, off) =>
      mapCore (wrExtent s (.engine core .copy) k off (c.gal.take galBlock)) core fun c =>
        { c with gal := c.gal.drop galBlock, galSpilled := c.galSpilled + 1 })

end Sys2Proof.Machine
end

