-- ==== Sys2Proof/Machine/Package.lean ====
section
/-! DEFINITION. The package's memory (spec 19, R391-R415): swap pairs, `tierpf`, channel retirement, the controllers' words;
temperature reports (spec 20, R425). -/

namespace Sys2Proof.Machine

/-! ## Frames -/

def frameDie (frame : Nat) : Nat := frame / 2 ^ 21 / 3
def pcRetiring (s : State) (pc : Nat) : Bool := let w := tget 0 s.pcStat pc; w.getLsbD 62 || w.getLsbD 63
/-- A pseudo-channel in which no frame is taken: it retires, or its mate of a gang channel does (R412). -/
def pcShut (s : State) (pc : Nat) : Bool :=
  pcRetiring s pc || ((tget 0 s.pcStat pc).getLsbD 61 && pcRetiring s (pc / 2 * 2 + (1 - pc % 2)))
/-- Some of a near frame's bytes lie in a pseudo-channel: a gang frame's are spread over both of its channel (R395). -/
def frameIn (s : State) (pc frame : Nat) : Bool :=
  let own := pcOf (65536 * frame)
  if gangAt s (65536 * frame) then own / 2 = pc / 2 else own = pc
/-- The near frames [a, a + n) lie clear of every retiring or retired pseudo-channel. -/
def framesOpen (s : State) (a n : Nat) : Bool := (List.range n).all fun i => !pcShut s (pcOf (65536 * (a + i)))

/-- The first aligned run of `n` spare frames of a die, of the memory type wanted (R404, R412, R413). -/
def spareRun (s : State) (die n : Nat) (gang : Bool) : Option Nat :=
  (dieOf s die).spare.find? fun a =>
    (a % n = 0) && (List.range n).all (fun i => (dieOf s die).spare.contains (a + i) && gangAt s (65536 * (a + i)) = gang) && framesOpen s a n
def takeSpare (s : State) (die a n : Nat) : State :=
  mapDie s die fun d => { d with spare := d.spare.filter fun f => decide (f < a) || decide (a + n ≤ f) }

/-- SPARE_FRAME_POOL_FILL: management adds free frames of the die's own near memory. -/
def execSpareFramePoolFill (die : Nat) (frames : List Nat) (s : State) : Host.Outcome State Fault Refusal :=
  let named (f : Nat) : Bool := s.words.any fun w => w.2.used && w.2.space = .near && decide (w.2.frameA ≤ f)
    && decide (f < w.2.frameA + psBytes w.2.ps / 65536)
  let new := frames.filter fun f => nearOk (65536 * f) && frameDie f = die && !named f
  .next (mapDie s die fun d => { d with spare := (d.spare ++ new).eraseDups })

/-- A pin-frame word names one of the near frames [a, a + n), as the frame its page is in or as the one it goes to. -/
def namesNear (s : State) (w : PinWord) (a n : Nat) : Bool :=
  w.used && ((w.space = .near && overlap w.frameA (psBytes w.ps / 65536) a n)
    || (w.swap != 0 && (pairOf s w).any (fun p => spaceB p w.space = .near) && overlap w.frameB (psBytes w.ps / 65536) a n))

/-! ## Width (R394, R395) -/

/-- NARROW and NCAUSE of a pseudo-channel; cause 0 widens it. -/
def setNarrow (s : State) (pc : Nat) (cause : BitVec 2) : State :=
  let w := tget 0 s.pcStat pc
  let hi : BitVec 16 := (w.extractLsb' 48 16 &&& 0xE3FF) ||| (if cause = 0 then 0 else 0x1000) ||| (cause.setWidth 16 <<< 10)
  { s with pcStat := tset 0 s.pcStat pc (hi ++ w.extractLsb' 0 48) }
def mateOf (pc : Nat) : Nat := pc / 2 * 2 + (1 - pc % 2)
/-- A pseudo-channel is narrow for a reason of its own, and not as its partner is. -/
def ownNarrow (s : State) (pc : Nat) : Bool := let w := tget 0 s.pcStat pc; w.getLsbD 60 && w.extractLsb' 58 2 != 3
/-- A pseudo-channel narrows or widens; a gang pair's two drop together, and neither widens while the other has a reason of its own (R395). -/
def narrow (s : State) (pc : Nat) (cause : BitVec 2) : State :=
  let mate := mateOf pc
  if !(tget 0 s.pcStat pc).getLsbD 61 then setNarrow s pc cause
  else if ownNarrow s mate then setNarrow s pc (if cause = 0 then 3 else cause)
  else setNarrow (setNarrow s pc cause) mate (if cause = 0 then 0 else 3)
/-- A channel's widths as its GANG bit now has them: a pair drops with a narrow one, and what was narrow for its partner alone widens. -/
def pairWidth (s : State) (pc : Nat) : State :=
  let mate := mateOf pc
  let gang := (tget 0 s.pcStat pc).getLsbD 61
  if ownNarrow s pc then s
  else if gang && ownNarrow s mate then setNarrow s pc 3
  else if (tget 0 s.pcStat pc).getLsbD 60 then setNarrow s pc 0 else s

/-- MODE_TABLE_WRITE (R395): the mode of the pair of near frame `frame`, which no pin-frame word may name. -/
def execModeTableWrite (frame : Nat) (gang : Bool) (s : State) : Host.Outcome State Fault Refusal :=
  let named := s.words.any fun w => namesNear s w.2 (frame / 2 * 2) 2
  .next (if named || !nearOk (65536 * frame) then s
  else
    let s1 := { s with gang := tset false s.gang (frame / 2) gang }
    let mark (s : State) (pc : Nat) : State :=
      let any := s.gang.any fun g => g.2 && pcOf (131072 * g.1) / 2 = pc / 2
      let w := (tget 0 s.pcStat pc) &&& ~~~(1#64 <<< 61)
      { s with pcStat := tset 0 s.pcStat pc (if any then w ||| (1#64 <<< 61) else w) }
    let pc := pcOf (65536 * frame) / 2 * 2
    pairWidth (pairWidth (mark (mark s1 pc) (pc + 1)) pc) (pc + 1))

/-! ## Status words and erasure lists (R394, R399, R400) -/

/-- PC_STATUS_WRITE: the counts are cleared, and RETIRING is as it is written, but of a retired pseudo-channel (R399; log 43). -/
def execPcStatusWrite (pc : Nat) (v : Word) (s : State) : Host.Outcome State Fault Refusal :=
  let w := tget 0 s.pcStat pc
  let keep : BitVec 16 := w.extractLsb' 48 16 &&& 0xBFFF
  .next { s with pcStat := tset 0 s.pcStat pc ((if v.getLsbD 62 && !w.getLsbD 63 then keep ||| 0x4000 else keep) ++ 0#48) }

/-- ERASURE_LIST_WRITE. -/
def execErasureListWrite (rank : Nat) (v : BitVec 32) (s : State) : Host.Outcome State Fault Refusal :=
  .next { s with erasure := tset 0 s.erasure rank v }

/-- PSEUDO_CHANNEL_NARROW. -/
def execPseudoChannelNarrow (pc : Nat) (cause : BitVec 2) (s : State) : Host.Outcome State Fault Refusal :=
  .next (if pc < 1152 then narrow s pc cause else s)

def dieClusters (die : Nat) : List Nat := (List.range 8).map (8 * die + ·)
/-- Budgets of a die halved by management; what they were is kept by cluster in `hot`. -/
def halveBudgets (s : State) (die : Nat) : State :=
  (dieClusters die).foldl (fun s c =>
    if s.hot.any fun e => e.1 = c then s
    else { s with hot := tput s.hot c (tget 480 s.budgets c), budgets := tset 480 s.budgets c (tget 480 s.budgets c / 2) }) s
def budgetSum (s : State) : Nat := ((List.range 32).map fun c => tget 480 s.budgets c).sum
/-- A budget written (R423): ignored, and logged, where the sum would exceed CAP - RESERVE. What a hot die is to have back is forgotten. -/
def setBudget (s : State) (cluster budget : Nat) : State :=
  let rest := budgetSum s - tget 480 s.budgets cluster
  if cluster < 32 ∧ budget < 65536 ∧ rest + budget + s.reserve ≤ s.cap then
    { s with budgets := tset 480 s.budgets cluster budget, hot := tdel s.hot cluster }
  else report s (2 ^ 33 + 1 + cluster)
/-- Management writes the budgets of a die back; one that is ignored stays halved. -/
def restoreBudgets (s : State) (die : Nat) : State :=
  (dieClusters die).foldl (fun s c =>
    match s.hot.find? fun e => decide (e.1 = c) with
    | some e => let s1 := setBudget s c e.2; { s1 with hot := tdel s1.hot c }
    | none => s) s

/-- HBM_TEMP_REPORT (R425): the stack's pseudo-channels narrow at 95 degrees and widen at 88; its die's budgets are halved at
105 until it, and each other stack of the die that has reached 105, reads 95. -/
def execHbmTempReport (stack temp : Nat) (s : State) : Host.Outcome State Fault Refusal :=
  let pcs := (List.range 96).map (96 * stack + ·)
  let thermal (s : State) (pc : Nat) : Bool := let w := tget 0 s.pcStat pc; w.getLsbD 60 && w.extractLsb' 58 2 = 1
  .next (if 12 ≤ stack then s
  else
    let s1 :=
      if 95 ≤ temp then pcs.foldl (fun s pc => if ownNarrow s pc then s else narrow s pc 1) s
      else if temp ≤ 88 then pcs.foldl (fun s pc => if thermal s pc then narrow s pc 0 else s) s
      else s
    if 105 ≤ temp then halveBudgets { s1 with hotStacks := stack :: s1.hotStacks.filter (· != stack) } (stack / 3)
    else if 95 < temp then s1
    else
      let s2 := { s1 with hotStacks := s1.hotStacks.filter (· != stack) }
      if s2.hotStacks.any fun n => decide (n / 3 = stack / 3) then s2 else restoreBudgets s2 (stack / 3))

/-! ## Swap pairs (R404-R408) -/

/-- Words that name a frame. -/
def wordsNaming (s : State) (sp : Space) (frame : Nat) : Nat :=
  (s.words.filter fun w =>
    let n := psBytes w.2.ps / 65536
    w.2.used && ((w.2.space = sp && overlap w.2.frameA n frame 1)
      || (w.2.swap != 0 && (pairOf s w.2).any (fun p => decide (spaceB p w.2.space = sp)) && overlap w.2.frameB n frame 1))).length
/-- A page that may take part in a swap (R404): one of 64 KiB by its leaf, of which a slot of mixed sizes holds larger ones in pieces. -/
def swapPage (s : State) (slot word : Nat) : Bool :=
  let r := slotOf s slot
  let w := wordOf s word
  r.state = .live && decide (r.first ≤ word) && decide (word ≤ r.first + r.nwords) && w.used && w.ps = 0 && w.leafPs = 0 && w.swap = 0
    && (w.space = .far || (w.space = .near && !gangAt s (65536 * w.frameA)))
    && wordsNaming s w.space w.frameA = 1
    && !s.sealRuns.any fun x => x.1 = w.space && overlap x.2.1 x.2.2 (65536 * w.frameA) 65536

def zeroPair : SwapPair := ⟨[], false, 0, 0, 0, false, false, 0⟩
def pairAt (s : State) (die n : Nat) : SwapPair := tget zeroPair (dieOf s die).pairs n
def freePair (s : State) (die : Nat) : Option Nat := (List.range 64).find? fun n => !(dieOf s die).pairs.any fun e => decide (e.1 = n)

/-- A pair opened: its words name both frames, its slots hold a count, the requests on its pages, whichever die's, wait for it. -/
def openPair (s : State) (die n : Nat) (p : SwapPair) (moves : List (Nat × Nat)) : State :=
  let s1 := (p.words.zip moves).foldl (fun s x =>
    mapWord (inflt s x.1.1 true) x.1.2 fun w => { w with swap := if p.lone then 2 else 1, frameA := x.2.1, frameB := x.2.2, pair := some (die, n) }) s
  let s2 := { s1 with dies := s1.dies.map fun d => (d.1, { d.2 with
    tier := d.2.tier.map fun q => if p.words.contains (q.slot, q.word) then { q with pair := some (die, n) } else q }) }
  mapDie s2 die fun d => { d with pairs := tput d.pairs n p }

/-- SWAP_PAIR_OPEN: a far page moves alone to a spare frame when there is one, else it is exchanged with an eligible near page of
its context. -/
def execSwapPairOpen (die slotA pageA : Nat) (near : Option (Nat × Nat)) (s : State) : Host.Outcome State Fault Refusal :=
  let wa := (slotOf s slotA).first + pageA
  let fa := (wordOf s wa).frameA
  .next (if !swapPage s slotA wa || (wordOf s wa).space != .far then s
  else match freePair s die, spareRun s die 1 false, near with
    | none, _, _ => s
    | some n, some f, _ =>
      let s1 := { takeSpare s die f 1 with owners := tput s.owners (ownerKey false f) (ctxField (slotOf s slotA).ctx + 1) }
      openPair s1 die n ⟨[(slotA, wa)], true, 1, 0, 0, false, false, f⟩ [(fa, f)]
    | some n, none, some (slotB, pageB) =>
      let wb := (slotOf s slotB).first + pageB
      let fb := (wordOf s wb).frameA
      if swapPage s slotB wb && (wordOf s wb).space = .near && ctxField (slotOf s slotB).ctx = ctxField (slotOf s slotA).ctx && frameDie fb = die then
        openPair s die n ⟨[(slotA, wa), (slotB, wb)], false, 1, 0, 0, false, false, 0⟩ [(fa, fb), (fb, fa)]
      else s
    | some _, none, none => s)

/-- The atoms of a line, relative to its first byte. -/
def lineAtoms : List Nat := [0, 1, 2, 3]
/-- The content of a line: bytes, tags, poison. -/
structure Line where
  bytes : List Byte
  tags : List Bool
  poison : List Bool

def linePlaces (pl : Place) : List Place := (List.range 128).map fun i => ⟨pl.space, pl.addr + i⟩
def readLine (s : State) (pl : Place) : Line :=
  ⟨(List.range 128).map fun i => rdByte s ⟨pl.space, pl.addr + i⟩, (List.range 8).map fun i => rdTag s ⟨pl.space, pl.addr + 16 * i⟩,
   lineAtoms.map fun i => placePoison s ⟨pl.space, pl.addr + 32 * i⟩⟩
/-- Poisoned and uncorrectable atoms move as poisoned atoms; tags move with their atoms. -/
def writeLine (s : State) (pl : Place) (l : Line) : State :=
  let far := decide (pl.space = .far)
  let s1 := (List.range 128).foldl (fun s i => wrByte s ⟨pl.space, pl.addr + i⟩ (l.bytes.getD i 0)) s
  let s2 := (List.range 8).foldl (fun s i => wrTag s ⟨pl.space, pl.addr + 16 * i⟩ (l.tags.getD i false))
    (lineWritten s1 ((List.range 128).map fun i => ⟨pl.space, pl.addr + i⟩))
  lineAtoms.foldl (fun s i =>
    let a := pl.addr / 32 + i
    let s1 := markAtom s far a false
    if l.poison.getD i false then markAtom s1 far a true else s1) s2

/-- The lowest line not yet moved. -/
def nextLine (p : SwapPair) : Option Nat := (List.range 512).find? fun l => !p.moved.getLsbD l
/-- Where a line of a word's frames lies. -/
def lineA (s : State) (w : Nat) (p : SwapPair) (l : Nat) : Place :=
  ⟨(wordOf s w).space, regionOf p (wordOf s w).frameA * 65536 + 65536 * p.cursor + 128 * l⟩
def lineB (s : State) (w : Nat) (p : SwapPair) (l : Nat) : Place :=
  ⟨spaceB p (wordOf s w).space, regionOf p (wordOf s w).frameB * 65536 + 65536 * p.cursor + 128 * l⟩

/-- The last line of a unit moved: the cursor passes to the next unit, its bitmap cleared (R413). -/
def markLine (p : SwapPair) (l : Nat) : SwapPair :=
  let m := p.moved ||| (1#512 <<< l)
  if m = BitVec.allOnes 512 ∧ p.cursor + 1 < p.units then { p with cursor := p.cursor + 1, moved := 0 } else { p with moved := m }

/-- SWAP_LINE_MOVE (R406): the next line of a pair, both ways in an exchange, in one step. -/
def execSwapLineMove (die pair : Nat) (s : State) : Host.Outcome State Fault Refusal :=
  let p := pairAt s die pair
  .next (match p.words, nextLine p with
    | (_, w) :: _, some l =>
      if p.abandoned then s
      else
        let pa := lineA s w p l
        let pb := lineB s w p l
        let s0 := readAtoms s (linePlaces pa ++ if p.lone then [] else linePlaces pb)
        let a := readLine s0 pa
        let b := readLine s0 pb
        let s1 := writeLine s0 pb a
        let s2 := if p.lone then s1 else writeLine s1 pa b
        mapDie s2 die fun d => { d with pairs := tput d.pairs pair (markLine p l) }
    | _, _ => s)

/-- The requests that wait for a pair, on every die, add their bytes. -/
def settleReqs (s : State) (die pair : Nat) (cancel : Bool) : State :=
  let mine (q : TierReq) : Bool := decide (q.pair = some (die, pair))
  let hit := s.dies.flatMap fun d => d.2.tier.filter mine
  let s1 := { s with dies := s.dies.map fun d => (d.1, { d.2 with tier := d.2.tier.filter fun q => !mine q }) }
  hit.foldl (fun s q => barrierAdd s (.stream die q.ctx) q.barSlot q.barOff q.bytes cancel) s1

/-- The first byte of a word's page, by its leaf, where the frame of the word is `frame`. -/
def pageBase (w : PinWord) (frame : Nat) : Nat := frame * 65536 / psBytes w.leafPs * psBytes w.leafPs
/-- A leaf's ADDR field (and its SPACE, which names the tier) rewritten where it still holds the old address; for a group, every
member of it. The second answer: it did. -/
def rewriteLeaf (s : State) (ctx slot : Nat) (w : PinWord) (sp : Space) : State × Bool :=
  let e := rdKey s w.leaf 8
  if pteAddr e != pageBase w w.frameA || pteSpace e != spaceCode w.space then (s, false)
  else
    let new := e % 4096 + pageBase w w.frameB + spaceCode sp * 2 ^ 60
    let entries := if ptePS e then (List.range 32).map fun i => w.leaf / 256 * 256 + 8 * i else [w.leaf]
    (entries.foldl (fun s a => wrKey s ctx slot a (leBytes 8 new)) s, true)

/-- One word at the end of a pair: the leaf, which the word of another slot or an earlier piece of the page may have rewritten in this step, and whose
entries so rewritten `done` lists; the event MIGRATED, one for each page of a slot; and the word itself. -/
def finishPage (p : SwapPair) (a : State × List (Nat × Bool) × List (Nat × Nat)) (x : Nat × Nat) : State × List (Nat × Bool) × List (Nat × Nat) :=
  let s := a.1
  let w := wordOf s x.2
  let sp := spaceB p w.space
  let ctx := (slotOf s x.1).ctx
  let va := w.va / psBytes w.leafPs * psBytes w.leafPs
  let r := match a.2.1.find? fun e => decide (e.1 = w.leaf) with
    | some e => (s, e.2)
    | none => rewriteLeaf s ctx x.1 w sp
  let first := !a.2.2.contains (x.1, va)
  let s1 := if first then logEventAt r.1 ctx 7 0xFF 0 x.1 ((if w.leafPs = 0 then w.va else va) + if r.2 then 0 else 2 ^ 63) else r.1
  let s2 := mapWord s1 x.2 fun w => { w with space := sp, frameA := w.frameB, frameB := 0, swap := 0, pair := none }
  (inflt s2 x.1 false, (w.leaf, r.2) :: a.2.1, (x.1, va) :: a.2.2)

/-- A run without the bytes [a, a + n) of a space. -/
def cutRun (sp : Space) (a n : Nat) (r : Space × Nat × Nat) : List (Space × Nat × Nat) :=
  if r.1 = sp && overlap r.2.1 r.2.2 a n then
    [(r.1, r.2.1, a - r.2.1), (r.1, a + n, r.2.1 + r.2.2 - (a + n))].filter fun x => x.2.2 != 0
  else [r]
/-- The bytes that a retirement move leaves are no longer in a run; those runs follow that were entered for where they go (R414). -/
def moveSeals (s : State) (p : SwapPair) (w : PinWord) : State :=
  { s with sealRuns := s.sealRuns.flatMap (cutRun w.space (regionOf p w.frameA * 65536) (65536 * p.units)) }

/-- SWAP_PAIR_COMPLETE (R407). -/
def execSwapPairComplete (die pair : Nat) (s : State) : Host.Outcome State Fault Refusal :=
  let p := pairAt s die pair
  .next (if p.words.isEmpty || p.abandoned || p.moved != BitVec.allOnes 512 || decide (p.cursor + 1 < p.units) then s
  else
    let s1 := if p.retire then (p.words.take 1).foldl (fun s x => moveSeals s p (wordOf s x.2)) s else s
    let s2 := (p.words.foldl (finishPage p) (s1, [], [])).1
    settleReqs (mapDie s2 die fun d => { d with pairs := tdel d.pairs pair }) die pair false)

/-- SWAP_PAIR_ABANDON (R408): one frame of the pair (of the region, where the page is larger), the event does not say which, is unreachable from
then on and reads poisoned. -/
def execSwapPairAbandon (die pair : Nat) (s : State) : Host.Outcome State Fault Refusal :=
  let p := pairAt s die pair
  .next (match p.words with
    | [] => s
    | (_, w) :: _ =>
      if p.abandoned then s
      else
        let x := free 1 s
        let pl := if x.1 = 0 then lineA s w { p with cursor := 0 } 0 else lineB s w { p with cursor := 0 } 0
        let s1 := { x.2 with lostFrames := x.2.lostFrames ++ (List.range (max 1 p.units)).map fun i => (decide (pl.space = .far), pl.addr / 65536 + i) }
        let s2 := p.words.foldl (fun s y => inflt (logErrorAt s (slotOf s y.1).ctx
          { kind := 13, core := die * 512, unit := 0xFF, record := y.1, old := (y.2 - (slotOf s y.1).first) * psBytes (slotOf s y.1).ps }) y.1 false) s1
        settleReqs (mapDie s2 die fun d => { d with pairs := tput d.pairs pair { p with abandoned := true } }) die pair true)

/-! ## tierpf (R409-R411) -/

def illTierpf (f : FmtA) : List (Nat × Bool) := noneWord [.k] [.k] cScal cXN f
def tierBar (f : FmtA) (s : State) (p : Party) : Chk :=
  let k := rdTok s p f.b
  barChk s k (kA k) (rdScal s p f.c).toNat true
def planTierpf (f : FmtA) (s : State) (p : Party) : Plan :=
  { tk := f.tk, ill := illTierpf f, reads := readsA f, nres := 1, lands := some (false, 1, 1), ready := (taskOf s p).stores.isEmpty
    cold := (coldSlot s p (rdTok s p f.b)).or (coldSlot s p (rdTok s p f.a)) }
/-- A's own check: tag, generation, R, and space near or far. -/
def tierChk (k : KReg) (s : State) : Chk :=
  let c := checkTok s k (kR k)
  if c.flag != 0 then c else if kSpace k = 0 || kSpace k = 1 then chkOk else ⟨fXB, 0⟩
def tierUnits (k : KReg) : Nat := if kLen k = 0 then 0 else (kBase k + kLen k - 1) / 65536 - kBase k / 65536 + 1
/-- Unit `i` of a token: its number in the slot's extent and the token's bytes within it. -/
def tierUnit (k : KReg) (i : Nat) : Nat × Nat :=
  let u := kBase k / 65536 + i
  (u, min (kBase k + kLen k) (65536 * (u + 1)) - max (kBase k) (65536 * u))
def barPlace (f : FmtA) (s : State) (p : Party) : Nat × Nat :=
  (kSlot (rdTok s p f.b), kBase (rdTok s p f.b) + (rdScal s p f.c).toNat)

/-- One unit, whose barrier stands at `b`: added at once when it is in this die's near memory or not eligible; else queued on this die. -/
def tierOne (f : FmtA) (p : Party) (b : Nat × Nat) (s : State) (i : Nat) : State :=
  let k := rdTok s p f.a
  let u := tierUnit k i
  let r := slotOf s (kSlot k)
  let word := r.first + u.1 * 65536 / psBytes r.ps
  let w := wordOf s word
  let moving := decide (w.swap != 0) && w.space = .far && (pairOf s w).any fun q => !q.abandoned && !q.retire
  if (swapPage s (kSlot k) word && w.space = .far) || moving then
    mapDie s (dieNo p) fun d => { d with tier := d.tier ++ [⟨ctxNo s p, kSlot k, word, u.2, b.1, b.2, s.clock, if moving then w.pair else none⟩] }
  else barrierAdd s p b.1 b.2 u.2 false

/-- Units queued in order while the die's queue of 1,024 has room; the second answer is the next unit. -/
def tierGo (f : FmtA) (p : Party) (b : Nat × Nat) : Nat → State → Nat → State × Nat
  | 0, s, i => (s, i)
  | n + 1, s, i =>
    if tierUnits (rdTok s p f.a) ≤ i || decide (1024 ≤ (dieOf s (dieNo p)).tier.length) then (s, i) else tierGo f p b n (tierOne f p b s i) (i + 1)

def tierpfAct (f : FmtA) (sg : List Nat) (s : State) : Act :=
  let p := s.cur
  let k := rdTok s p f.a
  let c := tierBar f s p
  let ca := tierChk k s
  let b := barPlace f s p
  if c.flag != 0 then putObj f (BitVec.allOnes 64) c.flag sg (chkFail s p (rdTok s p f.b) c)
  else match objPoison s b.1 b.2 16 with
    | some pl => putObj f 0 0 sg (poisonMet s p b.1 b.2 pl)
    | none =>
      if ca.flag != 0 then putObj f 0 ca.flag sg (barrierAdd (chkFail s p k ca) p b.1 b.2 (kLen k) true)
      else .hold fun t => { t with wait := .tier f 0 b.1 b.2 }

def tierpfWord (f : FmtA) : Word := (encodeWord (.tierpf f)).getD 0
/-- The word goes on: its requests queued, it completes with the number of units. -/
def tierOn (s : State) (p : Party) : State :=
  match (taskOf s p).wait with
  | .tier f i slot off =>
    let n := tierUnits (rdTok s p f.a)
    let x := tierGo f p (slot, off) (n - i) s i
    if n ≤ x.2 then finishWord x.1 p (tierpfWord f) f.tk (putObj f (BitVec.ofNat 64 n) 0)
    else mapTask x.1 p fun t => { t with wait := .tier f x.2 slot off }
  | _ => s
def execTierpf (f : FmtA) (s : State) : Host.Outcome State Fault Refusal :=
  match (taskOf s s.cur).wait with
  | .tier _ _ _ _ => .next (tierOn s s.cur)
  | _ => .next (tierOn (issueWord (tierpfWord f) (planTierpf f) (tierpfAct f) s) s.cur)

/-- TIERPF_REQUEST_TIMEOUT (R411): request `i` found no frame within 2^20 clocks. -/
def execTierpfRequestTimeout (die i : Nat) (s : State) : Host.Outcome State Fault Refusal :=
  .next (match (dieOf s die).tier[i]? with
    | none => s
    | some q =>
      if q.pair.isSome || decide (s.clock < q.since + 2 ^ 20) then s
      else
        let s1 := mapDie s die fun d => { d with tier := dropAt d.tier i }
        barrierAdd s1 (.stream die q.ctx) q.barSlot q.barOff q.bytes true)

/-! ## Channel retirement (R412-R414) -/

/-- A pin-frame word names a frame of a pseudo-channel. -/
def wordIn (s : State) (pc : Nat) (w : PinWord) : Bool :=
  w.used && w.space = .near && (List.range (psBytes w.ps / 65536)).any fun i => frameIn s pc (w.frameA + i)
/-- It names one as the frame that its page is moving to. -/
def wordTo (s : State) (pc : Nat) (w : PinWord) : Bool :=
  w.used && w.swap != 0 && (pairOf s w).any (fun p => decide (spaceB p w.space = .near))
    && (List.range (psBytes w.ps / 65536)).any fun i => frameIn s pc (w.frameB + i)

/-- The slot that a word belongs to. -/
def slotOfWord (s : State) (word : Nat) : Option Nat :=
  (s.slots.find? fun e => e.2.state != .free && decide (e.2.first ≤ word) && decide (word ≤ e.2.first + e.2.nwords)).map (·.1)

/-- The used words whose pages share a frame with [frame, frame + n) of near memory, the largest page first. -/
def wordsSharing (s : State) (frame n : Nat) : List (Nat × PinWord) :=
  let l := s.words.filter fun w => w.2.used && decide (w.2.space = .near) && overlap w.2.frameA (psBytes w.2.ps / 65536) frame n
  let size (w : PinWord) : Nat := max w.ps w.leafPs
  (l.filter fun w => size w.2 = 2) ++ (l.filter fun w => size w.2 = 1) ++ l.filter fun w => decide (size w.2 ≠ 2 ∧ size w.2 ≠ 1)

/-- The near region, first frame and number, that moves with a word's page: the page by its leaf, of which the word may name a part, or for a page
of one frame in gang mode the whole pair (R412, R413). -/
def retireRegion (s : State) (w : PinWord) : Nat × Nat :=
  let n := psBytes (max w.ps w.leafPs) / 65536
  let n := if gangAt s (65536 * w.frameA) then max 2 n else n
  (w.frameA / n * n, n)

/-- A lone move out of a retiring pseudo-channel, of every word that names the region or a part of it (R319); the runs sealed in it hold
in both places meanwhile (R414). -/
def retireWord (s : State) (word0 : Nat) : State :=
  let r0 := retireRegion s (wordOf s word0)
  let word := ((wordsSharing s r0.1 r0.2).head?.map (·.1)).getD word0
  let w := wordOf s word
  let r := retireRegion s w
  let base := r.1
  let n := r.2
  let die := frameDie base
  let all := wordsSharing s base n
  let moves := all.filterMap fun x => (slotOfWord s x.1).map fun k => ((k, x.1), x.2.frameA)
  if all.any fun x => x.2.swap != 0 then s
  else match freePair s die, spareRun s die n (gangAt s (65536 * base)), slotOfWord s word with
  | some k, some f, some slot =>
    let s1 := (List.range n).foldl (fun s i => { s with owners := tput s.owners (ownerKey false (f + i)) (ctxField (slotOf s slot).ctx + 1) }) (takeSpare s die f n)
    let seals := (s.sealRuns.filter fun r => r.1 = .near && overlap r.2.1 r.2.2 (65536 * base) (65536 * n)).map fun r =>
      let lo := max r.2.1 (65536 * base)
      let hi := min (r.2.1 + r.2.2) (65536 * (base + n))
      (Space.near, 65536 * f + (lo - 65536 * base), hi - lo)
    openPair { s1 with sealRuns := s1.sealRuns ++ seals } die k ⟨moves.map (·.1), true, n, 0, 0, false, true, f⟩
      (moves.map fun m => (m.2, f + (m.2 - base)))
  | _, _, _ => s

/-- CHANNEL_RETIRE_START: a pinned frame of a retiring pseudo-channel begins to move when a spare frame is there, and the frames
that a context owns unpinned are reported to management. -/
def execChannelRetireStart (pc : Nat) (s : State) : Host.Outcome State Fault Refusal :=
  .next (if !(tget 0 s.pcStat pc).getLsbD 62 then s
  else
    let held := (s.owners.filter fun o => o.1 % 2 = 0 && frameIn s pc (o.1 / 2) && wordsNaming s .near (o.1 / 2) = 0).map fun o => o.1 / 2
    let s1 := (held.filter fun f => !s.mgmtLog.contains f).foldl report s
    match s1.words.find? fun w => wordIn s1 pc w.2 && w.2.swap = 0 with
    | some w => retireWord s1 w.1
    | none => s1)

/-- CHANNEL_RETIRED: no frame of the pseudo-channel is pinned, and none is reported in use any longer. -/
def execChannelRetired (pc : Nat) (s : State) : Host.Outcome State Fault Refusal :=
  let w := tget 0 s.pcStat pc
  .next (if w.getLsbD 62 && !s.words.any fun x => wordIn s pc x.2 || wordTo s pc x.2 then
    { s with pcStat := tset 0 s.pcStat pc ((w &&& ~~~(1#64 <<< 62)) ||| (1#64 <<< 63)) }
  else s)

end Sys2Proof.Machine
end

