-- ==== Sys2Proof/Machine/Link.lean ====
section
/-! DEFINITION. Hall links and the messages they carry (spec 21, R427-R433): flits, retry, credits, routes, and what arrives. -/

namespace Sys2Proof.Machine

/-! ## Flits (R428) -/

/-- One bit step of the CRC-64 with the ECMA-182 polynomial. -/
def crc64Bit (c : BitVec 64) : BitVec 64 := if c.getLsbD 63 then (c <<< 1) ^^^ 0x42F0E1EBA9EA3693#64 else c <<< 1
def crc64Bits : Nat → BitVec 64 → BitVec 64
  | 0, c => c
  | n + 1, c => crc64Bits n (crc64Bit c)
/-- CRC-64 of bytes, most significant bit first from 0 (log 27). -/
def crc64Step (c : BitVec 64) (b : Byte) : BitVec 64 := crc64Bits 8 (c ^^^ ((BitVec.setWidth 64 b) <<< (56 : Nat)))
def crc64 (bs : List Byte) : BitVec 64 := bs.foldl crc64Step 0

/-- A message's bytes: its 16-byte header and its data. -/
def msgBytes (m : Msg) : List Byte :=
  leBytes 1 m.kind ++ leBytes 1 m.sctx ++ leBytes 2 m.dst ++ leBytes 2 m.src ++ leBytes 2 m.eseq ++ leBytes 2 m.data.length
    ++ leBytes 6 m.arg ++ m.data

/-- The message at the head of a payload; KIND 0 ends it. -/
def msgAt (bs : List Byte) : Option Msg :=
  let f (i n : Nat) : Nat := leNat ((bs.drop i).take n)
  if f 0 1 = 0 || decide (9 < f 0 1) || decide (bs.length < 16 + f 8 2) then none
  else some ⟨f 0 1, f 1 1 % 64, f 2 2 % 1024, f 4 2 % 1024, f 6 2, f 10 6, (bs.drop 16).take (f 8 2)⟩

/-- Whole messages packed from byte 8; at most 15 fit. -/
def msgsGo : Nat → List Byte → List Msg
  | 0, _ => []
  | n + 1, bs =>
    match msgAt bs with
    | none => []
    | some m => m :: msgsGo n (bs.drop (16 + m.data.length))
def msgsOf (payload : BitVec 1920) : List Msg := msgsGo 15 (leBytes 240 payload.toNat)

/-- The payload of messages. -/
def payloadOf (l : List Msg) : BitVec 1920 := BitVec.ofNat 1920 (leNat (l.flatMap msgBytes))

/-- A flit of a sequence number, an ACK field, credits and a payload. -/
def mkFlit (seq ack : Nat) (nak : Bool) (cred : Nat) (payload : BitVec 1920) : BitVec 2048 :=
  let body := leBytes 2 seq ++ leBytes 2 (ack + 16384 * nak.toNat) ++ leBytes 2 cred ++ leBytes 2 0 ++ leBytes 240 payload.toNat
  BitVec.ofNat 2048 (leNat (body ++ leBytes 8 (crc64 body).toNat))

/-- Bits [lo + w - 1 : lo] of a flit. -/
def flitField (f : BitVec 2048) (lo w : Nat) : Nat := (f.extractLsb' lo w).toNat
def flitPayload (f : BitVec 2048) : BitVec 1920 := f.extractLsb' 64 1920
def flitGood (f : BitVec 2048) : Bool := (crc64 (leBytes 248 f.toNat)).toNat = flitField f 1984 64

/-! ## Sending (R429-R431) -/

def Link.fresh : Link := ⟨false, 0, 4095, 0, 0, 0, false, 0, [], false⟩
def linkOf (s : State) (n : Nat) : Link := tget Link.fresh s.links n
def putLink (s : State) (n : Nat) (l : Link) : State := { s with links := tput s.links n l }
def mapLink (s : State) (n : Nat) (f : Link → Link) : State := putLink s n (f (linkOf s n))

/-- A flit put on the wire: it carries what the receiver side of the link owes. -/
def emitFlit (s : State) (n seq : Nat) (payload : BitVec 1920) : State :=
  let l := linkOf s n
  let f := mkFlit seq l.lastGood l.nakOut (min l.owed 65535) payload
  putLink { s with wire := s.wire ++ [(n, f)] } n { l with owed := l.owed - min l.owed 65535, nakOut := false, ackDue := false }

/-- The lowest-numbered link of a destination's mask that is up. -/
def routeOf (s : State) (dst : Nat) : Option Nat :=
  (List.range 16).find? fun n => (tget 0 s.routes dst).getLsbD n && (linkOf s n).up

/-- Messages taken whole until 240 bytes are full: those of a flit, in order. -/
def fitGo : Nat → List Msg → List Msg
  | _, [] => []
  | room, m :: r => if 16 + m.data.length ≤ room then m :: fitGo (room - 16 - m.data.length) r else []

/-- The next flit of a link, when it has a message, a credit, and room among the 128 kept. -/
def sendNext (s : State) (n : Nat) : State :=
  let l := linkOf s n
  let mine := s.outbox.filter fun m => decide (routeOf s m.dst = some n)
  if mine.isEmpty || decide (l.credits ≤ 0) || decide (128 ≤ l.unacked.length) then s
  else
    let ms := fitGo 240 mine
    let pl := payloadOf ms
    let s1 := emitFlit { s with outbox := s.outbox.filter fun m => !ms.contains m } n l.seq pl
    mapLink s1 n fun k => { k with
      seq := (l.seq + 1) % 4096, credits := l.credits - 1, unacked := l.unacked ++ [(l.seq, pl)]
      sinceAck := if l.unacked.isEmpty then s.clock else l.sinceAck }

def sendGo (n : Nat) : Nat → State → State
  | 0, s => s
  | k + 1, s => sendGo n k (sendNext s n)

/-- A null flit carries what no other flit took: credits, a NAK, an ACK (R430). -/
def sendNull (s : State) (n : Nat) : State :=
  let l := linkOf s n
  if l.up && (l.owed != 0 || l.nakOut || l.ackDue) then emitFlit s n ((l.seq + 4095) % 4096) 0 else s

/-! ## What arrives (R431, R432) -/

/-- Whether a pair's message has been accepted already, or waits. -/
def seenMsg (s : State) (m : Msg) : Bool :=
  decide ((tget 0 s.eseqIn m.src + 65536 - m.eseq) % 65536 < 32768)
    || s.inbox.any fun x => x.src = m.src && x.eseq = m.eseq

/-- A message that arrived on a link. -/
def arrive (s : State) (m : Msg) : State :=
  if m.dst != s.identity then { s with discarded := s.discarded + 1 }
  else if seenMsg s m then s
  else { s with inbox := s.inbox ++ [m] }

/-- Messages for this device itself do not leave it. -/
def homeMsgs (s : State) : State :=
  let l := s.outbox.filter fun m => m.dst = s.identity
  if l.isEmpty then s else { s with outbox := s.outbox.filter fun m => m.dst != s.identity, inbox := s.inbox ++ l }

/-- Every link sends what it can (log 27). -/
def pump (s : State) : State :=
  let s1 := homeMsgs s
  (List.range 16).foldl (fun s n => sendNull (sendGo n s.outbox.length s) n) s1

/-- Flits acknowledged: those up to the one that ACK names. -/
def ackLink (l : Link) (ack clock : Nat) : Link :=
  match indexWhere (fun e : Nat × BitVec 1920 => decide (e.1 = ack)) l.unacked with
  | some i => { l with unacked := l.unacked.drop (i + 1), sinceAck := clock, naks := 0 }
  | none => l

/-- Every kept flit sent again, in order, a credit for each. -/
def resend (s : State) (n : Nat) : State :=
  (linkOf s n).unacked.foldl (fun s e => mapLink (emitFlit s n e.1 e.2) n fun l => { l with credits := l.credits - 1 }) s

/-- ACK, CRED and NAK of a flit received in order. -/
def takeFields (s : State) (n : Nat) (f : BitVec 2048) : State :=
  let s1 := mapLink s n fun l =>
    let l1 := ackLink l (flitField f 16 12) s.clock
    { l1 with credits := l1.credits + flitField f 32 16, naks := if f.getLsbD 30 then l1.naks + 1 else l1.naks }
  if f.getLsbD 30 then resend s1 n else s1

/-- The receiver discards a flit: NAK, and its credit back. -/
def discardFlit (s : State) (n : Nat) : State := mapLink s n fun l => { l with nakOut := true, owed := l.owed + 1 }

/-- LINK_FLIT_RECEIVE (R429). -/
def execLinkFlitReceive (n : Nat) (f : BitVec 2048) (s : State) : Host.Outcome State Fault Refusal :=
  let l := linkOf s n
  let ms := msgsOf (flitPayload f)
  .next (if !l.up then s
  else if !flitGood f then pump (discardFlit s n)
  else if ms.isEmpty then pump (takeFields s n f)
  else if flitField f 0 12 != (l.lastGood + 1) % 4096 then pump (discardFlit s n)
  else
    let s1 := mapLink (takeFields s n f) n fun l => { l with lastGood := flitField f 0 12, owed := l.owed + 1, ackDue := true }
    pump (ms.foldl arrive s1))

/-- LINK_DOWN (R431): 16 NAKs in a row, or 2^20 clocks without an ACK; what was not acknowledged is sent again. -/
def execLinkDown (n : Nat) (s : State) : Host.Outcome State Fault Refusal :=
  let l := linkOf s n
  .next (if l.up && (decide (16 ≤ l.naks) || (!l.unacked.isEmpty && decide (l.sinceAck + 2 ^ 20 ≤ s.clock))) then
    pump (putLink (report { s with outbox := l.unacked.flatMap (fun e => msgsOf e.2) ++ s.outbox } (2 ^ 32 + n)) n Link.fresh)
  else s)

/-- LINK_TRAINED (R430): SEQ restarts on both sides, and the receiver owes all 192 credits. -/
def execLinkTrained (n : Nat) (s : State) : Host.Outcome State Fault Refusal :=
  .next (if 16 ≤ n || (linkOf s n).up then s
  else pump (putLink s n { Link.fresh with up := true, owed := 192, sinceAck := s.clock }))

/-- ROUTING_TABLE_WRITE (R431). -/
def execRoutingTableWrite (dev : Nat) (mask : BitVec 16) (s : State) : Host.Outcome State Fault Refusal :=
  .next (if dev < 1024 then { s with routes := tset 0 s.routes dev mask } else s)

/-- EXPORT_TABLE_WRITE (R433). -/
def execExportTableWrite (idx : Nat) (v : BitVec 128) (s : State) : Host.Outcome State Fault Refusal :=
  .next (if idx < 4096 then { s with exports := tset 0 s.exports idx v } else s)

/-- The first message of those wanted that is next in its pair's order (R431), taken. -/
def takeOf (s : State) (want : Msg → Bool) : Option (Msg × State) :=
  (s.inbox.find? fun m => want m && m.eseq = (tget 0 s.eseqIn m.src + 1) % 65536).map fun m =>
    (m, { s with inbox := s.inbox.filter fun x => x != m, eseqIn := tset 0 s.eseqIn m.src m.eseq })
def takeMsg (s : State) (kind : Nat) : Option (Msg × State) := takeOf s fun m => m.kind = kind

end Sys2Proof.Machine
end

