-- ==== Sys2Proof/Machine/Peer.lean ====
section
/-! DEFINITION. Peer memory (spec 21, R433-R437): the exporter's checks and answers, and what an answer does on the importer. -/

namespace Sys2Proof.Machine

/-! ## The exporter (R433, R435) -/

def exportOf (s : State) (m : Msg) : Nat := (tget 0 s.exports (bits m.arg 34 12)).toNat
def expSlot (e : Nat) : Nat := bits e 74 16
def expOff (m : Msg) : Nat := bits m.arg 0 34

/-- The status of a request that needs bit `perm` of PERM (2 R, 1 W, 0 A): the first check that fails. -/
def exportStatus (s : State) (m : Msg) (perm size : Nat) : Nat :=
  let e := exportOf s m
  let r := slotOf s (expSlot e)
  let store := perm != 2
  if !bitAt e 127 || bits e 102 10 != m.src || bits e 90 12 != m.sctx then 1
  else if r.state != .live || r.gen.toNat != bits e 66 8 || ctxField r.ctx != bits e 112 12 || r.space = .peer || r.space = .host then 2
  else if !bitAt e (124 + perm) then 3
  else if r.extlen < expOff m + size then 4
  else if store && (objPlaces s (expSlot e) (expOff m) size).any (sealedPlace s) then 5
  else if perm != 1 && (objPoison s (expSlot e) (expOff m) size).isSome then 6
  else 0

/-- A reply: the request's ESEQ and the status. -/
def reply (s : State) (m : Msg) (status : Nat) (data : List Byte) : State :=
  (sendMsg s ⟨m.kind + 1, bits (exportOf s m) 112 6, m.src, 0, 0, m.eseq + status * 65536, data⟩).1

/-- The party that an exported access is charged to: the exporting context's. -/
def exporter (s : State) (m : Msg) : Party := .stream 0 (bits (exportOf s m) 112 12)

/-- READ: the bytes through the exporter's `pin_lookup`. -/
def serveRead (s : State) (m : Msg) : State :=
  let n := (m.data.headD 0).toNat
  let st := exportStatus s m 2 n
  let pls := objPlaces s (expSlot (exportOf s m)) (expOff m) n
  if st = 0 || st = 6 then reply (readAtoms s pls) m st (if st = 0 then pls.map (rdByte s) else []) else reply s m st []
def execRead (s : State) : Host.Outcome State Fault Refusal :=
  .next (match takeMsg s 1 with | some (m, s1) => serveRead s1 m | none => s)

/-- The bits that a write means (log 15). -/
def nibMask (m : Msg) : Byte := match bits m.arg 46 2 with | 1 => 0x0F | 2 => 0xF0 | _ => 0xFF

/-- A message of the image of an `xst`, which is checked and written as one (R251, log 15). -/
def ofImage (m : Msg) : Bool := bits m.arg 46 2 = 3
/-- The messages of a write, taken with its first: of an image, the two that follow it in their pair's order. -/
def writeRest (s : State) (m : Msg) : Option (List Msg × State) :=
  let next (s : State) : Option (Msg × State) := takeOf s fun x => x.kind = 3 && x.src = m.src && ofImage x
  if !ofImage m then some ([m], s)
  else (next s).bind fun a => (next a.2).map fun b => ([m, a.1, b.1], b.2)

/-- WRITE: performed, and each message acknowledged. -/
def serveWrite (s : State) (m : Msg) (l : List Msg) : State :=
  let data := l.flatMap (·.data)
  let st := exportStatus s m 1 data.length
  let slot := expSlot (exportOf s m)
  let s1 := if st != 0 then s
    else wrPlaces s (exporter s m) slot (expOff m) ((objPlaces s slot (expOff m) data.length).zip (data.map fun b => (b, nibMask m)))
  l.foldl (fun s x => reply s x st []) s1
/-- A write whose messages have all come. -/
def writeCome (s : State) (m : Msg) : Bool :=
  m.kind = 3 && (!ofImage m || [1, 2].all fun i => s.inbox.any fun x => x.src = m.src && x.eseq = (m.eseq + i) % 65536)
def execWrite (s : State) : Host.Outcome State Fault Refusal :=
  .next (match takeOf s (writeCome s) with
    | none => s
    | some (m, s1) => match writeRest s1 m with
      | some (l, s2) => serveWrite s2 m l
      | none => s1)

/-- ATOMIC: performed once, at the home of its bytes (R359). -/
def serveAtomic (s : State) (m : Msg) : State :=
  let f (i n : Nat) : Nat := leNat ((m.data.drop i).take n)
  let ty : TyCode := BitVec.ofNat 5 (f 1 1)
  let n := tyBytes ty
  let st := exportStatus s m 0 n
  let slot := expSlot (exportOf s m)
  if st = 0 then
    let s1 := readAtoms s (objPlaces s slot (expOff m) n)
    let old := objVal s1 slot (expOff m) n
    reply (objSet s1 (exporter s m) slot (expOff m) n (atomNew (AtomOp.ofCode (f 0 1)) ty old (f 2 n) (f (2 + n) n))) m 0 (leBytes n old)
  else reply (if st = 6 then readAtoms s (objPlaces s slot (expOff m) n) else s) m st []
def execAtomic (s : State) : Host.Outcome State Fault Refusal :=
  .next (match takeMsg s 5 with | some (m, s1) => serveAtomic s1 m | none => s)

/-! ## The importer -/

/-- What became of a request: flags it sets, whether its data came poisoned, and the bits that came. -/
structure Got where
  flags : BitVec 8
  poison : Bool
  data : List Byte

/-- Bits put into a result. -/
def orBits (v : Val) (n : Nat) : Val :=
  match v with
  | .word w => .word (w ||| BitVec.ofNat 64 n)
  | .vec r => .vec { r with data := r.data ||| BitVec.ofNat 4096 n }
  | .tok k => .tok { k with bits := k.bits ||| BitVec.ofNat 128 n }
  | .mask m => .mask (m ||| BitVec.ofNat 1024 n)
  | .series q => .series (q ||| BitVec.ofNat 4352 n)
  | .order o => .order (o ||| BitVec.ofNat 64 n)

/-- +0 of a result's kind (R402). -/
def zeroVal : Val → Val
  | .word _ => .word 0
  | .vec r => .vec { r with data := 0 }
  | .tok _ => .tok noTok
  | .mask _ => .mask 0
  | .series _ => .series 0
  | .order _ => .order 0

/-- A result with the bits of a mask made zero. -/
def dropBits (v : Val) (n : Nat) : Val :=
  match v with
  | .word w => .word (w &&& ~~~BitVec.ofNat 64 n)
  | .vec r => .vec { r with data := r.data &&& ~~~BitVec.ofNat 4096 n }
  | .tok k => .tok { k with bits := k.bits &&& ~~~BitVec.ofNat 128 n }
  | .mask m => .mask (m &&& ~~~BitVec.ofNat 1024 n)
  | .series q => .series (q &&& ~~~BitVec.ofNat 4352 n)
  | .order o => .order (o &&& ~~~BitVec.ofNat 64 n)

/-- What a request's element puts into result part `i`: the sum over its pieces of what `f` gives each. -/
def overPieces (q : PeerReq) (i : Nat) (f : Piece → Nat) : Nat :=
  ((q.pieces.filter fun c => decide (c.part = i)).map fun c => f c <<< c.pos).sum
/-- The bits that came for part `i`. -/
def reqBits (q : PeerReq) (g : Got) (i : Nat) : Nat :=
  let bs := List.replicate q.base 0 ++ g.data
  overPieces q i fun c => pieceBits c (leNat ((bs.drop c.rel).take c.size))
/-- All the bits of the request's element in part `i`. -/
def reqMask (q : PeerReq) (i : Nat) : Nat := overPieces q i fun c => if c.nib = 0 then 2 ^ (8 * c.size) - 1 else 15
/-- A part with what came: the data, or, where the request failed, +0 for the whole element (R435, R436). -/
def takeBits (q : PeerReq) (g : Got) (i : Nat) (v : Val) : Val :=
  if g.flags = 0 then orBits v (reqBits q g i) else dropBits v (reqMask q i)

/-- The result of an `xld`, which is all zeros when any of its data fails (R251). -/
def isSeries : Val → Bool
  | .series _ => true
  | _ => false

/-- The results in flight that await a request: each part takes its bits, and poison leaves none (R402). A `tlsig` that failed
gives all ones (R364). -/
def fillFlights (q : PeerReq) (g : Got) : List Flight → Nat → List Flight
  | [], _ => []
  | f :: r, i =>
    if !f.need.contains q.id then f :: fillFlights q g r i
    else
      let f1 := if g.poison then { f with val := zeroVal f.val, need := [] }
        else if g.flags != 0 && isSeries f.val then { f with val := .series 0, flags := f.flags ||| g.flags, need := [] }
        else if g.flags != 0 && q.msg.kind = 5 && f.fix.isNone then
          { f with val := .word (BitVec.allOnes 64), flags := f.flags ||| g.flags, need := [] }
        else { f with
          val := takeBits q g i f.val, flags := if i = 0 then f.flags ||| g.flags else f.flags, need := f.need.filter (· != q.id) }
      f1 :: fillFlights q g r (i + 1)

def fillAsync (q : PeerReq) (g : Got) (a : Async) : Async :=
  if !a.need.contains q.id then a
  else if g.poison then { a with parts := a.parts.map fun x => (x.1, zeroVal x.2), need := [] }
  else { a with
    parts := ((List.range a.parts.length).zip a.parts).map fun x => (x.2.1, takeBits q g x.1 x.2.2), flags := a.flags ||| g.flags
    need := a.need.filter (· != q.id) }

/-- Bytes put into a list at a place. -/
def putBytes (l : List Byte) (i : Nat) (bs : List Byte) : List Byte := l.take i ++ bs ++ l.drop (i + bs.length)

def fillStore (q : PeerReq) (g : Got) (e : Store) : Store :=
  if !e.need.contains q.id then e
  else { e with
    need := e.need.filter (· != q.id), flags := e.flags ||| g.flags
    act := match e.act with
      | .mcast tile st len dest data cores =>
        if g.poison || g.flags != 0 then .bytes else .mcast tile st len dest (putBytes data q.base g.data) cores
      | a => a }

/-- The importer's address of the bytes that a request names. -/
def askedAt (q : PeerReq) : Nat := q.msg.dst * 2 ^ 46 + q.msg.arg % 2 ^ 46

/-- What a waiting word has asked for or written: the bytes, or none at what failed (R435, R436). -/
def fillBuf (q : PeerReq) (g : Got) (t : Task) : Task :=
  if !t.peerAsk.contains q.id then t
  else
    let failed := g.poison || g.flags != 0
    { t with
      peerFlags := t.peerFlags ||| g.flags
      peerAsk := t.peerAsk.filter (· != q.id)
      peerBuf := if q.msg.kind != 1 && !failed then t.peerBuf else (List.range q.size).foldl (fun b i =>
        tput b (askedAt q + i) (if failed then none else some (g.data.getD i 0))) t.peerBuf }

def fillTask (q : PeerReq) (g : Got) (t : Task) : Task :=
  fillBuf q g { t with flights := fillFlights q g t.flights 0, asyncs := t.asyncs.map (fillAsync q g), stores := t.stores.map (fillStore q g) }

/-- An engine's record: its bytes by peer address, each poisoned or not; its status bits take the failure (R214). -/
def fillProg (q : PeerReq) (g : Got) (p : Prog) : Prog :=
  if !p.waits.contains q.id then p
  else
    let base := askedAt q
    { p with
      waits := p.waits.filter (· != q.id)
      told := if g.flags != 0 then q.op :: p.told else p.told
      peer := if q.msg.kind != 1 then p.peer
        else (List.range q.size).foldl (fun t i => tput t (base + i) (g.data.getD i 0, g.poison)) p.peer }
def progAwaits (x : Stream) (id : Nat) : Bool := (x.prog ++ x.chained ++ x.active).any (·.waits.contains id)
def fillStream (q : PeerReq) (g : Got) (x : Stream) : Stream :=
  if !progAwaits x q.id then x
  else { x with
    prog := x.prog.map (fillProg q g), chained := x.chained.map (fillProg q g), active := x.active.map (fillProg q g)
    sticky := x.sticky ||| g.flags.setWidth 6 }

/-- A waiting word that reads peer memory judges what came, or reads again (log 16). -/
def judgeWait (g : Got) (w : Wait) : Wait :=
  let v := BitVec.ofNat 64 (leNat g.data)
  match w with
  | .timeline f slot off th none =>
    if g.flags != 0 then .timeline f slot off th (some (BitVec.allOnes 64))
    else if g.poison then .timeline f slot off th (some 0)
    else if tlPassed v th then .timeline f slot off th (some v) else w
  | .line f slot off cond c none => if icond cond v c then .line f slot off cond c (some v) else w
  | .pred f slot off cond c none => .pred f slot off cond c (some v)
  | _ => w
def wantsMore : Wait → Bool
  | .timeline _ _ _ _ none => true
  | .line _ _ _ _ _ none => true
  | _ => false

/-- The waiting word's own place is the one that the request names. -/
def waitsAt (s : State) (q : PeerReq) (w : Wait) : Bool :=
  let at_ (slot off : Nat) : Bool := q.msg.kind = 1 && pinLookup s slot off = ⟨.peer, askedAt q⟩
  match w with
  | .timeline _ slot off _ none => at_ slot off
  | .line _ slot off _ _ none => at_ slot off
  | .pred _ slot off _ _ none => at_ slot off
  | _ => false

/-- A task whose waiting word made the request. -/
def fillWait (s : State) (q : PeerReq) (g : Got) : State :=
  let t := taskOf s q.party
  let w := judgeWait g t.wait
  let s1 := mapTask s q.party fun t => orFlags { t with wait := w } g.flags
  if wantsMore w && g.flags = 0 then
    (peerRequest s1 q.party 1 ⟨.peer, askedAt q⟩ q.pinSlot ⟨0, 0, 0, 8, 0⟩ (leBytes 1 8)).1
  else s1

/-- Whether a result, a store or a load of the task awaits the request. -/
def taskAwaits (t : Task) (id : Nat) : Bool :=
  t.flights.any (·.need.contains id) || t.asyncs.any (·.need.contains id) || t.stores.any (·.need.contains id) || t.peerAsk.contains id

/-- The owner of a request takes what became of it. -/
def fillOwner (s : State) (q : PeerReq) (g : Got) : State :=
  match q.party with
  | .engine c e => mapStream s c e (fillStream q g)
  | p =>
    if taskAwaits (taskOf s p) q.id then mapTask s p (fillTask q g)
    else match s.saved.find? fun x => decide (x.1 = partyKey p) && taskAwaits x.2 q.id with
      | some (k, t) => { s with saved := tput s.saved k (fillTask q g t) }
      | none => if waitsAt s q (taskOf s p).wait then fillWait s q g else s

/-- A `waitline` that +0 does not satisfy goes on waiting (log 26). -/
def lineStill (s : State) (q : PeerReq) : Bool :=
  waitsAt s q (taskOf s q.party).wait && match (taskOf s q.party).wait with
    | .line _ _ _ cond c none => !icond cond 0 c
    | _ => false
/-- A poisoned answer is a poisoned load of its party (R402): an item, and CHK with DETAIL 6; an engine carries it on. -/
def poisonReply (s : State) (q : PeerReq) : State :=
  match q.party with
  | .engine _ _ => s
  | p => if lineStill s q then s else failTask s p { kind := 10, core := coreField p, unit := unitField p, record := q.pinSlot, old := q.msg.arg % 2 ^ 34 } 6

/-! ### Collectives (R446) -/

def sameColl (a b : Coll) : Bool := a.die = b.die && a.ctx = b.ctx && a.slot = b.slot
def putColl (s : State) (c : Coll) : State := { s with colls := s.colls.map fun x => if sameColl x c then c else x }

/-- A collective's record and counts as it ends with a status (R444, R447). -/
def closeColl (s : State) (c : Coll) (status reason dev : Nat) : State :=
  putColl (if c.counted then inflt (inflt s (kSlot c.src) false) (kSlot c.dst) false else s)
    { c with ended := true, counted := false, status := status, reason := reason, dev := dev, parts := [], need := [] }

/-- A write of a collective's result to a peer is answered; with the last one the result is written, and the collective ends with status 1. -/
def landColl (s : State) (q : PeerReq) (g : Got) : State :=
  match s.colls.find? fun c => c.need.contains q.id with
  | none => s
  | some c =>
    let c1 := { c with need := c.need.filter (· != q.id), flags := c.flags ||| g.flags }
    if c1.need.isEmpty then closeColl s c1 1 0 s.identity else putColl s c1

/-- Two requests of one operand of an access, and of one element of it. -/
def sameOp (q x : PeerReq) : Bool := decide (x.party = q.party) && decide (x.place = q.place) && decide (x.op = q.op)
def sameEl (q x : PeerReq) : Bool := sameOp q x && decide (x.pieces = q.pieces)
/-- The requests left when one is answered; where it failed, its operand's are told of it, and its element's have no more to give. -/
def otherReqs (l : List PeerReq) (q : PeerReq) (failed : Bool) : List PeerReq :=
  (l.filter fun x => x.id != q.id).map fun x =>
    if !failed then x else { x with told := x.told || sameOp q x, pieces := if sameEl q x then [] else x.pieces }

/-- A write of a launch's completion record is answered (R296). -/
def landDone (s : State) (q : PeerReq) : State :=
  { s with dies := s.dies.map fun d => (d.1, { d.2 with launches := d.2.launches.map fun l => (l.1, match l.2.ending with
      | some (st, ids) => { l.2 with ending := some (st, ids.filter (· != q.id)) }
      | none => l.2) }) }

/-- The request is for the source of a `coll`, which sets no flag and does not trap (R446). -/
def ofColl (s : State) (q : PeerReq) : Bool :=
  (taskOf s q.party).peerAsk.contains q.id && match (issueCode s q.party (taskOf s q.party).pc).map decodeWord with
    | some (.ok (.coll _)) => true
    | _ => false
/-- What came of it: poisoned elements are free values, as those on this device are (log 28). -/
def collGot (s : State) (q : PeerReq) (g : Got) : Got × State :=
  if !g.poison || !ofColl s q then (g, s)
  else let x := free (8 * q.size) s; (⟨g.flags, false, leBytes q.size x.1.toNat⟩, x.2)

/-- A request answered: it leaves the list, its count on the slot is given back, a failure is logged, once for an operand (R341). -/
def endRequest (s0 : State) (q : PeerReq) (g0 : Got) (ev : Nat) : State :=
  let (g, s) := collGot s0 q g0
  let s1 := inflt { s with peers := otherReqs s.peers q (ev != 0) } q.pinSlot false
  let s2 := if ev = 0 || q.told then s1 else logEvent s1 q.party ev q.pinSlot q.place
  landDone (landColl (fillOwner (if g.poison then poisonReply s2 q else s2) q g) q g) q

/-- The flag and the event of a status (R435). -/
def statusFlag (st : Nat) : BitVec 8 × Nat :=
  match st with
  | 1 | 3 | 4 => (fXB, 2)
  | 2 => (fST, 1)
  | 5 => (fSX, 3)
  | _ => (0, 0)

/-- A reply meets its request; one that meets none is dropped. -/
def takeAnswer (s : State) (m : Msg) : State :=
  match s.peers.find? fun q => q.msg.dst = m.src && q.msg.eseq = bits m.arg 0 16 && q.msg.kind + 1 = m.kind with
  | none => s
  | some q =>
    let st := bits m.arg 16 8
    let f := statusFlag st
    endRequest s q ⟨f.1, st = 6, if st = 0 then m.data else []⟩ f.2

def execReadReply (s : State) : Host.Outcome State Fault Refusal :=
  .next (match takeMsg s 2 with | some (m, s1) => takeAnswer s1 m | none => s)
def execWriteAck (s : State) : Host.Outcome State Fault Refusal :=
  .next (match takeMsg s 4 with | some (m, s1) => takeAnswer s1 m | none => s)
def execAtomicReply (s : State) : Host.Outcome State Fault Refusal :=
  .next (match takeMsg s 6 with | some (m, s1) => takeAnswer s1 m | none => s)

/-- A destination whose mask has no link up (R431). -/
def unreachable (s : State) (dst : Nat) : Bool := dst != s.identity && (routeOf s dst).isNone

/-- PEER_REQUEST_TIMEOUT (R436): request `i` had no reply within 2^24 clocks, or cannot be sent: XB, and PEERFAIL. -/
def execPeerRequestTimeout (i : Nat) (s : State) : Host.Outcome State Fault Refusal :=
  .next (match s.peers[i]? with
    | none => s
    | some q =>
      if decide (q.since + 2 ^ 24 ≤ s.clock) || unreachable s q.msg.dst then endRequest s q ⟨fXB, false, []⟩ 8 else s)

/-- HOST_LINE_CHANGE (R312, R418): the host stores to its own memory; waits on the line judge it anew. -/
def execHostLineChange (addr : Nat) (data : List Byte) (s : State) : Host.Outcome State Fault Refusal :=
  .next (wrPlaces s (.super 0) 0 0 ((List.range data.length).map fun i => (⟨.host, addr + i⟩, data.getD i 0, 0xFF#8)))

end Sys2Proof.Machine
end

