-- ==== Sys2Proof/Machine/Coll.lean ====
section
/-! DEFINITION. Collectives (spec 21, R438-R448): `coll`, `cwait`, `cabort`, their messages and their ends. -/

namespace Sys2Proof.Machine

/-! ## Rings (R438) -/

def ringKey (die ctx slot : Nat) : Nat := (die * 4096 + ctx) * 32 + slot
def ringKeyDie (key : Nat) : Nat := key / 131072
def ringKeyCtx (key : Nat) : Nat := key / 32 % 4096
def Ring.fresh : Ring := ⟨false, false, false, [], 0, 0, 0, 0, 0⟩
def ringOf (s : State) (key : Nat) : Ring := tget Ring.fresh s.rings key
def mapRing (s : State) (key : Nat) (f : Ring → Ring) : State := { s with rings := tput s.rings key (f (ringOf s key)) }
def ringLen (r : Ring) : Nat := r.members.length
def succOf (r : Ring) : Nat × Nat := r.members.getD ((r.pos + 1) % ringLen r) (0, 0)
def predOf (r : Ring) : Nat × Nat := r.members.getD ((r.pos + ringLen r - 1) % ringLen r) (0, 0)
def breakRing (s : State) (key : Nat) : State := mapRing s key fun r => { r with formed := false, broken := true }

/-- The handle of R449. -/
def ringHandle (key : Nat) (r : Ring) : Word :=
  BitVec.ofNat 64 (r.pos * 2 ^ 32 + ringLen r * 2 ^ 16 + r.epoch % 256 * 2 ^ 8 + ringKeyDie key * 32 + key % 32)

/-! ## Chunks and steps (R440) -/

def partLo (c n k : Nat) : Nat := min (k * ((c + n - 1) / n)) c
def partLen (c n k : Nat) : Nat := partLo c n (k + 1) - partLo c n k

def collRing (s : State) (c : Coll) : Ring := (c.ring.map (ringOf s)).getD Ring.fresh
def stepCount (kind n : Nat) : Nat := if kind = 0 then 2 * (n - 1) else n - 1
/-- Whether a step reduces (it gathers otherwise). -/
def stepReduces (kind n t : Nat) : Bool := kind = 1 || (kind = 0 && decide (t < n - 1))
/-- The chunks that member `r` sends and receives at a step. -/
def sendChunk (kind n r t : Nat) : Nat :=
  if stepReduces kind n t then (r + 2 * n - 1 - t) % n else (r + 2 * n - (if kind = 0 then t - (n - 1) else t)) % n
def recvChunk (kind n r t : Nat) : Nat :=
  if stepReduces kind n t then (r + 2 * n - 2 - t) % n else (r + 2 * n - 1 - (if kind = 0 then t - (n - 1) else t)) % n

def elSize (c : Coll) : Nat := tyBytes c.ty
/-- The elements of the destination: all, or chunk r of a reduce-scatter. -/
def dstRange (s : State) (c : Coll) : Nat × Nat :=
  let r := collRing s c
  if c.kind = 1 then (partLo c.count (ringLen r) r.pos, partLen c.count (ringLen r) r.pos) else (0, c.count)
/-- The elements of the source: all, or for a gather chunk r, which stands at the source offset. -/
def srcRange (s : State) (c : Coll) : Nat × Nat :=
  let r := collRing s c
  if c.kind = 2 then (partLo c.count (ringLen r) r.pos, partLen c.count (ringLen r) r.pos) else (0, c.count)

/-- The digest of R439. -/
def collDigest (c : Coll) : Nat :=
  crc32c (leBytes 1 c.kind ++ leBytes 1 (if c.kind = 2 then 0 else c.op) ++ leBytes 1 c.ty.toNat ++ leBytes 1 0 ++ leBytes 4 c.count) % 65536

/-- One combination (R441). -/
def combine (op : Nat) (ty : TyCode) (a b : Nat) : Nat × BitVec 8 :=
  if tyInt ty then
    let x := intDecode ty a
    let y := intDecode ty b
    if op = 0 then intBound ty 0 (x + y) else (wrap (tyWidth ty) (if op = 1 then min x y else max x y), 0)
  else
    let r := redNode (if op = 0 then .add else if op = 1 then .min else .max) false (flDecode ty a) (flDecode ty b)
    let q := flRound ty ⟨0, 0⟩ 0 r.1
    (q.1, r.2 ||| q.2)

/-! ## The table of collectives -/

def collAt (s : State) (die ctx slot : Nat) : Option Coll := s.colls.find? fun c => c.die = die && c.ctx = ctx && c.slot = slot

/-- The party whose accesses a collective's are: its task's, wherever that one still is; else its context's stream's (R444; log 36). -/
def collParty (s : State) (c : Coll) : Party := if (taskOf s c.owner).run = c.run then c.owner else .stream c.die c.ctx

/-- The bytes of the destination's range. -/
def dstCells (s : State) (c : Coll) (bs : List Byte) : List (Place × Byte × Byte) :=
  let lo := c.dstOff + elSize c * (dstRange s c).1
  (List.range bs.length).map fun i => (kPlace s c.dst (lo + i), bs.getD i 0, 0xFF#8)

/-- Bytes of the destination on this device written; sealed ones keep their value (R337). -/
def wrColl (s : State) (c : Coll) (cells : List (Place × Byte × Byte)) : State :=
  wrPlaces s (collParty s c) (kSlot c.dst) (kBase c.dst + c.dstOff + elSize c * (dstRange s c).1)
    (cells.filter fun x => x.1.space != .peer && !sealedPlace s x.1)
/-- Those at a peer, as messages of KIND 3 (R435). -/
def sendColl (s : State) (c : Coll) (cells : List (Place × Byte × Byte)) : State × List Nat :=
  let l := cells.filter fun x => x.1.space = .peer
  askSpans s (collParty s c) 3 (kSlot c.dst) [] 0 s.reqNo false (fun r => ((l.drop r.1).take r.2.2).map (·.2.1))
    (peerSpans ((List.range l.length).zip (l.map (·.1.addr))))

/-- Free bytes for the destination (R444). -/
def freeDst (s : State) (c : Coll) : List Byte × State :=
  let n := elSize c * (dstRange s c).2
  let x := free (8 * n) s
  if n = 0 then ([], s) else (leBytes n x.1.toNat, x.2)
/-- Free values in every element of the destination on this device (R444); one at a peer keeps what it holds. -/
def scramble (s : State) (c : Coll) : State :=
  let x := freeDst s c
  if x.1.isEmpty then s else wrColl x.2 c (dstCells s c x.1)

/-- Bytes [off, off + n) lie in a token's extent; an empty range names no byte. -/
def rangeIn (k : KReg) (off n : Nat) : Bool := n = 0 || decide (off + n ≤ kLen k)
/-- The destination is a range that the collective could write. -/
def dstOk (s : State) (c : Coll) : Bool :=
  let d := dstRange s c
  (checkTok s c.dst (kW c.dst && kS c.dst)).flag = 0 && c.dstOff % elSize c = 0
    && rangeIn c.dst (c.dstOff + elSize c * d.1) (elSize c * d.2)

/-- Source and destination share a byte. -/
def collOverlap (s : State) (c : Coll) : Bool :=
  let a := srcRange s c
  let d := dstRange s c
  let dst := (List.range (elSize c * d.2)).map fun i => kPlace s c.dst (c.dstOff + elSize c * d.1 + i)
  (List.range (elSize c * a.2)).any fun i => dst.contains (kPlace s c.src (c.srcOff + i))

/-! ## Ends (R443, R444) -/

def abortTo (c : Coll) (s : State) (peer : Nat × Nat) (slot : Nat) : State :=
  (sendMsg s ⟨8, c.ctx % 64, peer.1, 0, 0, slot + c.seq * 2 ^ 7 + c.step % 2048 * 2 ^ 23, []⟩).1

/-- An abort to each neighbour that has not sent one; two members are one neighbour to each other. -/
def sendAborts (s : State) (c : Coll) : State :=
  if c.ring.isNone then s
  else
    let r := collRing s c
    let two := succOf r = predOf r
    let s1 := if c.aborted.contains 0 || (two && !c.aborted.isEmpty) then s else abortTo c s (succOf r) r.succSlot
    if c.aborted.contains 1 || two then s1 else abortTo c s1 (predOf r) r.predSlot

/-- A collective ends. -/
def endColl (s : State) (c : Coll) (status reason dev : Nat) : State :=
  let s2 := closeColl s c status reason dev
  if status = 1 then s2
  else
    let s3 := if decide (c.count < 2 ^ 32) && (c.counted || dstOk s c) then scramble s2 c else s2
    let s4 := match c.ring with | some k => breakRing s3 k | none => s3
    sendAborts s4 c

/-- The last step is done: the destination is written, an event logged where it is sealed (R337), and the collective ends with status 1; where
bytes of it lie at a peer, as the last of them is acknowledged (log 36). -/
def finishColl (s : State) (c : Coll) : State :=
  let d := dstRange s c
  let x := if collOverlap s c then freeDst s c else ((List.range d.2).flatMap fun i => leBytes (elSize c) (tget 0 c.parts (d.1 + i)), s)
  let cells := dstCells s c x.1
  let s1 := if cells.any fun y => sealedPlace s y.1 then logEvent x.2 (collParty s c) 3 (kSlot c.dst) (whereOf s (collParty s c)) else x.2
  let y := sendColl (wrColl s1 c cells) c cells
  if y.2.isEmpty then endColl y.1 c 1 0 s.identity else putColl y.1 { c with parts := [], need := y.2 }

/-! ## Steps -/

/-- The data of the current step, in messages of whole elements (R440). -/
def sendStep (s : State) (c : Coll) : State :=
  let r := collRing s c
  let n := ringLen r
  let k := sendChunk c.kind n r.pos c.step
  let lo := partLo c.count n k
  let len := partLen c.count n k
  let per := 222 / elSize c
  (List.range ((len + per - 1) / per)).foldl (fun s j =>
    let els := (List.range (min per (len - j * per))).flatMap fun i => leBytes (elSize c) (tget 0 c.parts (lo + j * per + i))
    (sendMsg s ⟨7, c.ctx % 64, (succOf r).1, 0, 0, r.succSlot + c.seq * 2 ^ 7 + c.step * 2 ^ 23, leBytes 2 (collDigest c) ++ els⟩).1) s

/-- A step whose receive is complete gives way to the next (R440); the last one ends the collective. -/
def stepOn : Nat → State → Coll → State
  | 0, s, c => putColl s c
  | k + 1, s, c =>
    let r := collRing s c
    let n := ringLen r
    if c.got < partLen c.count n (recvChunk c.kind n r.pos c.step) then putColl s c
    else
      let c1 := { c with step := c.step + 1, got := 0 }
      if c1.step = stepCount c.kind n then finishColl (putColl s c1) c1 else stepOn k (sendStep s c1) c1

/-- Elements received: combined with this member's own, or stored. -/
def takeEls (n pos : Nat) (c : Coll) : List Nat → Coll
  | [] => c
  | v :: l =>
    let k := recvChunk c.kind n pos c.step
    let i := partLo c.count n k + c.got
    if partLen c.count n k ≤ c.got then c
    else
      let q := if stepReduces c.kind n c.step then combine c.op c.ty v (tget 0 c.parts i) else (v, 0)
      takeEls n pos { c with parts := tput c.parts i q.1, got := c.got + 1, flags := c.flags ||| q.2 } l

/-- A KIND 7 message of the predecessor: its digest, then its elements (R439, R440). -/
def takeData (s : State) (c : Coll) (m : Msg) : State :=
  let r := collRing s c
  let es := elSize c
  if leNat (m.data.take 2) != collDigest c then endColl s { c with since := s.clock } 6 0 s.identity
  else if bits m.arg 23 11 != c.step % 2048 then s
  else
    let vals := (List.range ((m.data.length - 2) / es)).map fun i => leNat ((m.data.drop (2 + es * i)).take es)
    stepOn (2 * ringLen r) s (takeEls (ringLen r) r.pos { c with since := s.clock } vals)

/-- The ring a message names: the receiver's slot and die, with the sender a neighbour in it. -/
def ringFor (s : State) (m : Msg) : Option (Nat × Ring) :=
  s.rings.find? fun e => e.2.used && e.1 % 32 = bits m.arg 0 5 && ringKeyDie e.1 = bits m.arg 5 2
    && (succOf e.2 = (m.src, m.sctx) || predOf e.2 = (m.src, m.sctx))

/-- A collective message: kept while the member has not issued its own `coll`, else taken or discarded. -/
def deliver (s : State) (m : Msg) : State :=
  match ringFor s m with
  | none => s
  | some (key, r) =>
    let seq := bits m.arg 7 16
    if !r.broken && decide ((seq + 65536 - r.seq) % 65536 < 32768) then { s with early := s.early ++ [m] }
    else match s.colls.find? fun c => !c.ended && c.ring = some key && c.seq = seq with
      | none => s
      | some c =>
        if m.kind = 8 then
          let from_ := (if succOf r = (m.src, m.sctx) then [0] else []) ++ if predOf r = (m.src, m.sctx) then [1] else []
          endColl s { c with aborted := c.aborted ++ from_ } 2 0 m.src
        else if predOf r = (m.src, m.sctx) then takeData s c m else s

def replayEarly (s : State) : State := s.early.foldl deliver { s with early := [] }

/-- COLLECTIVE_DATA, ABORT: the next such message. -/
def execCollectiveData (s : State) : Host.Outcome State Fault Refusal :=
  .next (match takeMsg s 7 with | some (m, s1) => deliver s1 m | none => s)
def execAbort (s : State) : Host.Outcome State Fault Refusal :=
  .next (match takeMsg s 8 with | some (m, s1) => deliver s1 m | none => s)

/-- COLLECTIVE_TIMEOUT (R442): collective `i` of the table has been silent for its timeout; DEV is the predecessor. -/
def execCollectiveTimeout (i : Nat) (s : State) : Host.Outcome State Fault Refusal :=
  .next (match s.colls[i]? with
    | none => s
    | some c =>
      if !c.ended && c.need.isEmpty && c.timeout != 0 && decide (c.since + 1024 * c.timeout ≤ s.clock) then
        endColl s c 3 0 (predOf (collRing s c)).1
      else s)

/-! ## coll (R446) -/

def collKind (f : FmtA) : Nat := (low5 f).toNat / 8
def collOp (f : FmtA) : Nat := (low5 f).toNat % 8
def collTy (t : TyCode) : Bool := [tyF16, tyBf16, tyF32, tyF64, tyI32, tyI64, tyN32, tyN64].contains t
def illColl (f : FmtA) : List (Nat × Bool) :=
  (5, f.s || collKind f = 3 || decide (2 < collOp f) || (collKind f = 2 && collOp f != 0)
      || (clsOf f.c = .x && (oddX f.c || decide (28 < regNo f.c))))
    :: faultsA { a := [.k], b := [.k], c := [.x], d := cXN, tyOk := collTy f.ty, stair := true, clamp := .low } f

/-- The four registers from xN. -/
def collArg (f : FmtA) (s : State) (p : Party) (i : Nat) : Word := rdScal s p (f.c + BitVec.ofNat 7 i)
def freeColl (s : State) (p : Party) : Option Nat :=
  (List.range 16).find? fun n => (collAt s (dieNo p) (ctxNo s p) n).isNone
def readsN (f : FmtA) (n : Nat) : List Rd := (List.range n).map fun i => { field := 3, spec := f.c + BitVec.ofNat 7 i }

/-- A source element: a poisoned one is a free value (log 28); one read at a peer is what came, +0 where it failed (R435). -/
def collElem (c : Coll) (a : State × List Nat) (i : Nat) : State × List Nat :=
  let es := elSize c
  let pls := (List.range es).map fun j => kPlace a.1 c.src (c.srcOff + es * i + j)
  if pls.any (placePoison a.1) then
    let x := free 64 a.1
    (x.2, a.2 ++ [x.1.toNat % 2 ^ (8 * es)])
  else (a.1, a.2 ++ [leNat (pls.map (byteAt a.1 c.owner))])

/-- The reason of status 4 for the operands, with the events of those that fail stage 1 of R214. -/
def collChecks (s : State) (c : Coll) : State × Option Nat :=
  let ca := checkTok s c.src (kR c.src && kS c.src)
  let cb := checkTok s c.dst (kW c.dst && kS c.dst)
  let log (s : State) (k : KReg) (x : Chk) : State := if x.ev = 0 then s else logEvent s c.owner x.ev (kSlot k) (whereOf s c.owner)
  let a := srcRange s c
  let s1 := log (log s c.src ca) c.dst cb
  let worst := if ca.flag != 0 then ca.flag else cb.flag
  if worst != 0 then (s1, some (if worst = fST then 1 else 2))
  else if c.srcOff % elSize c != 0 || !rangeIn c.src c.srcOff (elSize c * a.2) || !dstOk s c then (s1, some 2)
  else (s1, none)

/-- A `coll` in the table begins (R446). -/
def beginColl (s : State) (c : Coll) (formed : Bool) : State :=
  if !formed then endColl s c 7 0 s.identity
  else if c.count = 0 || decide (2 ^ 32 ≤ c.count) then endColl s c 4 3 s.identity
  else
    let k := collChecks s c
    match k.2 with
    | some r => endColl k.1 c 4 r s.identity
    | none =>
      let a := srcRange s c
      let s1 := inflt (inflt k.1 (kSlot c.src) true) (kSlot c.dst) true
      let s2 := readAtoms s1 ((List.range (elSize c * a.2)).map fun i => kPlace s1 c.src (c.srcOff + i))
      let x := (List.range a.2).foldl (collElem c) (s2, [])
      let c1 := { c with counted := true, parts := ((List.range a.2).map (a.1 + ·)).zip x.2 }
      replayEarly (stepOn (2 * ringLen (collRing s c)) (sendStep x.1 c1) c1)

/-- The ring that the word's handle names: one of this context on this die, FORMED or BROKEN. -/
def collRingKey (f : FmtA) (s : State) (p : Party) : Option Nat :=
  let handle := collArg f s p 3
  let key := ringKey (dieNo p) (ctxNo s p) (handle.toNat % 32)
  let r := ringOf s key
  if r.used && (r.formed || r.broken) && ringHandle key r = handle then some key else none
/-- The collective that the word starts. -/
def collOf (f : FmtA) (s : State) (p : Party) : Coll :=
  let t := taskOf s p
  let key := collRingKey f s p
  { counted := false, ended := false, ctx := ctxNo s p, die := dieNo p, slot := (freeColl s p).getD 0, ring := key
    seq := (key.map fun k => (ringOf s k).seq).getD 0, kind := collKind f, op := collOp f, ty := f.ty, count := (collArg f s p 0).toNat
    src := rdTok s p f.a, srcOff := (collArg f s p 1).toNat, dst := rdTok s p f.b, dstOff := (collArg f s p 2).toNat
    parts := [], got := 0, step := 0, flags := 0, status := 0, reason := 0, dev := s.identity
    timeout := t.ctimeo.toNat, since := s.clock, owner := p, run := t.run, aborted := [], need := [] }
def collFormed (s : State) (c : Coll) : Bool := (c.ring.map fun k => (ringOf s k).formed).getD false

/-- How many bytes of the source the word reads: none where it ends at once. -/
def collSize (s : State) (c : Coll) : Nat :=
  if collFormed s c && decide (0 < c.count) && decide (c.count < 2 ^ 32) && (collChecks s c).2.isNone then elSize c * (srcRange s c).2 else 0
def planColl (f : FmtA) (s : State) (p : Party) : Plan :=
  let c := collOf f s p
  { tk := f.tk, ill := illColl f, nres := 1, lands := some (false, 1, 1), cold := (coldSlot s p c.src).or (coldSlot s p c.dst)
    reads := { field := 1, spec := f.a } :: { field := 2, spec := f.b } :: readsN f 4
    ready := (taskOf s p).stores.isEmpty && (freeColl s p).isSome
    go := kSpace c.src != 3 || (peerMissing s p c.src c.srcOff (collSize s c)).isEmpty
    ask := fun s => askBytes s p c.src c.srcOff (collSize s c) }

def collAct (f : FmtA) (sg : List Nat) (s : State) : Act :=
  let p := s.cur
  let c := collOf f s p
  let s1 := match c.ring with | some key => mapRing s key fun r => { r with seq := (r.seq + 1) % 65536 } | none => s
  let id := dieNo p * 2 ^ 32 + c.seq * 2 ^ 16 + (collArg f s p 3).toNat % 32 * 16 + c.slot
  .done (putScal 1 f.d false (BitVec.ofNat 64 id, 0) sg
    (dropPeer p (beginColl { s1 with colls := s1.colls ++ [c] } c (collFormed s c))))
def execColl (f : FmtA) (s : State) : Host.Outcome State Fault Refusal := runWord (.coll f) (planColl f) (collAct f) s

/-! ## cwait, cabort (R447, R448) -/

/-- The collective that an id names: its slot holds the id's sequence. -/
def collOfId (s : State) (p : Party) (id : Word) : Option Coll :=
  (collAt s (bits id.toNat 32 2) (ctxNo s p) (bits id.toNat 0 4)).filter fun c => c.seq = bits id.toNat 16 16

def collFlg (fl : BitVec 8) : Nat :=
  (if fl &&& fIV = 0 then 0 else 8) + (if fl &&& fOF = 0 then 0 else 4) + (if fl &&& fUF = 0 then 0 else 2) + (if fl &&& fNX = 0 then 0 else 1)
def collStatus (c : Coll) : Word :=
  BitVec.ofNat 64 (c.dev % 1024 * 2 ^ 48 + c.step % 65536 * 2 ^ 32 + c.seq * 2 ^ 16 + collFlg c.flags * 2 ^ 12 + c.reason * 2 ^ 4 + c.status)

def illCwait (f : FmtA) : List (Nat × Bool) := noneWord cTx cNone cNone cXN f
def planCwait (f : FmtA) (s : State) (p : Party) : Plan :=
  { tk := f.tk, ill := illCwait f, reads := readsA f, nres := 1, lands := some (false, 1, 1)
    ready := match collOfId s p (rdScal s p f.a) with | some c => c.ended | none => true }
def cwaitAct (f : FmtA) (sg : List Nat) (s : State) : Act :=
  match collOfId s s.cur (opA f s) with
  | none => .done (putScal 1 f.d false (0, 0) sg s)
  | some c =>
    let fl := c.flags ||| flagIf (c.status = 4 && c.reason = 1) fST ||| flagIf (c.status = 4 && c.reason = 2) fXB
    .done (putScal 1 f.d false (collStatus c, fl) sg { s with colls := s.colls.filter fun x => !sameColl x c })
def execCwait (f : FmtA) (s : State) : Host.Outcome State Fault Refusal := runWord (.cwait f) (planCwait f) (cwaitAct f) s

def illCabort (f : FmtA) : List (Nat × Bool) := noneWord cTx cNone cNone cNone f
def cabortAct (f : FmtA) (sg : List Nat) (s : State) : Act :=
  match collOfId s s.cur (opA f s) with
  | some c => if c.ended then doneNow sg s else doneNow sg (endColl s c 5 0 s.identity)
  | none => doneNow sg s
def execCabort (f : FmtA) (s : State) : Host.Outcome State Fault Refusal :=
  runWord (.cabort f) (planNone f.tk (illCabort f) (readsA f)) (cabortAct f) s

end Sys2Proof.Machine
end

