-- ==== Sys2Proof/Machine/Ringf.lean ====
section
/-! DEFINITION. Forming and releasing rings (spec 21, R449): `ringf` and the hellos. -/

namespace Sys2Proof.Machine

def illRingf (f : FmtA) : List (Nat × Bool) :=
  (5, oddX f.c) :: noneWord [.k] cScal [.x] cXN f
def ringCount (f : FmtA) (s : State) (p : Party) : Nat := (rdScal s p f.c).toNat
def ringArg (f : FmtA) (s : State) (p : Party) : Word := rdScal s p (f.c + 1)
/-- The slot that a handle names, when it is a ring of this context on this die. -/
def namedRing (s : State) (p : Party) (h : Word) : Option Nat :=
  let key := ringKey (dieNo p) (ctxNo s p) (h.toNat % 32)
  let r := ringOf s key
  if r.used && (r.formed || r.broken) && ringHandle key r = h then some key else none
def ringPending (s : State) (key : Nat) : Bool := s.colls.any fun c => !c.ended && c.ring = some key

def ringLegalN (n : Nat) : Bool := decide (2 ≤ n) && decide (n ≤ 1024)
def planRingf (f : FmtA) (s : State) (p : Party) : Plan :=
  let n := ringCount f s p
  let k := rdTok s p f.a
  let off := (rdScal s p f.b).toNat
  let size := if ringLegalN n && (access s k off (4 * n) false).flag = 0 then 4 * n else 0
  { tk := f.tk, ill := illRingf f, nres := 1, lands := some (false, 1, 1), cold := coldSlot s p k
    go := kSpace k != 3 || (peerMissing s p k off size).isEmpty
    ask := fun s => askBytes s p k off size
    reads := { field := 1, spec := f.a } :: { field := 2, spec := f.b } :: readsN f 2
    touch := if size = 0 then [] else [⟨kSlot k, kBase k + off, size, false⟩]
    ready := if n = 0 then (match namedRing s p (ringArg f s p) with | some k => !ringPending s k | none => true)
      else !ringLegalN n || !objBusy s p (kSlot (rdTok s p f.a)) (barAt f s p) (4 * n) }

/-! ## The member list -/

def ringBytes (f : FmtA) (s : State) (p : Party) : List Byte :=
  (List.range (4 * ringCount f s p)).map fun i => byteAt s p (kPlace s (rdTok s p f.a) ((rdScal s p f.b).toNat + i))
def ringEntry (bs : List Byte) (i : Nat) : Nat := leNat ((bs.drop (4 * i)).take 4)
def ringMembers (f : FmtA) (s : State) (p : Party) : List (Nat × Nat) :=
  (List.range (ringCount f s p)).map fun i => let e := ringEntry (ringBytes f s p) i; (bits e 0 10, bits e 16 6)
/-- Reserved bits zero, members distinct, this one among them. -/
def ringListOk (f : FmtA) (s : State) (p : Party) : Bool :=
  let l := ringMembers f s p
  (List.range (ringCount f s p)).all (fun i => let e := ringEntry (ringBytes f s p) i; bits e 10 6 = 0 && bits e 22 10 = 0)
    && l.eraseDups.length = l.length && l.contains (s.identity, ctxNo s p)
def ringPos (f : FmtA) (s : State) (p : Party) : Nat :=
  (indexWhere (fun m : Nat × Nat => m = (s.identity, ctxNo s p)) (ringMembers f s p)).getD 0
/-- The list that the word names in `s0` is read: its atoms are corrected and counted (R398). -/
def listRead (f : FmtA) (s0 s : State) (p : Party) : State :=
  readAtoms s (objPlaces s0 (kSlot (rdTok s0 p f.a)) (barAt f s0 p) (4 * ringCount f s0 p))
def freeRing (s : State) (p : Party) : Option Nat :=
  ((List.range 32).map (ringKey (dieNo p) (ctxNo s p))).find? fun k => !(ringOf s k).used

/-- CRC-32C over the list, n and the epoch. -/
def ringDigest (f : FmtA) (s : State) (p : Party) : Nat :=
  crc32c (ringBytes f s p ++ leBytes 4 (ringCount f s p) ++ leBytes 4 (ringArg f s p).toNat)

def ringFail (f : FmtA) (reason : Nat) (fl : BitVec 8) (sg : List Nat) (s : State) : Act :=
  .done (putScal 1 f.d false (BitVec.ofNat 64 (2 ^ 63 + reason), fl) sg s)

def ringfAct (f : FmtA) (sg : List Nat) (s : State) : Act :=
  let p := s.cur
  let n := ringCount f s p
  let k := rdTok s p f.a
  let off := (rdScal s p f.b).toNat
  if n = 0 then
    .done (putScal 1 f.d false (0, 0) sg
      (match namedRing s p (ringArg f s p) with | some key => { s with rings := tdel s.rings key } | none => s))
  else if !ringLegalN n then ringFail f 1 0 sg s
  else
    let c := access s k off (4 * n) false
    if c.flag != 0 then ringFail f 2 c.flag sg (chkFail s p k c)
    else if !allCame s p k off (4 * n) then
      let fl := (taskOf s p).peerFlags
      ringFail f (if fl = 0 then 1 else 2) fl sg (dropPeer p s)
    else match objPoison s (kSlot k) (kBase k + off) (4 * n) with
      | some pl => ringFail f 1 0 sg (poisonMet (listRead f s s p) p (kSlot k) (kBase k + off) pl)
      | none =>
        if !ringListOk f s p then ringFail f 1 0 sg (dropPeer p (listRead f s s p))
        else match freeRing s p with
          | none => ringFail f 4 0 sg (dropPeer p (listRead f s s p))
          | some key =>
            let l := ringMembers f s p
            let t := taskOf s p
            let r : Ring := ⟨true, false, false, l, ringPos f s p, 0, 0, 0, 0⟩
            let w := Wait.ring f key n (ringPos f s p) (predOf r) (succOf r) (ringDigest f s p)
              ((ringArg f s p).toNat % 2 ^ 32) none none s.clock t.ctimeo.toNat
            .hold fun t => { t with wait := w, peerBuf := [], peerAsk := [] }

/-! ## Hellos -/

def helloDigest (m : Msg) : Nat := leNat (m.data.take 4)
def helloSlot (m : Msg) : Nat := (m.data.getD 4 0).toNat % 128

/-- A hello to a neighbour: the digest, and this member's slot with its die (R449; log 27). -/
def sendHello (s : State) (key digest : Nat) (peer : Nat × Nat) : State :=
  (sendMsg s ⟨9, ringKeyCtx key % 64, peer.1, 0, 0, 0, leBytes 4 digest ++ leBytes 1 (ringKeyDie key * 32 + key % 32)⟩).1

/-- A hello from a neighbour whose hello a waiting `ringf` still lacks. -/
def lacks (m : Msg) : Wait → Bool
  | .ring _ _ _ _ l r _ _ gl gr _ _ => (l = (m.src, m.sctx) && gl.isNone) || (r = (m.src, m.sctx) && gr.isNone)
  | _ => false
def sameDigest (m : Msg) : Wait → Bool
  | .ring _ _ _ _ _ _ d _ _ _ _ _ => d = helloDigest m
  | _ => false

/-- The wait with a neighbour's hello judged. -/
def judgeHello (m : Msg) (ok : Bool) (clock : Nat) : Wait → Wait
  | .ring f key n r l rr d e gl gr since lim =>
    .ring f key n r l rr d e (if l = (m.src, m.sctx) && gl.isNone then some ok else gl)
      (if rr = (m.src, m.sctx) && gr.isNone then some ok else gr) (if ok then clock else since) lim
  | w => w

/-- The neighbour's slot is kept with the ring. -/
def noteSlots (s : State) (m : Msg) : Wait → State
  | .ring _ key _ _ l r _ _ _ _ _ _ => mapRing s key fun x => { x with
      predSlot := if l = (m.src, m.sctx) then helloSlot m else x.predSlot
      succSlot := if r = (m.src, m.sctx) then helloSlot m else x.succSlot }
  | _ => s

/-- A hello that matches a task's waiting word is taken. -/
def matchHello (s : State) (key : Nat) (m : Msg) : State :=
  let t := tget Task.fresh s.tasks key
  let s1 := noteSlots s m t.wait
  { s1 with tasks := tput s1.tasks key { t with wait := judgeHello m true s.clock t.wait } }
/-- One with another digest fails a waiting word that lacks it, and stays held. -/
def clashHello (s : State) (key : Nat) (m : Msg) : State :=
  let t := tget Task.fresh s.tasks key
  { s with tasks := tput s.tasks key { t with wait := judgeHello m false s.clock t.wait } }

def meetHello (s : State) (m : Msg) : State :=
  match s.tasks.find? fun e => lacks m e.2.wait && sameDigest m e.2.wait with
  | some e => matchHello s e.1 m
  | none =>
    let s1 := { s with hellos := s.hellos ++ [⟨m, s.clock⟩] }
    match s.tasks.find? fun e => lacks m e.2.wait with
    | some e => clashHello s1 e.1 m
    | none => s1

/-- RING_HELLO: the next hello. -/
def execRingHello (s : State) : Host.Outcome State Fault Refusal :=
  .next (match takeMsg s 9 with | some (m, s1) => meetHello s1 m | none => s)

/-- HELLO_HOLD_EXPIRY: hello `i` has been held for 2^24 clocks. -/
def execHelloHoldExpiry (i : Nat) (s : State) : Host.Outcome State Fault Refusal :=
  .next (match s.hellos[i]? with
    | some h => if h.since + 2 ^ 24 ≤ s.clock then { s with hellos := dropAt s.hellos i } else s
    | none => s)

/-- Held hellos are met as the word begins to wait: the matching ones first. -/
def meetHeld (s : State) (p : Party) : State :=
  let key := partyKey p
  let s1 := s.hellos.foldl (fun s h =>
    let w := (tget Task.fresh s.tasks key).wait
    if lacks h.msg w && sameDigest h.msg w then { matchHello s key h.msg with hellos := s.hellos.filter (· != h) } else s) s
  s1.hellos.foldl (fun s h => if lacks h.msg (tget Task.fresh s.tasks key).wait then clashHello s key h.msg else s) s1

/-- A slot's new ring: no message that waits is for it. -/
def newRing (s : State) (key : Nat) (r : Ring) : State :=
  let s1 := mapRing s key fun _ => r
  { s1 with early := s1.early.filter fun m => (ringFor s1 m).map (·.1) != some key }

/-- As the word begins to wait, its ring slot is taken and the hellos are sent. -/
def beginRing (f : FmtA) (s0 s1 : State) (p : Party) : State :=
  match (taskOf s0 p).wait, (taskOf s1 p).wait with
  | .none, .ring _ key _ r l rr d e _ _ _ _ =>
    let s2 := newRing (listRead f s0 s1 p) key ⟨true, false, false, ringMembers f s0 p, r, e, 0, 0, 0⟩
    let s3 := sendHello s2 key d rr
    meetHeld (if l = rr then s3 else sendHello s3 key d l) p
  | _, _ => s1

/-- The word ends: the ring is FORMED, or its slot is free again. -/
def endRingf (s : State) (p : Party) (f : FmtA) (key reason : Nat) : State :=
  let w := (encodeWord (.ringf f)).getD 0
  if reason = 0 then
    finishWord (mapRing s key fun r => { r with formed := true }) p w f.tk
      fun sg s => .done (putScal 1 f.d false (ringHandle key (ringOf s key), 0) sg s)
  else finishWord { s with rings := tdel s.rings key } p w f.tk (ringFail f reason 0)

def execRingf (f : FmtA) (s : State) : Host.Outcome State Fault Refusal :=
  let p := s.cur
  match (taskOf s p).wait with
  | .ring g key _ _ _ _ _ _ gl gr _ _ =>
    .next (if gl = some false || gr = some false then endRingf s p g key 5
      else if gl = some true && gr = some true then endRingf s p g key 0
      else s)
  | _ => .next (beginRing f s (issueWord ((encodeWord (.ringf f)).getD 0) (planRingf f) (ringfAct f) s) p)

/-- RING_FORMATION_TIMEOUT (R442, R449): both hellos have not come in time. -/
def execRingFormationTimeout (p : Party) (s : State) : Host.Outcome State Fault Refusal :=
  .next (match (taskOf s p).wait with
    | .ring f key _ _ _ _ _ _ gl gr since lim =>
      if lim != 0 && decide (since + 1024 * lim ≤ s.clock) && !(gl = some true && gr = some true) then
        endRingf { s with cur := p } p f key 3
      else s
    | _ => s)

end Sys2Proof.Machine
end

