-- ==== Sys2Proof/Machine/Context.lean ====
section
/-! DEFINITION. Contexts: creation, teardown, and the switch (spec 16, R375-R378; spec 13, R322, R331, R333; spec 21, R443); a core
that faults (spec 11, R275). -/

namespace Sys2Proof.Machine

/-! ## Parts given up -/

/-- Collectives of a context that are still pending end with status 5, and aborts go out (R443). -/
def endColls (s : State) (sel : Coll → Bool) : State :=
  s.colls.foldl (fun s c => match s.colls.find? (sameColl c) with
    | some d => if sel d && !d.ended then endColl s d 5 0 s.identity else s
    | none => s) s

/-- The counts that a stream's records hold on their slots are given back, and its leave. -/
def dropStream (s : State) (core : Nat) (e : Engine) : State :=
  let x := theStream s core e
  let s1 := ((x.prog ++ x.active).flatMap (·.slots)).foldl (fun s n => inflt s n false) s
  leaveOver (mapStream s1 core e fun _ => Stream.fresh) (.engine core e)

/-- A party's window emptied, with what it held. -/
def dropParty (s : State) (p : Party) : State :=
  let s1 := leaveOver (dropCounts s p) p
  freeSlot { s1 with saved := tdel s1.saved (partyKey p) } p

/-! ## Creation (R298, R322, R333, R369, R375) -/

/-- The bytes of a stream that management loads. -/
def streamBytes (s : State) (k : KReg) (off : Nat) : List Byte := (rdExtent s k 0 (kLen k)).drop off
/-- The management firmware loads a die's supervisor stream (R297, R374, R426 step 7): the roots and the two queues of that supervisor, which has no
save area and no timeline; the die's ring token and trap entry word; the Root Kernel measures the stream; and it starts. DESIGN CHOICE (log 29): a
second load restarts the stream. -/
def loadSupervisor (c : CtxParams) (s : State) : State :=
  let p : Party := .super c.die
  let n := superCtx c.die
  let k := kClean s ⟨c.bufTok, true⟩
  let s1 := mapCtx s n fun _ => ⟨true, { c with saveBase := 0, saveLen := 0, timeline := 0, dbg := 0 }, c.pages, 0, 0, [], []⟩
  let s2 := mapDie s1 c.die fun d => { d with ringTok := kClean s ⟨c.ringTok, true⟩, superEntry := c.entry }
  let s3 := { s2 with runNo := s2.runNo + 1, trust := { s2.trust with log := s2.trust.log ++ [(3, Config.sha384 (streamBytes s k c.bufOff))] } }
  putTask s3 p (startedStream { Task.fresh with run := s3.runNo } n k c.bufOff)

/-- CONTEXT_CREATE: the roots, queues, timeline, save area and token pages are taken; the save area gets its slot; and the command stream starts, on a
module whose bring-up is complete (R426). A context that lives, or a save area that is not memory or for which no slot is free, is not created (R393;
log 29). With number 0xFFF it is the load of a supervisor stream. -/
def execContextCreate (c : CtxParams) (s : State) : Host.Outcome State Fault Refusal :=
  let p : Party := .stream c.die c.ctx
  let base := c.saveBase / 65536 * 65536
  let n := (c.saveBase % 65536 + c.saveLen + 65535) / 65536
  .next (if c.ctx = 0xFFF && decide (c.die < 4) then loadSupervisor c s
  else if 64 ≤ c.ctx || 4 ≤ c.die || (ctxOf s c.ctx).live || s.bringup != 0xFF then s
  else if !(List.range n).all fun i => nearOk (base + 65536 * i) then s
  else match makeSlot s p c.ctx .near 0 c.saveBase c.saveLen 0xC ((List.range n).map fun i => (base + 65536 * i, true, 0, 0, base + 65536 * i, 0)) with
    | .done s1 k =>
      let s2 := mapCtx s1 c.ctx fun _ =>
        ⟨true, c, (c.saveBase, c.saveLen) :: c.pages, 0, kSlot k, [], []⟩
      putTask { s2 with runNo := s2.runNo + 1 } p (startedStream { Task.fresh with run := s2.runNo + 1 } c.ctx (kClean s2 ⟨c.bufTok, true⟩) c.bufOff)
    | _ => s)

/-- TOKEN_PAGE_REGISTER (R333): a range of user pages; beyond 64 MiB it is refused. -/
def execTokenPageRegister (ctx base len : Nat) (s : State) : Host.Outcome State Fault Refusal :=
  let c := ctxOf s ctx
  .next (if c.live && decide (c.userPages + len ≤ 2 ^ 26) then
    mapCtx s ctx fun c => { c with pages := c.pages ++ [(base, len)], userPages := c.userPages + len }
  else s)

/-! ## Teardown (R331, R443) -/

/-- The task slots, streams and engine streams of a context. -/
def ctxParties (s : State) (ctx : Nat) : List Party :=
  ((List.range 512).flatMap slotParties).filter fun p => (taskOf s p).status != .idle && (taskOf s p).ctx = ctx
def ctxStreams (s : State) (ctx : Nat) : List (Nat × Engine) :=
  ((s.cores.map (·.1)).flatMap fun c => engines.map fun e => (c, e)).filter fun x =>
    let y := theStream s x.1 x.2
    y.ctx = ctx && y.launch.isSome
def liveSlots (s : State) (ctx : Nat) : List Nat := (s.slots.filter fun e => e.2.state = .live && e.2.ctx = ctx).map (·.1)

/-- A launch slot emptied; its generation stays. -/
def emptyLaunch (e : Launch) : Launch := { Launch.fresh with gen := e.gen }

/-- Every launch of a context on every die ends without a record, and its cores are freed. -/
def dropLaunches (s : State) (ctx : Nat) : State :=
  (s.dies.flatMap fun d => (d.2.launches.filter fun l => l.2.ctx = ctx && l.2.state != .free).map fun l => (d.1, l.1)).foldl
    (fun s x => mapLaunch (freeCores s x.1 x.2) x.1 x.2 emptyLaunch) s

/-- A core that the context owned has no owner: its ring is as before its first launch (R151), and what it holds is cleared before another context
has it (R340). -/
def disown (c : Core) (ctx : Nat) : Core := if c.owner = ctx then clearOwner c 0xFFF else c

/-- CONTEXT_TEARDOWN: its collectives end, its work stops, every live slot of it is revoked, and its frames and cores have no owner. -/
def execContextTeardown (ctx : Nat) (s : State) : Host.Outcome State Fault Refusal :=
  .next (if !(ctxOf s ctx).live || 64 ≤ ctx then s
  else
    let s1 := endColls s fun c => c.ctx = ctx
    let s2 := (ctxParties s1 ctx ++ (List.range 4).map (Party.stream · ctx)).foldl dropParty s1
    let s3 := (ctxStreams s2 ctx).foldl (fun s x => dropStream s x.1 x.2) s2
    let s4 := dropLaunches s3 ctx
    let s5 := (List.range 4).foldl (fun s d => cancelTier s d fun r => r.ctx = ctx) s4
    let s6 := { s5 with
      groups := s5.groups.filter fun g => g.2.ctx != ctx, rings := s5.rings.filter fun r => ringKeyCtx r.1 != ctx
      colls := s5.colls.filter fun c => c.ctx != ctx, shelf := s5.shelf.filter fun x => x.1 != ctx
      coreShelf := s5.coreShelf.filter fun x => x.1 != ctx
      dies := s5.dies.map fun d => (d.1, { d.2 with frames := d.2.frames.filter fun f => f.ctx != ctx }) }
    let s7 := (liveSlots s6 ctx).foldl revoke s6
    let s8 := { s7 with owners := s7.owners.filter fun o => o.2 != ctx + 1, cores := s7.cores.map fun k => (k.1, disown k.2 ctx) }
    mapCtx s8 ctx fun _ => Ctx.fresh)

/-! ## The cut (R376, R377) -/

/-- The cores of a die bound to a context. -/
def ctxCores (s : State) (die ctx : Nat) : List Nat :=
  (s.cores.map (·.1)).filter fun c => c / 128 = die && boundTo s ctx c

/-- A word that has begun to seal or revoke is let finish; every other frozen word has not issued. -/
def cuttable : Wait → Bool
  | .seal _ _ => false
  | .revoke _ _ _ => false
  | _ => true

/-- A running task stops at its word boundary; a release that its word has taken stays (R353). -/
def cutTask (s : State) (p : Party) : State :=
  let t := taskOf s p
  if t.status = .run && cuttable t.wait then
    leaveOver (dropWait (mapTask s p fun t =>
      { t with status := .cut, wait := if latched t.wait then t.wait else .none, pinMiss := none, leaveAsked := false, leaveGot := false }) p t.wait) p
  else s

/-- Streams halt at synchronisation records from now on, and tasks stop. -/
def beginCut (s : State) (ctx : Nat) (cores : List Nat) : State :=
  let s1 := cores.foldl (fun s c => cutStreams s c (engines.filter fun e => (theStream s c e).ctx = ctx)) s
  (cores.flatMap slotParties).foldl cutTask s1

/-- A stopped task has no access outstanding. -/
def taskStill (s : State) (p : Party) : Bool :=
  let t := taskOf s p
  t.status != .run && t.peerAsk.isEmpty && t.asyncs.isEmpty && t.stores.isEmpty && t.flights.all fun f => f.need.isEmpty

def cutReady (s : State) (cores : List Nat) : Bool :=
  (cores.flatMap slotParties).all (taskStill s) && cores.all fun c => engines.all (streamQuiet s c)

/-- Pending exchanges performed against their tiles as they stand. -/
def flushExchs (s : State) (p : Party) : State := (taskOf s p).exchs.foldl (fun s e => exchDone s p e) s

/-- A task window and its trapped task go to the shelf, a swept slot's tokens without their tags (R334). -/
def shelveTask (ctx : Nat) (s : State) (p : Party) : State :=
  let t := clearTask s.sweepSet { taskOf s p with leaveAsked := false, leaveGot := false }
  let key := partyKey p
  let s1 := if t.status = .idle then s else freeSlot (leaveOver { s with shelf := s.shelf ++ [(ctx, key, t)] } p) p
  match s1.saved.find? fun e => e.1 = key with
  | some e => { s1 with shelf := s1.shelf ++ [(ctx, key + 4096, clearTask s1.sweepSet e.2)], saved := tdel s1.saved key }
  | none => s1

/-- A stream as it is saved: its leave is given back. -/
def savedStream (x : Stream) : Stream := { x with cut := false, cutHalt := false, leaveAsked := false, leaveGot := false }

/-- A core's contents go to the shelf, and its seals with them (R337); the counters of errors, of conflicts and of leave waits are the core's own
and stay (R144, R171, R172). -/
def shelveCore (ctx : Nat) (s0 : State) (core : Nat) : State :=
  let s := engines.foldl (fun s e => leaveOver s (.engine core e)) s0
  let k0 := coreOf s core
  let k := { k0 with copyS := savedStream k0.copyS, matrixS := savedStream k0.matrixS, epiS := savedStream k0.epiS }
  putCore { s with
    coreShelf := s.coreShelf ++ [(ctx, core, k)]
    sealRuns := s.sealRuns.map fun r => if r.1 = .hall && r.2.1 / 2 ^ 20 = core then (r.1, r.2.1 + 2 ^ 40, r.2.2) else r } core
    { Core.fresh with dead := k.dead, corrected := k.corrected, conflict := k.conflict, leaveWait := k.leaveWait, rot := k.rot }

/-- The launches of a context on a die, changed. -/
def mapCtxLaunches (s : State) (die ctx : Nat) (f : Launch → Launch) : State :=
  mapDie s die fun d => { d with launches := d.launches.map fun l => if l.2.ctx = ctx && l.2.state != .free then (l.1, f l.2) else l }

/-- Resident records leave their cluster's area (to no cluster's). -/
def offCluster (c : Cont) : Cont := { c with cluster := c.cluster + 1000 }

/-- CONTEXT_SWITCH_CUT: the context leaves the die's cores, once its streams have come to their halting points and its accesses have ended. -/
def execContextSwitchCut (die ctx : Nat) (s : State) : Host.Outcome State Fault Refusal :=
  let cores := ctxCores s die ctx
  let s1 := beginCut s ctx cores
  .next (if !(ctxOf s ctx).live || (ctxOf s ctx).off.contains die || 4 ≤ die then s
  else if !cutReady s1 cores then s1
  else
    let s2 := (cores.flatMap slotParties).foldl flushExchs s1
    let s3 := cancelTier s2 die fun r => r.ctx = ctx
    let s4 := endColls s3 fun c => c.ctx = ctx && c.die = die
    let s5 := (s4.rings.filter fun r => ringKeyCtx r.1 = ctx && ringKeyDie r.1 = die).foldl (fun s r => breakRing s r.1) s4
    let s6 := (cores.flatMap slotParties).foldl (shelveTask ctx) s5
    let s7 := mapCtxLaunches s6 die ctx fun e => { e with switched := true, conts := e.conts.map offCluster }
    let s8 := cores.foldl (shelveCore ctx) s7
    mapCtx s8 ctx fun c => { c with off := c.off ++ [die] })

/-! ## The restore (R378) -/

def moved (move : List (Nat × Nat)) (core : Nat) : Nat := ((move.find? fun m => m.1 = core).map (·.2)).getD core
def movedCluster (move : List (Nat × Nat)) (cl : Nat) : Nat :=
  ((move.find? fun m => clusterOf m.1 = cl).map fun m => clusterOf m.2).getD cl
def movedKey (move : List (Nat × Nat)) (key : Nat) : Nat := queueKey (movedCluster move (key / 8)) (key % 8)
def movedHall (move : List (Nat × Nat)) (a : Nat) : Nat := moved move (a / 2 ^ 20) * 2 ^ 20 + a % 2 ^ 20
def movedParty (move : List (Nat × Nat)) : Party → Party
  | .slot c n => .slot (moved move c) n
  | .engine c e => .engine (moved move c) e
  | p => p

/-- The pin-frame words of a context's hall-space slots name the cores now bound. -/
def moveWords (s : State) (ctx : Nat) (move : List (Nat × Nat)) : State :=
  s.slots.foldl (fun s e =>
    if e.2.ctx = ctx && e.2.space = .hall && e.2.state != .free then
      (List.range (e.2.nwords + 1)).foldl (fun s i => mapWord s (e.2.first + i) fun w =>
        { w with frameA := moved move (w.frameA / 16) * 16 + w.frameA % 16 }) s
    else s) s

/-- A record's BAR and cluster; a request group (bit 63) is left as it is. -/
def moveCont (move : List (Nat × Nat)) (c : Cont) : Cont :=
  { c with cluster := movedCluster move (c.cluster - 1000), bar := if c.bar = 0 || 2 ^ 63 ≤ c.bar then c.bar else movedHall move c.bar }
def moveLaunch (move : List (Nat × Nat)) (e : Launch) : Launch :=
  { e with
    switched := false
    conts := e.conts.map (moveCont move)
    queues := e.queues.foldl (fun t q => tput t (movedKey move q.1) q.2) []
    overflow := e.overflow.map fun o => (movedKey move o.1, o.2)
    ovfWait := e.ovfWait.map (movedCluster move)
    heldDone := e.heldDone.map fun h => (moved move h.1, h.2) }

/-- Spilled records are rewritten where they lie. -/
def rewriteSpill (s : State) (die ctx : Nat) : State :=
  ((dieOf s die).launches.filter fun l => l.2.ctx = ctx).foldl (fun s l =>
    (l.2.conts.filter (·.spilled)).foldl (fun s c =>
      if spillOk s l.2.cspill c.off (64 * contUnits c) true then writeCont s (.stream die ctx) l.2.cspill c else s) s) s

def restoreCore (move : List (Nat × Nat)) (s : State) (x : Nat × Nat × Core) : State :=
  let core := moved move x.2.1
  let here := coreOf s core
  putCore s core { x.2.2 with
    dead := here.dead, corrected := here.corrected, conflict := here.conflict, leaveWait := here.leaveWait, rot := here.rot }

def restoreTask (move : List (Nat × Nat)) (s : State) (x : Nat × Nat × Task) : State :=
  let key := 4 * moved move (x.2.1 % 4096 / 4) + x.2.1 % 4
  let t := { x.2.2 with status := if x.2.2.status = .cut then .run else x.2.2.status }
  if 4096 ≤ x.2.1 then { s with saved := tput s.saved key t }
  else
    let s1 := { s with tasks := tput s.tasks key t }
    match latchedSlot t.wait with
    | some n => inflt s1 n true
    | none => s1
/-- What can be done only where the task stands again: its loop buffer is refilled (R76). -/
def refillTask (s : State) (p : Party) : State :=
  if (taskOf s p).loops.isEmpty then s else mapTask s p (refillLoops s p)

/-- A core that may take a restored one: of the die, free, and without a fault. -/
def coreTakes (s : State) (die core : Nat) : Bool :=
  core / 128 = die && (coreOf s core).bound.isNone && !(coreOf s core).dead && (slotParties core).all fun p => (taskOf s p).status = .idle

/-- The mapping covers the context's cores on the die, one to one. -/
def moveOk (s : State) (die ctx : Nat) (move : List (Nat × Nat)) : Bool :=
  let olds := (s.coreShelf.filter fun x => x.1 = ctx && x.2.1 / 128 = die).map (·.2.1)
  olds.all (fun c => move.any fun m => m.1 = c) && move.all (fun m => olds.contains m.1 && coreTakes s die m.2)
    && (move.map (·.1)).eraseDups.length = move.length && (move.map (·.2)).eraseDups.length = move.length

/-- CONTEXT_RESTORE: every item saved returns to its place on the cores now bound, and hall addresses that the device holds are rewritten. -/
def execContextRestore (die ctx : Nat) (move : List (Nat × Nat)) (s : State) : Host.Outcome State Fault Refusal :=
  let mineT (x : Nat × Nat × Task) : Bool := x.1 = ctx && x.2.1 % 4096 / 512 = die
  let mineC (x : Nat × Nat × Core) : Bool := x.1 = ctx && x.2.1 / 128 = die
  .next (if !(ctxOf s ctx).off.contains die || !moveOk s die ctx move then s
  else
    let s1 := (s.coreShelf.filter mineC).foldl (restoreCore move) s
    let s2 := (s.shelf.filter mineT).foldl (restoreTask move) s1
    let s3 := { s2 with
      shelf := s.shelf.filter fun x => !mineT x, coreShelf := s.coreShelf.filter fun x => !mineC x
      sealRuns := s2.sealRuns.map fun r =>
        if r.1 = .hall && decide (2 ^ 40 ≤ r.2.1) && move.any (fun m => m.1 = (r.2.1 - 2 ^ 40) / 2 ^ 20) then
          (r.1, movedHall move (r.2.1 - 2 ^ 40), r.2.2) else r
      groups := s2.groups.map fun g => (g.1, if g.2.ctx = ctx && g.2.die = die then { g.2 with party := movedParty move g.2.party } else g.2) }
    let s4 := mapDie s3 die fun d => { d with frames := d.frames.map fun f => if f.ctx = ctx then { f with party := movedParty move f.party } else f }
    let s5 := moveWords s4 ctx move
    let s6 := rewriteSpill (mapCtxLaunches s5 die ctx (moveLaunch move)) die ctx
    let s7 := (move.flatMap fun m => slotParties m.2).foldl refillTask s6
    let s8 := (((dieOf s7 die).launches.filter fun l => l.2.ctx = ctx).map (·.1)).foldl (fun s l => resumeHeld s die l) s7
    readReplies (mapCtx s8 ctx fun c => { c with off := c.off.filter (· != die) }) ctx)

/-! ## A core that faults (R275) -/

/-- CORE_FAULT: its running tasks are reported failed by point and the core leaves its stage. -/
def execCoreFault (core : Nat) (s : State) : Host.Outcome State Fault Refusal :=
  let k := coreOf s core
  .next (if 512 ≤ core || k.dead then s
  else
    let s1 := ((slotParties core).filter fun p => (taskOf s p).status != .idle).foldl (fun s p => dropParty (failTaskPoint s p) p) s
    let s2 := engines.foldl (fun s e => dropStream s core e) s1
    let s3 := mapCore s2 core fun c => { c with dead := true, stage := none, moving := none }
    match k.bound with
    | some (d, l) => if k.stage.isSome then usherItem s3 (launchOf s3 d l).ctx 8 (core * 4) 0 else s3
    | none => s3)

end Sys2Proof.Machine
end

