-- ==== Sys2Proof/Machine/Expand.lean ====
section
/-! DEFINITION. Expansion and order registers and the series instructions (spec 09, R235-R251). -/

namespace Sys2Proof.Machine

/-! ## The helpers (R239, R240): a complex value, and the flags raised so far -/

structure Cx where
  re : Word
  im : Word
  deriving DecidableEq, Repr, Inhabited

/-- A value with the flags its forming raised. -/
abbrev Fg (α : Type) := α × BitVec 8

def cZero : Cx := ⟨0, 0⟩
def cOne : Cx := ⟨0x3FF0000000000000, 0⟩
def nan64 : Word := 0x7FF8000000000000
def cNan : Cx := ⟨nan64, nan64⟩

/-- A component rounded once (R239): zero is +0, an undefined one is the canonical NaN with IV. -/
def comp (f : Fl) : Fg Word :=
  match f with
  | .nan _ => (nan64, fIV)
  | .fin _ 0 _ _ => (0, 0)
  | _ => let r := flRound tyF64 ⟨0, 0⟩ 0 f; (BitVec.ofNat 64 r.1, r.2)

def mkCx (a b : Fl) : Fg Cx := (⟨(comp a).1, (comp b).1⟩, (comp a).2 ||| (comp b).2)

def xAdd (a b : Fl) : Fl := (flAdd false a b).1
def xMul (a b : Fl) : Fl := (flMul a b).1

def cadd (a b : Cx) : Fg Cx := mkCx (xAdd (f64 a.re) (f64 b.re)) (xAdd (f64 a.im) (f64 b.im))
def csub (a b : Cx) : Fg Cx := mkCx (xAdd (f64 a.re) (f64 b.re).neg) (xAdd (f64 a.im) (f64 b.im).neg)
def cmulRe (a b : Cx) : Fl := xAdd (xMul (f64 a.re) (f64 b.re)) (xMul (f64 a.im) (f64 b.im)).neg
def cmulIm (a b : Cx) : Fl := xAdd (xMul (f64 a.re) (f64 b.im)) (xMul (f64 a.im) (f64 b.re))
def cmul (a b : Cx) : Fg Cx := mkCx (cmulRe a b) (cmulIm a b)
def cfma (a b c : Cx) : Fg Cx := mkCx (xAdd (cmulRe a b) (f64 c.re)) (xAdd (cmulIm a b) (f64 c.im))
def cscale (n : Int) (a : Cx) : Fg Cx := mkCx (xMul (flOfInt n) (f64 a.re)) (xMul (flOfInt n) (f64 a.im))

def isInf : Fl → Bool
  | .inf _ => true
  | _ => false
def isZero : Fl → Bool
  | .fin _ n _ _ => n = 0
  | _ => false

def crcp (a : Cx) : Fg Cx :=
  let x := f64 a.re
  let y := f64 a.im
  if x.isNan || y.isNan then (cNan, fIV)
  else if isInf x || isInf y then (cZero, 0)
  else if isZero x && isZero y then (⟨0x7FF0000000000000, 0⟩, fDZ)
  else
    let d := xAdd (xMul x x) (xMul y y)
    mkCx (flDiv x d).1 (flDiv y.neg d).1

/-- Binomial coefficients by Pascal's rule. -/
def pascal : List Nat → List Nat
  | a :: b :: r => (a + b) :: pascal (b :: r)
  | l => l
def binRow : Nat → List Nat
  | 0 => [1]
  | n + 1 => 1 :: pascal (binRow n)
def bin (n k : Nat) : Nat := (binRow n).getD k 0

/-- Flags carried through a sequence of helpers. -/
def thenF {α β : Type} (a : Fg α) (f : α → Fg β) : Fg β := let b := f a.1; (b.1, a.2 ||| b.2)

/-! ## Registers (R235-R237) -/

def sP (q : Series) : Nat := (q.extractLsb' 4288 8).toNat
def sKind (q : Series) : Nat := (q.extractLsb' 4296 8).toNat
def sRadius (q : Series) : Word := q.extractLsb' 4224 64
def sCentre (q : Series) : Cx := ⟨q.extractLsb' 4096 64, q.extractLsb' 4160 64⟩
def sCoef (q : Series) (k : Nat) : Cx := ⟨q.extractLsb' (128 * k) 64, q.extractLsb' (128 * k + 64) 64⟩

/-- Coefficients k < n replaced. -/
def withCoefs (q : Series) (l : List Cx) : Series :=
  let n := l.length
  BitVec.ofNat 4352 (joinW 64 (l.flatMap fun c => [c.re.toNat, c.im.toNat]) + (q.toNat >>> (128 * n)) <<< (128 * n))
def withKind (q : Series) (k : Nat) : Series :=
  BitVec.ofNat 4352 (q.toNat - sKind q * 2 ^ 4296 + k % 256 * 2 ^ 4296)

/-- A register's kind as it is judged (R243). -/
def kindOf (q : Series) : Nat := if sP q = 0 then 0 else sKind q

/-- The coefficients k < P of a register. -/
def coefs (q : Series) : List Cx := (List.range (sP q)).map (sCoef q)

/-- A breach of R243: D's coefficients become NaN, its kind the one of the table. -/
def breach (d : Series) (after : Nat) : Fg Series := (withKind (withCoefs d (List.replicate (sP d) cNan)) after, fIV)

/-- An order register is valid (R236). -/
def ordP (o : Word) : Nat := (o.extractLsb' 0 6).toNat
def ordTheta (o : Word) : Fl := flDecode tyF32 (o.extractLsb' 32 32).toNat
def inUnit (f : Fl) : Bool :=
  match f with
  | .fin false n _ _ => n != 0 && !flLt (.fin false 1 1 0) f
  | _ => false
def ordValid (o : Word) : Bool :=
  decide (1 ≤ ordP o) && decide (ordP o ≤ 32) && o.extractLsb' 8 8 = 1 && inUnit (ordTheta o) && o.extractLsb' 16 16 = 0
    && o.extractLsb' 6 2 = 0

/-! ## Complex operands (R238) -/

/-- The scalar's 64 bits as f64. -/
def rd64 (s : State) (p : Party) (sp : SpecBits) : Word :=
  if clsOf sp = .c then BitVec.ofNat 64 (constPattern tyF64 sp) else rdScal s p sp
def rdCx (s : State) (p : Party) (sp : SpecBits) : Cx :=
  if clsOf sp = .c then ⟨rd64 s p sp, 0⟩ else ⟨rdScal s p sp, rdScal s p (sp + 1)⟩
/-- 32 complex elements. -/
def rdCv (s : State) (p : Party) (sp : SpecBits) : List Cx :=
  if cVec.contains (clsOf sp) then
    let l := splitW 64 64 (rdVec s p sp).data.toNat
    (List.range 32).map fun t => ⟨BitVec.ofNat 64 (l.getD (2 * t) 0), BitVec.ofNat 64 (l.getD (2 * t + 1) 0)⟩
  else List.replicate 32 (rdCx s p sp)

/-- The reads of a complex operand: both registers of a scalar, a vector tagged f64. -/
def cxReads (field : Nat) (sp : SpecBits) : List Rd :=
  { field := field, spec := sp, tag := some tyF64 }
    :: if clsOf sp = .x then [{ field := field, spec := sp + 1, tag := none }] else []

/-! ## xord, xclr (R244, R245) -/

def xordBad (f : FmtA) (s : State) (p : Party) : Bool :=
  let a := (rdScal s p f.a).toNat
  decide (a < 1) || decide (32 < a) || !inUnit (sread s p tyF32 f.b 0).toFl || rdScal s p f.c != 1
def planXord (f : FmtA) (s : State) (p : Party) : Plan :=
  { tk := f.tk, ill := (5, xordBad f s p) :: illXord f, reads := readsA f, nres := 1 }
def xordVal (f : FmtA) (s : State) : Word :=
  let th := if clsOf f.b = .c then constPattern tyF32 f.b else (opB f s).toNat % 2 ^ 32
  BitVec.ofNat 64 (th * 2 ^ 32 + (opC f s).toNat % 256 * 256 + (opA f s).toNat % 64)
def xordAct (f : FmtA) (sg : List Nat) (s : State) : Act :=
  .done (addFlight s s.cur (mkFlight 1 false (destOf f.d) (.order (xordVal f s)) 0 false sg))
def execXord (f : FmtA) (s : State) : Host.Outcome State Fault Refusal := runWord (.xord f) (planXord f) (xordAct f) s

/-- A word that writes an expansion register whole. -/
def putSer (lat : Nat) (d : SpecBits) (r : Fg Series) (sg : List Nat) (s : State) : Act :=
  .done (addFlight s s.cur (mkFlight lat false (destOf d) (.series r.1) r.2 false sg))

def planXclr (f : FmtA) (s : State) (p : Party) : Plan :=
  { tk := f.tk, ill := (5, !ordValid (rdOrd s p f.c)) :: illXclr f
    reads := cxReads 1 f.a ++ [{ field := 2, spec := f.b }, { field := 3, spec := f.c }], nres := 1 }
/-- The radius as it is written. -/
def radius (w : Word) : Fg Word :=
  match f64 w with
  | .nan _ => (0x7FF0000000000000, fIV)
  | .inf false => (w, 0)
  | .inf true => (0x7FF0000000000000, fIV)
  | .fin n m _ _ => if m = 0 then (0, 0) else if n then (0x7FF0000000000000, fIV) else (w, 0)
def xclrVal (f : FmtA) (s : State) : Fg Series :=
  let c := rdCx s s.cur f.a
  let r := radius (rd64 s s.cur f.b)
  let o := rdOrd s s.cur f.c
  (BitVec.ofNat 4352 (c.re.toNat * 2 ^ 4096 + c.im.toNat * 2 ^ 4160 + r.1.toNat * 2 ^ 4224 + ordP o * 2 ^ 4288
    + (o.extractLsb' 8 8).toNat * 2 ^ 4304), r.2)
def execXclr (f : FmtA) (s : State) : Host.Outcome State Fault Refusal :=
  runWord (.xclr f) (planXclr f) (fun sg s => putSer 2 f.d (xclrVal f s) sg s) s

/-! ## xform (R246) -/

/-- One source added into the coefficients: term, then term times z, and so on. -/
def formSource (z : Cx) : List Cx → Fg Cx → Fg (List Cx)
  | [], t => ([], t.2)
  | c :: r, t =>
    let a := cadd c t.1
    let x := formSource z r (thenF (t.1, t.2 ||| a.2) fun v => cmul v z)
    (a.1 :: x.1, x.2)

def formAll (c : Cx) : List (Bool × Cx × Cx) → Fg (List Cx) → Fg (List Cx)
  | [], d => d
  | (lane, w, q) :: r, d =>
    if lane then
      let z := csub w c
      formAll c r (formSource z.1 d.1 (q, d.2 ||| z.2))
    else formAll c r d

def xformVal (f : FmtA) (s : State) : Fg Series :=
  let d := rdSer s s.cur f.d
  let lanes := lanesOf s s.cur f.p 32
  if kindOf d = 2 then breach d 1
  else
    let r := formAll (sCentre d) (lanes.zip ((rdCv s s.cur f.a).zip (rdCv s s.cur f.b))) (coefs d, 0)
    (withKind (withCoefs d r.1) 1, r.2)
def planXform (f : FmtA) (_ : State) (_ : Party) : Plan :=
  { tk := f.tk, ill := illXform f, reads := cxReads 1 f.a ++ cxReads 2 f.b ++ { field := 4, spec := f.d } :: maskRd f.p, nres := 1 }
def execXform (f : FmtA) (s : State) : Host.Outcome State Fault Refusal :=
  runWord (.xform f) (planXform f)
    (fun sg s => putSer (10 + sP (rdSer s s.cur f.d)) f.d (xformVal f s) sg s) s

/-! ## xm2m, xm2l, xl2l, xadd (R247, R248) -/

/-- The powers 1, h, h^2, ... of which `n` follow the first. -/
def powers (h : Cx) : Nat → Cx → Fg (List Cx)
  | 0, p => ([p], 0)
  | n + 1, p => let q := cmul p h; let r := powers h n q.1; (p :: r.1, q.2 ||| r.2)

/-- s := cfma(cscale(n, pw), coefficient, s) over a list of terms. -/
def sumTerms : List (Nat × Cx × Cx) → Fg Cx → Fg Cx
  | [], s => s
  | (n, pw, a) :: r, s =>
    let c := cscale n pw
    let v := cfma c.1 a s.1
    sumTerms r (v.1, s.2 ||| c.2 ||| v.2)

/-- D's coefficients each with its sum added. -/
def addSums (d : List Cx) (sums : List (Fg Cx)) : Fg (List Cx) :=
  let l := (d.zip sums).map fun e => thenF e.2 fun v => cadd e.1 v
  (l.map (·.1), l.foldl (fun f e => f ||| e.2) 0)

/-- `xm2m` (also `xl2l` with its own terms): `terms k` lists the terms of coefficient k. -/
def shiftWith (d : Series) (pw : Fg (List Cx)) (hf : BitVec 8) (terms : List Cx → Nat → List (Nat × Cx × Cx))
    (post : Nat → Cx → Fg Cx) : Fg (List Cx) :=
  let sums := (List.range (sP d)).map fun k => thenF (sumTerms (terms pw.1 k) (cZero, 0)) (post k)
  let r := addSums (coefs d) sums
  (r.1, r.2 ||| pw.2 ||| hf)

def m2mTerms (a : Series) (pw : List Cx) (k : Nat) : List (Nat × Cx × Cx) :=
  (List.range (min (k + 1) (sP a))).map fun j => (bin k j, pw.getD (k - j) cZero, sCoef a j)
def m2lTerms (a : Series) (pw : List Cx) (l : Nat) : List (Nat × Cx × Cx) :=
  (List.range (sP a)).map fun k => (bin (k + l) l, pw.getD (k + l + 1) cZero, sCoef a k)
def l2lTerms (a : Series) (pw : List Cx) (l : Nat) : List (Nat × Cx × Cx) :=
  (List.range (sP a - l)).map fun m => (bin (m + l) l, pw.getD m cZero, sCoef a (m + l))

def same (_ : Nat) (c : Cx) : Fg Cx := (c, 0)
def alternate (l : Nat) (c : Cx) : Fg Cx := if l % 2 = 1 then cscale (-1) c else (c, 0)

def m2mVal (a d : Series) : Fg (List Cx) :=
  let h := csub (sCentre a) (sCentre d)
  shiftWith d (powers h.1 (sP d - 1) cOne) h.2 (m2mTerms a) same
def m2lVal (a d : Series) : Fg (List Cx) :=
  let u := thenF (csub (sCentre d) (sCentre a)) crcp
  shiftWith d (powers u.1 (sP a + sP d - 1) cOne) u.2 (m2lTerms a) alternate
def l2lVal (a d : Series) : Fg (List Cx) :=
  let h := csub (sCentre d) (sCentre a)
  shiftWith d (powers h.1 (sP a - 1) cOne) h.2 (l2lTerms a) same

/-- A shift with its kinds (R243): A's and D's must be empty or the ones named. -/
def shiftVal (ka kd : Nat) (g : Series → Series → Fg (List Cx)) (f : FmtA) (s : State) : Fg Series :=
  let a := rdSer s s.cur f.a
  let d := rdSer s s.cur f.d
  let ok := sP a = 0 || ((kindOf a = 0 || kindOf a = ka) && (kindOf d = 0 || kindOf d = kd))
  if ok then
    let r := g a d
    let d1 := withCoefs d r.1
    (if sP a = 0 then d1 else withKind d1 kd, r.2)
  else breach d kd

def planX2 (f : FmtA) (_ : State) (_ : Party) : Plan :=
  { tk := f.tk, ill := illX2 f, reads := [{ field := 1, spec := f.a }, { field := 4, spec := f.d }], nres := 1 }
def shiftWord (i : Instr) (f : FmtA) (base : Nat) (val : State → Fg Series) (s : State) : Host.Outcome State Fault Refusal :=
  runWord i (planX2 f) (fun sg s => putSer (base + 2 * sP (rdSer s s.cur f.d)) f.d (val s) sg s) s
def execXm2m (f : FmtA) (s : State) : Host.Outcome State Fault Refusal := shiftWord (.xm2m f) f 6 (shiftVal 1 1 m2mVal f) s
def execXm2l (f : FmtA) (s : State) : Host.Outcome State Fault Refusal := shiftWord (.xm2l f) f 8 (shiftVal 1 2 m2lVal f) s
def execXl2l (f : FmtA) (s : State) : Host.Outcome State Fault Refusal := shiftWord (.xl2l f) f 6 (shiftVal 2 2 l2lVal f) s

/-- Equal values: -0 is +0, a NaN equals nothing. -/
def eq64 (a b : Word) : Bool := (flOrder (f64 a) (f64 b)).eq

def xaddVal (f : FmtA) (s : State) : Fg Series :=
  let a := rdSer s s.cur f.a
  let d := rdSer s s.cur f.d
  let after := if kindOf a = 0 then sKind d else sKind a
  let kinds := kindOf a = 0 || kindOf d = 0 || kindOf d = kindOf a
  let centres := sP a = 0 || sP d = 0
    || (eq64 (sCentre a).re (sCentre d).re && eq64 (sCentre a).im (sCentre d).im)
  if kinds && centres then
    let l := (List.range (sP d)).map fun k => if k < sP a then cadd (sCoef d k) (sCoef a k) else (sCoef d k, 0)
    (withKind (withCoefs d (l.map (·.1))) after, l.foldl (fun f e => f ||| e.2) 0)
  else breach d after
def execXadd (f : FmtA) (s : State) : Host.Outcome State Fault Refusal :=
  runWord (.xadd f) (planX2 f) (fun sg s => putSer 3 f.d (xaddVal f s) sg s) s

/-! ## xmeval, xeval (R249) -/

/-- Horner over the coefficients, highest first. -/
def horner (u : Cx) : List Cx → Fg Cx → Fg Cx
  | [], s => s
  | a :: r, s => horner u r (thenF s fun v => cfma v u a)

def evalOne (mul : Bool) (a : Series) (z : Cx) (c : Option Cx) : Fg Cx :=
  let h := csub z (sCentre a)
  let u := if mul then thenF h crcp else h
  let r := horner u.1 (coefs a).reverse (cZero, u.2)
  let r1 := if mul then thenF r fun v => cmul v u.1 else r
  match c with
  | some c => thenF r1 fun v => cadd c v
  | none => r1

/-- A's kind is the one named, or none (R243). -/
def evalOk (kind : Nat) (f : FmtA) (s : State) : Bool := let a := rdSer s s.cur f.a; kindOf a = 0 || kindOf a = kind
def evalVal (mul : Bool) (kind : Nat) (f : FmtA) (s : State) : List (Fg Cx) :=
  let a := rdSer s s.cur f.a
  let ok := evalOk kind f s
  let cs := if clsOf f.c = .none then List.replicate 32 none else (rdCv s s.cur f.c).map some
  (lanesOf s s.cur f.p 32).zip ((rdCv s s.cur f.b).zip cs) |>.map fun e =>
    if !e.1 then (cZero, 0) else if ok then evalOne mul a e.2.1 e.2.2 else (cNan, fIV)

def planEval (base : Nat) (f : FmtA) (s : State) (p : Party) : Plan :=
  { tk := f.tk, ill := illXeval f, reads := { field := 1, spec := f.a } :: (cxReads 2 f.b ++ cxReads 3 f.c ++ maskRd f.p), nres := 1
    lands := some (true, 1, base + sP (rdSer s p f.a)) }
def evalWord (i : Instr) (base : Nat) (mul : Bool) (kind : Nat) (f : FmtA) (s : State) : Host.Outcome State Fault Refusal :=
  runWord i (planEval base f) (fun sg s =>
    let l := evalVal mul kind f s
    .done (putVec (base + sP (rdSer s s.cur f.a)) f.d f.s
      (packV tyF64 (l.flatMap fun e => [e.1.re.toNat, e.1.im.toNat])) (l.foldl (fun x e => x ||| e.2) (flagIf (!evalOk kind f s) fIV)) sg s)) s
def execXmeval (f : FmtA) (s : State) : Host.Outcome State Fault Refusal := evalWord (.xmeval f) 10 true 1 f s
def execXeval (f : FmtA) (s : State) : Host.Outcome State Fault Refusal := evalWord (.xeval f) 6 false 2 f s

/-! ## xadm (R250) -/

/-- The exact test on centres, radii and theta. -/
def separated (ca cb : Cx) (ra rb : Word) (th : Fl) : Word × BitVec 8 :=
  let dx := xAdd (f64 ca.re) (f64 cb.re).neg
  let dy := xAdd (f64 ca.im) (f64 cb.im).neg
  if dx.isNan || dy.isNan || (f64 ra).isNan || (f64 rb).isNan then (0, fIV)
  else if f64 ra = .inf false || f64 rb = .inf false then (0, 0)
  else if isInf dx || isInf dy then (1, 0)
  else
    let d2 := xMul (xMul th th) (xAdd (xMul dx dx) (xMul dy dy))
    let r := xAdd (f64 ra) (f64 rb)
    (boolWord (!flLt d2 (xMul r r)), 0)

def xadmVal (f : FmtA) (s : State) : Word × BitVec 8 :=
  let a := rdSer s s.cur f.a
  let b := if clsOf f.b = .q then (sCentre (rdSer s s.cur f.b), sRadius (rdSer s s.cur f.b)) else (rdCx s s.cur f.b, 0)
  separated (sCentre a) b.1 (sRadius a) b.2 (ordTheta (rdOrd s s.cur f.c))
def planXadm (f : FmtA) (s : State) (p : Party) : Plan :=
  { tk := f.tk, ill := (5, !ordValid (rdOrd s p f.c)) :: illXadm f
    reads := { field := 1, spec := f.a } :: (cxReads 2 f.b ++ [{ field := 3, spec := f.c }]), nres := 1
    lands := some (false, 1, 4) }
def execXadm (f : FmtA) (s : State) : Host.Outcome State Fault Refusal :=
  runWord (.xadm f) (planXadm f) (fun sg s => .done (putScal 4 f.d f.s (xadmVal f s) sg s)) s

/-! ## xld, xst (R251) -/

/-- The 544 bytes as one access, in 16-byte units. -/
def serEl (o : Int) : El := ⟨true, o, 544, (List.range 34).map fun i => ⟨0, 128 * i, 16 * i, 16, 0⟩⟩

def planXld (f : FmtM) (s : State) (p : Party) : Plan :=
  { tk := f.tk, ill := illXld f, reads := readsM f, nres := 1, ready := loadClear s p (tokKReg s p f) [serEl (elemOff s p f)]
    cold := coldSlot s p (tokKReg s p f), touch := elTouch s (tokKReg s p f) false [serEl (elemOff s p f)] }
def xldAct (f : FmtM) (sg : List Nat) (s : State) : Act :=
  let p := s.cur
  let k := tokKReg s p f
  let r := loadEls s p k (kR k) 1 [serEl (elemOff s p f)]
  .done (addFlight r.st p { mkFlight 12 false (destOf f.d) (.series (BitVec.ofNat 4352 (r.parts.getD 0 0))) r.flags false sg with
    need := r.need, fix := some tyNone })
def execXld (f : FmtM) (s : State) : Host.Outcome State Fault Refusal := runWord (.xld f) (planXld f) (xldAct f) s

def planXst (f : FmtM) (s : State) (p : Party) : Plan :=
  { tk := f.tk, ill := illXst f, reads := readsSt f none, ready := storeRoom s p
    cold := coldSlot s p (tokKReg s p f), touch := elTouch s (tokKReg s p f) true [serEl (elemOff s p f)] }
def xstAct (f : FmtM) (sg : List Nat) (s : State) : Act :=
  let p := s.cur
  .done (storeEls s p (tokKReg s p f) [serEl (elemOff s p f)] [(rdSer s p f.d).toNat] .bytes sg)
def execXst (f : FmtM) (s : State) : Host.Outcome State Fault Refusal := runWord (.xst f) (planXst f) (xstAct f) s

end Sys2Proof.Machine
end

