-- ==== Sys2Proof/Machine/Manage.lean ====
section
/-! DEFINITION. Management, trust, power and the host (spec 20, R418, R420-R426). -/

namespace Sys2Proof.Machine

/-! ## Power words (R423, R424) -/

/-- CAP_WORD_WRITE: ignored, and logged, below RESERVE + the budgets (or above the largest CAP). -/
def execCapWordWrite (cap reserve : Nat) (s : State) : Host.Outcome State Fault Refusal :=
  .next (if cap ≤ 26000 ∧ reserve < 65536 ∧ reserve + budgetSum s ≤ cap then { s with cap := cap, reserve := reserve }
    else report s (2 ^ 33))

/-- BUDGET_WORD_WRITE: it applies to grants from then on. -/
def execBudgetWordWrite (cluster budget : Nat) (s : State) : Host.Outcome State Fault Refusal := .next (setBudget s cluster budget)

/-! ## Bring-up and power loss (R426) -/

/-- The images that run from the next bring-up on (R422). -/
def nextFirmware (t : Trust) : List FwImage := t.waiting ++ t.running.filter fun r => !t.waiting.any fun w => w.part = r.part

/-- What the module keeps without power: the fuses, and outside it the firmware's store and the host. -/
def unpowered (s : State) : State :=
  { State.reset with
    powered := false, bringup := 0, fuses := s.fuses, sched := s.sched, turnNo := s.turnNo, freeNo := s.freeNo, host := s.host
    hostPoison := s.hostPoison, wire := s.wire, hostReads := s.hostReads, msix := s.msix, hostRate := 0, hostLanes := 0
    trust := { State.reset.trust with running := s.trust.running, waiting := s.trust.waiting, minVersion := s.trust.minVersion } }

/-- POWER_LOSS. -/
def execPowerLoss (s : State) : Host.Outcome State Fault Refusal := .next (unpowered s)

/-- The measurement of an index: of the running image, never of one that waits (R422); of the supervisor streams, the digest of the digests
measured (log 9); of the fuse state. -/
def measurement (s : State) (index : Nat) : BitVec 384 :=
  match s.trust.log.filter fun e => index = 3 && e.1 = 3 with
  | [] => match s.trust.running.find? fun i => i.part = index with
    | some i => i.digest
    | none => Config.measured index s.fuses
  | l => Config.sha384 (l.flatMap fun e => leBytes 48 e.2.toNat)

/-- POWER_ON: steps 1 to 6, with what is measured in them; one that fails (log 30), of these or of the two that follow, leaves the module in reset
with its number in BRINGUP. Step 7 is the load of the dies' supervisor streams, and step 8 the training of the host link. -/
def execPowerOn (s : State) : Host.Outcome State Fault Refusal :=
  let u := { unpowered s with freeNo := s.freeNo + 1 }
  let k := Config.bringupFails s.freeNo
  let on := { u with
    powered := true, identity := (Config.identity s.freeNo).toNat
    trust := { u.trust with running := nextFirmware s.trust, waiting := [] } }
  .next (if s.powered then s
  else if 1 ≤ k.toNat ∧ k.toNat ≤ 8 then { u with bringup := k }
  else { on with trust := { on.trust with log := [1, 2, 4].map fun i => (i, measurement on i) } })

/-- Step 7 is done: every die's supervisor stream has been loaded. -/
def supersLoaded (s : State) : Bool := (List.range 4).all fun d => (ctxOf s (superCtx d)).live
/-- The host link trains, at most at 64 GT/s and 16 lanes; below either the management firmware logs it (R416; log 34). It is the last step of a
bring-up (R426). -/
def trainHost (s : State) (rate lanes : Nat) : State :=
  let s1 := { s with hostRate := min rate 64, hostLanes := min lanes 16 }
  let s2 := if rate < 64 ∨ lanes < 16 then report s1 (2 ^ 34 + 256 * min rate 64 + min lanes 16) else s1
  if supersLoaded s then { s2 with bringup := 0xFF } else s2

/-! ## The Root Kernel (R421, R422) -/

/-- FIRMWARE_UPDATE_LOAD: a verified image waits for the next bring-up; any other is discarded. -/
def execFirmwareUpdateLoad (img : FwImage) (s : State) : Host.Outcome State Fault Refusal :=
  .next (if Config.fwVerifies Config.signingKey img && decide (s.trust.minVersion ≤ img.version) then
    { s with trust := { s.trust with waiting := s.trust.waiting.filter (fun w => w.part != img.part) ++ [img] } }
  else s)

/-- An SPDM answer sent (log 9), on the physical function or one of the 64 virtual functions. -/
def answer (request fn : Nat) (b : List Byte) (s : State) : State :=
  if pfNo < fn then s else { s with trust := { s.trust with answers := s.trust.answers ++ [(request, fn, b)] } }
/-- An answer with the identity key's signature of 7,856 bytes (log 9). -/
def signedAnswer (b : List Byte) : List Byte := b ++ leBytes 7856 (Config.signature b).toNat

def execGetVersion (fn : Nat) (s : State) : Host.Outcome State Fault Refusal := .next (answer 0x84 fn (Config.spdmAnswer 0x84 fn 0) s)
def execGetCapabilities (fn : Nat) (s : State) : Host.Outcome State Fault Refusal :=
  .next (answer 0xE1 fn (Config.spdmAnswer 0xE1 fn 0) s)
def execNegotiateAlgorithms (fn : Nat) (s : State) : Host.Outcome State Fault Refusal :=
  .next (answer 0xE3 fn (Config.spdmAnswer 0xE3 fn 0) s)
/-- The digest of the chain, and the chain. -/
def execGetDigests (fn : Nat) (s : State) : Host.Outcome State Fault Refusal :=
  .next (answer 0x81 fn (leBytes 48 (Config.sha384 Config.certChain).toNat) s)
def execGetCertificate (fn : Nat) (s : State) : Host.Outcome State Fault Refusal := .next (answer 0x82 fn Config.certChain s)
def execChallenge (fn nonce : Nat) (s : State) : Host.Outcome State Fault Refusal :=
  .next (answer 0x83 fn (signedAnswer (Config.spdmAnswer 0x83 fn nonce)) s)
/-- The digest of a measurement, signed. -/
def execGetMeasurements (fn index : Nat) (s : State) : Host.Outcome State Fault Refusal :=
  .next (answer 0xE0 fn (signedAnswer (leBytes 48 (measurement s index).toNat)) s)

def sessionOf (s : State) (fn : Nat) : Nat := tget 0 s.trust.sessions fn
def setSession (s : State) (fn n : Nat) : State :=
  if pfNo < fn then s else { s with trust := { s.trust with sessions := tset 0 s.trust.sessions fn n } }
/-- KEY_EXCHANGE opens a session of a function; FINISH completes it, and the host link's IDE keys are set up through one of the physical function
(R416; log 9). -/
def execKeyExchange (fn share : Nat) (s : State) : Host.Outcome State Fault Refusal :=
  .next (answer 0xE4 fn (signedAnswer (Config.spdmAnswer 0xE4 fn share)) (setSession s fn 1))
def execFinish (fn : Nat) (s : State) : Host.Outcome State Fault Refusal :=
  let s1 := if sessionOf s fn = 1 then setSession s fn 2 else s
  let s2 := if sessionOf s1 fn = 2 && fn = pfNo then { s1 with trust := { s1.trust with ide := true } } else s1
  .next (answer 0xE5 fn (Config.spdmAnswer 0xE5 fn (sessionOf s fn)) s2)

/-! ## Host accesses to the near tier (R418) -/

/-- Near memory exists up to 1.5 TiB. -/
def nearExists (a : Nat) : Bool := decide (a < 12 * 2 ^ 37)

/-- A live slot that names a place, and the offset in its extent. -/
def placeSlot (s : State) (pl : Place) : Option (Nat × Nat) :=
  s.slots.findSome? fun e =>
    if e.2.state != .live then none
    else (List.range (e.2.nwords + 1)).findSome? fun i =>
      let o := i * psBytes e.2.ps + pl.addr % psBytes e.2.ps
      if pinLookup s e.1 o = pl then some (e.1, o) else none
/-- Whose memory a place is: party, slot and offset for the item of a host write that poison drops (R415; log 33): of the context whose slot names
it, else of the frame's recorded owner. -/
def placeParty (s : State) (pl : Place) : Party × Nat × Nat :=
  match placeSlot s pl with
  | some (n, o) => (.stream 0 (slotOf s n).ctx, n, o)
  | none => match tget 0 s.owners (ownerKey (pl.space = .far) (pl.addr / 65536)) with
    | 0 => (.super 0, 0, 0)
    | c + 1 => (.stream 0 c, 0, 0)

/-- HOST_CXL_MEM_ACCESS: a read, answered with its poison mark, or a write, at the lines' home slices; sealed bytes are read-only for the host too
(R337). -/
def hostAccess (addr len : Nat) (data : Option (List Byte)) (s : State) : State :=
  let pls := (List.range len).map fun i => (⟨.near, addr + i⟩ : Place)
  match data with
  | none =>
    let s1 := readAtoms s (pls.filter fun p => nearExists p.addr)
    { s1 with hostReads := s1.hostReads ++
      [(pls.map fun p => if nearExists p.addr then rdByte s1 p else 0xFF, pls.any fun p => nearExists p.addr && placePoison s1 p)] }
  | some bs =>
    let cells := (pls.zip bs).filter fun c => nearExists c.1.addr && !sealedPlace s c.1
    let who := placeParty s ⟨.near, addr⟩
    wrPlaces s who.1 who.2.1 who.2.2 (cells.map fun c => (c.1, c.2, 0xFF#8))
/-- No replica serves the host: it is of no cluster (R254, R418). -/
def execHostCxlMemAccess (addr len : Nat) (data : Option (List Byte)) (s : State) : Host.Outcome State Fault Refusal :=
  .next { hostAccess addr len data { s with cur := .super 0 } with cur := s.cur }

/-! ## Accesses of the management firmware (R420) -/

/-- Some bytes of [a, a + n) lie in the frame of a near place. -/
def inFrame (pl : Place) (a n : Nat) : Bool := pl.space = .near && overlap (pl.addr / 65536 * 65536) 65536 a n
/-- A queue whose control block stands at `ctrl`, of items of `size` bytes. -/
def queueHolds (s : State) (pl : Place) (ctrl size : Nat) : Bool :=
  inFrame pl ctrl 64 || inFrame pl (rdNear s ctrl 8) (size * 2 ^ (rdNear s (ctrl + 8) 1 % 32))
/-- The frame is of a context's save area or queues. -/
def ctxHolds (s : State) (pl : Place) (c : Ctx) : Bool :=
  let q := c.params
  c.live && (inFrame pl q.saveBase q.saveLen || queueHolds s pl q.errq 32 || queueHolds s pl q.evtq 16 || queueHolds s pl q.reqRing 32
    || queueHolds s pl q.repRing 16)
/-- A word in use names the frame. -/
def pinned (s : State) (pl : Place) : Bool :=
  s.words.any fun w => w.2.used && ((decide (w.2.space = pl.space) && overlap (pl.addr / 65536) 1 w.2.frameA (psBytes w.2.ps / 65536))
    || (match pairOf s w.2 with
        | some q => decide (spaceB q w.2.space = pl.space) && overlap (pl.addr / 65536) 1 w.2.frameB (psBytes w.2.ps / 65536)
        | none => false))
/-- Management reads zero there and its writes are dropped: a frame pinned by a context, a save area, a queue, or a slice bound to one. -/
def mgmtBarred (s : State) (pl : Place) : Bool :=
  match pl.space with
  | .hall => (coreOf s (pl.addr / 2 ^ 20)).bound.isSome
  | _ => pinned s pl || s.ctxs.any fun c => ctxHolds s pl c.2
/-- Storage that a context owned is zeroed before management reaches it (R340). -/
def mgmtTake (s : State) (pl : Place) : State :=
  match pl.space with
  | .hall => let c := pl.addr / 2 ^ 20; if (coreOf s c).owner = 0xFFF then s else mapCore s c fun k => clearOwner k 0xFFF
  | sp =>
    let far := decide (sp = .far)
    let f := pl.addr / 65536
    if tget 0 s.owners (ownerKey far f) = 0 then s else { zeroFrame s far f with owners := tdel s.owners (ownerKey far f) }
/-- The place of a management access: tier 0 near, 1 far, 2 the scratchpads; none where no memory is. -/
def mgmtPlace (tier a : Nat) : Option Place :=
  match tier with
  | 0 => if nearOk a then some ⟨.near, a⟩ else none
  | 1 => if farOk a then some ⟨.far, a⟩ else none
  | _ => if a < 512 * 2 ^ 20 then some ⟨.hall, a⟩ else none
/-- A read or a write of the management firmware; where no memory is a read gives 0 (log 34). -/
def mgmtMove (s : State) (tier addr len : Nat) (data : Option (List Byte)) : State :=
  let pls := (List.range len).map fun i => mgmtPlace tier (addr + i)
  let open_ := (pls.filterMap id).filter fun pl => !mgmtBarred s pl
  let s1 := open_.foldl mgmtTake { s with cur := .super 0 }
  match data with
  | none =>
    let s2 := readAtoms s1 open_
    { s2 with
      cur := s.cur
      mgmtReads := s2.mgmtReads ++ [pls.map fun q => match q with
        | some pl => if open_.contains pl && !placePoison s2 pl then rdByte s2 pl else 0
        | none => 0] }
  | some bs =>
    let cells := (pls.zip bs).filterMap fun x => match x.1 with
      | some pl => if open_.contains pl && !sealedPlace s1 pl then some (pl, x.2, 0xFF#8) else none
      | none => none
    { wrPlaces s1 (.super 0) 0 0 cells with cur := s.cur }

end Sys2Proof.Machine
end

