-- ==== Sys2Proof/Machine/Records.lean ====
section
/-! DEFINITION. What each record does (spec 07, R220-R231; spec 03, R87-R89, R98, R99; spec 05, R159-R164). -/

namespace Sys2Proof.Machine

/-! ## copy, fill (R220) -/

def unitBytes (r : Rec) : Nat := 4 * 2 ^ r.mode.toNat

/-- The source of an issue that reads `n` bytes at OPD1. -/
def srcIssue (n : Rec → Nat) (s : State) (u : Run) : List (KReg × Int × Nat) :=
  if failed u 1 then []
  else let r := runRec u; [(runTok s u r.opd1, opdAddr r r.opd1 u.prog.issue, n r)]
def noSrc (_ : State) (_ : Run) : List (KReg × Int × Nat) := []
def oneIssue (_ : Rec) : Nat := 1

/-- An issue reads `size` bytes at OPD1, changes them and writes them at OPD0. -/
def moveIssue (size : Rec → Nat) (change : Rec → List (Byte × Bool) → List (Byte × Bool)) (u : Run) (a : Rn) : Rn :=
  let r := runRec u
  let x := engRead u a (runTok a.st u r.opd1) (failed u 1) (opdAddr r r.opd1 u.prog.issue) (size r)
  engWrite u x.2 (runTok a.st u r.opd0) (failed u 0) (opdAddr r r.opd0 u.prog.issue) (change r x.1)

def execCopy (r : Rec) (s : State) : Host.Outcome State Fault Refusal :=
  .next (runRecord (.copy r) trips (srcIssue unitBytes) (moveIssue unitBytes fun _ d => d) s)

/-- The pattern of a `fill`. -/
def fillBytes (r : Rec) (x : Word) : List (Byte × Bool) :=
  let b := leBytes 8 x.toNat
  (List.range (unitBytes r)).map fun i => (b.getD (i % (if unitBytes r = 4 then 4 else 8)) 0, false)
def fillAct (u : Run) (a : Rn) : Rn :=
  let r := runRec u
  engWrite u a (runTok a.st u r.opd0) (failed u 0) (opdAddr r r.opd0 u.prog.issue)
    (fillBytes r (tget 0 (runStream a.st u).xshadow (xfLo r)))
def execFill (r : Rec) (s : State) : Host.Outcome State Fault Refusal := .next (runRecord (.fill r) trips noSrc fillAct s)

/-! ## copypl, copyrm (R88, R221) -/

def blockBytes (r : Rec) : Nat := if r.ty = tyLs4 then 168 else 16 * tyWidth r.ty

/-- 128 elements as planes, and back, as numbers. -/
def planesOf (ty : TyCode) (v : Nat) : Nat := joinW 128 (toPlanes ty (splitW (tyWidth ty) 128 v))
def elemsOf (ty : TyCode) (v : Nat) : Nat := joinW (tyWidth ty) (fromPlanes ty (splitW 128 (tyWidth ty) v))

/-- A block converted: for ls4 its two halves as fp4, and the scales as they are. -/
def convBlock (f : TyCode → Nat → Nat) (r : Rec) (d : List (Byte × Bool)) : List (Byte × Bool) :=
  let bs := d.map (·.1)
  let bad := d.any (·.2)
  let one (ty : TyCode) (l : List Byte) : List Byte := leBytes l.length (f ty (leNat l))
  let out := if r.ty = tyLs4 then one tyFp4 (bs.take 64) ++ one tyFp4 ((bs.drop 64).take 64) ++ bs.drop 128 else one r.ty bs
  out.map fun b => (b, bad)

def execCopypl (r : Rec) (s : State) : Host.Outcome State Fault Refusal :=
  .next (runRecord (.copypl r) trips (srcIssue blockBytes) (moveIssue blockBytes (convBlock planesOf)) s)
def execCopyrm (r : Rec) (s : State) : Host.Outcome State Fault Refusal :=
  .next (runRecord (.copyrm r) trips (srcIssue blockBytes) (moveIssue blockBytes (convBlock elemsOf)) s)

/-! ## decomp (R222, R223) -/

/-- A byte of the source: beyond the extent or outside a seal it reads as zero. Answers the byte, its poison, and
whether it was unsealed. -/
def sealedByte (s : State) (k : KReg) (off : Int) : Byte × Bool × Bool :=
  if !within k off 0 then (0, false, false)
  else
    let pl := kPlace s k off.toNat
    if !sealedPlace s pl then (0, false, true) else (rdByte s pl, placePoison s pl, false)

/-- What is decoded of one block: its B bytes, the source bytes used, whether it is malformed. -/
structure Block where
  data : List Byte
  used : Nat
  bad : Bool

/-- Element `e` of a `sexp` block: its pattern, and whether it is malformed. -/
def sexpEl (b : List Byte) (e : Nat) : Nat × Bool :=
  let x := (b.getD 0 0).toNat
  let v := (b.getD (1 + e) 0).toNat
  let nib := (b.getD (129 + e / 2) 0).toNat / (if e % 2 = 0 then 1 else 16) % 16
  let base := v / 128 * 32768 + v % 128
  if nib = 15 then (base, false) else if x < nib + 1 then (0, true) else (base + (x - nib) * 128, false)

def decodeBlock (r : Rec) (get : Nat → List Byte) : Block :=
  let n := blockBytes r
  match r.mode.toNat with
  | 0 => ⟨get n, n, false⟩
  | 1 =>
    let h := ((get 1).getD 0 0).toNat
    if h = 1 then ⟨(get (n + 1)).drop 1, n + 1, false⟩ else ⟨List.replicate n 0, 1, h != 0⟩
  | _ =>
    let b := get 193
    let x := (b.getD 0 0).toNat
    if x = 0 ∨ x = 255 then ⟨List.replicate n 0, 193, true⟩
    else
      let els := (List.range 128).map (sexpEl b)
      ⟨leBytes n (planesOf tyBf16 (joinW 16 (els.map (·.1)))), 193, els.any (·.2)⟩

def wbOf (c : Core) (b : Nat) : Memory := if b = 0 then c.wb0 else c.wb1

/-- A block written into a weight buffer; bytes past its end are dropped. A line takes the block's poison mark, and
loses it when the block covers it whole. -/
def wbWrite (c : Core) (b : Nat) (o : Int) (data : List Byte) (bad : Bool) : Core :=
  let cells := ((List.range data.length).map fun (i : Nat) => (o + i, data.getD i 0)).filter fun e => decide (0 ≤ e.1) && decide (e.1 < 65536)
  let m := cells.foldl (fun m e => mset m e.1.toNat e.2) (wbOf c b)
  let lines := (cells.map fun e => e.1.toNat / 64).eraseDups
  let marks := lines.foldl (fun t l =>
    if bad then tset false t (1024 * b + l) true
    else if (cells.filter fun e => decide (e.1.toNat / 64 = l)).length = 64 then tset false t (1024 * b + l) false else t) c.wbBad
  { c with wb0 := if b = 0 then m else c.wb0, wb1 := if b = 0 then c.wb1 else m, wbBad := marks
           refilled := if c.refilled.contains b then c.refilled else c.refilled ++ [b] }

/-- The sealed runs that a buffer was filled from (R339). -/
def noteRuns (c : Core) (b : Nat) (pls : List Place) : Core :=
  pls.foldl (fun c pl =>
    if c.wbRuns.any fun r => r.1 = b && decide (r.2.1 = pl.space) && decide (r.2.2.1 ≤ pl.addr) && decide (pl.addr < r.2.2.1 + r.2.2.2) then c
    else { c with wbRuns := c.wbRuns ++ [(b, pl.space, pl.addr / 128 * 128, 128)] }) c

/-- An issue decodes the block at the place where the one before it ended. -/
def decompAct (u : Run) (a : Rn) : Rn :=
  let r := runRec u
  let k := runTok a.st u r.opd1
  let off (j : Nat) : Int := (r.opd1.base.toNat + u.prog.src + j : Nat)
  let byte (j : Nat) : Byte × Bool × Bool := if failed u 1 then (0, false, false) else sealedByte a.st k (off j)
  let blk := decodeBlock r fun n => (List.range n).map fun j => (byte j).1
  let seen := (List.range blk.used).map byte
  let pls := if failed u 1 then [] else ((List.range blk.used).filter fun j => within k (off j) 0).map fun j => kPlace a.st k (off j).toNat
  let o := opdAddr r r.opd0 u.prog.issue
  let b := (r.xf.getLsbD 0).toNat
  let s1 := readAtoms a.st pls
  let s2 := mapCore s1 u.core fun c => noteRuns (wbWrite c b o blk.data (seen.any (·.2.1))) b (pls.filter (sealedPlace a.st))
  let bits := flagIf (decide (o < 0) || decide (65536 < o + blk.data.length)) fXB
    ||| flagIf (!failed u 1 && (List.range blk.used).any fun j => !within k (off j) 0) fXB
    ||| flagIf (seen.any (·.2.2)) eNSEAL ||| flagIf blk.bad eDCERR
  { a with st := mapRun s2 u fun p => { p with src := p.src + blk.used }, bits := a.bits ||| bits }
def execDecomp (r : Rec) (s : State) : Host.Outcome State Fault Refusal := .next (runRecord (.decomp r) trips noSrc decompAct s)

/-! ## mma (R89, R98, R99, R159, R225, R226) -/

/-- An element read at precision `q` from its planes (R89). -/
def planeVal (t : TyCode) (q v : Nat) : Xv :=
  if tyInt t then .int (if q = 31 then intDecode t v else if tySigned t then signed q v else (v % 2 ^ q : Nat))
  else
    match flDecode t v with
    | .fin .. => .fl (if q = 31 then flDecode t v else flDecode t (v >>> (mantBits t - q) <<< (mantBits t - q)))
    | f => .fl f

/-- The 128 elements of a plane block. -/
def blockVals (t : TyCode) (q : Nat) (bs : List Byte) : List Xv :=
  (fromPlanes t (splitW 128 (tyWidth t) (leNat bs))).map (planeVal t q)

/-- The two columns of an ls4 unit (R226), and whether its reserved bits are set (R85). -/
def unitVals (base : Int) (bs : List Byte) : List (List Xv) × Bool :=
  let codes := fromPlanes tyFp4 (splitW 128 4 (leNat (bs.take 64))) ++ fromPlanes tyFp4 (splitW 128 4 (leNat ((bs.drop 64).take 64)))
  let g : Grp := ⟨codes, ((bs.drop 128).take 32).map BitVec.toNat, ((bs.getD 160 0)).toNat⟩
  let vs := (groupVals base g).map Xv.fl
  ([vs.take 128, vs.drop 128], groupBadBits g || (bs.drop 161).any (· != 0))

/-- The chunk length L of R98. -/
def chunkLen (t : TyCode) : Nat :=
  if t = tyFp4 || t = tyLs4 then 32 else if t = tyE4m3 || t = tyE5m2 then 16 else if t = tyF32 then 2 else 8

/-- The exact sum of a chunk's products, without a starting zero; infinities of both signs are invalid whatever NaN stands beside them (R81). -/
def chunkSum (l : List (Fl × Fl)) : Fl × BitVec 8 :=
  match l.map fun x => flMul x.1 x.2 with
  | [] => (.fin false 0 1 0, 0)
  | x :: r =>
    let y := r.foldl (fun a p => let z := flAdd false a.1 p.1; (z.1, a.2 ||| p.2 ||| z.2)) x
    (y.1, y.2 ||| flagIf ((x :: r).any (·.1.isInf true) && (x :: r).any (·.1.isInf false)) fIV)

/-- R98's accumulation of one element. -/
def accFloat (len : Nat) (l : List (Fl × Fl)) (w : Word) : Word × BitVec 8 :=
  (List.range ((l.length + len - 1) / len)).foldl (fun a c =>
    let s := chunkSum ((l.drop (c * len)).take len)
    let x := flRound tyF64 ⟨0, 0⟩ 0 s.1
    let z := flAdd false (f64 a.1) (f64 (BitVec.ofNat 64 x.1))
    let y := flRound tyF64 ⟨0, 0⟩ 0 z.1
    (BitVec.ofNat 64 y.1, a.2 ||| s.2 ||| x.2 ||| z.2 ||| y.2)) (w, 0)

/-- R99's accumulation of one element. -/
def accInt (sat : Bool) (l : List (Int × Int)) (w : Word) : Word × BitVec 8 :=
  let v := intBound tyI64 (if sat then 3 else 0) (l.foldl (fun a x => a + x.1 * x.2) w.toInt)
  (BitVec.ofNat 64 v.1, v.2)

/-- One k step: a(·, k) and b(k, ·). -/
abbrev KStep := List Xv × List Xv

def pairsOf (ks : List KStep) (i j : Nat) : List (Xv × Xv) := ks.map fun k => (k.1.getD i (.int 0), k.2.getD j (.int 0))

/-- One element of the record's product added to `w`. -/
def accEl (r : Rec) (ps : List (Xv × Xv)) (w : Word) : Word × BitVec 8 :=
  if tyInt r.ty then accInt r.sat (ps.map fun p => (p.1.toInt, p.2.toInt)) w
  else accFloat (chunkLen r.ty) (ps.map fun p => (p.1.toFl, p.2.toFl)) w

/-- The exact sum of one side of a k step (R159). -/
def sideSum (r : Rec) (l : List Xv) : Xv :=
  if tyInt r.ty then .int (l.foldl (fun a x => a + x.toInt) 0)
  else .fl (l.foldl (fun a x => (flAdd false a x.toFl).1) (.fin false 0 1 0))

/-- A table of `n` words rebuilt, with the flags raised. -/
def rebuild (n : Nat) (f : Nat → Word × BitVec 8) : Table Word × BitVec 8 :=
  let l := (List.range n).map fun i => (i, f i)
  ((l.filter fun e => e.2.1 != 0).map fun e => (e.1, e.2.1), l.foldl (fun a e => a ||| e.2.2) 0)

/-- The tile after the record's k steps, and the flags of its accumulations. -/
def mmaTile (r : Rec) (t : Tile) (ks : List KStep) : Tile × BitVec 8 :=
  let el := rebuild 16384 fun n => accEl r (pairsOf ks (n / 128) (n % 128)) (acc t n)
  if !r.cks then ({ t with elems := el.1 }, el.2)
  else
    let bs := ks.map fun k => sideSum r k.2
    let as := ks.map fun k => sideSum r k.1
    let rc := rebuild 128 fun i => accEl r ((ks.zip bs).map fun e => (e.1.1.getD i (.int 0), e.2)) (rcOf t i)
    let cc := rebuild 128 fun j => accEl r ((ks.zip as).map fun e => (e.2, e.1.2.getD j (.int 0))) (ccOf t j)
    ({ t with elems := el.1, rc := rc.1, cc := cc.1 }, el.2 ||| rc.2 ||| cc.2)

/-- What the array has read of a record: the A and B blocks, status bits, and the poison sources met. -/
structure Fed where
  st : State
  blocks : List (List Byte × List Byte)
  bits : BitVec 8
  ate : List Nat

/-- Bytes of a weight buffer and whether a line of them is poison-marked. -/
def wbRead (c : Core) (b : Nat) (o : Int) (n : Nat) : List Byte × Bool :=
  if o < 0 ∨ 65536 < o + n then (List.replicate n 0, false)
  else (mgetBytes (wbOf c b) o.toNat n, (List.range n).any fun i => tget false c.wbBad (1024 * b + (o.toNat + i) / 64))

/-- The A operand read for an issue: clipped bytes and a failed operand read +0, and in a replay a token revoked since, which nothing holds.
A record in progress holds its own (`live`), whatever a revocation does meanwhile (R214). -/
def aRead (s : State) (w : WinRec) (live : Bool) (off : Int) (n : Nat) : State × List Byte × Bool × Bool :=
  if w.fail || (!live && !kCurrent s w.tok) then (s, List.replicate n 0, false, false)
  else
    let place (i : Nat) := kPlace s w.tok (off + i).toNat
    let s1 := readAtoms s (((List.range n).filter (within w.tok off)).map place)
    let l := (List.range n).map fun i => if within w.tok off i then (rdByte s1 (place i), placePoison s1 (place i)) else (0, false)
    (s1, l.map (·.1), l.any (·.2), clipped w.tok off n)

def feedIssue (core : Nat) (w : WinRec) (live : Bool) (x : Fed) (n : Nat) : Fed :=
  let r := recOf w.bits
  let b := (r.mode.getLsbD 1).toNat
  let nb := if r.ty = tyLs4 then 168 else 16 * tyWidth (mmaTyB r)
  let o := opdAddr r r.opd2 n
  let pa := aRead x.st w live (opdAddr r r.opd1 n) (blockBytes r)
  let pb := wbRead (coreOf x.st core) b o nb
  { st := pa.1
    blocks := x.blocks ++ [(pa.2.1, pb.1)]
    bits := x.bits ||| flagIf (pa.2.2.2 || decide (o < 0) || decide (65536 < o + nb)) fXB
    ate := x.ate ++ (if pa.2.2.1 then [0] else []) ++ if pb.2 then [1 + b] else [] }

/-- The k steps of the blocks read, and whether a unit of them is malformed. -/
def stepsOf (w : WinRec) (blocks : List (List Byte × List Byte)) : List KStep × Bool :=
  let r := recOf w.bits
  if r.ty = tyLs4 then
    blocks.foldl (fun x e =>
      let ua := unitVals w.ba.toInt e.1
      let ub := unitVals w.bb.toInt e.2
      (x.1 ++ ua.1.zip ub.1, x.2 || ua.2 || ub.2)) ([], false)
  else (blocks.map fun e => (blockVals r.ty (xfHi r) e.1, blockVals (mmaTyB r) (xfLo r) e.2), false)

/-- The tile with the products of the blocks read, and its flags. -/
def accumulate (t : Tile) (w : WinRec) (blocks : List (List Byte × List Byte)) : Tile × BitVec 8 :=
  let x := stepsOf w blocks
  let y := mmaTile (recOf w.bits) t x.1
  (y.1, y.2 ||| flagIf x.2 fIV)

/-- A window record performed again on a tile: the state after its reads, the tile, the ring flags, and the poison met. -/
def performRec (s : State) (core : Nat) (t : Tile) (w : WinRec) (live : Bool) : State × Tile × BitVec 8 × List Nat :=
  match recKind w.bits with
  | some .mma =>
    let x := (List.range (trips (recOf w.bits))).foldl (feedIssue core w live) ⟨s, [], 0, []⟩
    let y := accumulate t w x.blocks
    (x.st, y.1, y.2, x.ate)
  | _ => (s, zeroTile ((recOf w.bits).ty = tyI64) .filling, 0, [])

/-- UF is a condition of drains (R154). -/
def accumFlags (f : BitVec 8) : Word := ringFlags (f &&& ~~~fUF)

/-- An issue of `mma` reads its blocks; the last one adds all of them to the head tile. A record that has consumed poison is left to the replay,
once it has reached its end (R163). -/
def mmaAct (u : Run) (a : Rn) : Rn :=
  let r := runRec u
  let x := runStream a.st u
  let w : WinRec := ⟨u.own, u.prog.idx, u.prog.bits, runTok a.st u r.opd1, failed u 1, baseA x r, baseB x r⟩
  let y := feedIssue u.core w true ⟨a.st, u.prog.fed, 0, u.prog.ate⟩ u.prog.issue
  let last := decide (trips r ≤ u.prog.issue + 1)
  let s1 := mapRun y.st u fun p => { p with fed := if last then [] else y.blocks, ate := if last then [] else y.ate.eraseDups }
  let b : Rn := { a with st := s1, bits := a.bits ||| y.bits }
  if !last then b
  else if y.ate.isEmpty then
    let c := coreOf s1 u.core
    let z := accumulate (tileOf c c.head) w y.blocks
    { b with st := mapCore s1 u.core fun c => setRing (mapTile c c.head fun _ => z.1) (accumFlags z.2) }
  else { b with st := mapCore s1 u.core fun c => { c with ate := y.ate.eraseDups }, keep := true }

/-- `mma`; while its tile waits for the replay no issue of it is left. -/
def runMma (r : Rec) (s : State) : State :=
  match currentRun s with
  | some u => if (coreOf s u.core).ate.isEmpty then runRecord (.mma r) trips noSrc mmaAct s else s
  | none => s
def execMma (r : Rec) (s : State) : Host.Outcome State Fault Refusal := .next (runMma r s)

/-! ## Replay (R163, R164) -/

/-- A record of the window other than the consuming one has released something. -/
def hasReleased (w : WinRec) : Bool :=
  let r := recOf w.bits
  semHas r.semv || (pushesOf r).any fun e => e.1 = 2
def replayable (c : Core) : Bool :=
  !c.windowOver && !(c.window.dropLast.any hasReleased) && !(c.ate.any fun a => decide (0 < a) && c.refilled.contains (a - 1))
    && decide (c.replays < 2)

/-- The tile as its TSM record opens it again. -/
def reopened (c : Core) : Tile :=
  match c.window with
  | w :: _ => if (recOf w.bits).acc then c.opened else zeroTile c.opened.int .filling
  | [] => c.opened

/-- The window performed again, its last record the one in progress: the state after the reads, the tile, the flags and the poison met. -/
def replayAll (s : State) (core : Nat) : State × Tile × BitVec 8 × List Nat :=
  let c := coreOf s core
  ((List.range c.window.length).zip c.window).foldl (fun a e =>
    let y := performRec a.1 core a.2.1 e.2 (decide (e.1 + 1 = c.window.length))
    (y.1, y.2.1, a.2.2.1 ||| y.2.2.1, a.2.2.2 ++ y.2.2.2)) (s, reopened c, 0, [])

/-- The tile is failed: FULL, its FAILT bit set, reported (R164). -/
def failReplay (s : State) (u : Run) : State :=
  let n := (coreOf s u.core).head
  let s1 := mapCore s u.core fun c => fillEnd (failTile c n)
  let s2 := failRun s1 u { kind := 3, core := 0, unit := 0, tile := n, record := u.prog.idx } 4
  mapRun s2 u fun p => { p with asked := true, done := true }

/-- MMA_REPLAY. -/
def execMmaReplay (core : Nat) (s : State) : Host.Outcome State Fault Refusal :=
  let c := coreOf s core
  .next (match currentRun { s with cur := .engine core .matrix } with
    | none => s
    | some u =>
      if c.ate.isEmpty then s
      else if !replayable c then failReplay s u
      else
        let y := replayAll s core
        let checked := (tileOf c c.head).checked
        let s1 := mapCore y.1 core fun c =>
          { setRing c (rREPLAY ||| accumFlags y.2.2.1) with replays := c.replays + 1, ate := y.2.2.2.eraseDups }
        if y.2.2.2.isEmpty then
          let t1 : Tile := { y.2.1 with state := .filling, checked := checked }
          let s2 := mapCore s1 core fun c => let d := mapTile c c.head fun _ => t1; { d with replays := 0 }
          mapRun s2 u fun p => { p with asked := true, done := true }
        else s1)

/-! ## tcfg (R227) -/

/-- The tile's state, and that it failed, stay. -/
def tcfgAct (u : Run) (a : Rn) : Rn :=
  let r := runRec u
  let n := xfLo r % 4
  { a with st := mapCore a.st u.core fun c =>
      let st := (tileOf c n).state
      setRing (mapTile c n fun t => { zeroTile (r.ty = tyI64) t.state with failed := t.failed }) (if st = .filling || st = .full then rRECONF else 0) }

/-- `tcfg` waits while its tile is DRAINING, one that has become so since the record started included. -/
def runTcfg (r : Rec) (s : State) : State :=
  match currentRun s with
  | some u => if (tileOf (coreOf s u.core) (xfLo r % 4)).state = .draining then s else runRecord (.tcfg r) oneIssue noSrc tcfgAct s
  | none => s
def execTcfg (r : Rec) (s : State) : Host.Outcome State Fault Refusal := .next (runTcfg r s)

/-! ## epi, epiv (R87, R160, R161, R228, R229) -/

/-- The two sources of band scales, read once by the first issue. -/
def bandSrcs (s : State) (u : Run) : List (KReg × Int × Nat) :=
  let r := runRec u
  if !hasBand r || u.prog.issue != 0 then []
  else (if failed u 1 then [] else [(runTok s u r.opd1, (r.opd1.base.toNat : Int), 4)])
    ++ if failed u 2 then [] else [(runTok s u r.opd2, (r.opd2.base.toNat : Int), 4)]

/-- Two band scales read, as bf16 codes; poison gives +0 and a report (R402). -/
def readBand (u : Run) (a : Rn) (n : Nat) (o : Opd) : List Nat × Rn :=
  if !hasBand (runRec u) then ([0x3F80, 0x3F80], a)
  else
    let k := runTok a.st u o
    let x := engRead u a k (failed u n) o.base.toNat 4
    let bad := x.1.any (·.2)
    let bs := if bad then List.replicate 4 0 else x.1.map (·.1)
    let it : ErrItem := { kind := 12, core := 0, unit := 0, record := kSlot k, old := kBase k + o.base.toNat }
    let a1 : Rn := if bad then { x.2 with st := failRun x.2.st u it 5 } else x.2
    ([leNat (bs.take 2), leNat (bs.drop 2)], a1)

/-- A drained element: its pattern and flags; a zero and an infinity among its three factors are invalid whatever NaN the third is (R81, R87). -/
def drainEl (r : Rec) (bA bB : Fl) (draw : Nat) (w : Word) : Nat × BitVec 8 :=
  if drainInt r.ty then intBound r.ty (recCl r) w.toInt
  else
    let a := flMul (f64 w) bA
    let b := flMul a.1 bB
    let y := flRound r.ty ⟨r.mode.toNat, draw⟩ (recCl r) b.1
    let l := [f64 w, bA, bB]
    let invalid := l.any Fl.isZero && l.any fun x => x.isInf false || x.isInf true
    (y.1, a.2 ||| b.2 ||| flagIf (bA.isNan || bB.isNan || invalid) fIV ||| y.2)

/-- Draws of the stream's LFSR for `n` elements, used under sr only. -/
def streamDraws (x : Stream) (r : Rec) (n : Nat) : List Nat := if r.mode = 5 then draws n x.lfsr.toNat else List.replicate n 0
def stepLfsr (x : Stream) (r : Rec) (n : Nat) : Stream :=
  if r.mode = 5 then { x with lfsr := BitVec.ofNat 32 (lfsrN n x.lfsr.toNat) } else x

/-- Elements `start` to `start + n - 1` of a tile drained, with the band scales of rows and of columns. -/
def drainRange (r : Rec) (t : Tile) (band : List Nat) (ds : List Nat) (start n : Nat) : List (Nat × BitVec 8) :=
  let scale (i : Nat) : Fl := flDecode tyBf16 (band.getD i 0x3F80)
  ((List.range n).zip ds).map fun e =>
    let i := start + e.1
    drainEl r (scale (i / 128 / 64)) (scale (2 + i % 128 / 64)) e.2 (acc t i)

/-- The comparison of R160 and its outcome (R161) on the tail tile. -/
def checkTile (u : Run) (s : State) : State :=
  let c := coreOf s u.core
  let n := c.tail
  let t := tileOf c n
  if !(runRec u).cks || !t.checked || tileFailed c n then s
  else match failRows t, failCols t with
    | [], [] => s
    | [i], [j] =>
      let v := rebuilt t i j
      let s1 := mapCore s u.core fun c => setRing (addCorr (mapTile c n fun t => setAcc t (128 * i + j) v)) rCKCORR
      runItem s1 u { kind := 1, core := 0, unit := 0, tile := n, record := u.prog.idx, row := i, col := j
                     old := (acc t (128 * i + j)).toNat, new := v.toNat }
    | _, _ =>
      let s1 := mapCore s u.core fun c => setRing (failTile c n) rCKFAIL
      failRun s1 u { kind := 2, core := 0, unit := 0, tile := n, record := u.prog.idx } 3

def orList (l : List (Nat × BitVec 8)) : BitVec 8 := l.foldl (fun a e => a ||| e.2) 0

/-- A drain opens with its first issue: the band scales, and the comparison of the tile (R160, R228). -/
def openDrain (u : Run) (a : Rn) : List Nat × Rn :=
  if u.prog.issue != 0 then (u.prog.band, a)
  else
    let r := runRec u
    let bA := readBand u a 1 r.opd1
    let bB := readBand u bA.2 2 r.opd2
    let band := bA.1 ++ bB.1
    (band, { bB.2 with st := mapRun (checkTile u bB.2.st) u fun p => { p with band := band } })

/-- The elements from `start` that an issue drains, their conditions in the ring status and the draws taken. -/
def drainIssue (u : Run) (band : List Nat) (start n : Nat) (a : Rn) : List Nat × Rn :=
  let r := runRec u
  let c := coreOf a.st u.core
  let els := drainRange r (tileOf c c.tail) band (streamDraws (runStream a.st u) r n) start n
  (els.map (·.1), { a with st := mapStream (mapCore a.st u.core fun c => setRing c (ringFlags (orList els))) u.core u.own fun x => stepLfsr x r n })

/-- The last issue of a record acts. -/
def lastIssue (u : Run) : Bool := decide (trips (runRec u) ≤ u.prog.issue + 1)

/-- An issue of `epi` drains and writes one row; a failed tile writes nothing and ends the record. -/
def epiAct (u : Run) (a : Rn) : Rn :=
  let r := runRec u
  let x := openDrain u a
  let c := coreOf x.2.st u.core
  if tileFailed c c.tail then { x.2 with st := mapCore x.2.st u.core drainEnd, ends := true }
  else
    let y := drainIssue u x.1 (128 * u.prog.issue) 128 x.2
    let z := engWrite u y.2 (runTok y.2.st u r.opd0) (failed u 0) (opdAddr r r.opd0 u.prog.issue)
      ((y.1.flatMap (leBytes (tyWidth r.ty / 8))).map fun b => (b, false))
    if lastIssue u then { z with st := mapCore z.st u.core drainEnd } else z
def execEpi (r : Rec) (s : State) : Host.Outcome State Fault Refusal := .next (runRecord (.epi r) trips bandSrcs epiAct s)

/-- The tail tile after an `epiv`: FREE with the tail advanced, or FULL again. -/
def epivEnd (last : Bool) (c : Core) : Core := if last then drainEnd c else mapTile c c.tail fun t => { t with state := .full }

/-- Registers N onward of the captured slot, while it holds the task of the `estart`; else LOSTV. -/
def putDrained (u : Run) (a : Rn) (regs : List Nat) : Rn :=
  let r := runRec u
  let x := runStream a.st u
  let p := Party.slot u.core x.slot
  if (taskOf a.st p).status != .idle && (taskOf a.st p).run = x.run then
    { a with st := mapTask a.st p fun t =>
        ((List.range regs.length).zip regs).foldl (fun t e => { t with v := tset freshV t.v (vbase r + e.1) ⟨BitVec.ofNat 4096 e.2, r.ty⟩ }) t }
  else a.raise eLOSTV

/-- The registers of an `epiv` are filled: what the queues and semaphores hold now was made before (R229). -/
def closeDrain (u : Run) (s : State) : State :=
  mapCore s u.core fun c =>
    { c with drains := c.drains.map fun d =>
        if d.filling && decide (d.slot = (runStream s u).slot) then
          { d with filling := false, oldC := ticksOf c 2 1, oldE := ticksOf c 4 1, oldV := (c.sems.filter fun e => e.2.value != 0).map fun e => (e.1, e.2.value.toNat) }
        else d }

/-- An issue of `epiv` drains one register; the last one writes them all. A failed tile writes none. -/
def epivAct (u : Run) (a : Rn) : Rn :=
  let r := runRec u
  let x := openDrain u a
  let c := coreOf x.2.st u.core
  if tileFailed c c.tail then { x.2 with st := closeDrain u (mapCore x.2.st u.core drainEnd), ends := true }
  else
    let n := elems r.ty
    let y := drainIssue u x.1 (r.opd0.base.toNat + n * u.prog.issue) n x.2
    let regs := u.prog.regs ++ [joinW (tyWidth r.ty) y.1]
    if lastIssue u then
      let z := putDrained u y.2 regs
      { z with st := closeDrain u (mapCore z.st u.core (epivEnd (r.xf.getLsbD 8))) }
    else { y.2 with st := mapRun y.2.st u fun p => { p with regs := regs } }
def execEpiv (r : Rec) (s : State) : Host.Outcome State Fault Refusal := .next (runRecord (.epiv r) trips bandSrcs epivAct s)

/-! ## jrec, endstr (R230, R231) -/

def jrecAct (u : Run) (a : Rn) : Rn :=
  let r := runRec u
  { a with st := mapStream a.st u.core u.own fun x =>
      let n := (jrecNext x u.prog.idx r).toNat
      let k := tget 0 x.passes u.prog.idx
      { x with
        ridx := if x.state = .running then n else x.ridx
        passes := if r.xf.getLsbD 0 then x.passes else tset 0 x.passes u.prog.idx (if k + 1 < r.n0.toNat + 1 then k + 1 else 0) } }
def execJrec (r : Rec) (s : State) : Host.Outcome State Fault Refusal := .next (runRecord (.jrec r) oneIssue noSrc jrecAct s)

def endstrAct (u : Run) (a : Rn) : Rn :=
  let s1 := mapStream a.st u.core u.own fun x => if x.state = .running then { x with state := .ended, ridx := u.prog.idx } else x
  { a with st := if u.own = .matrix then mapCore s1 u.core fillEnd else s1 }
def execEndstr (r : Rec) (s : State) : Host.Outcome State Fault Refusal := .next (runRecord (.endstr r) oneIssue noSrc endstrAct s)

end Sys2Proof.Machine
end

