-- ==== Sys2Proof/Machine/Dispatch.lean ====
section
/-! DEFINITION. One arm per constructor of Instr: each a direct call of its meaning. -/

namespace Sys2Proof.Machine

def exec (i : Instr) (s : State) : Host.Outcome State Fault Refusal :=
  match i with
  | .add f => Sys2Proof.Machine.execAdd f s
  | .sub f => Sys2Proof.Machine.execSub f s
  | .min f => Sys2Proof.Machine.execMin f s
  | .max f => Sys2Proof.Machine.execMax f s
  | .minn f => Sys2Proof.Machine.execMinn f s
  | .maxn f => Sys2Proof.Machine.execMaxn f s
  | .addi f => Sys2Proof.Machine.execAddi f s
  | .mul f => Sys2Proof.Machine.execMul f s
  | .mulh f => Sys2Proof.Machine.execMulh f s
  | .mulhn f => Sys2Proof.Machine.execMulhn f s
  | .div f => Sys2Proof.Machine.execDiv f s
  | .divn f => Sys2Proof.Machine.execDivn f s
  | .rem f => Sys2Proof.Machine.execRem f s
  | .remn f => Sys2Proof.Machine.execRemn f s
  | .and f => Sys2Proof.Machine.execAnd f s
  | .or f => Sys2Proof.Machine.execOr f s
  | .xor f => Sys2Proof.Machine.execXor f s
  | .andn f => Sys2Proof.Machine.execAndn f s
  | .shl f => Sys2Proof.Machine.execShl f s
  | .shr f => Sys2Proof.Machine.execShr f s
  | .sra f => Sys2Proof.Machine.execSra f s
  | .rot f => Sys2Proof.Machine.execRot f s
  | .cmp c f => Sys2Proof.Machine.execCmp c f s
  | .sel f => Sys2Proof.Machine.execSel f s
  | .clz f => Sys2Proof.Machine.execClz f s
  | .ctz f => Sys2Proof.Machine.execCtz f s
  | .popc f => Sys2Proof.Machine.execPopc f s
  | .bfx f => Sys2Proof.Machine.execBfx f s
  | .bfi f => Sys2Proof.Machine.execBfi f s
  | .li f => Sys2Proof.Machine.execLi f s
  | .lih f => Sys2Proof.Machine.execLih f s
  | .name f => Sys2Proof.Machine.execName f s
  | .br c f => Sys2Proof.Machine.execBr c f s
  | .jmp f => Sys2Proof.Machine.execJmp f s
  | .call f => Sys2Proof.Machine.execCall f s
  | .loop l f => Sys2Proof.Machine.execLoop l f s
  | .jmpr f => Sys2Proof.Machine.execJmpr f s
  | .ret f => Sys2Proof.Machine.execRet f s
  | .loopx f => Sys2Proof.Machine.execLoopx f s
  | .halt f => Sys2Proof.Machine.execHalt f s
  | .nop f => Sys2Proof.Machine.execNop f s
  | .suspend f => Sys2Proof.Machine.execSuspend f s
  | .waita f => Sys2Proof.Machine.execWaita f s
  | .fadd f => Sys2Proof.Machine.execFadd f s
  | .fmul f => Sys2Proof.Machine.execFmul f s
  | .ffma f => Sys2Proof.Machine.execFfma f s
  | .fcmp c f => Sys2Proof.Machine.execFcmp c f s
  | .fcvt f => Sys2Proof.Machine.execFcvt f s
  | .csrr f => Sys2Proof.Machine.execCsrr f s
  | .csrw f => Sys2Proof.Machine.execCsrw f s
  | .trap f => Sys2Proof.Machine.execTrap f s
  | .ld f => Sys2Proof.Machine.execLd f s
  | .st f => Sys2Proof.Machine.execSt f s
  | .lda f => Sys2Proof.Machine.execLda f s
  | .kld f => Sys2Proof.Machine.execKld f s
  | .kst f => Sys2Proof.Machine.execKst f s
  | .ksub f => Sys2Proof.Machine.execKsub f s
  | .kinfo f => Sys2Proof.Machine.execKinfo f s
  | .xlatTrap f => Sys2Proof.Machine.execXlatTrap f s
  | .xlatWait f => Sys2Proof.Machine.execXlatWait f s
  | .xlatlTrap f => Sys2Proof.Machine.execXlatlTrap f s
  | .xlatlWait f => Sys2Proof.Machine.execXlatlWait f s
  | .trel f => Sys2Proof.Machine.execTrel f s
  | .seal f => Sys2Proof.Machine.execSeal f s
  | .unseal f => Sys2Proof.Machine.execUnseal f s
  | .krevoke f => Sys2Proof.Machine.execKrevoke f s
  | .vadd f => Sys2Proof.Machine.execVadd f s
  | .vsub f => Sys2Proof.Machine.execVsub f s
  | .vmul f => Sys2Proof.Machine.execVmul f s
  | .vfma f => Sys2Proof.Machine.execVfma f s
  | .vfms f => Sys2Proof.Machine.execVfms f s
  | .vmin f => Sys2Proof.Machine.execVmin f s
  | .vmax f => Sys2Proof.Machine.execVmax f s
  | .vdiv f => Sys2Proof.Machine.execVdiv f s
  | .vsqrt f => Sys2Proof.Machine.execVsqrt f s
  | .vcmp c f => Sys2Proof.Machine.execVcmp c f s
  | .vsel f => Sys2Proof.Machine.execVsel f s
  | .vand f => Sys2Proof.Machine.execVand f s
  | .vor f => Sys2Proof.Machine.execVor f s
  | .vxor f => Sys2Proof.Machine.execVxor f s
  | .vshl f => Sys2Proof.Machine.execVshl f s
  | .vshr f => Sys2Proof.Machine.execVshr f s
  | .vsra f => Sys2Proof.Machine.execVsra f s
  | .vcvt f => Sys2Proof.Machine.execVcvt f s
  | .vnarrow f => Sys2Proof.Machine.execVnarrow f s
  | .vwmul f => Sys2Proof.Machine.execVwmul f s
  | .vwadd f => Sys2Proof.Machine.execVwadd f s
  | .vredAdd f => Sys2Proof.Machine.execVredAdd f s
  | .vredMin f => Sys2Proof.Machine.execVredMin f s
  | .vredMax f => Sys2Proof.Machine.execVredMax f s
  | .vbcast f => Sys2Proof.Machine.execVbcast f s
  | .vperm f => Sys2Proof.Machine.execVperm f s
  | .vzip f => Sys2Proof.Machine.execVzip f s
  | .vuzp f => Sys2Proof.Machine.execVuzp f s
  | .vpack f => Sys2Proof.Machine.execVpack f s
  | .vexp2 f => Sys2Proof.Machine.execVexp2 f s
  | .vlog2 f => Sys2Proof.Machine.execVlog2 f s
  | .vrcp f => Sys2Proof.Machine.execVrcp f s
  | .vrsq f => Sys2Proof.Machine.execVrsq f s
  | .vsin f => Sys2Proof.Machine.execVsin f s
  | .vcos f => Sys2Proof.Machine.execVcos f s
  | .vtanh f => Sys2Proof.Machine.execVtanh f s
  | .vplane f => Sys2Proof.Machine.execVplane f s
  | .vunpl f => Sys2Proof.Machine.execVunpl f s
  | .vld f => Sys2Proof.Machine.execVld f s
  | .vst f => Sys2Proof.Machine.execVst f s
  | .vlda f => Sys2Proof.Machine.execVlda f s
  | .vgath f => Sys2Proof.Machine.execVgath f s
  | .vscat f => Sys2Proof.Machine.execVscat f s
  | .mand f => Sys2Proof.Machine.execMand f s
  | .mor f => Sys2Proof.Machine.execMor f s
  | .mnot f => Sys2Proof.Machine.execMnot f s
  | .mcnt f => Sys2Proof.Machine.execMcnt f s
  | .mfrom f => Sys2Proof.Machine.execMfrom f s
  | .accld f => Sys2Proof.Machine.execAccld f s
  | .accst f => Sys2Proof.Machine.execAccst f s
  | .waitacc f => Sys2Proof.Machine.execWaitacc f s
  | .xclr f => Sys2Proof.Machine.execXclr f s
  | .xform f => Sys2Proof.Machine.execXform f s
  | .xord f => Sys2Proof.Machine.execXord f s
  | .xm2m f => Sys2Proof.Machine.execXm2m f s
  | .xm2l f => Sys2Proof.Machine.execXm2l f s
  | .xl2l f => Sys2Proof.Machine.execXl2l f s
  | .xadd f => Sys2Proof.Machine.execXadd f s
  | .xeval f => Sys2Proof.Machine.execXeval f s
  | .xmeval f => Sys2Proof.Machine.execXmeval f s
  | .xadm f => Sys2Proof.Machine.execXadm f s
  | .xld f => Sys2Proof.Machine.execXld f s
  | .xst f => Sys2Proof.Machine.execXst f s
  | .fence sc f => Sys2Proof.Machine.execFence sc f s
  | .atomAdd f => Sys2Proof.Machine.execAtomAdd f s
  | .atomAnd f => Sys2Proof.Machine.execAtomAnd f s
  | .atomOr f => Sys2Proof.Machine.execAtomOr f s
  | .atomXor f => Sys2Proof.Machine.execAtomXor f s
  | .atomMin f => Sys2Proof.Machine.execAtomMin f s
  | .atomMax f => Sys2Proof.Machine.execAtomMax f s
  | .atomSwap f => Sys2Proof.Machine.execAtomSwap f s
  | .cas f => Sys2Proof.Machine.execCas f s
  | .barinit f => Sys2Proof.Machine.execBarinit f s
  | .bararr f => Sys2Proof.Machine.execBararr f s
  | .barwait f => Sys2Proof.Machine.execBarwait f s
  | .seminit f => Sys2Proof.Machine.execSeminit f s
  | .semp f => Sys2Proof.Machine.execSemp f s
  | .semv f => Sys2Proof.Machine.execSemv f s
  | .tlsig f => Sys2Proof.Machine.execTlsig f s
  | .tlwait f => Sys2Proof.Machine.execTlwait f s
  | .tlset f => Sys2Proof.Machine.execTlset f s
  | .estart f => Sys2Proof.Machine.execEstart f s
  | .ewait f => Sys2Proof.Machine.execEwait f s
  | .mcast f => Sys2Proof.Machine.execMcast f s
  | .qsend f => Sys2Proof.Machine.execQsend f s
  | .qtake f => Sys2Proof.Machine.execQtake f s
  | .stage f => Sys2Proof.Machine.execStage f s
  | .launch f => Sys2Proof.Machine.execLaunch f s
  | .ptc f => Sys2Proof.Machine.execPtc f s
  | .frsave f => Sys2Proof.Machine.execFrsave f s
  | .frload f => Sys2Proof.Machine.execFrload f s
  | .frstat f => Sys2Proof.Machine.execFrstat f s
  | .callb f => Sys2Proof.Machine.execCallb f s
  | .retb f => Sys2Proof.Machine.execRetb f s
  | .predm f => Sys2Proof.Machine.execPredm f s
  | .loopc f => Sys2Proof.Machine.execLoopc f s
  | .ffence f => Sys2Proof.Machine.execFfence f s
  | .waitline f => Sys2Proof.Machine.execWaitline f s
  | .coll f => Sys2Proof.Machine.execColl f s
  | .cwait f => Sys2Proof.Machine.execCwait f s
  | .cabort f => Sys2Proof.Machine.execCabort f s
  | .ringf f => Sys2Proof.Machine.execRingf f s
  | .tierpf f => Sys2Proof.Machine.execTierpf f s
  | .eret f => Sys2Proof.Machine.execEret f s
  | .bkpt f => Sys2Proof.Machine.execBkpt f s
  | .trmark f => Sys2Proof.Machine.execTrmark f s
  | .perfsnap f => Sys2Proof.Machine.execPerfsnap f s
  | .resultWrite p => Sys2Proof.Machine.execResultWrite p s
  | .asyncLoadDataWritten p j => Sys2Proof.Machine.execAsyncLoadDataWritten p j s
  | .accExchangePerformed p j => Sys2Proof.Machine.execAccExchangePerformed p j s
  | .storePerformed p j => Sys2Proof.Machine.execStorePerformed p j s
  | .shortLivedExpiry p => Sys2Proof.Machine.execShortLivedExpiry p s
  | .bankRefresh core bank => Sys2Proof.Machine.execBankRefresh core bank s
  | .pinCacheFill cluster slot => Sys2Proof.Machine.execPinCacheFill cluster slot s
  | .heldTickPush p => Sys2Proof.Machine.execHeldTickPush p s
  | .loopIterationEnd p => Sys2Proof.Machine.execLoopIterationEnd p s
  | .loopExit p => Sys2Proof.Machine.execLoopExit p s
  | .haltRetire p => Sys2Proof.Machine.execHaltRetire p s
  | .recordStart core e => Sys2Proof.Machine.execRecordStart core e s
  | .recordFinish core e => Sys2Proof.Machine.execRecordFinish core e s
  | .copy r => Sys2Proof.Machine.execCopy r s
  | .fill r => Sys2Proof.Machine.execFill r s
  | .copypl r => Sys2Proof.Machine.execCopypl r s
  | .copyrm r => Sys2Proof.Machine.execCopyrm r s
  | .decomp r => Sys2Proof.Machine.execDecomp r s
  | .chainedMmaHandoff core => Sys2Proof.Machine.execChainedMmaHandoff core s
  | .mma r => Sys2Proof.Machine.execMma r s
  | .mmaReplay core => Sys2Proof.Machine.execMmaReplay core s
  | .tcfg r => Sys2Proof.Machine.execTcfg r s
  | .epi r => Sys2Proof.Machine.execEpi r s
  | .epiv r => Sys2Proof.Machine.execEpiv r s
  | .jrec r => Sys2Proof.Machine.execJrec r s
  | .endstr r => Sys2Proof.Machine.execEndstr r s
  | .leaveGrant cluster => Sys2Proof.Machine.execLeaveGrant cluster s
  | .leaveEnd cluster j => Sys2Proof.Machine.execLeaveEnd cluster j s
  | .handlerStart p => Sys2Proof.Machine.execHandlerStart p s
  | .supervisorFrameWrite die => Sys2Proof.Machine.execSupervisorFrameWrite die s
  | .stairwellFire die => Sys2Proof.Machine.execStairwellFire die s
  | .riserReturn die l => Sys2Proof.Machine.execRiserReturn die l s
  | .usherTaskStart cluster => Sys2Proof.Machine.execUsherTaskStart cluster s
  | .entryClassRise die l j => Sys2Proof.Machine.execEntryClassRise die l j s
  | .mcastPlace cluster => Sys2Proof.Machine.execMcastPlace cluster s
  | .usherRebalance die l => Sys2Proof.Machine.execUsherRebalance die l s
  | .coreStageMove core => Sys2Proof.Machine.execCoreStageMove core s
  | .spillEntryReturn die l => Sys2Proof.Machine.execSpillEntryReturn die l s
  | .overflowTranslationDone die l => Sys2Proof.Machine.execOverflowTranslationDone die l s
  | .continuationResume cluster => Sys2Proof.Machine.execContinuationResume cluster s
  | .launchBind die l x0 y0 xform => Sys2Proof.Machine.execLaunchBind die l x0 y0 xform s
  | .preempt die l => Sys2Proof.Machine.execPreempt die l s
  | .taskCheckpoint p => Sys2Proof.Machine.execTaskCheckpoint p s
  | .preemptBudgetExpiry p => Sys2Proof.Machine.execPreemptBudgetExpiry p s
  | .victimSettled die l => Sys2Proof.Machine.execVictimSettled die l s
  | .launchEnd die l => Sys2Proof.Machine.execLaunchEnd die l s
  | .commandStreamStart die ctx tok off => Sys2Proof.Machine.execCommandStreamStart die ctx tok off s
  | .commandFetch p => Sys2Proof.Machine.execCommandFetch p s
  | .xlatComplete p => Sys2Proof.Machine.execXlatComplete p s
  | .pageReply vf => Sys2Proof.Machine.execPageReply vf s
  | .revocationDrainDone slot => Sys2Proof.Machine.execRevocationDrainDone slot s
  | .sweep => Sys2Proof.Machine.execSweep s
  | .slotFree slot => Sys2Proof.Machine.execSlotFree slot s
  | .sealInForce p => Sys2Proof.Machine.execSealInForce p s
  | .contextSwitchCut die ctx => Sys2Proof.Machine.execContextSwitchCut die ctx s
  | .contextRestore die ctx move => Sys2Proof.Machine.execContextRestore die ctx move s
  | .contextTeardown ctx => Sys2Proof.Machine.execContextTeardown ctx s
  | .debugStop die l => Sys2Proof.Machine.execDebugStop die l s
  | .gallerySpill core => Sys2Proof.Machine.execGallerySpill core s
  | .swapPairOpen die slotA pageA near => Sys2Proof.Machine.execSwapPairOpen die slotA pageA near s
  | .swapLineMove die pair => Sys2Proof.Machine.execSwapLineMove die pair s
  | .swapPairComplete die pair => Sys2Proof.Machine.execSwapPairComplete die pair s
  | .swapPairAbandon die pair => Sys2Proof.Machine.execSwapPairAbandon die pair s
  | .tierpfRequestTimeout die j => Sys2Proof.Machine.execTierpfRequestTimeout die j s
  | .channelRetireStart pc => Sys2Proof.Machine.execChannelRetireStart pc s
  | .channelRetired pc => Sys2Proof.Machine.execChannelRetired pc s
  | .pcStatusWrite pc v => Sys2Proof.Machine.execPcStatusWrite pc v s
  | .erasureListWrite rank v => Sys2Proof.Machine.execErasureListWrite rank v s
  | .pseudoChannelNarrow pc cause => Sys2Proof.Machine.execPseudoChannelNarrow pc cause s
  | .hbmTempReport stack temp => Sys2Proof.Machine.execHbmTempReport stack temp s
  | .capWordWrite cap reserve => Sys2Proof.Machine.execCapWordWrite cap reserve s
  | .budgetWordWrite cluster budget => Sys2Proof.Machine.execBudgetWordWrite cluster budget s
  | .powerOn => Sys2Proof.Machine.execPowerOn s
  | .firmwareUpdateLoad img => Sys2Proof.Machine.execFirmwareUpdateLoad img s
  | .getVersion fn => Sys2Proof.Machine.execGetVersion fn s
  | .getCapabilities fn => Sys2Proof.Machine.execGetCapabilities fn s
  | .negotiateAlgorithms fn => Sys2Proof.Machine.execNegotiateAlgorithms fn s
  | .getDigests fn => Sys2Proof.Machine.execGetDigests fn s
  | .getCertificate fn => Sys2Proof.Machine.execGetCertificate fn s
  | .challenge fn nonce => Sys2Proof.Machine.execChallenge fn nonce s
  | .getMeasurements fn index => Sys2Proof.Machine.execGetMeasurements fn index s
  | .keyExchange fn share => Sys2Proof.Machine.execKeyExchange fn share s
  | .finish fn => Sys2Proof.Machine.execFinish fn s
  | .hostCxlMemAccess addr len data => Sys2Proof.Machine.execHostCxlMemAccess addr len data s
  | .linkFlitReceive link flit => Sys2Proof.Machine.execLinkFlitReceive link flit s
  | .linkDown link => Sys2Proof.Machine.execLinkDown link s
  | .linkTrained link => Sys2Proof.Machine.execLinkTrained link s
  | .routingTableWrite dev mask => Sys2Proof.Machine.execRoutingTableWrite dev mask s
  | .exportTableWrite idx v => Sys2Proof.Machine.execExportTableWrite idx v s
  | .read => Sys2Proof.Machine.execRead s
  | .readReply => Sys2Proof.Machine.execReadReply s
  | .write => Sys2Proof.Machine.execWrite s
  | .writeAck => Sys2Proof.Machine.execWriteAck s
  | .atomic => Sys2Proof.Machine.execAtomic s
  | .atomicReply => Sys2Proof.Machine.execAtomicReply s
  | .collectiveData => Sys2Proof.Machine.execCollectiveData s
  | .abort => Sys2Proof.Machine.execAbort s
  | .ringHello => Sys2Proof.Machine.execRingHello s
  | .peerRequestTimeout j => Sys2Proof.Machine.execPeerRequestTimeout j s
  | .collectiveTimeout j => Sys2Proof.Machine.execCollectiveTimeout j s
  | .helloHoldExpiry j => Sys2Proof.Machine.execHelloHoldExpiry j s
  | .hostLineChange addr data => Sys2Proof.Machine.execHostLineChange addr data s
  | .ringFormationTimeout p => Sys2Proof.Machine.execRingFormationTimeout p s
  | .powerLoss => Sys2Proof.Machine.execPowerLoss s
  | .coreFault core => Sys2Proof.Machine.execCoreFault core s
  | .contextCreate c => Sys2Proof.Machine.execContextCreate c s
  | .commandStreamStop die ctx => Sys2Proof.Machine.execCommandStreamStop die ctx s
  | .spareFramePoolFill die frames => Sys2Proof.Machine.execSpareFramePoolFill die frames s
  | .modeTableWrite frame gang => Sys2Proof.Machine.execModeTableWrite frame gang s
  | .tokenPageRegister ctx base len => Sys2Proof.Machine.execTokenPageRegister ctx base len s

end Sys2Proof.Machine
end

