-- ==== Sys2Proof/Machine/Visit.lean ====
section
/-! DEFINITION. What a turn does (log 2): the event rows that a visit of a slot, a stream or an engine runs of itself, the fetch and
decoding of its word or record, and the placing of one instruction where the next turn fetches it. -/

namespace Sys2Proof.Machine

/-! ## The rows that a visit runs of itself -/

/-- A debug stop of the task's launch stands (R382). -/
def launchStopped (s : State) (p : Party) : Bool :=
  match (taskOf s p).launch with
  | some (d, l) => (launchOf s d l).stopHeld
  | none => false

/-- A short-lived entry's time has come. -/
def lifeDue : Life → Bool
  | .left 0 => true
  | _ => false

/-- The row due before a running slot's word. -/
def rowDue (s : State) (p : Party) : Option Instr :=
  let t := taskOf s p
  if let some n := t.pinMiss then some (.pinCacheFill (clusterOf (coreNo p)) n)
  else if heldTick t then some (.heldTickPush p)
  else if killDue s p then some (.preemptBudgetExpiry p)
  else if t.exits then some (.loopExit p)
  else if atLoopEnd t || (isPorter p && (blockEnd t).isSome) then some (.loopIterationEnd p)
  else if t.t.any (fun e => lifeDue e.life) || t.w.any (fun e => lifeDue e.life) then some (.shortLivedExpiry p)
  else if checkpointDue s p then some (.taskCheckpoint p)
  else if isPorter p && t.stores.isEmpty && t.wait = .none && missingWords s p != [] then some (.commandFetch p)
  else none

/-- A command stream waits: words of its fetch-ahead are missing, and an earlier store is still to be performed before they are read (R299). -/
def fetchHeld (s : State) (p : Party) : Bool :=
  isPorter p && !(taskOf s p).stores.isEmpty && decide ((taskOf s p).wait = .none) && missingWords s p != []

/-! ## Words -/

/-- The word a party stands at (R47), from its loop buffer after a loop's first pass (R72): none beyond a `.task` section; a word outside a
command buffer reads 0 (R299). -/
def fetchWord (s : State) (p : Party) : Option Word :=
  match issueCode s p (taskOf s p).pc with
  | some w => some w
  | none => if isPorter p then some 0 else none

/-- ILL at a word that is no instruction, after a breakpoint on it (R35, R66, R380); one of an inactive stage raises nothing else (R74). -/
def badWord (s : State) (p : Party) (w : Word) (detail : Nat) : State :=
  let t := taskOf s p
  if inactive t then trapHere s p w (mkTrap cILL detail)
  else match bpHit s p, inPiped t with
  | some n, false => takeTrap s p t.pc { mkTrap cDBG 2 with resume := t.pc, aux0 := BitVec.ofNat 64 n }
  | some n, true => trapHere (holdEvent s p { mkTrap cDBG 2 with aux0 := BitVec.ofNat 64 n }) p w (mkTrap cILL detail)
  | none, _ => trapHere s p w (mkTrap cILL detail)

/-- Detail 1 or 2 (R35). -/
def badDetail : DecodeError → Nat
  | .reserved => 2
  | _ => 1

/-- The refresh of a bank of the core that the party runs on, while it is still to meet a read (R61). -/
def refreshing (s : State) (p : Party) : Option Nat := if isPorter p then none else (coreOf s (coreNo p)).refresh

/-- A decoded word in its issue cycle: on the state with the due results landed (R55); a slot that freezes keeps them in flight (R60),
and only asks what it lacks. A read that falls on a bank in refresh has it freeze for this visit alone (R61). -/
def runDecoded (i : Instr) (s : State) : Host.Outcome State Fault Refusal :=
  match exec i (landDue s s.cur) with
  | .next r =>
    if r.moved then .next r
    else if (refreshing s s.cur).isSome && (refreshing r s.cur).isNone then
      .next (mapCore s (coreNo s.cur) fun c => { c with refresh := none })
    else match exec i s with
      | .next q => .next (if q.moved then s else q)
      | o => o
  | o => o

/-- The issue cycle of a running slot or stream. -/
def visitWord (s : State) (p : Party) : Host.Outcome State Fault Refusal :=
  if lateData (taskOf s p) then .next s
  else match fetchWord s p with
    | none => .next (trapHere (landDue s p) p 0 (mkTrap cILL 5))
    | some w =>
      match decodeWord w with
      | .bad e => .next (badWord (landDue s p) p w (badDetail e))
      | .ok i => runDecoded i (bufferWord s p w)

/-- A halting task: results land as their cycles pass, and it retires when nothing is left (R126). -/
def visitHalting (s : State) (p : Party) : Host.Outcome State Fault Refusal :=
  let t := taskOf s p
  if haltDone s p then exec (.haltRetire p) s
  else if heldTick t then exec (.heldTickPush p) s
  else if !t.flights.isEmpty && !lateData t then .next (endCycle (landDue s p) p)
  else .next s

/-- A running slot or stream with no row due: its issue cycle, unless it is held. -/
def visitReady (s : State) (p : Party) : Host.Outcome State Fault Refusal :=
  if fetchHeld s p then .next s
  else if launchStopped s p && !inPiped (taskOf s p) then .next (holdTask s p)
  else visitWord s p

/-- The rows due are no issue cycles: they take place as the visit comes, and then the slot issues its word in the same visit, if it still runs
(R59, R72); while one that is due stays due, the slot is frozen. -/
def visitRun : Nat → State → Party → Host.Outcome State Fault Refusal
  | 0, s, _ => .next s
  | n + 1, s, p =>
    match rowDue s p with
    | none => visitReady s p
    | some ev =>
      match exec ev s with
      | .next r => if (taskOf r p).status = .run then visitRun n r p else .next r
      | o => o

def visitTask (s : State) (p : Party) : Host.Outcome State Fault Refusal :=
  match (taskOf s p).status with
  | .run => visitRun 16 s p
  | .halting => visitHalting s p
  | .trapped => if isPorter p then .next s else exec (.handlerStart p) s
  | _ => .next s

/-! ## Records -/

/-- The chaining record of the copy engine has written its last byte and is not handed over yet (R224). -/
def handoffDue (s : State) (c : Nat) (e : Engine) : Bool :=
  decide (e = .copy) && (theStream s c .copy).prog.any fun p => (recOf p.bits).chain && p.done && p.waits.isEmpty && !p.handed

/-- An engine: a record's end, then a record that acts, then a start. -/
def visitEngine (s : State) (c : Nat) (e : Engine) : Host.Outcome State Fault Refusal :=
  if (theStream s c e).held.isSome then exec (.heldTickPush (.engine c e)) s
  else if handoffDue s c e then exec (.chainedMmaHandoff c) s
  else if (finishing s c e).isSome then exec (.recordFinish c e) s
  else match currentRun s with
    | none => exec (.recordStart c e) s
    | some u =>
      if e = .matrix && !(coreOf s c).ate.isEmpty then exec (.mmaReplay c) s
      else if u.prog.asked && !u.prog.waits.isEmpty then exec (.recordStart c e) s
      else match decodeRecord u.prog.bits with
        | .ok i => exec i s
        | .bad _ => .next s

/-- The state in which a party's turn begins. -/
def atTurn (s : State) (p : Party) : State := { s with cur := p, moved := false }

/-! ## Whose turn it is (R59, R297) -/

/-- A stream's place in its Porter's rotation; the supervisor comes last. -/
def streamPlace : Party → Nat
  | .stream _ c => c
  | _ => 64
def streamAt (die i : Nat) : Party := if i < 64 then .stream die i else .super die

/-- A stream that is neither frozen nor stopped: something of it moves when it is visited. -/
def streamMoves (s : State) (p : Party) : Bool :=
  match (taskOf s p).status with
  | .run => (rowDue s p).isSome || match visitTask (atTurn s p) p with | .next r => r.moved | _ => true
  | .halting => true
  | _ => false

/-- The issue stage of a core stands at this slot; every stream of the Porter from the one it stands at to this one is still. -/
def inTurn (s : State) (p : Party) : Bool :=
  match p with
  | .slot c n => decide ((coreOf s c).rot = n)
  | .engine _ _ => true
  | _ =>
    let d := dieNo p
    let from_ := (dieOf s d).rot
    (List.range ((streamPlace p + 65 - from_) % 65)).all fun i => !streamMoves s (streamAt d ((from_ + i) % 65))

/-- The rotation goes on to the next place. -/
def turnOver (s : State) (p : Party) : State :=
  match p with
  | .slot c n => mapCore s c fun k => { k with rot := (n + 1) % 4 }
  | .engine _ _ => s
  | _ => mapDie s (dieNo p) fun d => { d with rot := (streamPlace p + 1) % 65 }

/-- A visit: an engine whenever it comes, a slot or a stream in its turn of the rotation. -/
def visit (s : State) (p : Party) : Host.Outcome State Fault Refusal :=
  if !inTurn s p then .next s
  else
    let s0 := atTurn (turnOver s p) p
    match p with
    | .engine c e => visitEngine s0 c e
    | _ => visitTask s0 p

/-! ## Events -/

def taskParty (p : Party) : Bool :=
  partyOk p && match p with | .engine _ _ => false | _ => true

/-- An event names a party, core, die, cluster, pseudo-channel or link of the device. -/
def eventOk : Instr → Bool
  | .resultWrite p => taskParty p
  | .asyncLoadDataWritten p _ => taskParty p
  | .accExchangePerformed p _ => taskParty p
  | .storePerformed p _ => taskParty p
  | .shortLivedExpiry p => taskParty p
  | .bankRefresh c _ => c < 512
  | .pinCacheFill c _ => c < 32
  | .heldTickPush p => partyOk p
  | .loopIterationEnd p => taskParty p
  | .loopExit p => taskParty p
  | .haltRetire p => taskParty p
  | .recordStart c _ => c < 512
  | .recordFinish c _ => c < 512
  | .chainedMmaHandoff c => c < 512
  | .mmaReplay c => c < 512
  | .leaveGrant c => c < 32
  | .leaveEnd c _ => c < 32
  | .handlerStart p => taskParty p
  | .supervisorFrameWrite d => d < 4
  | .stairwellFire d => d < 4
  | .riserReturn d l => d < 4 && l < 32
  | .usherTaskStart c => c < 32
  | .entryClassRise d l _ => d < 4 && l < 32
  | .mcastPlace c => c < 32
  | .usherRebalance d l => d < 4 && l < 32
  | .coreStageMove c => c < 512
  | .spillEntryReturn d l => d < 4 && l < 32
  | .overflowTranslationDone d l => d < 4 && l < 32
  | .continuationResume c => c < 32
  | .launchBind d l _ _ _ => d < 4 && l < 32
  | .preempt d l => d < 4 && l < 32
  | .taskCheckpoint p => taskParty p
  | .preemptBudgetExpiry p => taskParty p
  | .victimSettled d l => d < 4 && l < 32
  | .launchEnd d l => d < 4 && l < 32
  | .commandStreamStart d c _ _ => d < 4 && c < 64
  | .commandFetch p => taskParty p
  | .xlatComplete p => taskParty p
  | .revocationDrainDone n => n < 65536
  | .slotFree n => n < 65536
  | .sealInForce p => taskParty p
  | .contextSwitchCut d c => d < 4 && c < 64
  | .contextRestore d c _ => d < 4 && c < 64
  | .contextTeardown c => c < 64
  | .debugStop d l => d < 4 && l < 32
  | .gallerySpill c => c < 512
  | .swapPairOpen d _ _ _ => d < 4
  | .swapLineMove d _ => d < 4
  | .swapPairComplete d _ => d < 4
  | .swapPairAbandon d _ => d < 4
  | .tierpfRequestTimeout d _ => d < 4
  | .linkFlitReceive n _ => n < 16
  | .linkDown n => n < 16
  | .linkTrained n => n < 16
  | .ringFormationTimeout p => taskParty p
  | .coreFault c => c < 512
  | .commandStreamStop d c => d < 4 && c < 64
  | .spareFramePoolFill d _ => d < 4
  | _ => true

/-- What happens outside the module happens without power too: POWER_ON, and the host's own stores. -/
def outside : Instr → Bool
  | .powerOn => true
  | .hostLineChange _ _ => true
  | _ => false

/-- Messages queued for peers leave as the links allow (spec 21, R430), and held page requests as their rings do (spec 20, R419). -/
def drainOut (o : Host.Outcome State Fault Refusal) : Host.Outcome State Fault Refusal :=
  match o with
  | .next s => .next (flushAll (if s.outbox.isEmpty then s else pump s))
  | x => x

def runEventRow (i : Instr) (s : State) : Host.Outcome State Fault Refusal :=
  if !i.isEvent then .refused .notAnEvent
  else if !eventOk i then .fault .noSuchParty
  else if s.powered || outside i then drainOut (exec i s) else .next s

def runVisit (p : Party) (s : State) : Host.Outcome State Fault Refusal :=
  if !partyOk p then .fault .noSuchParty else if s.powered then drainOut (visit s p) else .next s

/-- The next turn: of the schedule in State, else of Config's (log 2). -/
def nextTurn (s : State) : Turn × State :=
  match s.sched with
  | t :: r => (t, { s with sched := r })
  | [] => (Config.schedule s.turnNo, { s with turnNo := s.turnNo + 1 })

/-! ## One instruction placed (log 31) -/

/-- Where a task word runs: the Porter's own words on a command stream, privileged ones on the supervisor, the rest in a task slot. -/
def homeOf (w : Word) : Party :=
  match decodeWord w with
  | .ok (.krevoke _) | .ok (.frsave _) | .ok (.frload _) | .ok (.tlset _) => .super 0
  | .ok (.launch _) | .ok (.callb _) | .ok (.retb _) | .ok (.predm _) | .ok (.loopc _) | .ok (.ffence _) | .ok (.waitline _) => .stream 0 0
  | _ => .slot 0 0

/-- A window that is about to fetch word 0. -/
def readyTask (t : Task) (p : Party) (w : Word) : Task :=
  let launch := if isPorter p then none else some (0, 0)
  let buf := if isPorter p then mkTok 0 0 0 8 8 0 else t.buf
  let fetched := if isPorter p then [(0, w)] else t.fetched
  { t with
    status := .run, pc := 0, launch := launch, buf := buf, fetched := fetched, wait := .none, loops := [], loopcs := [], lbuf := [], exits := false
    flights := [], sigq := [], pinMiss := none, fate := .none, step := false }

/-- The image of a launch whose `.task`, or whose engine's section, lies at near byte 0. -/
def placedImage (e : Option Engine) : Image :=
  { tok := noTok, task := if e.isNone then (0, 8) else (0, 0), copy := if e = some .copy then (0, 64) else (0, 0)
    matrix := if e = some .matrix then (0, 64) else (0, 0), epilogue := if e = some .epilogue then (0, 64) else (0, 0), ckpt := [] }

/-- Bytes at near address 0, which slot 0 names, and the turn that comes next. -/
def placeBytes (s : State) (bs : List Byte) (p : Party) : State :=
  { s with
    powered := true, near := msetBytes s.near 0 bs, slots := tput s.slots 0 { PinSlot.fresh with state := .live, extlen := 65536 }
    words := tput s.words 0 PinWord.fresh, sched := ⟨0, .visit p⟩ :: s.sched }

def placeWord (s : State) (w : Word) : State :=
  let p := homeOf w
  let s1 := placeBytes s (leBytes 8 w.toNat) p
  let s2 := if isPorter p then mapDie s1 0 fun d => { d with rot := streamPlace p }
    else mapCore (mapLaunch s1 0 0 fun e => { e with state := .running, image := placedImage none, stopHeld := false, dbg := default }) 0
      fun k => { k with rot := 0 }
  mapTask s2 p fun t => readyTask t p w

/-- The engine of a record: by its ROP, or by ENG for the control records. -/
def homeEngine (b : BitVec 512) : Engine :=
  match recKind b with
  | some .mma | some .tcfg => .matrix
  | some .epi | some .epiv => .epilogue
  | some .jrec | some .endstr => (match (recOf b).eng.toNat with | 2 => .matrix | 3 => .epilogue | _ => .copy)
  | _ => .copy

/-- A record is placed as its stream has just started it (R214): the visit that follows performs it. -/
def placeRecord (s : State) (b : BitVec 512) : State :=
  let e := homeEngine b
  let s1 := placeBytes s (leBytes 64 b.toNat) (.engine 0 e)
  let s2 := mapLaunch s1 0 0 fun x => { x with state := .running, image := placedImage (some e) }
  mapStream s2 0 e fun x => { x with
    state := .running, ridx := 0, launch := some (0, 0), prog := [Prog.fresh 0 b], held := none }

end Sys2Proof.Machine
end

