-- ==== Sys2Proof/Machine/Step.lean ====
section
/-! DEFINITION. One turn of the machine (log 2), and the state whose next turn runs a given instruction (log 31). -/

namespace Sys2Proof.Machine

/-- The core, or Porter (512 + die), whose tick queues and semaphores a turn may touch. -/
def turnKey (m : Move) : Option Nat :=
  let key (p : Party) : Nat := match p with
    | .slot c _ | .engine c _ => c
    | .stream d _ | .super d => 512 + d
  match m with
  | .visit p => some (key p)
  | .event i => match i with
    | .resultWrite p | .asyncLoadDataWritten p _ | .accExchangePerformed p _ | .storePerformed p _ | .shortLivedExpiry p | .heldTickPush p
    | .loopIterationEnd p | .loopExit p | .haltRetire p | .handlerStart p | .taskCheckpoint p | .preemptBudgetExpiry p | .commandFetch p
    | .xlatComplete p | .sealInForce p | .ringFormationTimeout p => some (key p)
    | .bankRefresh c _ | .recordStart c _ | .recordFinish c _ | .chainedMmaHandoff c | .mmaReplay c | .coreStageMove c | .gallerySpill c
    | .coreFault c => some c
    | _ => none
  | _ => none

/-- The clocks of a turn pass. No two turns of one core fall in one clock, so that of a push and a pop, or of a V and a P, one comes before the
other: in a clock that holds both the outcome is the one of the first before the second (R158; log 2). -/
def turnTime (s : State) (t : Turn) : State :=
  match turnKey t.move with
  | none => { s with clock := s.clock + t.clocks }
  | some k =>
    let now := max (s.clock + t.clocks) (tget 0 s.turnAt k)
    { s with clock := now, turnAt := tput s.turnAt k (now + 1) }

/-- A cache slice moves a line, or the race detector reports, on a module that has power. -/
def whenPowered (s : State) (f : State → State) : Host.Outcome State Fault Refusal := .next (if s.powered then f s else s)

/-- One turn: its clocks pass, and then one thing moves. -/
def step (s : State) : Host.Outcome State Fault Refusal :=
  let x := nextTurn s
  let s1 := turnTime x.2 x.1
  match x.1.move with
  | .event i => runEventRow i s1
  | .visit p => runVisit p s1
  | .lineIn far line way at_ => whenPowered s1 fun s => lineIn s far line way at_
  | .lineOut c pos => whenPowered s1 fun s => lineOut s c pos
  | .race i j => whenPowered s1 fun s => reportRace s i j
  | .hostMark n bad => .next { s1 with hostPoison := tset false s1.hostPoison n bad }
  | .hostTrain rate lanes => whenPowered s1 fun s => trainHost s rate lanes
  | .mgmtAccess tier a n data => whenPowered s1 fun s => mgmtMove s tier a n data

/-- `s` with a word of at most 64 bits, or a record, where the next step fetches and runs it (log 31). -/
def State.withFetchWord (s : State) (nbits w : Nat) : State :=
  if nbits ≤ 64 then placeWord s (BitVec.ofNat 64 w) else placeRecord s (BitVec.ofNat 512 w)

end Sys2Proof.Machine
end

