-- ==== Sys2Proof/WellFormed.lean ====
section
/-! DEFINITION. Which instructions are well formed: a task word whose fields its entry accepts (spec 01, R35 cases 2 to 5 as far as
they do not depend on the state), a record that passes the checks of its own bits (spec 07, R212), an event that names what the
module has. An ill-formed word is an instruction all the same: executing it takes ILL. -/

namespace Sys2Proof

open Machine in
/-- The breaches of R35 that a word's fields show by themselves, as (detail, breach); none for records and events. -/
def Instr.breaches : Instr → List (Nat × Bool)
  | .add f | .sub f | .mul f => faultsA (sigIntAri f) f
  | .min f | .max f => faultsA (sigMinMax f) f
  | .minn f | .maxn f | .mulh f | .mulhn f | .div f | .divn f | .rem f | .remn f => faultsA (sigNone2 f) f
  | .and f | .or f | .xor f | .andn f | .shl f | .shr f | .sra f | .rot f | .cmp _ f => faultsA (sigNone2 f) f
  | .sel f => faultsA (sigNone3 f) f
  | .clz f | .ctz f | .popc f => faultsA (sigNone1 f) f
  | .addi f => illAddi f
  | .bfx f => illBfx f
  | .bfi f => illBfi f
  | .li f => illLi f
  | .lih f => illLih f
  | .name f => faultsA (sigName f) f
  | .br _ f => illBr f
  | .jmp f | .call f => illJmp f
  | .loop _ f => illLoop f
  | .jmpr f | .ret f => illCtl f cTx
  | .loopx f | .waita f | .waitacc f => illCtl f cScalN
  | .halt f | .nop f => illCtl f cNone
  | .suspend f => illSuspend f
  | .fadd f | .fmul f => faultsA (sigFp2 f) f
  | .ffma f => faultsA (sigFp3 f) f
  | .fcmp _ f => faultsA (sigFcmp f) f
  | .fcvt f => illFcvt f
  | .csrr f => illCsrr f
  | .csrw f => illCsrw f
  | .trap f => illTrap f
  | .ld f => illLd f
  | .st f => illSt f
  | .lda f => illLda f
  | .kld f => illKld f
  | .kst f => illKst f
  | .ksub f => illKsub f
  | .kinfo f => faultsA (sigKinfo f) f
  | .xlatTrap f | .xlatWait f => illXlat f
  | .xlatlTrap f | .xlatlWait f => illXlatl f
  | .trel f => illTrel f
  | .seal f | .unseal f => illSeal f
  | .krevoke f => illKrevoke f
  | .vadd f | .vsub f | .vmul f => faultsA (sigVec2 f) f
  | .vfma f | .vfms f => faultsA (sigVec3 f) f
  | .vmin f | .vmax f => faultsA (sigVminmax f) f
  | .vdiv f => faultsA (sigVdiv f) f
  | .vsqrt f => faultsA (sigVsqrt f) f
  | .vcmp c f => illVcmp c f
  | .vsel f => faultsA (sigVsel f) f
  | .vand f | .vor f | .vxor f => faultsA (sigVlogic f) f
  | .vshl f | .vshr f | .vsra f => faultsA (sigVshift f) f
  | .vcvt f => illVcvt f
  | .vnarrow f => illVnarrow f
  | .vwmul f | .vwadd f => illVwide f
  | .vredAdd f => faultsA (sigVred f) f
  | .vredMin f | .vredMax f => faultsA (sigVredMM f) f
  | .vbcast f => faultsA (sigVbcast f) f
  | .vperm f => faultsA (sigVperm f) f
  | .vzip f | .vuzp f => illVzip f
  | .vpack f => faultsA (sigVpack f) f
  | .vexp2 f | .vlog2 f | .vrcp f | .vrsq f | .vsin f | .vcos f | .vtanh f => faultsA (sigVspec f) f
  | .vplane f | .vunpl f => faultsA (sigVplane f) f
  | .vld f => illVld f
  | .vst f => illVst f
  | .vlda f => illVlda f
  | .vgath f => illVgath f
  | .vscat f => illVscat f
  | .mand f | .mor f => faultsA (sigMask2 f) f
  | .mnot f => faultsA (sigMask1 f) f
  | .mcnt f => faultsA (sigMcnt f) f
  | .mfrom f => faultsA (sigMfrom f) f
  | .accld f => faultsA (sigAccld f) f
  | .accst f => faultsA (sigAccst f) f
  | .xclr f => illXclr f
  | .xform f => illXform f
  | .xord f => illXord f
  | .xm2m f | .xm2l f | .xl2l f | .xadd f => illX2 f
  | .xeval f | .xmeval f => illXeval f
  | .xadm f => illXadm f
  | .xld f => illXld f
  | .xst f => illXst f
  | .fence _ f => illFence f
  | .atomAdd f | .atomAnd f | .atomOr f | .atomXor f | .atomMin f | .atomMax f | .atomSwap f => illAtom f
  | .cas f => illCas f
  | .barinit f => illBarinit f
  | .bararr f => illBararr f
  | .barwait f => illBararr f
  | .seminit f => illSeminit f
  | .semp f | .semv f => illSem f
  | .tlsig f => illBararr f
  | .tlwait f => illBararr f
  | .tlset f => illTlset f
  | .estart f => illEstart f
  | .ewait f => illEwait f
  | .mcast f => illMcast f
  | .qsend f => illQsend f
  | .qtake f => illQtake f
  | .stage f => illStage f
  | .launch f => illLaunch f
  | .ptc f => illPtc f
  | .frsave f | .frload f => illFr f
  | .frstat f => noneWord [.t, .x, .none] cScal cNone cXN f
  | .callb f => illCallb f
  | .retb f | .ffence f => illNoOps f
  | .predm f | .waitline f => condWord f
  | .loopc f => illLoopc f
  | .coll f => illColl f
  | .cwait f => illCwait f
  | .cabort f => illCabort f
  | .ringf f => illRingf f
  | .tierpf f => illTierpf f
  | .eret f => (5, tkAny f.tk) :: noneWord cScalN cScalN cNone cNone f
  | .bkpt f => noneWord cScalN cNone cNone cNone f
  | .trmark f => illTrmark f
  | .perfsnap f => noneWord cNone cNone cNone cNone f
  | _ => []

/-- A well-formed instruction. -/
def Instr.wf (i : Instr) : Bool :=
  match encodeRecord i with
  | some b => (Machine.recReason (Machine.homeEngine b) b).isNone
  | none => (Machine.lowest i.breaches).isNone && Machine.eventOk i

end Sys2Proof
end

