-- ==== Sys2Proof/Safety.lean ====
section
/-! DEFINITION. What counts as a safe run, and the terms the claims use: a word that issues with its own effect, what issuing leaves
alone, the canonical form of every byte memory, and what a turn may reach. -/

namespace Sys2Proof.Machine

/-! ## Words that issue -/

/-- The word of `i`, judged by `pl`, issues in this turn and acts: no bank refresh, breakpoint, single step or watch is in its way (R61, R380, R381),
it is legal (R35), its stage is active (R74), it need not drain or fill a pin cache first, its ticks are present and its wait holds (R29, R60), no
trap at issue stands before it (R66), no event is held for it (R380), and no register that it reads holds an error to correct (R165). -/
def issues (i : Instr) (pl : Plan) (s : State) : Bool :=
  let p := s.cur
  let s1 := popTicks s p pl.tk
  !refreshHit s p pl.reads && (bpHit s p).isNone
    && (lowest (pl.ill ++ commonIll s p ((encodeWord i).getD 0) pl)).isNone
    && !inactive (taskOf s p) && (!pl.drain || (taskOf s p).flights.isEmpty) && pl.cold.isNone
    && ticksReady s p pl.tk && pl.ready && pl.go
    && (issueTrap s1 p pl).isNone && (watchHit s1 pl.touch).isNone && !(taskOf s p).step && (taskOf s p).loopEvent.isNone
    && (softReads s1 p pl).isEmpty

/-- A word judged by `pl`, whatever it is, is past ILL, its ticks are present and its wait holds: it traps or acts in this visit. -/
def Judged (i : Instr) (pl : Plan) (s : State) : Prop :=
  refreshHit s s.cur pl.reads = false ∧ bpHit s s.cur = none ∧ inactive (taskOf s s.cur) = false
    ∧ lowest (pl.ill ++ commonIll s s.cur ((encodeWord i).getD 0) pl) = none
    ∧ (pl.drain = true → (taskOf s s.cur).flights = []) ∧ pl.cold = none

/-- The state in which an issued word acts: its wait ticks popped and used, its signals registered, the next pc set (R29, R30, R66). -/
def acting (pl : Plan) (s : State) : State := beginWord (popTicks s s.cur pl.tk) s.cur pl

/-- No tick bit set. -/
def noTk : Tk := ⟨false, false, false, false⟩

/-- No single step and no held event follows the word that ends (R380, R381). -/
def plainEnd (t : Task) : Prop := t.step = false ∧ t.loopEvent = none

/-- The numbers of the signals that a word registers (R29). -/
def signalsOf (s : State) (tk : Tk) : List Nat := (newSigs (taskOf s s.cur) tk).map (·.1)

/-- The window of a word that has begun. -/
def begunTask (t : Task) (tk : Tk) : Task :=
  { t with
    heldC := if tk.wc then false else t.heldC, heldE := if tk.we then false else t.heldE
    here := t.pc, sigq := t.sigq ++ newSigs t tk, sigNo := t.sigNo + 2, pc := t.pc + 1, fell := true, skipBp := false }

/-- A core after the wait ticks of a word: those not already held are popped (R29). -/
def poppedCore (slot : Nat) (c : Core) (t : Task) (tk : Tk) : Core :=
  let c1 := if tk.wc && !t.heldC then popTick c 2 slot else c
  if tk.we && !t.heldE then popTick c1 4 slot else c1

/-- The named registers of two windows agree, and so do their CSRs but `tstat`, `spred` and the counts of operations outstanding. -/
def SameRegs (a b : Task) : Prop :=
  a.x = b.x ∧ a.v = b.v ∧ a.k = b.k ∧ a.m = b.m ∧ a.q = b.q ∧ a.o = b.o ∧ a.lc = b.lc ∧ a.flags = b.flags ∧ a.fmode = b.fmode
    ∧ a.ctimeo = b.ctimeo

/-- Every byte and tag of every memory reads as before. -/
def SameMemory (s t : State) : Prop := (∀ pl, rdByte t pl = rdByte s pl) ∧ ∀ pl, rdTag t pl = rdTag s pl

/-- The module without its windows, its cores, what the race detector has seen (R349), and the model's own marks of a turn. -/
def State.rest (s : State) : State := { s with tasks := [], cores := [], freeNo := 0, moved := false, detector := default }

/-- THE FRAME OF AN ISSUED WORD: `m` is `s` with the current party's word begun and its window changed by `g`; every other window,
every core but for the ticks the word waited for, every byte of every memory, every tag and every other part of the module is as
before (`freeNo`, a counter of the model, may have advanced, and the race detector may have noted the word). -/
def Began (s m : State) (tk : Tk) (g : Task → Task) : Prop :=
  m.rest = s.rest
    ∧ m.moved = true
    ∧ taskOf m s.cur = g (begunTask (taskOf s s.cur) tk)
    ∧ (∀ q, partyKey q ≠ partyKey s.cur → taskOf m q = taskOf s q)
    ∧ ∀ c, coreOf m c = if tk.wc || tk.we then (if c = coreNo s.cur then poppedCore (slotNo s.cur) (coreOf s c) (taskOf s s.cur) tk else coreOf s c)
        else coreOf s c

/-- The outcome `o` of a word with tick bits `tk` that issues at `s`: its only effect is to put the results `fs` in flight. -/
def Puts (tk : Tk) (fs : List Flight) (s : State) (o : Host.Outcome State Fault Refusal) : Prop :=
  ∃ m, o = .next (endCycle m s.cur) ∧ Began s m tk (flying fs)

/-- The same for a word that draws `n` times from the rounding source: under sr, SEED advances `n` times, and else nothing (R91). -/
def PutsDrawing (n : Nat) (tk : Tk) (fs : List Flight) (s : State) (o : Host.Outcome State Fault Refusal) : Prop :=
  ∃ m, o = .next (endCycle m s.cur) ∧ Began s m tk (fun t => flying fs (if n = 0 then t else advanceSeed t n))

/-- The outcome `o` of a word that issues at `s` and completes in its issue cycle (R103): its only effects are `g` on its window and
the signals it pushes (R29). -/
def Completes (tk : Tk) (g : Task → Task) (s : State) (o : Host.Outcome State Fault Refusal) : Prop :=
  ∃ m, o = .next (endCycle (completeSigs m s.cur (signalsOf s tk)) s.cur) ∧ Began s m tk g

/-- A scalar result as the words of spec 04 give it: on the scalar stair, and in D when D names a register (R50, R52). -/
def scalarOut (lat : Nat) (f : FmtA) (s : State) (r : Word × BitVec 8) : Flight :=
  mkFlight lat true (destOf f.d) (.word r.1) r.2 f.s (signalsOf s f.tk)

/-- A vector result likewise. -/
def vectorOut (lat : Nat) (f : FmtA) (s : State) (r : VReg) (fl : BitVec 8) : Flight :=
  mkFlight lat true (destOf f.d) (.vec r) fl f.s (signalsOf s f.tk)

/-- What an instruction of format A with one scalar result does, over every operand: `val` is the result and its flags, read in the
acting state, when bit 0 of the predicate is true; else both are 0 (R102); `draws` is how often it draws. -/
def ScalarWord (i : FmtA → Instr) (ill : FmtA → List (Nat × Bool)) (lat draws : Nat) (val : FmtA → State → Word × BitVec 8) : Prop :=
  ∀ (f : FmtA) (s : State), issues (i f) (planScal (ill f) f lat s s.cur) s = true →
    let u := acting (planScal (ill f) f lat s s.cur) s
    PutsDrawing draws f.tk [scalarOut lat f s (if scalLane u f.p then val f u else (0, 0))] s (exec (i f) s)

/-- The same for format I, which has no predicate. -/
def ImmWord (i : FmtI → Instr) (ill : FmtI → List (Nat × Bool)) (val : FmtI → State → Word) (fl : FmtI → State → BitVec 8) : Prop :=
  ∀ (f : FmtI) (s : State), issues (i f) (planImm (ill f) f s s.cur) s = true →
    let u := acting (planImm (ill f) f s s.cur) s
    Puts f.tk [mkFlight 1 true (destOf f.d) (.word (val f u)) (fl f u) f.s (signalsOf s f.tk)] s (exec (i f) s)

/-- An element-wise word of format A with one vector result of type `ty` and latency `lat` (R174): element e of the result is the
element `els` gives in a true lane, else 0 under Z, else A's element as read; the flags are those of the true lanes. -/
def VectorWord (i : FmtA → Instr) (ill : FmtA → List (Nat × Bool)) (reads : FmtA → List Rd) (ty : FmtA → TyCode)
    (lat draws : FmtA → Nat) (els : FmtA → State → List Elem) : Prop :=
  ∀ (f : FmtA) (s : State), issues (i f) (planVec (ill f) f (reads f) 1 (lat f) s s.cur) s = true →
    let u := acting (planVec (ill f) f (reads f) 1 (lat f) s s.cur) s
    ∃ r : VReg, PutsDrawing (draws f) f.tk
        [vectorOut (lat f) f s r (laneFlags (lanesOf u u.cur f.p (elems (ty f))) ((els f u).map (·.2)))] s (exec (i f) s)
      ∧ r.tag = ty f
      ∧ ∀ e < elems (ty f), e < (els f u).length →
          bits r.data.toNat (tyWidth (ty f) * e) (tyWidth (ty f))
            = (if (laneMask u u.cur f.p).getLsbD e then ((els f u).getD e (0, 0)).1
                else if f.z then 0 else (srcBits u u.cur (ty f) f.a).getD e 0) % 2 ^ tyWidth (ty f)

/-! ## Memory -/

/-- Every byte memory of a core is in canonical form. -/
def Core.memWf (c : Core) : Bool := Memory.wf c.mem && Memory.wf c.wb0 && Memory.wf c.wb1

/-- Every byte memory of the module, the saved cores of switched contexts among them, is in canonical form. -/
def State.memWf (s : State) : Bool :=
  Memory.wf s.near && Memory.wf s.far && Memory.wf s.host && s.cores.all (fun e => e.2.memWf)
    && s.coreShelf.all (fun e => e.2.2.memWf)

/-- Reading any byte of this module gives in `t` what it gives in `s`, but for the places of `except`. -/
def SameBytes (s t : State) (except : List Place) : Prop := ∀ pl, pl ∉ except → rdByte t pl = rdByte s pl

/-- The places of the elements in true lanes of an access through a token. -/
def lanePlaces (s : State) (k : KReg) (els : List El) : List Place :=
  (els.filter (·.lane)).flatMap fun e => e.pieces.flatMap fun q => piecePlaces s k e q

/-- No codeword of an atom holds a symbol error (R397, R398). -/
def cleanAtom (s : State) (far : Bool) (a : Nat) : Bool := (atomHalves s far a).all fun i => (atomErr s far i).isEmpty

/-- A place of this device that reads plainly: not poisoned, with no stored error to correct (R144, R255, R398). -/
def cleanPlace (s : State) (pl : Place) : Bool :=
  decide (pl.space ≠ .peer) && !placePoison s pl && !softUnit s ⟨pl.space, pl.addr / 8⟩
    && (pl.space != .near || cleanAtom s false (pl.addr / 32)) && (pl.space != .far || cleanAtom s true (pl.addr / 32))

/-- A place that a load reads as memory alone holds it: clean, and under none of the task's own posted stores and multicasts (R133). -/
def quietPlace (s : State) (p : Party) (pl : Place) : Bool := cleanPlace s pl && !ownCovers s (taskOf s p).stores pl

/-- A load through `k` whose every element passes its checks (R132, R195) and reads quiet places; some lane is true. -/
def quietLoad (s : State) (p : Party) (k : KReg) (els : List El) : Bool :=
  kCurrent s k && kR k && els.any (·.lane) && (els.filter (·.lane)).all (fun e => (checkExt s k e.off e.size false).flag = 0)
    && (lanePlaces s k els).all (quietPlace s p) && els.all fun e => e.pieces.all fun q => decide (0 < q.size)

/-- The bits that the true lanes of a load gather for result part `j`: each piece's bytes, lowest first, at its position. -/
def gathered (s : State) (k : KReg) (els : List El) (j : Nat) : Nat :=
  ((els.filter (·.lane)).flatMap fun e => (e.pieces.filter fun q => decide (q.part = j)).map fun q =>
    pieceBits q (leNat ((piecePlaces s k e q).map (rdByte s))) * 2 ^ q.pos).sum

/-- A store through `k` whose every element in a true lane passes its checks; some lane is true. -/
def quietStore (s : State) (k : KReg) (els : List El) : Bool :=
  kCurrent s k && kW k && els.any (·.lane) && (els.filter (·.lane)).all (fun e => (checkExt s k e.off e.size true).flag = 0)

/-- The store that such a word posts: the cells of its true lanes, one count on its slot. -/
def postedStore (k : KReg) (els : List El) (vals : List Nat) (act : StoreAct) (ids : List Nat) : Store :=
  ⟨(els.filter (·.lane)).flatMap fun e => elCells k e vals, act, 0, ids, [kSlot k], [], false, 0, 0⟩

/-- The outcome `o` of a word that issues and posts the store `e`: nothing in memory changes, and each slot of `e` holds one count more
(R134, R318). -/
def Posts (tk : Tk) (e : Store) (s : State) (o : Host.Outcome State Fault Refusal) : Prop :=
  ∃ m, o = .next (endCycle m s.cur)
    ∧ Began { s with slots := m.slots } m tk (fun t => { t with stores := t.stores ++ [{ e with seq := t.sigNo, word := t.here }] })
    ∧ ∀ n, slotOf m n = if n ∈ e.slots then { slotOf s n with inflt := (slotOf s n).inflt + 1 } else slotOf s n

/-- The object of `n` bytes at `o` of a slot's extent, which an atomic access reads and writes as memory alone holds it: quiet places, no
two the same, where no write is dropped. -/
def quietObj (s : State) (p : Party) (slot o n : Nat) : Bool :=
  (objPlaces s slot o n).all (quietPlace s p) && decide (objPlaces s slot o n).Nodup && (atomDrops s (objPlaces s slot o n)).isEmpty

/-- The outcome `o` of a word that issues at `s`: it ends at `m` but for its cycle; `m` is `s` with the word begun, its window changed by `g`,
the signals of a word that completes at once pushed, and bytes changed at most at the places `pls`; no slot, pin word or context
changes. -/
def Updates (tk : Tk) (g : Task → Task) (pls : List Place) (s : State) (o : Host.Outcome State Fault Refusal) (m : State) : Prop :=
  ∃ n, (m = n ∨ m = completeSigs n s.cur (signalsOf s tk)) ∧ o = .next (endCycle m s.cur)
    ∧ taskOf n s.cur = g (begunTask (taskOf s s.cur) tk) ∧ SameBytes s m pls
    ∧ m.slots = s.slots ∧ m.words = s.words ∧ m.ctxs = s.ctxs

/-! ## Records -/

/-- The places that a record's next issue of `n` bytes addresses through operand `o` (R213). -/
def issuePlaces (s : State) (u : Run) (o : Opd) (n : Nat) : List Place :=
  (List.range n).map fun j => kPlace s (runTok s u o) (opdAddr (runRec u) o u.prog.issue + (j : Nat)).toNat

/-- Every byte of that issue lies within the operand's extent. -/
def issueWithin (s : State) (u : Run) (o : Opd) (n : Nat) : Bool :=
  (List.range n).all fun j => within (runTok s u o) (opdAddr (runRec u) o u.prog.issue) j

/-- A place that an engine writes as plain memory: of this device, outside every seal, where no write is dropped (R403). -/
def openPlace (s : State) (pl : Place) : Bool := decide (pl.space ≠ .peer) && !sealedPlace s pl && (atomDrops s [pl]).isEmpty

/-- The issue writes its `n` bytes to distinct open places within its extent. -/
def opensIssue (s : State) (u : Run) (o : Opd) (n : Nat) : Bool :=
  issueWithin s u o n && (issuePlaces s u o n).all (openPlace s) && decide (issuePlaces s u o n).Nodup

/-- The issue reads its `n` bytes within its extent, where memory holds them plainly. -/
def readsIssue (s : State) (u : Run) (o : Opd) (n : Nat) : Bool :=
  issueWithin s u o n && (issuePlaces s u o n).all (cleanPlace s)

/-- The record `u` is the one the engine in turn stands at, awaits no peer, and no peer write of an earlier record comes before it (R213). -/
def standsAt (s : State) (u : Run) (i : Instr) : Prop :=
  currentRun s = some u ∧ decodeRecord u.prog.bits = .ok i ∧ u.prog.waits = [] ∧ behindWrites s u = false

/-- The records of a run's list. -/
def runList (s : State) (u : Run) : List Prog :=
  if u.chained then (theStream s u.core u.own).active else (theStream s u.core u.own).prog

/-- One issue of `u`, a record of `count` issues, has acted: the record stands at the next one, or all of them have acted; `g` is what else the
record keeps (R212). -/
def acted (s t : State) (u : Run) (count : Nat) (g : Prog → Prog) : Prop :=
  runList t u = mapFirst (fun p => g { p with
    issue := p.issue + 1, asked := false, waits := [], peer := [], done := decide (count ≤ p.issue + 1) }) (runList s u)

/-! ## Safe runs -/

/-- An outcome that goes on. -/
def GoesOn (o : Host.Outcome State Fault Refusal) : Prop := ∃ t, o = .next t

end Sys2Proof.Machine
end

