-- ==== Sys2Proof/Certificates/Slice0/Obligations.lean ====
section
/-! DEFINITION. The statements for the provers, family by family. `Says.<Name>` is a part of the statement that joins it. -/

open Sys2Proof Sys2Proof.Machine

/-! ## Encoding and decoding (spec 01) -/

/-- R19-R24, R33, R34, R36-R39: decoding the words of any task word or record gives the instruction back, with every field. -/
def Obligations.DecodeEncode : Prop :=
  ∀ i : Instr, i.isEvent = false → decode (encode i) = .ok i

/-- The other direction: a word or record that decodes is the encoding of what it decodes to, so no bit of it is dropped. -/
def Says.EncodeDecode : Prop :=
  (∀ (w : Word) (i : Instr), decodeWord w = .ok i → encodeWord i = some w ∧ encodeRecord i = none)
    ∧ ∀ (r : BitVec 512) (i : Instr), decodeRecord r = .ok i → encodeRecord i = some r ∧ encodeWord i = none

/-- R22, R24, R35 case 2: formats B and L have reserved bits, and a word of `br`, `jmp`, `call` or `loop` with one of them set is
no instruction. -/
def Says.ReservedBitsRefused : Prop :=
  ∀ w : Word,
    ((wOp w = 0x0C ∧ wFn w ≤ 5 ∨ wOp w = 0x0D ∧ wFn w ≤ 1) → w.extractLsb' 32 3 ≠ 0 → decodeWord w = .bad .reserved)
      ∧ (wOp w = 0x0E ∧ wFn w ≤ 2 → w.extractLsb' 0 22 ≠ 0 → decodeWord w = .bad .reserved)

/-- Words the spec writes out, and the instructions they stand for: `vfma` of R12, `addi x1, 10 -> x2`, `br.ne t0, #0, top`,
`ld.i32 k3[x4 + 32] -> x6`, `vld.f32 k2[x1 + 64] -> v3`, `estart copy, x5`, `xm2l.f64 q0 -> q2`, `mcast k1, x4, x6`,
`launch k4, #0 -> x2`, `xlat.trap x1, #4 -> k2 [r, w]`, `atom.add.i64 x4, k3[x2 + 1]`, `barwait.die k0, x2, x3 -> x4`,
`trmark x3 -> x4`, `coll.ar.add.f32 k1, k2, x10 -> x20`. -/
def Obligations.DecodedWords : Prop :=
  decodeWord 0x7246F3C5610998CE = .ok (.vfma
      { tk := ⟨true, false, false, true⟩, ty := 15, s := false, p := 3, z := true, d := 0x45, a := 0x30, b := 0x42, c := 0x33
        ma := 0, mb := 1, mc := 2, cl := 1, sc := 6 })
    ∧ decodeWord 0x080024440000000A = .ok (.addi ⟨noTk, false, 0x12, 0x11, 10⟩)
    ∧ decodeWord 0x300203C0FFFFFFFD = .ok (.br .ne ⟨noTk, 0x00, 0x78, 0xFFFFFFFD⟩)
    ∧ decodeWord 0x5800301632800020 = .ok (.ld ⟨noTk, 3, false, 0, false, 0x16, 3, 0x14, 32⟩)
    ∧ decodeWord 0xA001004322200040 = .ok (.vld ⟨noTk, 16, false, 0, false, 0x43, 2, 0x11, 64⟩)
    ∧ decodeWord 0xE001F07FF257F800 = .ok (.estart ⟨noTk, 31, false, 0, false, 0x7F, 0x79, 0x15, 0x7F, 0, 0, 0, 0, 0⟩)
    ∧ decodeWord 0xC4031062C1FFF800 = .ok (.xm2l ⟨noTk, 17, false, 0, false, 0x62, 0x60, 0x7F, 0x7F, 0, 0, 0, 0, 0⟩)
    ∧ decodeWord 0xE801F07FA250B000 = .ok (.mcast ⟨noTk, 31, false, 0, false, 0x7F, 0x51, 0x14, 0x16, 0, 0, 0, 0, 0⟩)
    ∧ decodeWord 0xEC01F012A9E3F800 = .ok (.launch ⟨noTk, 31, false, 0, false, 0x12, 0x54, 0x78, 0x7F, 0, 0, 0, 0, 0⟩)
    ∧ decodeWord 0x6801F05223FBF80C = .ok (.xlatTrap ⟨noTk, 31, false, 0, false, 0x52, 0x11, 0x7E, 0x7F, 0, 0, 0, 1, 4⟩)
    ∧ decodeWord 0xD400401432400001 = .ok (.atomAdd ⟨noTk, 4, false, 0, false, 0x14, 3, 0x12, 1⟩)
    ∧ decodeWord 0xD805F014A0489803 = .ok (.barwait ⟨noTk, 31, false, 0, false, 0x14, 0x50, 0x12, 0x13, 0, 0, 0, 0, 3⟩)
    ∧ decodeWord 0xF805F01427FFF800 = .ok (.trmark ⟨noTk, 31, false, 0, false, 0x14, 0x13, 0x7F, 0x7F, 0, 0, 0, 0, 0⟩)
    ∧ decodeWord 0xF4010024A348D000 = .ok (.coll ⟨noTk, 16, false, 0, false, 0x24, 0x51, 0x52, 0x1A, 0, 0, 0, 0, 0⟩)

/-! ## A turn -/

/-- R47, R55, R60: a visit, in its turn, of a running task slot or Porter stream that no other row comes before fetches the word at its pc,
and runs what it decodes to on the state in which the results due have landed; a slot that only froze keeps them in flight. R61: one that froze
for a bank in refresh does so for this visit alone. R72: a body's word goes into the loop buffer. -/
def Says.RunsDecodedWord : Prop :=
  ∀ (s s1 s0 b : State) (c : Nat) (p : Party) (rest : List Turn) (w : Word) (i : Instr),
    s.sched = ⟨c, .visit p⟩ :: rest → s.powered = true → partyOk p = true → (∀ k e, p ≠ .engine k e) →
    s1 = turnTime { s with sched := rest } ⟨c, .visit p⟩ → inTurn s1 p = true → s0 = atTurn (turnOver s1 p) p →
    (taskOf s0 p).status = .run → rowDue s0 p = none → fetchHeld s0 p = false → launchStopped s0 p = false →
    lateData (taskOf s0 p) = false → fetchWord s0 p = some w → decodeWord w = .ok i → b = bufferWord s0 p w →
    ∀ r, exec i (landDue b p) = .next r →
      (r.moved = true → step s = drainOut (.next r))
        ∧ (r.moved = false → (refreshing b p).isSome = true → refreshing r p = none →
          step s = drainOut (.next (mapCore b (coreNo p) fun k => { k with refresh := none })))
        ∧ (r.moved = false → ((refreshing b p).isSome = true → refreshing r p ≠ none) → ∀ q, exec i b = .next q →
          step s = drainOut (.next (if q.moved then b else q)))

/-- R59, R297: a core's issue stage visits its slots in the rotation 0, 1, 2, 3, whether or not they hold tasks: a visit out of turn does
nothing, and after slot n it is the turn of slot (n + 1) mod 4. R158: a turn of a core comes in a later clock than the one before it. -/
def Says.VisitsRotate : Prop :=
  ∀ (s : State) (c k n : Nat) (rest : List Turn), s.sched = ⟨c, .visit (.slot k n)⟩ :: rest → s.powered = true → k < 512 → n < 4 →
    (coreOf s k).rot < 4 →
    let s1 := turnTime { s with sched := rest } ⟨c, .visit (.slot k n)⟩
    s.clock + c ≤ s1.clock ∧ tget 0 s.turnAt k ≤ s1.clock ∧ tget 0 s1.turnAt k = s1.clock + 1
      ∧ ((coreOf s k).rot ≠ n → step s = drainOut (.next s1))
      ∧ ((coreOf s k).rot = n → (taskOf s (.slot k n)).status = .idle →
        ∃ t, step s = drainOut (.next t) ∧ (coreOf t k).rot = (n + 1) % 4 ∧ t.tasks = s.tasks ∧ (∀ j, j ≠ k → coreOf t j = coreOf s j))

/-- R214, R155: a visit of an engine whose current record has started, and is not finishing, replaying or waiting for a peer, performs
the record its stream fetched. -/
def Obligations.StepRunsDecodedRecord : Prop :=
  ∀ (s s0 : State) (c k : Nat) (e : Engine) (rest : List Turn) (u : Run) (i : Instr),
    s.sched = ⟨c, .visit (.engine k e)⟩ :: rest → s.powered = true → k < 512 →
    s0 = atTurn (turnTime { s with sched := rest } ⟨c, .visit (.engine k e)⟩) (.engine k e) →
    (theStream s0 k e).held = none → handoffDue s0 k e = false → finishing s0 k e = none → currentRun s0 = some u →
    (e = .matrix → (coreOf s0 k).ate = []) → (u.prog.asked = true → u.prog.waits = []) →
    decodeRecord u.prog.bits = .ok i →
    step s = drainOut (exec i s0)

/-- An event of the schedule that is an event row and names what the module has runs that row; without power only POWER_ON and the
host's own stores act. -/
def Obligations.StepRunsEvent : Prop :=
  ∀ (s s0 : State) (c : Nat) (i : Instr) (rest : List Turn),
    s.sched = ⟨c, .event i⟩ :: rest → s0 = turnTime { s with sched := rest } ⟨c, .event i⟩ → i.isEvent = true → eventOk i = true →
    step s = if s.powered || outside i then drainOut (exec i s0) else .next s0

/-- No meaning stops: every instruction, at every state, goes on. A turn stops only where its event is no event row, or names a party
or unit that the module does not have. -/
def Obligations.NoMeaningStops : Prop :=
  (∀ (i : Instr) (s : State), GoesOn (exec i s))
    ∧ ∀ s : State, GoesOn (step s) ∨ step s = .fault .noSuchParty ∨ step s = .refused .notAnEvent

/-! ## Invariants -/

/-- R426: after a completed bring-up every memory is in canonical form. -/
def Obligations.ResetMemoryCanonical : Prop := State.reset.memWf = true

/-- Every step keeps every byte memory of the module, the scratchpads and weight buffers among them, in canonical form. -/
def Obligations.MemoryStaysCanonical : Prop :=
  ∀ s t : State, s.memWf = true → step s = .next t → t.memWf = true

/-- R426, R316, R423: what bring-up leaves: all memory of the module zero, every slot free with GEN 0, no context, no launch, idle slots and streams,
BRINGUP 0xFF, the device cap 26,000 W with 9,000 W in reserve. -/
def Obligations.ResetState : Prop :=
  (∀ pl, pl.space ≠ .host → pl.space ≠ .peer → rdByte State.reset pl = 0) ∧ (∀ pl, rdTag State.reset pl = false)
    ∧ (∀ n, slotOf State.reset n = PinSlot.fresh) ∧ PinSlot.fresh.gen = 0 ∧ PinSlot.fresh.state = .free
    ∧ (∀ c, (ctxOf State.reset c).live = false) ∧ (∀ d l, (launchOf State.reset d l).state = .free)
    ∧ (∀ p, (taskOf State.reset p).status = .idle) ∧ State.reset.bringup = 0xFF
    ∧ State.reset.cap = 26000 ∧ State.reset.reserve = 9000 ∧ State.reset.powered = true

/-! ## Issue and traps (spec 01 R35, R66; spec 16 R366-R374) -/

/-- R35: a word whose fields breach cases 2 to 5, met by no breakpoint or refresh, traps with ILL and the least detail among its breaches (which
detail a breach has is the model's choice where R35 does not say: logs 39, 47, 58, 62); it resumes at itself, and has no effect of its own. -/
def Says.IllFormedTraps : Prop :=
  ∀ (i : Instr) (s : State) (d : Nat), (encodeWord i).isSome = true → lowest i.breaches = some d → (taskOf s s.cur).wait = .none →
    (coreOf s (coreNo s.cur)).refresh = none → bpHit s s.cur = none →
    (d, true) ∈ i.breaches ∧ (∀ e, (e, true) ∈ i.breaches → d ≤ e)
      ∧ exec i s = .next (trapHere s s.cur ((encodeWord i).getD 0) (mkTrap cILL d))

/-- R66, R62, R65, R165, R380: a legal word whose ticks are present and whose wait holds traps before it acts, in the order PRIV, CHK 1, EXP,
FMT, DBG 3, whatever the word: EXP and FMT name the first operand that fails. So for `vadd`, and for `krevoke`, which off the supervisor is PRIV. -/
def Says.TrapOrder : Prop :=
  (∀ (i : Instr) (mk : State → Party → Plan) (act : List Nat → State → Act) (s : State), exec i s = runWord i mk act s →
    let pl := mk s s.cur
    let t := taskOf s s.cur
    let u := popTicks s s.cur pl.tk
    let traps (x : TrapInfo) : Prop := exec i s = .next (trapHere u s.cur ((encodeWord i).getD 0) x)
    Judged i pl s → ticksReady s s.cur pl.tk = true → pl.ready = true → pl.go = true →
      (pl.priv = true → traps (mkTrap cPRIV 0))
      ∧ (pl.priv = false → pl.reads.any (rdBroken t) = true → ∃ x, x.cause = cCHK ∧ x.detail = 1 ∧ traps x)
      ∧ (pl.priv = false → pl.reads.any (rdBroken t) = false →
        (∀ n, expField t pl.reads = some n → traps (mkTrap cEXP n))
        ∧ (expField t pl.reads = none → (∀ n, fmtField u s.cur pl.reads = some n → traps (mkTrap cFMT n))
          ∧ (fmtField u s.cur pl.reads = none → inPiped t = false → ∀ w, watchHit u pl.touch = some w →
            ∃ x, x.cause = cDBG ∧ x.detail = 3 ∧ x.aux0 = BitVec.ofNat 64 w.1 ∧ traps x))))
    ∧ (∀ (f : FmtA) (s : State), (Instr.vadd f).wf = true → refreshHit s s.cur (readsV f f.ty f.ty f.ty) = false → bpHit s s.cur = none →
    isPorter s.cur = false → inactive (taskOf s s.cur) = false → ticksReady s s.cur f.tk = true →
    ((taskOf s s.cur).flights.filter fun g => g.rem != 0).length < 24 → (taskOf s s.cur).rfErr = [] →
    ∀ n, (expField (taskOf s s.cur) (readsV f f.ty f.ty f.ty) = some n →
        exec (.vadd f) s = .next (trapHere (popTicks s s.cur f.tk) s.cur ((encodeWord (.vadd f)).getD 0) (mkTrap cEXP n)))
      ∧ (expField (taskOf s s.cur) (readsV f f.ty f.ty f.ty) = none → fmtField s s.cur (readsV f f.ty f.ty f.ty) = some n →
        exec (.vadd f) s = .next (trapHere (popTicks s s.cur f.tk) s.cur ((encodeWord (.vadd f)).getD 0) (mkTrap cFMT n))))
    ∧ ∀ (f : FmtA) (s : State), (Instr.krevoke f).wf = true → (taskOf s s.cur).wait = .none → isSuper s.cur = false →
      Judged (.krevoke f) (planKrevoke f s s.cur) s → ticksReady s s.cur f.tk = true → (planKrevoke f s s.cur).ready = true →
      exec (.krevoke f) s = .next (trapHere (popTicks s s.cur f.tk) s.cur ((encodeWord (.krevoke f)).getD 0) (mkTrap cPRIV 0))

/-- R60, R30, R29: a legal word whose wait ticks are not there, or whose wait does not hold, leaves the state as it was, whatever the word; one that
only lacks what it asks for asks, and does no more. So for a `nop` that waits for ticks, and for a `barwait` whose phase has not flipped. -/
def Says.SlotFreezes : Prop :=
  (∀ (i : Instr) (mk : State → Party → Plan) (act : List Nat → State → Act) (s : State), exec i s = runWord i mk act s →
    let pl := mk s s.cur
    Judged i pl s →
      (ticksReady s s.cur pl.tk = false ∨ pl.ready = false → exec i s = .next s)
      ∧ (ticksReady s s.cur pl.tk = true → pl.ready = true → pl.go = false → exec i s = .next (pl.ask s)))
    ∧ (∀ (f : FmtA) (s : State), (Instr.nop f).wf = true → isPorter s.cur = false → (coreOf s (coreNo s.cur)).refresh = none →
    bpHit s s.cur = none → inactive (taskOf s s.cur) = false →
    ((taskOf s s.cur).flights.filter fun g => g.rem != 0).length ≤ 24 →
    ticksReady s s.cur f.tk = false → exec (.nop f) s = .next s)
    ∧ ∀ (f : FmtA) (s : State), (Instr.barwait f).wf = true → Judged (.barwait f) (planBarwait f s s.cur) s →
      (barwaitChk f s s.cur).flag = 0 → chkPending s s.cur = false → barFlipped f s s.cur = false → exec (.barwait f) s = .next s

/-- R368-R370: a trap of a task that runs no handler, with nothing asynchronous left, saves the task as it stands and starts the handler in its slot:
at the launch's handler word, with a window that is otherwise fresh but for its tokens, the frame header in the context's save area, no other byte
changed. That the header stands at `framePlace` and the rest of the task in a copy that no byte of memory shows is log 7; the core's own-slice token,
where the launch gives one, is there (log 25). -/
def Obligations.TrapStartsHandler : Prop :=
  ∀ (s : State) (p : Party) (word d l : Nat) (i : TrapInfo),
    isPorter p = false → (taskOf s p).flights = [] → (taskOf s p).inHandler = false → i.cause ∉ [cPF, cLAUNCH] →
    (i.cause = cDBG → (launchDebug s p).stop = false) →
    asyncDone (taskOf s p) = true → (taskOf s p).launch = some (d, l) →
    ((launchOf s d l).argmode = 0 ∨ ∃ n, (coreOf s (coreNo p)).sliceSlot = some n ∧ (slotOf s n).state = .live
      ∧ (slotOf s n).ctx = (launchOf s d l).ctx) →
    let header := (List.range 128).map (framePlace s p)
    header.Nodup → (∀ pl ∈ header, pl.space ≠ .peer) → atomDrops s header = [] →
    let t := takeTrap s p word i
    let kept := { taskOf s p with tstat := tstatOf (taskOf s p) word i }
    (taskOf t p).status = .run ∧ (taskOf t p).pc = (launchOf s d l).handler ∧ (taskOf t p).inHandler = true
      ∧ (taskOf t p).x = [] ∧ (taskOf t p).v = [] ∧ (taskOf t p).t = [] ∧ (taskOf t p).flags = 0
      ∧ tget Task.fresh t.saved (partyKey p) = { kept with status := .trapped, trap := i }
      ∧ (∀ b < 128, rdByte t (framePlace s p b) = (frameBytes kept i).getD b 0)
      ∧ ∀ pl ∉ header, rdByte t pl = rdByte s pl

/-- R373: `eret` from a handler returns to the saved task, which runs on at the pc, flags and step bit that the frame then holds, with
every other register as it was saved (log 7: from a copy kept beside the frame); a loop body's end that it had reached is still its end, and a
RESUME that is the word after the trapped one counts as reached from it (R77). -/
def Says.ReturnRestores : Prop :=
  ∀ (s : State) (p : Party) (t : Task), s.saved.find? (fun e => decide (e.1 = partyKey p)) = some (partyKey p, t) →
    frameField s p 64 1 < 0x10 → s.sweepSet = [] →
    let u := taskOf (returnTask s p) p
    u.status = .run ∧ u.pc = frameField s p 8 8 ∧ u.flags = BitVec.ofNat 8 (frameField s p 48 8)
      ∧ (u.fell = true ↔ u.pc = t.tstat.toNat / 65536 + 1 ∨ (t.fell = true ∧ u.pc = t.pc))
      ∧ (u.step = true ↔ frameField s p 65 1 % 2 = 1)
      ∧ u.x = t.x ∧ u.v = t.v ∧ u.k = t.k ∧ u.m = t.m ∧ u.q = t.q ∧ u.o = t.o ∧ u.t = t.t ∧ u.w = t.w ∧ u.flights = t.flights
      ∧ u.loops = t.loops ∧ u.lc = t.lc ∧ u.spred = t.spred ∧ u.fmode = t.fmode
      ∧ (∀ q, partyKey q ≠ partyKey p → taskOf (returnTask s p) q = taskOf s q)
      ∧ (∀ pl, rdByte (returnTask s p) pl = rdByte s pl)

/-- R58, R101, R229: in the state in which a word acts, its operands read as they did before it: a register that no asynchronous
operation and no `epiv` is to write holds its value. -/
def Says.OperandsReadAtIssue : Prop :=
  ∀ (s : State) (pl : Plan) (sp : SpecBits), unsureReg s s.cur (destOf sp) = false →
    rdScal (acting pl s) s.cur sp = rdScal s s.cur sp ∧ rdVec (acting pl s) s.cur sp = rdVec s s.cur sp
      ∧ rdTok (acting pl s) s.cur sp = rdTok s s.cur sp ∧ rdMask (acting pl s) s.cur sp = rdMask s s.cur sp
      ∧ rdSer (acting pl s) s.cur sp = rdSer s s.cur sp ∧ rdOrd (acting pl s) s.cur sp = rdOrd s s.cur sp

/-! ## Results (spec 02) -/

/-- R52, R53, R55, R69: a result that is due lands: it becomes the newest entry of its stair, is written to its destination, and its
flags are ORed in; the results not yet due stay in flight, and no other register changes. -/
def Says.ResultLands : Prop :=
  ∀ (s : State) (p : Party) (f : Flight) (v : Word) (n : Nat),
    (taskOf s p).flights.filter (fun g => decide (g.rem = 0)) = [f] → f.stair = true → f.dest = .x n → f.val = .word v →
    f.sigs = [] → f.need = [] → f.fix = none → f.short = false →
    ∃ t, exec (.resultWrite p) s = .next t
      ∧ taskOf t p = { taskOf s p with
          flights := (taskOf s p).flights.filter fun g => g.rem != 0
          t := (⟨v, .lasting 0⟩ :: (taskOf s p).t).take 16
          x := tset 0 (taskOf s p).x n v
          rfErr := (taskOf s p).rfErr.filter fun g => decide (some (0x10 + n) != some g)
          rfSoft := (taskOf s p).rfSoft.filter fun g => decide (some (0x10 + n) != some g)
          asyncs := (spoil (taskOf s p) (.x n)).asyncs
          exchs := (spoil (taskOf s p) (.x n)).exchs
          late := (spoil (taskOf s p) (.x n)).late
          flags := (taskOf s p).flags ||| f.flags }
      ∧ (∀ q, partyKey q ≠ partyKey p → taskOf t q = taskOf s q) ∧ (∀ c, coreOf t c = coreOf s c) ∧ t.rest = s.rest

/-- R52, R53: a vector result lands on the vector stair and in its vector register, with its format tag. -/
def Says.VectorResultLands : Prop :=
  ∀ (s : State) (p : Party) (f : Flight) (v : VReg) (n : Nat),
    (taskOf s p).flights.filter (fun g => decide (g.rem = 0)) = [f] → f.stair = true → f.dest = .v n → f.val = .vec v →
    f.sigs = [] → f.need = [] → f.fix = none → f.short = false →
    ∃ t, exec (.resultWrite p) s = .next t
      ∧ (taskOf t p).w = (⟨v, .lasting 0⟩ :: (taskOf s p).w).take 16 ∧ tget freshV (taskOf t p).v n = v
      ∧ (∀ k, k ≠ n → tget freshV (taskOf t p).v k = tget freshV (taskOf s p).v k)
      ∧ (taskOf t p).x = (taskOf s p).x ∧ (taskOf t p).t = (taskOf s p).t ∧ (taskOf t p).k = (taskOf s p).k
      ∧ (taskOf t p).m = (taskOf s p).m ∧ (taskOf t p).flags = (taskOf s p).flags ||| f.flags
      ∧ (∀ q, partyKey q ≠ partyKey p → taskOf t q = taskOf s q) ∧ t.rest = s.rest

/-- R62: an entry whose 16 issue cycles are over expires; nothing else changes. R61: a bank refresh marks one bank of its core. R318: a
filled pin-cache entry is no longer missing, and the slots that wait for it go on. R29, R345: a held tick is pushed when it fits, the stores before it performed. -/
def Obligations.PipelineEvents : Prop :=
  (∀ (p : Party) (s : State), ∃ t, exec (.shortLivedExpiry p) s = .next t
      ∧ (taskOf t p).t = (taskOf s p).t.map (fun e => if e.life = .left 0 then ⟨e.val, .expired⟩ else e)
      ∧ (taskOf t p).w = (taskOf s p).w.map (fun e => if e.life = .left 0 then ⟨e.reg, .expired⟩ else e)
      ∧ (taskOf t p).x = (taskOf s p).x ∧ (taskOf t p).v = (taskOf s p).v ∧ t.rest = s.rest)
    ∧ (∀ (c b : Nat) (s : State), ∃ t, exec (.bankRefresh c b) s = .next t ∧ (coreOf t c).refresh = some (b % 8)
      ∧ (coreOf t c).mem = (coreOf s c).mem ∧ (∀ k, k ≠ c → coreOf t k = coreOf s k) ∧ t.tasks = s.tasks ∧ t.rest = s.rest)
    ∧ (∀ (c n : Nat) (s : State), ∃ t, exec (.pinCacheFill c n) s = .next t ∧ (c, n) ∉ t.pinCold
      ∧ (∀ e, e ≠ (c, n) → (e ∈ t.pinCold ↔ e ∈ s.pinCold))
      ∧ (∀ p, (taskOf s p).pinMiss = some n → (taskOf t p).pinMiss = none) ∧ t.cores = s.cores ∧ t.near = s.near)
    ∧ (∀ (c k : Nat) (s : State) (q : Nat), (taskOf s (.slot c k)).sigq = [(q, .copy, true)] →
      storeBefore (taskOf s (.slot c k)).stores q = false → ticksOf (coreOf s c) 1 2 < 32 →
      ∃ t, exec (.heldTickPush (.slot c k)) s = .next t ∧ ticksOf (coreOf t c) 1 2 = ticksOf (coreOf s c) 1 2 + 1
        ∧ (taskOf t (.slot c k)).sigq = [] ∧ t.rest = s.rest)

/-! ## Scalar instructions (spec 04) -/

/-- R79, R101, R105: `add`, `sub` and `mul` form the exact sum, difference or product of their operands in TY (of R105's formula and its worked
example, which differ on `sub.i8 #0, -x1`, the model follows the formula: log 54), and write it wrapped (CL 00) or saturated (CL 11), extended to 64
bits by TY's signedness, with OF when it lies outside TY. -/
def Says.IntegerSums : Prop :=
  let written := fun (f : FmtA) (v : Int) =>
    let w := tyWidth f.ty
    let lo : Int := if tySigned f.ty then -(2 ^ (w - 1) : Nat) else 0
    let hi : Int := if tySigned f.ty then (2 ^ (w - 1) : Nat) - 1 else (2 ^ w : Nat) - 1
    let out := v < lo ∨ hi < v
    let b : Int := if out ∧ f.cl = 3 then (if v < lo then lo else hi) else v
    let n := (b % (2 ^ w : Nat)).toNat
    ((if tySigned f.ty ∧ 2 ^ (w - 1) ≤ n then BitVec.ofInt 64 ((n : Int) - (2 ^ w : Nat)) else BitVec.ofNat 64 n), if out then fOF else 0#8)
  let ill := fun f => faultsA (sigIntAri f) f
  (∀ f : FmtA, (lowest (ill f)).isNone = true → tyInt f.ty = true)
    ∧ ScalarWord .add ill 1 0 (fun f u => written f ((valA f u).toInt + (valB f u).toInt))
    ∧ ScalarWord .sub ill 1 0 (fun f u => written f ((valA f u).toInt - (valB f u).toInt))
    ∧ ScalarWord .mul ill 3 0 (fun f u => written f ((valA f u).toInt * (valB f u).toInt))

/-- R106, R107, R108: minima, maxima and the high halves of products, and division: towards zero, by zero 0 or the dividend with DZ,
-2^63 by -1 wrapped with OF. -/
def Obligations.MinMaxHighDivide : Prop :=
  let ill := fun f => faultsA (sigNone2 f) f
  ScalarWord .minn ill 1 0 (fun f u => (BitVec.ofNat 64 (min (opA f u).toNat (opB f u).toNat), 0))
    ∧ ScalarWord .maxn ill 1 0 (fun f u => (BitVec.ofNat 64 (max (opA f u).toNat (opB f u).toNat), 0))
    ∧ (∀ (f : FmtA), f.ty = tyNone → ∀ (s : State),
        (issues (.min f) (planScal (faultsA (sigMinMax f) f) f 1 s s.cur) s = true →
          let u := acting (planScal (faultsA (sigMinMax f) f) f 1 s s.cur) s
          Puts f.tk [scalarOut 1 f s (if scalLane u f.p then (BitVec.ofInt 64 (min (valA f u).toInt (valB f u).toInt), 0) else (0, 0))] s
            (exec (.min f) s))
        ∧ (issues (.max f) (planScal (faultsA (sigMinMax f) f) f 1 s s.cur) s = true →
          let u := acting (planScal (faultsA (sigMinMax f) f) f 1 s s.cur) s
          Puts f.tk [scalarOut 1 f s (if scalLane u f.p then (BitVec.ofInt 64 (max (valA f u).toInt (valB f u).toInt), 0) else (0, 0))] s
            (exec (.max f) s)))
    ∧ ScalarWord .mulh ill 3 0 (fun f u => (BitVec.ofInt 64 ((opA f u).toInt * (opB f u).toInt / (2 ^ 64 : Int)), 0))
    ∧ ScalarWord .mulhn ill 3 0 (fun f u => (BitVec.ofNat 64 ((opA f u).toNat * (opB f u).toNat / 2 ^ 64), 0))
    ∧ ScalarWord .div ill 16 0 (fun f u =>
        if opB f u = 0 then (0, fDZ)
        else if opA f u = 0x8000000000000000 ∧ opB f u = BitVec.allOnes 64 then (0x8000000000000000, fOF)
        else (BitVec.ofInt 64 ((opA f u).toInt.tdiv (opB f u).toInt), 0))
    ∧ ScalarWord .rem ill 16 0 (fun f u =>
        if opB f u = 0 then (opA f u, fDZ) else (BitVec.ofInt 64 ((opA f u).toInt.tmod (opB f u).toInt), 0))
    ∧ ScalarWord .divn ill 16 0 (fun f u =>
        if opB f u = 0 then (0, fDZ) else (BitVec.ofNat 64 ((opA f u).toNat / (opB f u).toNat), 0))
    ∧ ScalarWord .remn ill 16 0 (fun f u =>
        if opB f u = 0 then (opA f u, fDZ) else (BitVec.ofNat 64 ((opA f u).toNat % (opB f u).toNat), 0))

/-- R109-R113: logic, the shifts by B's low 8 bits (64 and more give 0 or the sign), rotation by B modulo 64, comparison, selection and
the bit counts; none sets a flag. -/
def Obligations.LogicShiftCompare : Prop :=
  let ill := fun f => faultsA (sigNone2 f) f
  let ill1 := fun f => faultsA (sigNone1 f) f
  ScalarWord .and ill 1 0 (fun f u => (opA f u &&& opB f u, 0))
    ∧ ScalarWord .or ill 1 0 (fun f u => (opA f u ||| opB f u, 0))
    ∧ ScalarWord .xor ill 1 0 (fun f u => (opA f u ^^^ opB f u, 0))
    ∧ ScalarWord .andn ill 1 0 (fun f u => (opA f u &&& ~~~opB f u, 0))
    ∧ ScalarWord .shl ill 1 0 (fun f u =>
        (BitVec.ofNat 64 ((opA f u).toNat * 2 ^ ((opB f u).toNat % 256)), 0))
    ∧ ScalarWord .shr ill 1 0 (fun f u => (BitVec.ofNat 64 ((opA f u).toNat / 2 ^ ((opB f u).toNat % 256)), 0))
    ∧ ScalarWord .sra ill 1 0 (fun f u => (BitVec.ofInt 64 ((opA f u).toInt / (2 ^ ((opB f u).toNat % 256) : Nat)), 0))
    ∧ ScalarWord .rot ill 1 0 (fun f u => ((opA f u).rotateLeft ((opB f u).toNat % 64), 0))
    ∧ (∀ c, ScalarWord (.cmp c) ill 1 0 (fun f u =>
        (if (match c with
            | .eq => decide (opA f u = opB f u) | .ne => decide (opA f u ≠ opB f u)
            | .lt => (opA f u).slt (opB f u) | .ge => (opB f u).sle (opA f u)
            | .ltn => (opA f u).ult (opB f u) | .gen => (opB f u).ule (opA f u)) then 1 else 0, 0)))
    ∧ ScalarWord .sel (fun f => faultsA (sigNone3 f) f) 1 0 (fun f u => (if opA f u ≠ 0 then opB f u else opC f u, 0))
    ∧ ScalarWord .clz ill1 1 0 (fun f u => (BitVec.ofNat 64 (if opA f u = 0 then 64 else 63 - Nat.log2 (opA f u).toNat), 0))
    ∧ ScalarWord .ctz ill1 1 0 (fun f u =>
        (BitVec.ofNat 64 (((List.range 64).find? fun n => (opA f u).getLsbD n).getD 64), 0))
    ∧ ScalarWord .popc ill1 1 0 (fun f u => (BitVec.ofNat 64 ((List.range 64).filter fun n => (opA f u).getLsbD n).length, 0))

/-- R114-R116: the immediates: `addi` wraps at 64 bits with OF, `li` sign-extends its 34 bits, `lih` puts 30 bits above A's low 34,
`bfx` extracts a field zero- or sign-extended, `bfi` inserts one into D's old value. -/
def Says.Immediates : Prop :=
  ImmWord .addi illAddi (fun f u => immA f u + f.imm.signExtend 64)
      (fun f u => if (immA f u).saddOverflow (f.imm.signExtend 64) then fOF else 0)
    ∧ ImmWord .li illLi (fun f _ => f.imm.signExtend 64) (fun _ _ => 0)
    ∧ ImmWord .lih illLih (fun f u => f.imm.extractLsb' 0 30 ++ (immA f u).extractLsb' 0 34) (fun _ _ => 0)
    ∧ ImmWord .bfx illBfx (fun f u =>
        let v := (immA f u).toNat / 2 ^ bfPos f % 2 ^ bfLen f
        if bfSx f ∧ 2 ^ (bfLen f - 1) ≤ v then BitVec.ofInt 64 ((v : Int) - (2 ^ bfLen f : Nat)) else BitVec.ofNat 64 v) (fun _ _ => 0)
    ∧ (∀ (f : FmtI) (s : State), issues (.bfi f) (planBfi f s s.cur) s = true →
        let u := acting (planBfi f s s.cur) s
        ∃ r : Word, Puts f.tk [mkFlight 1 true (destOf f.d) (.word r) 0 f.s (signalsOf s f.tk)] s (exec (.bfi f) s)
          ∧ ∀ b < 64, r.getLsbD b = if bfPos f ≤ b ∧ b < bfPos f + bfLen f then (immA f u).getLsbD (b - bfPos f)
              else (rdScal u u.cur f.d).getLsbD b)

/-- R117: `name` copies a register of any class to a named one of its class: scalars in one issue cycle, vectors, masks and expansion
registers in two; scalars and vectors land on their stair too. -/
def Says.NameCopies : Prop :=
  ∀ (f : FmtA) (s : State), issues (.name f) (planName f s s.cur) s = true →
    let u := acting (planName f s s.cur) s
    let out := fun lat stair v => [mkFlight lat stair (destOf f.d) v 0 f.s (signalsOf s f.tk)]
    ((clsOf f.a = .t ∨ clsOf f.a = .x ∨ clsOf f.a = .c) → Puts f.tk (out 1 true (.word (opA f u))) s (exec (.name f) s))
      ∧ ((clsOf f.a = .w ∨ clsOf f.a = .v) → f.p = 0 → Puts f.tk (out 2 true (.vec (rdVec u u.cur f.a))) s (exec (.name f) s))
      ∧ ((clsOf f.a = .w ∨ clsOf f.a = .v) → f.p ≠ 0 → ∃ r : VReg, Puts f.tk (out 2 true (.vec r)) s (exec (.name f) s)
          ∧ r.tag = (rdVec u u.cur f.a).tag
          ∧ ∀ e < 512, bits r.data.toNat (8 * e) 8
              = if (laneMask u u.cur f.p).getLsbD e || !f.z then bits (rdVec u u.cur f.a).data.toNat (8 * e) 8 else 0)
      ∧ (clsOf f.a = .k → Puts f.tk (out 1 false (.tok (rdTok u u.cur f.a))) s (exec (.name f) s))
      ∧ (clsOf f.a = .m → Puts f.tk (out 2 false (.mask (rdMask u u.cur f.a))) s (exec (.name f) s))
      ∧ (clsOf f.a = .q → Puts f.tk (out 2 false (.series (rdSer u u.cur f.a))) s (exec (.name f) s))
      ∧ (clsOf f.a = .o → Puts f.tk (out 1 false (.order (rdOrd u u.cur f.a))) s (exec (.name f) s))

/-- R118-R120, R81, R92 (a floating minimum or maximum is not rounded and draws nothing: log 58): `fadd`, `fmul` and `ffma` round their exact result
once in TY under `fmode`, after the scale, with the clamp, and set the flags of that rounding and of the operation; `min` and `max` under a floating
type give an operand unrounded; `fcmp` compares values, unordered at a NaN; `fcvt` converts from SRC to TY. A word that rounds draws once under sr. -/
def Obligations.ScalarFloat : Prop :=
  let rounded := fun (f : FmtA) (u : State) (v : Fl × BitVec 8) =>
    let r := flRound f.ty ⟨rmOf (taskOf u u.cur), lfsr (seedOf (taskOf u u.cur))⟩ f.cl.toNat (flScale f.sc.toInt v.1)
    (BitVec.ofNat 64 r.1, r.2 ||| v.2)
  let down := fun (u : State) => decide (rmOf (taskOf u u.cur) = 3)
  let ill := fun f => faultsA (sigFp2 f) f
  ScalarWord .fadd ill 4 1 (fun f u => rounded f u (flAdd (down u) (valA f u).toFl (valB f u).toFl))
    ∧ ScalarWord .fmul ill 4 1 (fun f u => rounded f u (flMul (valA f u).toFl (valB f u).toFl))
    ∧ ScalarWord .ffma (fun f => faultsA (sigFp3 f) f) 4 1
        (fun f u => rounded f u (flFma (down u) (valA f u).toFl (valB f u).toFl (valC f u).toFl))
    ∧ (∀ c, ScalarWord (.fcmp c) (fun f => faultsA (sigFcmp f) f) 4 0 (fun f u =>
        let a := (valA f u).toFl
        let b := (valB f u).toFl
        let un := a.isNan || b.isNan
        (if (match c with
            | .un => un | .lt => !un && flLt a b | .le => !un && (flLt a b || !flLt b a) | .eq => !un && !flLt a b && !flLt b a
            | .ne => un || flLt a b || flLt b a) then 1 else 0, a.sig ||| b.sig)))
    ∧ (∀ (f : FmtA) (s : State), issues (.fcvt f) (planFcvt f s s.cur) s = true →
        let u := acting (planFcvt f s s.cur) s
        let r := convert f.ty ⟨rmOf (taskOf u u.cur), lfsr (seedOf (taskOf u u.cur))⟩ f.cl.toNat f.sc.toInt (sread u u.cur (cTy f) f.a f.ma)
        PutsDrawing (if tyFloat f.ty || tyFloat (cTy f) then 1 else 0) f.tk
          [scalarOut 4 f s (if scalLane u f.p then (extend64 f.ty r.1, r.2) else (0, 0))] s (exec (.fcvt f) s))
    ∧ (∀ (f : FmtA) (s : State), f.ty ≠ tyNone →
        (issues (.min f) (planScal (faultsA (sigMinMax f) f) f 1 s s.cur) s = true →
          let u := acting (planScal (faultsA (sigMinMax f) f) f 1 s s.cur) s
          let r := flMinMax false (valA f u).toFl (valB f u).toFl
          Puts f.tk [scalarOut 1 f s (if scalLane u f.p then (BitVec.ofNat 64 (flRound f.ty ⟨0, 0⟩ 0 r.1).1, r.2) else (0, 0))] s
            (exec (.min f) s))
        ∧ (issues (.max f) (planScal (faultsA (sigMinMax f) f) f 1 s s.cur) s = true →
          let u := acting (planScal (faultsA (sigMinMax f) f) f 1 s s.cur) s
          let r := flMinMax true (valA f u).toFl (valB f u).toFl
          Puts f.tk [scalarOut 1 f s (if scalLane u f.p then (BitVec.ofNat 64 (flRound f.ty ⟨0, 0⟩ 0 r.1).1, r.2) else (0, 0))] s
            (exec (.max f) s)))

/-- R67-R71, R131, R56: `csrr` puts in flight, for D and the scalar stair, the CSR of its number as it stands in the issue cycle; `csrw`
puts in flight the value of A for the CSR of its number. Neither changes anything else. One issue cycle later the CSR takes the value:
`flags` its low 8 bits, `fmode` the word, with SEED 0 storing 1, `lc` and `ctimeo` theirs; every other register stays. -/
def Says.CsrWords : Prop :=
  (∀ (f : FmtI) (s : State), issues (.csrr f) (planCsrr f s s.cur) s = true →
      let t := taskOf s s.cur
      ∃ v, Puts f.tk [mkFlight 1 true (destOf f.d) (.word v) 0 f.s (signalsOf s f.tk)] s (exec (.csrr f) s)
        ∧ (csrNo f = 0 → v = t.tstat) ∧ (csrNo f = 1 → v = t.flags.setWidth 64) ∧ (csrNo f = 2 → v = t.fmode)
        ∧ (∀ l < 3, csrNo f = 3 + l → v = tget 0 t.lc l) ∧ (csrNo f = 6 → v = t.spred.setWidth 64)
        ∧ (∀ i < 4, csrNo f = 8 + i → v = BitVec.ofNat 64 (t.point.getD i 0))
        ∧ (csrNo f = 12 → v = BitVec.ofNat 64 t.asyncs.length) ∧ (csrNo f = 13 → v = BitVec.ofNat 64 t.exchs.length)
        ∧ (csrNo f = 16 → v = t.ctimeo.setWidth 64)
        ∧ (csrNo f = 0x20 → v = BitVec.ofNat 64 (t.level + (if t.cp then 4 else 0) + (t.loopcs.map fun l => 8 * 2 ^ l.level).sum)))
    ∧ (∀ (f : FmtI) (s : State), issues (.csrw f) (planCsrw f s s.cur) s = true →
      let u := acting (planCsrw f s s.cur) s
      Puts f.tk [mkFlight 1 false (.csr (csrNo f)) (.word (rdScal u u.cur f.a)) 0 false (signalsOf s f.tk)] s (exec (.csrw f) s))
    ∧ ∀ (s : State) (p : Party) (n w g : Nat) (v : Word),
      (taskOf s p).flights.filter (fun g => decide (g.rem = 0)) = [{ mkFlight 0 false (.csr n) (.word v) 0 false [] with word := w, stage := g }] →
      ∃ t, exec (.resultWrite p) s = .next t
        ∧ (taskOf t p).flags = (if n = 1 then v.setWidth 8 else (taskOf s p).flags)
        ∧ (taskOf t p).fmode = (if n = 2 then (if v.toNat / 2 ^ 32 = 0 then v ||| 0x100000000#64 else v) else (taskOf s p).fmode)
        ∧ (∀ l < 3, tget 0 (taskOf t p).lc l = if n = 3 + l then v else tget 0 (taskOf s p).lc l)
        ∧ (taskOf t p).ctimeo = (if n = 16 then v.setWidth 32 else (taskOf s p).ctimeo)
        ∧ (taskOf t p).x = (taskOf s p).x ∧ (taskOf t p).v = (taskOf s p).v ∧ (taskOf t p).k = (taskOf s p).k
        ∧ (taskOf t p).m = (taskOf s p).m ∧ (taskOf t p).q = (taskOf s p).q ∧ (taskOf t p).o = (taskOf s p).o
        ∧ (taskOf t p).t = (taskOf s p).t ∧ (taskOf t p).w = (taskOf s p).w
        ∧ (∀ q, partyKey q ≠ partyKey p → taskOf t q = taskOf s q) ∧ (∀ c, coreOf t c = coreOf s c) ∧ t.rest = s.rest

/-- R56: in the cycle in which a `csrw flags` lands, the written value is applied first, and the flags of a result written in that cycle
are then ORed in, whichever issued first. R131: a write of `fmode` with RM 6 or 7, or with a reserved bit set, and one to the `lc` of an
active loop, is ILL with detail 5. -/
def Says.CsrWritesLand : Prop :=
  (∀ (s : State) (p : Party) (g f : Flight) (v : Word) (n : Nat) (x : Word),
      (taskOf s p).flights.filter (fun g => decide (g.rem = 0)) = [g, f] ∨ (taskOf s p).flights.filter (fun g => decide (g.rem = 0)) = [f, g] →
      f.dest = .csr 1 → f.val = .word v → f.stair = false → f.flags = 0 → f.fix = none → f.need = [] → f.sigs = [] →
      g.dest = .x n → g.val = .word x → g.fix = none → g.need = [] → g.sigs = [] →
      ∃ t, exec (.resultWrite p) s = .next t ∧ (taskOf t p).flags = v.setWidth 8 ||| g.flags ∧ tget 0 (taskOf t p).x n = x)
    ∧ ∀ (f : FmtI) (s : State), (Instr.csrw f).wf = true → refreshHit s s.cur (readsI f) = false → bpHit s s.cur = none →
      (isPorter s.cur = true → f.tk = noTk) →
      (csrNo f = 2 ∧ (6 ≤ (rdScal s s.cur f.a).toNat % 8 ∨ (rdScal s s.cur f.a).extractLsb' 3 29 ≠ 0)
        ∨ ∃ l ∈ (taskOf s s.cur).loops, csrNo f = 3 + l.level ∧ l.level < 3) →
      exec (.csrw f) s = .next (trapHere s s.cur ((encodeWord (.csrw f)).getD 0) (mkTrap cILL 5))
/-! ## Control (spec 04) -/

/-- R121-R123: `br` goes to the word DISP away, counted from its own, when its condition holds of A and B, and else falls through; `jmp` and `call`
always go; `jmpr` and `ret` go to the byte address in A. `call` also puts the following word's byte address in flight to x31, on no stair (that a
target is taken modulo 2^48 is the model's reading, log 58). On a task core, outside every hardware loop and with branches not traced, nothing else
changes but the signals the word pushes. -/
def Says.Transfers : Prop :=
  let quiet := fun s : State => (taskOf s s.cur).loops = [] ∧ isPorter s.cur = false ∧ galKind s s.cur 0 = false
  let goto := fun (n : Nat) (t : Task) => { t with pc := n, fell := false }
  let target := fun (s : State) (disp : BitVec 32) => (((taskOf s s.cur).pc + disp.toInt : Int) % (2 ^ 48 : Nat)).toNat
  (∀ (c : ICond) (f : FmtB) (s : State), quiet s → issues (.br c f) (planNone f.tk (illBr f) (readsB f) s s.cur) s = true →
      let u := acting (planNone f.tk (illBr f) (readsB f) s s.cur) s
      Completes f.tk (if icond c (rdScal u u.cur f.a) (rdScal u u.cur f.b) then goto (target s f.disp) else id) s (exec (.br c f) s))
    ∧ (∀ (f : FmtB) (s : State), quiet s → issues (.jmp f) (planNone f.tk (illJmp f) [] s s.cur) s = true →
      Completes f.tk (goto (target s f.disp)) s (exec (.jmp f) s))
    ∧ (∀ (f : FmtB) (s : State), quiet s → issues (.call f) (planCall f s s.cur) s = true →
      let link := mkFlight 1 false (.x 31) (.word (BitVec.ofNat 64 (8 * ((taskOf s s.cur).pc + 1)))) 0 false []
      Completes f.tk (fun t => goto (target s f.disp) (flying [link] t)) s (exec (.call f) s))
    ∧ (∀ (f : FmtA) (s : State), quiet s → issues (.jmpr f) (planJmpr f s s.cur) s = true →
      let u := acting (planJmpr f s s.cur) s
      Completes f.tk (goto ((opA f u).toNat / 8)) s (exec (.jmpr f) s))
    ∧ (∀ (f : FmtA) (s : State), quiet s → issues (.ret f) (planJmpr f s s.cur) s = true →
      let u := acting (planJmpr f s s.cur) s
      Completes f.tk (goto ((opA f u).toNat / 8)) s (exec (.ret f) s))

/-- R121-R123, R75, R299, R310: the five transfers on any party, in or out of loops, traced or not: a taken one goes to its target (modulo
2^48: log 58), ends
exactly the innermost loops whose bodies do not hold it, and changes no named register, no `lc` and no byte of memory; on the Porter it
empties a buffer that does not hold the target. R75: `call`, `jmpr` and `ret` in a loop are ILL with detail 5. -/
def Says.TransfersInLoops : Prop :=
  let target := fun (s : State) (disp : BitVec 32) => (((taskOf s s.cur).pc + disp.toInt : Int) % (2 ^ 48 : Nat)).toNat
  let holds := fun (n : Nat) (l : Loop) => decide (l.start ≤ n ∧ n < l.start + l.len)
  let went := fun (s t : State) (n : Nat) => (taskOf t s.cur).pc = n ∧ (taskOf t s.cur).fell = false
    ∧ (∀ l, hereLoop (taskOf t s.cur) = some l → holds n l = true)
    ∧ (∃ r, (taskOf s s.cur).loops = (taskOf t s.cur).loops ++ r ∧ ∀ l ∈ r, holds n l = false)
    ∧ SameRegs (taskOf t s.cur) (taskOf s s.cur) ∧ SameMemory s t
    ∧ (isPorter s.cur = true → (∀ e ∈ (taskOf s s.cur).fetched, e.1 ≠ n) → (taskOf t s.cur).fetched = [])
  (∀ (f : FmtB) (s : State), (taskOf s s.cur).loops.length ≤ 3 → issues (.jmp f) (planNone f.tk (illJmp f) [] s s.cur) s = true →
      ∃ t, exec (.jmp f) s = .next t ∧ went s t (target s f.disp))
    ∧ (∀ (c : ICond) (f : FmtB) (s : State), (taskOf s s.cur).loops.length ≤ 3 →
      issues (.br c f) (planNone f.tk (illBr f) (readsB f) s s.cur) s = true →
      let u := acting (planNone f.tk (illBr f) (readsB f) s s.cur) s
      ∃ t, exec (.br c f) s = .next t
        ∧ (icond c (rdScal u u.cur f.a) (rdScal u u.cur f.b) = true → went s t (target s f.disp))
        ∧ (icond c (rdScal u u.cur f.a) (rdScal u u.cur f.b) = false → (taskOf t s.cur).pc = (taskOf s s.cur).pc + 1
            ∧ (taskOf t s.cur).loops = (taskOf s s.cur).loops ∧ SameRegs (taskOf t s.cur) (taskOf s s.cur) ∧ SameMemory s t))
    ∧ (∀ (f : FmtB) (s : State), issues (.call f) (planCall f s s.cur) s = true →
      ∃ t, exec (.call f) s = .next t ∧ went s t (target s f.disp)
        ∧ ∃ g ∈ (taskOf t s.cur).flights, g.rem = 0 ∧ g.dest = .x 31 ∧ g.stair = false
            ∧ g.val = .word (BitVec.ofNat 64 (8 * ((taskOf s s.cur).pc + 1))))
    ∧ (∀ (f : FmtA) (s : State), issues (.jmpr f) (planJmpr f s s.cur) s = true →
      let u := acting (planJmpr f s s.cur) s
      ∃ t, exec (.jmpr f) s = .next t ∧ went s t ((opA f u).toNat / 8))
    ∧ (∀ (f : FmtA) (s : State), issues (.ret f) (planJmpr f s s.cur) s = true →
      let u := acting (planJmpr f s s.cur) s
      ∃ t, exec (.ret f) s = .next t ∧ went s t ((opA f u).toNat / 8))
    ∧ (∀ (s : State), (taskOf s s.cur).loops ≠ [] → bpHit s s.cur = none → isPorter s.cur = false →
      (∀ f : FmtB, (Instr.call f).wf = true → exec (.call f) s = .next (trapHere s s.cur ((encodeWord (.call f)).getD 0) (mkTrap cILL 5)))
        ∧ (∀ f : FmtA, (Instr.jmpr f).wf = true → refreshHit s s.cur (readsA f) = false →
          exec (.jmpr f) s = .next (trapHere s s.cur ((encodeWord (.jmpr f)).getD 0) (mkTrap cILL 5)))
        ∧ (∀ f : FmtA, (Instr.ret f).wf = true → refreshHit s s.cur (readsA f) = false →
          exec (.ret f) s = .next (trapHere s s.cur ((encodeWord (.ret f)).getD 0) (mkTrap cILL 5))))

/-- R72-R74, R124, R169: `loop` with CNT N not 0 opens a loop of LEN + 1 words and STG + 1 stages, its count N + STG, `spred` 1 for a
pipelined body, its body taken into the slot's loop buffer, and it takes the leave it was granted; N = 0 skips the body, stores 0 and gives a leave back. -/
def Says.LoopOpens : Prop :=
  ∀ (l : Level) (f : FmtL) (s : State), issues (.loop l f) (planLoop l f s s.cur) s = true →
    let u := acting (planLoop l f s s.cur) s
    let n := (rdScal u u.cur f.cnt).toNat
    (n = 0 → (taskOf s s.cur).leaveGot = false →
        Completes f.tk (fun t => { t with lc := tset 0 t.lc (levelNo l) 0, pc := t.pc + f.len.toNat + 1, fell := true }) s
          (exec (.loop l f) s))
      ∧ (n = 0 → ∃ t, exec (.loop l f) s = .next t ∧ (taskOf t s.cur).pc = (taskOf s s.cur).pc + f.len.toNat + 2
          ∧ tget 0 (taskOf t s.cur).lc (levelNo l) = 0 ∧ (taskOf t s.cur).loops = (taskOf s s.cur).loops
          ∧ (taskOf t s.cur).x = (taskOf s s.cur).x ∧ (taskOf t s.cur).leaveGot = false ∧ SameMemory s t)
      ∧ (n ≠ 0 → Completes f.tk (fun t => { takeBody u s.cur t t.pc (f.len.toNat + 1) with
          lc := tset 0 t.lc (levelNo l) (BitVec.ofNat 64 (n + f.stg.toNat))
          loops := t.loops ++ [⟨levelNo l, t.pc, f.len.toNat + 1, f.stg.toNat + 1, f.id.toNat, 0, t.leaveGot, t.level⟩]
          spred := if 0 < f.stg.toNat then 1 else t.spred, fell := false, leaveAsked := false, leaveGot := false }) s
        (exec (.loop l f) s))

/-- R73, R74: at the end of a body the count falls by one; a count that reaches 0 ends the loop, and else control returns to the first
word of the body, with `spred` rotated in a pipelined one, where no event, step or debug stop waits for the end of the iteration. -/
def Says.LoopIterates : Prop :=
  ∀ (s : State) (p : Party) (l : Loop), (isPorter p = true → blockEnd (taskOf s p) = none) → innerLoop (taskOf s p) = some l →
    atLoopEnd (taskOf s p) = true →
    let n := (tget 0 (taskOf s p).lc l.level).toNat - 1
    (n = 0 → exec (.loopIterationEnd p) s
        = .next (mapTask s p fun t => { t with lc := tset 0 t.lc l.level 0, exits := true }))
      ∧ (n ≠ 0 → l.stages ≤ 1 → exec (.loopIterationEnd p) s
        = .next (mapTask s p fun t => { t with
            lc := tset 0 t.lc l.level (BitVec.ofNat 64 n), pc := l.start, fell := false
            loops := t.loops.dropLast ++ [{ l with iter := l.iter + 1 }] }))
      ∧ (n ≠ 0 → 1 < l.stages → (taskOf s p).loopEvent = none → (taskOf s p).step = false → launchStopped s p = false →
        exec (.loopIterationEnd p) s = .next (mapTask s p fun t => { t with
            lc := tset 0 t.lc l.level (BitVec.ofNat 64 n), pc := l.start, fell := false
            loops := t.loops.dropLast ++ [{ l with iter := l.iter + 1 }]
            spred := BitVec.ofNat 8 ((t.spred.toNat * 2 + (if l.stages ≤ n then 1 else 0)) % 2 ^ l.stages) }))

/-- R73, R125: a loop whose count has run down ends, plain or pipelined, where no event, step or debug stop waits for its last iteration;
control is at the word after its body. `loopx` leaves the innermost loop so when A is absent or not 0, and else does nothing. `lc` keeps its
value, and `spred` reads 1 after a pipelined loop. -/
def Says.LoopEnds : Prop :=
  let ended := fun (a b : Task) (l : Loop) => b.loops = a.loops.dropLast ∧ b.spred = (if 1 < l.stages then 1 else a.spred) ∧ SameRegs b a
  (∀ (s : State) (p : Party) (l : Loop), (taskOf s p).exits = true → innerLoop (taskOf s p) = some l →
      (1 < l.stages → (taskOf s p).loopEvent = none ∧ (taskOf s p).step = false ∧ launchStopped s p = false) →
      ∃ t, exec (.loopExit p) s = .next t ∧ ended (taskOf s p) (taskOf t p) l ∧ (taskOf t p).exits = false
        ∧ (taskOf t p).pc = (taskOf s p).pc ∧ SameMemory s t)
    ∧ (∀ (f : FmtA) (s : State) (l : Loop), issues (.loopx f) (planLoopx f s s.cur) s = true → hereLoop (taskOf s s.cur) = some l →
      let u := acting (planLoopx f s s.cur) s
      ((clsOf f.a = .none ∨ opA f u ≠ 0) → ∃ t, exec (.loopx f) s = .next t
          ∧ ended (taskOf s s.cur) (taskOf t s.cur) l ∧ (taskOf t s.cur).pc = l.start + l.len ∧ SameMemory s t)
        ∧ (clsOf f.a ≠ .none → opA f u = 0 → Completes f.tk id s (exec (.loopx f) s)))

/-- R126: `nop` only advances the pc and its ticks; `halt` ends every loop and lets the slot issue no more; R130, R207: `waita` and
`waitacc`, once their operations are done, only advance the pc and make the registers of those operations reliable again (R58): one that
another word wrote meanwhile takes a free value (log 52). -/
def Says.HaltAndWaits : Prop :=
  let waited := fun (s : State) (o : Host.Outcome State Fault Refusal) (tk : Tk) (exch : Bool) (issued n : Nat) =>
    let left := fun l : Late => decide (l.exch ≠ exch ∨ issued ≤ l.seq + n)
    ((taskOf s s.cur).late.all left = true → Completes tk id s o)
      ∧ ∃ t, o = .next t ∧ (taskOf t s.cur).pc = (taskOf s s.cur).pc + 1 ∧ (taskOf t s.cur).late = (taskOf s s.cur).late.filter left
        ∧ (∀ i, (∀ l ∈ (taskOf s s.cur).late, (Dest.x i, true) ∉ l.dests) → tget 0 (taskOf t s.cur).x i = tget 0 (taskOf s s.cur).x i)
        ∧ (∀ i, (∀ l ∈ (taskOf s s.cur).late, (Dest.v i, true) ∉ l.dests) →
            tget freshV (taskOf t s.cur).v i = tget freshV (taskOf s s.cur).v i)
        ∧ SameMemory s t
  (∀ (f : FmtA) (s : State), issues (.nop f) (planNone f.tk (illCtl f cNone) [] s s.cur) s = true →
      Completes f.tk id s (exec (.nop f) s))
    ∧ (∀ (f : FmtA) (s : State), (taskOf s s.cur).loops = [] → issues (.halt f) (planHalt f s s.cur) s = true →
      Completes f.tk (fun t => { t with status := .halting }) s (exec (.halt f) s))
    ∧ (∀ (f : FmtA) (s : State) (l : Loop), innerLoop (taskOf s s.cur) = some l → (taskOf s s.cur).loops.length ≤ 3 →
      issues (.halt f) (planHalt f s s.cur) s = true →
      ∃ t, exec (.halt f) s = .next t ∧ (taskOf t s.cur).status = .halting ∧ (taskOf t s.cur).loops = [])
    ∧ (∀ (f : FmtA) (s : State), issues (.waita f) (planWaita f s s.cur) s = true →
      waited s (exec (.waita f) s) f.tk false (taskOf s s.cur).asyncNo (waitCount f (acting (planWaita f s s.cur) s) s.cur 64))
    ∧ (∀ (f : FmtA) (s : State), issues (.waitacc f) (planWaitacc f s s.cur) s = true →
      let n := waitCount f (acting (planWaitacc f s s.cur) s) s.cur 16
      (∀ q ∈ (taskOf s s.cur).exchFmt, (taskOf s s.cur).exchNo ≤ q + n) →
      waited s (exec (.waitacc f) s) f.tk true (taskOf s s.cur).exchNo n)

/-- R129, R380: `trap` and `bkpt` complete, and then take DBG, to be resumed at the following word: `trap` with detail 15 and its 16
bits in AUX0, `bkpt` with detail 1 and its operand (absent: 0) in AUX0. R76, R382: in a pipelined body under STOP the event is held, and the
word ends as any other. -/
def Says.TrapWordsTrap : Prop :=
  let taken := fun (s : State) (u : State) (tk : Tk) (i : TrapInfo) (o : Host.Outcome State Fault Refusal) => ∃ n d,
    let done := completeSigs { u with freeNo := n, detector := d } s.cur (signalsOf s tk)
    let held := inPiped (taskOf s s.cur) && (launchDebug s s.cur).stop && !isPorter s.cur
    o = .next (if held then endWord (holdEvent done s.cur i) s.cur true
      else takeTrap (endCycle done s.cur) s.cur (taskOf s s.cur).pc { i with resume := (taskOf s s.cur).pc + 1 })
  (∀ (f : FmtI) (s : State), issues (.trap f) (planNone f.tk (illTrap f) [] s s.cur) s = true →
      taken s (acting (planNone f.tk (illTrap f) [] s s.cur) s) f.tk
        { mkTrap cDBG 15 with aux0 := (f.imm.extractLsb' 0 16).setWidth 64 } (exec (.trap f) s))
    ∧ (∀ (f : FmtA) (s : State), issues (.bkpt f) (planBkpt f s s.cur) s = true →
      let u := acting (planBkpt f s s.cur) s
      taken s u f.tk { mkTrap cDBG 1 with aux0 := opA f u } (exec (.bkpt f) s))

/-- R373, R374: `eret` in a handler returns to the saved task; on the supervisor it takes the frame it names out of the ring, and the
supervised task or stream runs on at its trapping word (B 0) or at the word after it (B 1), or ends (B 2): its window is given up, a
stream stops. -/
def Says.EretReturns : Prop :=
  (∀ (f : FmtA) (s : State), isSuper s.cur = false → issues (.eret f) (planEret f s s.cur) s = true →
      ∃ n d, exec (.eret f) s = .next { returnTask (acting (planEret f s s.cur) s) s.cur with freeNo := n, detector := d })
    ∧ (∀ (f : FmtA) (s : State) (g : Frame), isSuper s.cur = true → issues (.eret f) (planEret f s s.cur) s = true →
      let u := acting (planEret f s s.cur) s
      (dieOf s (dieNo s.cur)).frames.find? (fun g => decide (g.written = some (opA f u).toNat)) = some g →
      (g.launch = none ∨ g.info.cause ≠ cDBG) → (taskOf s g.party).run = g.run →
      partyOk s.cur = true → partyOk g.party = true → isSuper g.party = false → (∀ c e, g.party ≠ .engine c e) →
      (taskOf s g.party).status = .supervised →
      ∃ t, exec (.eret f) s = .next t
        ∧ (∀ h ∈ (dieOf t (dieNo s.cur)).frames, h.written ≠ some (opA f u).toNat)
        ∧ ((opB f u).toNat ≤ 1 → (taskOf t g.party).status = .run
          ∧ (taskOf t g.party).pc = (if isPorter g.party then g.word / 8 else g.word) + (opB f u).toNat
          ∧ SameRegs (taskOf t g.party) (taskOf s g.party))
        ∧ (2 ≤ (opB f u).toNat → if isPorter g.party then (taskOf t g.party).status = .idle else taskOf t g.party = Task.fresh))

/-- R126, R295, R369: a halting task with nothing left outstanding retires: its window is zeroed; a Porter stream stops and keeps its
registers. R369: a trapped task whose asynchronous operations are complete gets its handler. -/
def Obligations.RetireAndHandler : Prop :=
  (∀ (p : Party) (s : State), haltDone s p = true → isPorter p = false →
      ∃ t, exec (.haltRetire p) s = .next t ∧ taskOf t p = Task.fresh)
    ∧ (∀ (p : Party) (s : State), haltDone s p = true → isPorter p = true →
      ∃ t, exec (.haltRetire p) s = .next t ∧ (taskOf t p).status = .idle ∧ (taskOf t p).x = (taskOf s p).x
        ∧ (∀ q, partyKey q ≠ partyKey p → taskOf t q = taskOf s q) ∧ t.cores = s.cores ∧ t.rest = s.rest)
    ∧ (∀ (p : Party) (s : State), haltDone s p = false → exec (.haltRetire p) s = .next s)
    ∧ (∀ (p : Party) (s : State) (d l : Nat), isPorter p = false → (taskOf s p).status = .trapped → asyncDone (taskOf s p) = true →
      (taskOf s p).launch = some (d, l) →
      ((launchOf s d l).argmode = 0 ∨ ∃ n, (coreOf s (coreNo p)).sliceSlot = some n ∧ (slotOf s n).state = .live
        ∧ (slotOf s n).ctx = (launchOf s d l).ctx) →
      ∃ t, exec (.handlerStart p) s = .next t ∧ (taskOf t p).pc = (launchOf s d l).handler ∧ (taskOf t p).status = .run
        ∧ (taskOf t p).inHandler = true ∧ tget Task.fresh t.saved (partyKey p) = taskOf s p)

/-- R383-R385, R172: `trmark` appends a record of kind 6 with its value to the core's Gallery and answers its status; `perfsnap` appends a
record of kind 7 with the snapshot: its slot, the clock, the six leave-wait counters, and one entry for each conflict counter that is not zero
(bank losses are free values, log 10), requester by requester and bank by bank; and it clears the counters. -/
def Says.GalleryWords : Prop :=
  let record := fun (s : State) (n kind pay : Nat) =>
    let t := taskOf s s.cur
    leBytes 1 kind ++ leBytes 1 n ++ leBytes 1 (((innerLoop t).map (·.id)).getD 0) ++ leBytes 1 (stageField t t.pc)
      ++ leBytes 4 (((innerLoop t).map (·.iter)).getD 0) ++ leBytes 4 s.clock ++ leBytes 4 pay
  (∀ (f : FmtA) (s : State) (c n : Nat), s.cur = .slot c n → issues (.trmark f) (planTrmark f s s.cur) s = true →
      galFrozen (coreOf s c) = false → (coreOf s c).galLost = false → (coreOf s c).gal.length ≤ 65520 →
      let u := acting (planTrmark f s s.cur) s
      ∃ t, exec (.trmark f) s = .next t
        ∧ (coreOf t c).gal = (coreOf s c).gal ++ record s n 6 ((opA f u).toNat % 2 ^ 32)
        ∧ (∃ g ∈ (taskOf t s.cur).flights, g.dest = destOf f.d ∧ g.val = .word (galStatus (coreOf t c)))
        ∧ (coreOf t c).mem = (coreOf s c).mem ∧ (taskOf t s.cur).x = (taskOf s s.cur).x)
    ∧ (∀ (f : FmtA) (s : State) (c n : Nat), s.cur = .slot c n →
      let pl := planNone f.tk (noneWord cNone cNone cNone cNone f) [] s s.cur
      issues (.perfsnap f) pl s = true →
      galFrozen (coreOf s c) = false → (coreOf s c).galLost = false → (coreOf s c).galTrig = false → (coreOf s c).gal.length ≤ 20000 →
      let count := fun i => conflictCount (acting pl s) (coreOf s c) i
      let es := (List.range 5120).filter fun i => decide (count i ≠ 0)
      ∃ t, exec (.perfsnap f) s = .next t
        ∧ (coreOf t c).gal = (coreOf s c).gal ++ record s n 7 es.length ++ (leBytes 2 0xFFFF ++ leBytes 1 n ++ leBytes 1 0
          ++ leBytes 4 es.length ++ leBytes 8 s.clock ++ ((List.range 6).flatMap fun i => leBytes 8 (tget 0 (coreOf s c).leaveWait i).toNat)
          ++ es.flatMap fun i => leBytes 8 (count i + i % 512 * 2 ^ 51 + i / 512 * 2 ^ 60))
        ∧ (coreOf t c).conflict = [] ∧ (coreOf t c).leaveWait = [] ∧ (coreOf t c).mem = (coreOf s c).mem
        ∧ (taskOf t s.cur).x = (taskOf s s.cur).x)
/-! ## Token-addressed memory (spec 04, R132-R139; spec 06, R195-R199; spec 09, R251) -/

/-- R135, R14: `ld` through a token that passes its checks delivers the element's bytes, lowest first, extended to 64 bits by TY (a
nibble for a 4-bit TY), six issue cycles after issue; R137, R251: `kld` and `xld` deliver 16 bytes with their token tag, and the 544
bytes of an expansion register. A false lane reads nothing and delivers 0. That the value is the one at issue is the model's choice (log
6); that storage keeps a tag only at a multiple of 16 is its reading (log 58). -/
def Says.LoadsDeliver : Prop :=
  (∀ (f : FmtM) (s : State), issues (.ld f) (planLd f s s.cur) s = true →
      let u := acting (planLd f s s.cur) s
      let k := fmKReg u u.cur f
      let e := memEl u u.cur f
      (e.lane = true → quietLoad u u.cur k [e] = true →
        Puts f.tk [mkFlight 6 true (destOf f.d) (.word (extend64 f.ty (gathered u k [e] 0))) 0 f.s (signalsOf s f.tk)] s (exec (.ld f) s))
      ∧ (e.lane = false →
        Puts f.tk [mkFlight 6 true (destOf f.d) (.word (extend64 f.ty 0)) 0 f.s (signalsOf s f.tk)] s (exec (.ld f) s)))
    ∧ (∀ (f : FmtM) (s : State), issues (.kld f) (planKld f s s.cur) s = true →
      let u := acting (planKld f s s.cur) s
      let k := fmKReg u u.cur f
      let e := tokEl (elemOff u u.cur f)
      elemOff u u.cur f % 16 = 0 → quietLoad u u.cur k [e] = true → (taskOf s s.cur).stores = [] →
        Puts f.tk [mkFlight 6 false (destOf f.d) (.tok ⟨BitVec.ofNat 128 (gathered u k [e] 0),
            keepsTag u k (elemOff u u.cur f).toNat && rdTag u (kPlace u k (elemOff u u.cur f).toNat)⟩) 0 false (signalsOf s f.tk)] s
          (exec (.kld f) s))
    ∧ (∀ (f : FmtM) (s : State), issues (.xld f) (planXld f s s.cur) s = true →
      let u := acting (planXld f s s.cur) s
      let k := fmKReg u u.cur f
      let e := serEl (elemOff u u.cur f)
      elemOff u u.cur f % 16 = 0 → quietLoad u u.cur k [e] = true →
        Puts f.tk [{ mkFlight 12 false (destOf f.d) (.series (BitVec.ofNat 4352 (gathered u k [e] 0))) 0 false (signalsOf s f.tk) with
          fix := some tyNone }] s (exec (.xld f) s))

/-- R57, R136: `lda` and `vlda` read through a token that passes its checks and complete at once; the data is written later, by
ASYNC_LOAD_DATA_WRITTEN, to their named registers, ORing the flags in; a halting task discards it. That the data are those at issue is the
model's choice (log 6). -/
def Obligations.AsyncLoads : Prop :=
  let pending := fun (a : Async) (t : Task) => { t with asyncs := t.asyncs ++ [{ a with seq := t.asyncNo }], asyncNo := t.asyncNo + 1 }
  (∀ (f : FmtM) (s : State), issues (.lda f) (planLda f s s.cur) s = true →
      let u := acting (planLda f s s.cur) s
      let k := fmKReg u u.cur f
      let e := memEl u u.cur f
      quietLoad u u.cur k [e] = true →
        Completes f.tk (pending ⟨0, [(destOf f.d, .word (extend64 f.ty (gathered u k [e] 0)))], 0, [], none, []⟩) s (exec (.lda f) s))
    ∧ (∀ (f : FmtM) (s : State), issues (.vlda f) (planVlda f s s.cur) s = true →
      let u := acting (planVlda f s s.cur) s
      let k := fmKReg u u.cur f
      let els := vmEls u u.cur f
      quietLoad u u.cur k els = true →
        Completes f.tk (pending ⟨0, (List.range (vmParts f.ty)).map fun j =>
            (vmDest f.d j, .vec ⟨BitVec.ofNat 4096 (gathered u k els j), f.ty⟩), 0, [], none, []⟩) s (exec (.vlda f) s))
    ∧ (∀ (p : Party) (s : State) (i : Nat) (a : Async) (n : Nat) (v : Word), (taskOf s p).asyncs[i]? = some a → a.need = [] →
      a.parts = [(.x n, .word v)] → a.spoiled = [] → a.fix = none → (taskOf s p).status ≠ .halting →
      ∃ t, exec (.asyncLoadDataWritten p i) s = .next t ∧ tget 0 (taskOf t p).x n = v
        ∧ (∀ m, m ≠ n → tget 0 (taskOf t p).x m = tget 0 (taskOf s p).x m)
        ∧ (taskOf t p).asyncs.length + 1 = (taskOf s p).asyncs.length ∧ (taskOf t p).flags = (taskOf s p).flags ||| a.flags
        ∧ (taskOf t p).t = (taskOf s p).t ∧ (∀ q, partyKey q ≠ partyKey p → taskOf t q = taskOf s q) ∧ t.cores = s.cores ∧ t.rest = s.rest)
    ∧ (∀ (p : Party) (s : State) (i : Nat) (a : Async), (taskOf s p).asyncs[i]? = some a → a.need = [] →
      (taskOf s p).status = .halting →
      exec (.asyncLoadDataWritten p i) s = .next (mapTask s p fun t => { t with asyncs := dropAt t.asyncs i }))

/-- R196, R199: `vld` delivers the elements of its true lanes (0 in the others) with the format tag TY, an ls4 pair as two parts, and
`vgath` the elements at the offsets that X's elements name. That the values are those at issue is the model's choice (log 6). -/
def Obligations.VectorLoadsDeliver : Prop :=
  let parts := fun (lat : Nat) (f : FmtM) (n : Nat) (s u : State) (k : KReg) (els : List El) => (List.range n).map fun j =>
    mkFlight lat true (vmDest f.d j) (.vec ⟨BitVec.ofNat 4096 (gathered u k els j), f.ty⟩) 0 f.s (if j + 1 = n then signalsOf s f.tk else [])
  (∀ (f : FmtM) (s : State), issues (.vld f) (planVld f s s.cur) s = true →
      let u := acting (planVld f s s.cur) s
      quietLoad u u.cur (fmKReg u u.cur f) (vmEls u u.cur f) = true →
        Puts f.tk (parts 8 f (vmParts f.ty) s u (fmKReg u u.cur f) (vmEls u u.cur f)) s (exec (.vld f) s))
    ∧ (∀ (f : FmtM) (s : State), issues (.vgath f) (planVgath f s s.cur) s = true →
      let u := acting (planVgath f s s.cur) s
      quietLoad u u.cur (fmKReg u u.cur f) (gathEls u u.cur f) = true →
        Puts f.tk (parts 12 f 1 s u (fmKReg u u.cur f) (gathEls u u.cur f)) s (exec (.vgath f) s))

/-- R132, R135, R137, R251: a load through a token that is not current, lacks R, or does not hold the element (for `kld` and `xld`, or at an
offset that is no multiple of 16) delivers 0, untagged, and sets the flag of the first check that fails: ST, else XB. R195: `vld` and `vgath`
likewise deliver zeros, and `lda` and `vlda` write them later, when the token itself fails. -/
def Says.LoadsFail : Prop :=
  let first := fun (u : State) (k : KReg) => if !kCurrent u k then fST else fXB
  let still := fun (s t : State) => (taskOf t s.cur).x = (taskOf s s.cur).x ∧ (taskOf t s.cur).flags = (taskOf s s.cur).flags
    ∧ t.far = s.far ∧ t.host = s.host ∧ ∀ c, (coreOf t c).mem = (coreOf s c).mem
  let lands := fun (s u : State) (k : KReg) (d : Dest) (stair : Bool) (v : Val) (o : Host.Outcome State Fault Refusal) =>
    ∃ t, o = .next t ∧ (∃ g ∈ (taskOf t s.cur).flights, g.dest = d ∧ g.stair = stair ∧ g.val = v ∧ g.flags = first u k) ∧ still s t
  let later := fun (s u : State) (k : KReg) (d : Dest) (v : Val) (o : Host.Outcome State Fault Refusal) =>
    ∃ t, o = .next t ∧ (∃ a ∈ (taskOf t s.cur).asyncs, (d, v) ∈ a.parts ∧ a.need = [] ∧ a.flags = first u k) ∧ still s t
  (∀ (f : FmtM) (s : State), issues (.ld f) (planLd f s s.cur) s = true →
      let u := acting (planLd f s s.cur) s
      let e := memEl u u.cur f
      e.lane = true → (access u (fmKReg u u.cur f) e.off e.size false).flag ≠ 0 →
      lands s u (fmKReg u u.cur f) (destOf f.d) true (.word (extend64 f.ty 0)) (exec (.ld f) s))
    ∧ (∀ (f : FmtM) (s : State), issues (.lda f) (planLda f s s.cur) s = true →
      let u := acting (planLda f s s.cur) s
      let e := memEl u u.cur f
      e.lane = true → (access u (fmKReg u u.cur f) e.off e.size false).flag ≠ 0 →
      later s u (fmKReg u u.cur f) (destOf f.d) (.word (extend64 f.ty 0)) (exec (.lda f) s))
    ∧ (∀ (f : FmtM) (s : State), issues (.kld f) (planKld f s s.cur) s = true →
      let u := acting (planKld f s s.cur) s
      let o := elemOff u u.cur f
      o % 16 ≠ 0 ∨ (access u (fmKReg u u.cur f) o 16 false).flag ≠ 0 →
      lands s u (fmKReg u u.cur f) (destOf f.d) false (.tok ⟨0, false⟩) (exec (.kld f) s))
    ∧ (∀ (f : FmtM) (s : State), issues (.xld f) (planXld f s s.cur) s = true →
      let u := acting (planXld f s s.cur) s
      let o := elemOff u u.cur f
      o % 16 ≠ 0 ∨ (access u (fmKReg u u.cur f) o 544 false).flag ≠ 0 →
      lands s u (fmKReg u u.cur f) (destOf f.d) false (.series 0) (exec (.xld f) s))
    ∧ (∀ (f : FmtM) (s : State), issues (.vld f) (planVld f s s.cur) s = true →
      let u := acting (planVld f s s.cur) s
      let k := fmKReg u u.cur f
      (checkTok u k (kR k)).flag ≠ 0 → lands s u k (vmDest f.d 0) true (.vec ⟨0, f.ty⟩) (exec (.vld f) s))
    ∧ (∀ (f : FmtM) (s : State), issues (.vlda f) (planVlda f s s.cur) s = true →
      let u := acting (planVlda f s s.cur) s
      let k := fmKReg u u.cur f
      (checkTok u k (kR k)).flag ≠ 0 → later s u k (vmDest f.d 0) (.vec ⟨0, f.ty⟩) (exec (.vlda f) s))
    ∧ (∀ (f : FmtM) (s : State), issues (.vgath f) (planVgath f s s.cur) s = true →
      let u := acting (planVgath f s s.cur) s
      let k := fmKReg u u.cur f
      (checkTok u k (kR k)).flag ≠ 0 → lands s u k (vmDest f.d 0) true (.vec ⟨0, f.ty⟩) (exec (.vgath f) s))

/-- R133, R134, R137, R196, R199, R251: a store whose elements pass their checks is posted: `st`, `kst`, `vst`, `vscat` and `xst` put one
entry in the store queue with the bytes of their true lanes, at the token's base plus the element's offset. Nothing is stored yet. The tag that `kst` stores is kept
only at a multiple of 16 of storage that keeps tags (log 58). -/
def Says.StoresPost : Prop :=
  (∀ (f : FmtM) (s : State), issues (.st f) (planSt f s s.cur) s = true →
      let u := acting (planSt f s s.cur) s
      let k := fmKReg u u.cur f
      quietStore u k [memEl u u.cur f] = true →
        Posts f.tk (postedStore k [memEl u u.cur f] [(rdScal u u.cur f.d).toNat] .bytes (signalsOf s f.tk)) s (exec (.st f) s))
    ∧ (∀ (f : FmtM) (s : State), issues (.kst f) (planKst f s s.cur) s = true →
      let u := acting (planKst f s s.cur) s
      let k := fmKReg u u.cur f
      let o := elemOff u u.cur f
      o % 16 = 0 → quietStore u k [tokEl o] = true →
        Posts f.tk (postedStore k [tokEl o] [(rdTok u u.cur f.d).bits.toNat]
            (.token (kSlot k) (kBase k + o.toNat) ((rdTok u u.cur f.d).tag && keepsTag u k o.toNat)) (signalsOf s f.tk)) s (exec (.kst f) s))
    ∧ (∀ (f : FmtM) (s : State), issues (.vst f) (planVst f s s.cur) s = true →
      let u := acting (planVst f s s.cur) s
      let k := fmKReg u u.cur f
      quietStore u k (vstEls u u.cur f) = true →
        Posts f.tk (postedStore k (vstEls u u.cur f) (vstVals u u.cur f) .bytes (signalsOf s f.tk)) s (exec (.vst f) s))
    ∧ (∀ (f : FmtM) (s : State), issues (.vscat f) (planVscat f s s.cur) s = true →
      let u := acting (planVscat f s s.cur) s
      let k := fmKReg u u.cur f
      quietStore u k (gathEls u u.cur f) = true →
        Posts f.tk (postedStore k (gathEls u u.cur f) [(rdVec u u.cur f.d).data.toNat] .bytes (signalsOf s f.tk)) s (exec (.vscat f) s))
    ∧ (∀ (f : FmtM) (s : State), issues (.xst f) (planXst f s s.cur) s = true →
      let u := acting (planXst f s s.cur) s
      let k := fmKReg u u.cur f
      let o := elemOff u u.cur f
      o % 16 = 0 → quietStore u k [serEl o] = true →
        Posts f.tk (postedStore k [serEl o] [(rdSer u u.cur f.d).toNat] .bytes (signalsOf s f.tk)) s (exec (.xst f) s))

/-- R134, R195: a failed check of a store posts no byte: the entry only carries the flag that its completion sets (`kst` and `xst` at an offset
that is no multiple of 16 fail as outside the extent, R137, R251). Of `vst` and `vscat`, the elements that fail set their flags and the others
are stored. A store in a false lane is none: the word completes at once. -/
def Says.StoresFail : Prop :=
  let posts := fun (s t : State) (tk : Tk) (cells : List SCell) (fl : BitVec 8) (slots : List Nat) =>
    (taskOf t s.cur).stores = (taskOf s s.cur).stores
        ++ [⟨cells, .bytes, fl, signalsOf s tk, slots, [], false, (taskOf s s.cur).sigNo + 2, (taskOf s s.cur).pc⟩]
      ∧ (taskOf t s.cur).x = (taskOf s s.cur).x ∧ (taskOf t s.cur).v = (taskOf s s.cur).v ∧ t.far = s.far ∧ t.host = s.host
  let one := fun (s u : State) (tk : Tk) (k : KReg) (o : Int) (n : Nat) (out : Host.Outcome State Fault Refusal) =>
    (access u k o n true).flag ≠ 0 → ∃ t, out = .next t ∧ posts s t tk [] (access u k o n true).flag []
  let many := fun (s u : State) (tk : Tk) (k : KReg) (els : List El) (vals : List Nat) (out : Host.Outcome State Fault Refusal) =>
    let fails := ((elemFails u k true els).map (·.flag)).foldl (· ||| ·) 0
    ((checkTok u k (kW k)).flag ≠ 0 → ∃ t, out = .next t ∧ posts s t tk [] (checkTok u k (kW k)).flag [])
      ∧ ((checkTok u k (kW k)).flag = 0 → els.any (·.lane) = true → ∃ t, out = .next t
        ∧ if passing u k true els = [] then posts s t tk [] fails []
          else posts s t tk ((passing u k true els).flatMap fun e => elCells k e vals) fails [kSlot k])
      ∧ ((checkTok u k (kW k)).flag = 0 → els.any (·.lane) = false → Completes tk id s out)
  (∀ (f : FmtM) (s : State), issues (.st f) (planSt f s s.cur) s = true →
      let u := acting (planSt f s s.cur) s
      let e := memEl u u.cur f
      (e.lane = false → Completes f.tk id s (exec (.st f) s))
        ∧ (e.lane = true → one s u f.tk (fmKReg u u.cur f) e.off e.size (exec (.st f) s)))
    ∧ (∀ (f : FmtM) (s : State), issues (.kst f) (planKst f s s.cur) s = true →
      let u := acting (planKst f s s.cur) s
      one s u f.tk (tokKReg u u.cur f) (elemOff u u.cur f) 16 (exec (.kst f) s))
    ∧ (∀ (f : FmtM) (s : State), issues (.xst f) (planXst f s s.cur) s = true →
      let u := acting (planXst f s s.cur) s
      one s u f.tk (tokKReg u u.cur f) (elemOff u u.cur f) 544 (exec (.xst f) s))
    ∧ (∀ (f : FmtM) (s : State), issues (.vst f) (planVst f s s.cur) s = true →
      let u := acting (planVst f s s.cur) s
      many s u f.tk (fmKReg u u.cur f) (vstEls u u.cur f) (vstVals u u.cur f) (exec (.vst f) s))
    ∧ (∀ (f : FmtM) (s : State), issues (.vscat f) (planVscat f s s.cur) s = true →
      let u := acting (planVscat f s s.cur) s
      many s u f.tk (fmKReg u u.cur f) (gathEls u u.cur f) [(rdVec u u.cur f.d).data.toNat] (exec (.vscat f) s))

/-- R134: a store of the queue that no earlier one holds back is performed: each of its bytes reads as its cell says, every other byte
of every memory reads as before, its flags are set, and its entry leaves the queue. The places are those its cells name; none is sealed
(R337), and no write to them is dropped (R403). -/
def Obligations.StorePerforms : Prop :=
  ∀ (p : Party) (s : State) (i : Nat) (e : Store), (taskOf s p).stores[i]? = some e → e.act = .bytes → e.need = [] → e.sent = false →
    storeHeld s (taskOf s p) i e = false →
    (∀ pl ∈ storePlaces s e, pl.space ≠ .peer ∧ sealedPlace s pl = false) → atomDrops s (storePlaces s e) = [] → (storePlaces s e).Nodup →
    ∃ t, exec (.storePerformed p i) s = .next t
      ∧ (∀ c ∈ e.cells, rdByte t (cellPlace s c) = (rdByte s (cellPlace s c) &&& ~~~c.mask) ||| (c.byte &&& c.mask))
      ∧ SameBytes s t (storePlaces s e)
      ∧ (taskOf t p).stores = dropAt (taskOf s p).stores i ∧ (taskOf t p).flags = (taskOf s p).flags ||| e.flags
      ∧ (taskOf t p).x = (taskOf s p).x ∧ (taskOf t p).v = (taskOf s p).v

/-- R138, R139: `ksub` narrows a token: base plus B, length C, permissions masked by PK, untagged with XB when B + C exceeds its length;
`kinfo` answers its length, base, upper word or whether it is current. -/
def Says.TokenArithmetic : Prop :=
  (∀ (f : FmtA) (s : State), issues (.ksub f) (planKsub (illKsub f) f s s.cur) s = true →
      let u := acting (planKsub (illKsub f) f s s.cur) s
      let a := rdTok u u.cur f.a
      let b := (opB f u).toNat
      let c := (opC f u).toNat
      ∃ k : KReg, Puts f.tk [mkFlight 1 false (destOf f.d) (.tok k) (if a.tag ∧ kLen a < b + c then fXB else 0) false (signalsOf s f.tk)] s
          (exec (.ksub f) s)
        ∧ (k.tag = true ↔ a.tag = true ∧ b + c ≤ kLen a)
        ∧ kSlot k = kSlot a ∧ kGen k = kGen a ∧ kSpace k = kSpace a ∧ kPerms k = kPerms a &&& (low5 f).extractLsb' 0 4
        ∧ kLen k = c % 2 ^ 40 ∧ kBase k = (kBase a + b) % 2 ^ 56)
    ∧ (∀ (f : FmtA) (s : State), issues (.kinfo f) (planKinfo f s s.cur) s = true →
      let u := acting (planKinfo f s s.cur) s
      let a := rdTok u u.cur f.a
      ∃ v, Puts f.tk [scalarOut 1 f s (v, 0)] s (exec (.kinfo f) s)
        ∧ (opB f u = 0 → v = BitVec.ofNat 64 (kLen a)) ∧ (opB f u = 1 → v = BitVec.ofNat 64 (kBase a))
        ∧ (opB f u = 2 → v.extractLsb' 32 32 = a.bits.extractLsb' 96 32 ∧ v.getLsbD 0 = a.tag ∧ v.extractLsb' 1 31 = 0)
        ∧ (opB f u = 3 → v = if kCurrent u a then 1 else 0) ∧ (3 < (opB f u).toNat → v = 0))

/-! ## Vector instructions (spec 06) -/

/-- R173, R174, R177: the element-wise integer arithmetic: each element of the result is the exact value of its operands' elements bounded to
TY as R79 says, in 2 issue cycles; `vdiv` and `vsqrt` have no integer form, and the others draw nothing on integers. -/
def Says.VectorIntegers : Prop :=
  let row := fun (i : FmtA → Instr) (sig : FmtA → Sig) (g : Int → Int → Int → Int) =>
    ∀ (f : FmtA) (s : State), tyInt f.ty = true →
      issues (i f) (planVec (faultsA (sig f) f) f (readsV f f.ty f.ty f.ty) 1 (latIF f.ty) s s.cur) s = true →
      let u := acting (planVec (faultsA (sig f) f) f (readsV f f.ty f.ty f.ty) 1 (latIF f.ty) s s.cur) s
      let w := tyWidth f.ty
      let lo : Int := if tySigned f.ty then -(2 ^ (w - 1) : Nat) else 0
      let hi : Int := if tySigned f.ty then (2 ^ (w - 1) : Nat) - 1 else (2 ^ w : Nat) - 1
      let v := fun e : Nat => g (((vA f u).getD e (.int 0)).toInt) (((vB f u).getD e (.int 0)).toInt) (((vC f u).getD e (.int 0)).toInt)
      let on := fun e : Nat => (laneMask u u.cur f.p).getLsbD e
      ∃ r : VReg, Puts f.tk [vectorOut 2 f s r (if ∃ e < elems f.ty, on e = true ∧ (v e < lo ∨ hi < v e) then fOF else 0)] s (exec (i f) s)
        ∧ r.tag = f.ty
        ∧ ∀ e < elems f.ty, on e = true →
            bits r.data.toNat (w * e) w
              = ((if f.cl = 3 ∧ v e < lo then lo else if f.cl = 3 ∧ hi < v e then hi else v e) % (2 ^ w : Nat)).toNat
  row .vadd sigVec2 (fun a b _ => a + b) ∧ row .vsub sigVec2 (fun a b _ => a - b) ∧ row .vmul sigVec2 (fun a b _ => a * b)
    ∧ row .vfma sigVec3 (fun a b c => a * b + c) ∧ row .vfms sigVec3 (fun a b c => a * b - c)
    ∧ row .vmin sigVminmax (fun a b _ => min a b) ∧ row .vmax sigVminmax (fun a b _ => max a b)

/-- R174, R177, R193: the element-wise arithmetic of every type: each element is the exact value of its operands' elements, scaled, rounded once in TY
under `fmode` with its own draw and clamped (R92), in 2 issue cycles for integers, 5 for floats, 24 for `vdiv` and `vsqrt` and 12 for the special
functions (computed as log 11 says); minima and maxima are not rounded (log 58); every float element draws once under sr, in false lanes too. -/
def Says.VectorFloats : Prop :=
  let els := fun (gi : Int → Int → Int → Int) (gf : Bool → Fl → Fl → Fl → Fl × BitVec 8) (f : FmtA) (u : State) =>
    let t := taskOf u u.cur
    (List.range (elems f.ty)).map fun e =>
      let a := (vA f u).getD e (.int 0)
      let b := (vB f u).getD e (.int 0)
      let c := (vC f u).getD e (.int 0)
      if tyInt f.ty then intBound f.ty f.cl.toNat (gi a.toInt b.toInt c.toInt)
      else
        let x := gf (decide (rmOf t = 3)) a.toFl b.toFl c.toFl
        let r := flRound f.ty ⟨rmOf t, (drawsFor t (elems f.ty)).getD e 0⟩ f.cl.toNat (flScale f.sc.toInt x.1)
        (r.1, r.2 ||| x.2)
  let n := fun f : FmtA => if tyInt f.ty then 0 else elems f.ty
  let row := fun (i : FmtA → Instr) (sig : FmtA → Sig) (lat : FmtA → Nat) (gi : Int → Int → Int → Int) gf =>
    VectorWord i (fun f => faultsA (sig f) f) (fun f => readsV f f.ty f.ty f.ty) (·.ty) lat n (els gi gf)
  let special := fun (i : FmtA → Instr) (g : Fl → Fl × BitVec 8) => row i sigVspec (fun _ => 12) (fun a _ _ => a) (fun _ a _ _ => g a)
  row .vadd sigVec2 (fun f => latIF f.ty) (fun a b _ => a + b) (fun r a b _ => flAdd r a b)
    ∧ row .vsub sigVec2 (fun f => latIF f.ty) (fun a b _ => a - b) (fun r a b _ => flAdd r a b.neg)
    ∧ row .vmul sigVec2 (fun f => latIF f.ty) (fun a b _ => a * b) (fun _ a b _ => flMul a b)
    ∧ row .vfma sigVec3 (fun f => latIF f.ty) (fun a b c => a * b + c) (fun r a b c => flFma r a b c)
    ∧ row .vfms sigVec3 (fun f => latIF f.ty) (fun a b c => a * b - c) (fun r a b c => flFma r a b c.neg)
    ∧ row .vmin sigVminmax (fun f => latIF f.ty) (fun a b _ => min a b) (fun _ a b _ => flMinMax false a b)
    ∧ row .vmax sigVminmax (fun f => latIF f.ty) (fun a b _ => max a b) (fun _ a b _ => flMinMax true a b)
    ∧ row .vdiv sigVdiv (fun _ => 24) (fun a _ _ => a) (fun _ a b _ => flDiv a b)
    ∧ row .vsqrt sigVsqrt (fun _ => 24) (fun a _ _ => a) (fun _ a _ _ => flSqrt a)
    ∧ special .vexp2 flExp2 ∧ special .vlog2 flLog2 ∧ special .vrcp flRcp ∧ special .vrsq flRsq ∧ special .vsin flSinPi
    ∧ special .vcos flCosPi ∧ special .vtanh flTanh

/-- R179-R182: `vcmp` puts the truth of its condition, element by element, in a mask, false in a false lane; `vsel` takes A's element where
C's bit is 1 and B's elsewhere; logic and shifts act on the elements' patterns, a shift of the width or more giving 0 or the sign. -/
def Obligations.VectorCompareLogic : Prop :=
  let ps := fun (f : FmtA) (sp : SpecBits) (u : State) (e : Nat) => (srcBits u u.cur f.ty sp).getD e 0
  let row := fun (i : FmtA → Instr) (sig : FmtA → Sig) (g : FmtA → State → Nat → Nat) =>
    VectorWord i (fun f => faultsA (sig f) f) (fun f => readsV f f.ty f.ty none) (·.ty) (fun _ => 2) (fun _ => 0)
      (fun f u => (List.range (elems f.ty)).map fun e => (g f u e, 0))
  let amt := fun (f : FmtA) (u : State) (e : Nat) =>
    (if clsOf f.b = .w ∨ clsOf f.b = .v then ps f f.b u e else (rdScal u u.cur f.b).toNat) % 256
  (∀ (c : VCond) (f : FmtA) (s : State), issues (.vcmp c f) (planVcmp c f s s.cur) s = true →
      let u := acting (planVcmp c f s s.cur) s
      ∃ (m : Mask) (fl : BitVec 8),
        Puts f.tk [mkFlight (latIF f.ty) false (destOf f.d) (.mask m) fl false (signalsOf s f.tk)] s (exec (.vcmp c f) s)
        ∧ ∀ e < elems f.ty,
            let a := (vA f u).getD e (.int 0)
            let b := (vB f u).getD e (.int 0)
            m.getLsbD e = ((laneMask u u.cur f.p).getLsbD e && (if tyInt f.ty then
                (match c with
                  | .eq => decide (a.toInt = b.toInt) | .ne => decide (a.toInt ≠ b.toInt) | .lt => decide (a.toInt < b.toInt)
                  | .le => decide (a.toInt ≤ b.toInt) | .gt => decide (b.toInt < a.toInt) | .ge => decide (b.toInt ≤ a.toInt)
                  | .un => false)
              else vcondHolds c (flOrder a.toFl b.toFl))))
    ∧ row .vsel sigVsel (fun f u e => if (rdMask u u.cur f.c).getLsbD e then ps f f.a u e else ps f f.b u e)
    ∧ row .vand sigVlogic (fun f u e => ps f f.a u e &&& ps f f.b u e)
    ∧ row .vor sigVlogic (fun f u e => ps f f.a u e ||| ps f f.b u e)
    ∧ row .vxor sigVlogic (fun f u e => ps f f.a u e ^^^ ps f f.b u e)
    ∧ row .vshl sigVshift (fun f u e => ps f f.a u e * 2 ^ amt f u e % 2 ^ tyWidth f.ty)
    ∧ row .vshr sigVshift (fun f u e => ps f f.a u e / 2 ^ amt f u e)
    ∧ row .vsra sigVshift (fun f u e =>
        (signed (tyWidth f.ty) (ps f f.a u e) / (2 ^ amt f u e : Nat) % (2 ^ tyWidth f.ty : Nat)).toNat)

/-- R183-R187: conversions. `vcvt` with SRC none only gives a register a new tag; between types it converts element by element with one
draw each, elements beyond the source's count being +0; a conversion to ls4 takes its group deltas, micro-scales, codes and flags as R97 says (log 59
where R97 leaves a sign or an infinity open); `vnarrow` takes element e from part e mod k of its group; `vwmul` and `vwadd`
deal element e of the widened result to part e mod k, all parts tagged WIDE and landing together. -/
def Obligations.VectorConversions : Prop :=
  (∀ (f : FmtA) (s : State), isReinterpret f = true → issues (.vcvt f) (planVcvt f s s.cur) s = true →
      let u := acting (planVcvt f s s.cur) s
      Puts f.tk [vectorOut 4 f s ⟨(rdVec u u.cur f.a).data, f.ty⟩ 0] s (exec (.vcvt f) s))
    ∧ (∀ (f : FmtA) (s : State), isReinterpret f = false → f.ty ≠ tyLs4 → issues (.vcvt f) (planVcvt f s s.cur) s = true →
      let u := acting (planVcvt f s s.cur) s
      let t := taskOf u u.cur
      let ds := if cvtDraws f then drawsFor t (elems f.ty) else List.replicate (elems f.ty) 0
      ∃ (r : VReg) (fl : BitVec 8),
        PutsDrawing (if cvtDraws f then elems f.ty else 0) f.tk [vectorOut 4 f s r fl] s (exec (.vcvt f) s) ∧ r.tag = f.ty
        ∧ ∀ e < elems f.ty, (laneMask u u.cur f.p).getLsbD e = true →
            bits r.data.toNat (tyWidth f.ty * e) (tyWidth f.ty)
              = (match (cvtSrc f u)[e]? with
                  | some x => (convert f.ty ⟨rmOf t, ds.getD e 0⟩ f.cl.toNat f.sc.toInt x).1 | none => 0) % 2 ^ tyWidth f.ty)
    ∧ (∀ (f : FmtA) (s : State), f.ty = tyLs4 → isReinterpret f = false → issues (.vcvt f) (planVcvt f s s.cur) s = true →
      let u := acting (planVcvt f s s.cur) s
      let t := taskOf u u.cur
      let base := ls4Base f u u.cur
      let zero := Fl.fin false 0 1 0
      let y := fun e : Nat => if (laneMask u u.cur f.p).getLsbD e then (((cvtSrc f u)[e]?).map Xv.toFl).getD zero else zero
      let most := fun g j : Nat => blockMax ((List.range 8).map fun i => y (256 * g + 8 * j + i))
      let delta := fun g : Nat => groupDelta base ((List.range 32).map (most g))
      let micro := fun g j : Nat => blockMicro (base + (delta g : Nat)) (most g j)
      let code := fun e : Nat => ls4Code (rmOf t) ((drawsFor t 1024).getD e 0) f.cl.toNat (micro (e / 256) (e % 256 / 8))
        (base + (delta (e / 256) : Nat)) (y e)
      ∃ (a b : VReg), a.tag = tyLs4 ∧ b.tag = tyLs4
        ∧ (∀ e < 1024, bits a.data.toNat (4 * e) 4 = (code e).1)
        ∧ (∀ g < 4, (∀ j < 32, bits b.data.toNat (8 * (32 * g + j)) 8 = micro g j) ∧ bits b.data.toNat (8 * (128 + g)) 8 = delta g)
        ∧ b.data.toNat < 2 ^ 1056
        ∧ PutsDrawing 1024 f.tk
          [mkFlight 4 true (destOf f.d) (.vec a) (laneFlags (lanesOf u u.cur f.p 1024) ((List.range 1024).map fun e => (code e).2)) f.s []
          , mkFlight 4 true (if clsOf f.d = .v then .v (regNo f.d + 1) else .none) (.vec b) 0 f.s (signalsOf s f.tk)] s (exec (.vcvt f) s))
    ∧ (∀ (f : FmtA) (s : State), issues (.vnarrow f) (planVnarrow f s s.cur) s = true →
      let u := acting (planVnarrow f s s.cur) s
      let t := taskOf u u.cur
      let k := narrowK f
      let ds := if cvtDraws f then drawsFor t (elems f.ty) else List.replicate (elems f.ty) 0
      ∃ (r : VReg) (fl : BitVec 8),
        PutsDrawing (if cvtDraws f then elems f.ty else 0) f.tk [vectorOut 4 f s r fl] s (exec (.vnarrow f) s) ∧ r.tag = f.ty
        ∧ ∀ e < elems f.ty, (laneMask u u.cur f.p).getLsbD e = true →
            bits r.data.toNat (tyWidth f.ty * e) (tyWidth f.ty)
              = (convert f.ty ⟨rmOf t, ds.getD e 0⟩ f.cl.toNat f.sc.toInt (xMod f.ma (xRead (cTy f)
                  (bits (rdVec u u.cur ((groupSpecs k f.a).getD (e % k) 0)).data.toNat (tyWidth (cTy f) * (e / k)) (tyWidth (cTy f)))))).1
                  % 2 ^ tyWidth f.ty)
    ∧ (let row := fun (i : FmtA → Instr) (gi : Int → Int → Int) (gf : Bool → Fl → Fl → Fl × BitVec 8) =>
        ∀ (f : FmtA) (s : State), issues (i f) (planWide f s s.cur) s = true →
          let u := acting (planWide f s s.cur) s
          let t := taskOf u u.cur
          let k := wideK f
          let w := tyWidth (cTy f)
          ∃ (rs : List VReg) (fl : BitVec 8), rs.length = k ∧
            PutsDrawing (if tyInt f.ty then 0 else elems f.ty) f.tk ((List.range k).map fun j =>
              mkFlight (latIF f.ty) true (if clsOf f.d = .v then .v (regNo f.d + j) else .none) (.vec (rs.getD j freshV))
                (if j = 0 then fl else 0) f.s (if j + 1 = k then signalsOf s f.tk else [])) s (exec (i f) s)
            ∧ (∀ j < k, (rs.getD j freshV).tag = cTy f)
            ∧ ∀ e < elems f.ty,
                bits (rs.getD (e % k) freshV).data.toNat (w * (e / k)) w
                  = if !(laneMask u u.cur f.p).getLsbD e then 0
                    else
                      let a := (vA f u).getD e (.int 0)
                      let b := (vB f u).getD e (.int 0)
                      if tyInt f.ty then (intBound (cTy f) f.cl.toNat (gi a.toInt b.toInt)).1 % 2 ^ w
                      else (flRound (cTy f) ⟨rmOf t, (drawsFor t (elems f.ty)).getD e 0⟩ f.cl.toNat
                        (flScale f.sc.toInt (gf (decide (rmOf t = 3)) a.toFl b.toFl).1)).1 % 2 ^ w
      row .vwmul (fun a b => a * b) (fun _ a b => flMul a b) ∧ row .vwadd (fun a b => a + b) (fun r a b => flAdd r a b))

/-- R100, R188: an integer reduction is the exact sum, least or greatest of the elements as read (R25), a false lane giving the identity,
bounded to TY, in 8 issue cycles; a float reduction is the root of a tree: each node combines two neighbours of the level below, the lower on
the left, and is rounded in TY with its own draw; only the root is scaled and clamped, and the flags of all nodes are set. -/
def Says.Reductions : Prop :=
  let ints := fun (i : FmtA → Instr) (sig : FmtA → Sig) (none_ : FmtA → Int) (is : Int → List Int → Prop) =>
    ∀ (f : FmtA) (s : State), tyInt f.ty = true → issues (i f) (planRed (sig f) f s s.cur) s = true →
      let u := acting (planRed (sig f) f s s.cur) s
      ∃ v, is v (((lanesOf u u.cur f.p (elems f.ty)).zip (vA f u)).map fun e => if e.1 then e.2.toInt else none_ f)
        ∧ Puts f.tk [scalarOut 8 f s (intRes f.ty f.cl v)] s (exec (i f) s)
  let floats := fun (i : FmtA → Instr) (sig : FmtA → Sig) (op : Bool → Fl → Fl → Fl × BitVec 8) (absent : Fl) =>
    ∀ (f : FmtA) (s : State), tyInt f.ty = false → issues (i f) (planRed (sig f) f s s.cur) s = true →
      let u := acting (planRed (sig f) f s s.cur) s
      let t := taskOf u u.cur
      let n := elems f.ty
      ∃ (m : Nat) (v : Nat → Nat → Fl), n = 2 ^ (m + 1)
        ∧ (∀ i < n, v 0 i = if (laneMask u u.cur f.p).getLsbD i then ((vA f u).getD i (.int 0)).toFl else absent)
        ∧ (let node := fun k i : Nat =>
            let x := op (decide (rmOf t = 3)) (v k (2 * i)) (v k (2 * i + 1))
            let g := flRound f.ty ⟨rmOf t, (drawsFor t n).getD (n - n / 2 ^ k + i) 0⟩ (if k = m then f.cl.toNat else 0)
              (flScale (if k = m then f.sc.toInt else 0) x.1)
            (g.1, g.2 ||| x.2)
          (∀ k < m, ∀ i < 2 ^ (m - k), v (k + 1) i = flDecode f.ty (node k i).1)
            ∧ PutsDrawing (n - 1) f.tk [scalarOut 8 f s (BitVec.ofNat 64 (node m 0).1,
                ((List.range (m + 1)).flatMap fun k => (List.range (2 ^ (m - k))).map fun i => (node k i).2).foldl (· ||| ·) 0)] s
              (exec (i f) s))
  let lo := fun f : FmtA => if tySigned f.ty then -((2 ^ (tyWidth f.ty - 1) : Nat) : Int) else (0 : Int)
  let hi := fun f : FmtA => if tySigned f.ty then ((2 ^ (tyWidth f.ty - 1) : Nat) : Int) - 1 else ((2 ^ tyWidth f.ty : Nat) : Int) - 1
  ints .vredAdd sigVred (fun _ => 0) (fun v l => v = l.sum) ∧ ints .vredMin sigVredMM hi (fun v l => v ∈ l ∧ ∀ x ∈ l, v ≤ x)
    ∧ ints .vredMax sigVredMM lo (fun v l => v ∈ l ∧ ∀ x ∈ l, x ≤ v)
    ∧ floats .vredAdd sigVred flAdd (.fin true 0 1 0) ∧ floats .vredMin sigVredMM (fun _ => flMinMax false) (.inf false)
    ∧ floats .vredMax sigVredMM (fun _ => flMinMax true) (.inf true)

/-- R189-R192, R194: moving elements: `vbcast` repeats the element of A that B numbers (or a scalar under its modifier, R101; for the index `#0.5`, which
the spec gives no value, a free one: log 4), `vperm` takes for element e the element
of A that B's element e numbers (within its half for bytes), `vzip` riffles two registers into two, `vuzp` undoes it, `vpack` moves the
elements that C marks to the front, zeros behind; `vplane` and `vunpl` turn blocks of 128 elements into bit planes and back. -/
def Obligations.VectorMoves : Prop :=
  let ps := fun (f : FmtA) (sp : SpecBits) (u : State) (e : Nat) => (srcBits u u.cur f.ty sp).getD e 0
  let at2 := fun (ty : TyCode) (a b : VReg) (e : Nat) =>
    if e < elems ty then bits a.data.toNat (tyWidth ty * e) (tyWidth ty) else bits b.data.toNat (tyWidth ty * (e - elems ty)) (tyWidth ty)
  let pair := fun (f : FmtA) (s : State) (a b : VReg) =>
    [mkFlight 3 true (destOf f.d) (.vec a) 0 f.s []
    , mkFlight 3 true (if clsOf f.d = .v then .v (regNo f.d + 1) else .none) (.vec b) 0 f.s (signalsOf s f.tk)]
  VectorWord .vbcast (fun f => faultsA (sigVbcast f) f) (fun f => readsV f f.ty none none) (·.ty) (fun _ => 3) (fun _ => 0)
      (fun f u => (List.range (elems f.ty)).map fun e =>
        (if clsOf f.a = .w ∨ clsOf f.a = .v then
            ps f f.a u ((if f.b = 0x7C then pendBits 64 u f.b else rdScal u u.cur f.b).toNat % elems f.ty)
          else patMod f.ty f.ma (ps f f.a u e), 0))
    ∧ VectorWord .vperm (fun f => faultsA (sigVperm f) f) (fun f => readsV f f.ty (idxTy f.ty) none) (·.ty) (fun _ => 3) (fun _ => 0)
      (fun f u => (List.range (elems f.ty)).map fun e =>
        let i := bits (rdVec u u.cur f.b).data.toNat (tyWidth f.ty * e) (tyWidth f.ty)
        (ps f f.a u (if tyWidth f.ty = 8 then 256 * (e / 256) + i else i % elems f.ty), 0))
    ∧ (∀ (f : FmtA) (s : State), issues (.vzip f) (planZip f s s.cur) s = true →
      let u := acting (planZip f s s.cur) s
      ∃ a b : VReg, Puts f.tk (pair f s a b) s (exec (.vzip f) s) ∧ a.tag = f.ty ∧ b.tag = f.ty
        ∧ ∀ e < elems f.ty, at2 f.ty a b (2 * e) = ps f f.a u e ∧ at2 f.ty a b (2 * e + 1) = ps f f.b u e)
    ∧ (∀ (f : FmtA) (s : State), issues (.vuzp f) (planZip f s s.cur) s = true →
      let u := acting (planZip f s s.cur) s
      ∃ a b : VReg, Puts f.tk (pair f s a b) s (exec (.vuzp f) s) ∧ a.tag = f.ty ∧ b.tag = f.ty
        ∧ ∀ e < elems f.ty, 2 * e + 1 < elems f.ty →
            bits a.data.toNat (tyWidth f.ty * e) (tyWidth f.ty) = ps f f.a u (2 * e)
              ∧ bits b.data.toNat (tyWidth f.ty * e) (tyWidth f.ty) = ps f f.a u (2 * e + 1)
              ∧ bits a.data.toNat (tyWidth f.ty * (e + elems f.ty / 2)) (tyWidth f.ty) = ps f f.b u (2 * e)
              ∧ bits b.data.toNat (tyWidth f.ty * (e + elems f.ty / 2)) (tyWidth f.ty) = ps f f.b u (2 * e + 1))
    ∧ VectorWord .vpack (fun f => faultsA (sigVpack f) f) (fun f => readsV f f.ty none none) (·.ty) (fun _ => 3) (fun _ => 0)
      (fun f u => (List.range (elems f.ty)).map fun e =>
        ((((List.range (elems f.ty)).filter fun j => (rdMask u u.cur f.c).getLsbD j).map (ps f f.a u)).getD e 0, 0))
    ∧ (∀ (f : FmtA) (s : State), issues (.vplane f) (planPlane f f.ty s s.cur) s = true →
      let u := acting (planPlane f f.ty s s.cur) s
      let w := tyWidth f.ty
      ∃ r : VReg, Puts f.tk [vectorOut 3 f s r 0] s (exec (.vplane f) s) ∧ r.tag = tyPlane
        ∧ ∀ b < 32 / w, ∀ i < w, ∀ e < 128,
            r.data.getLsbD (128 * w * b + 128 * i + e) = (rdVec u u.cur f.a).data.getLsbD (128 * w * b + w * e + planeBit f.ty i))
    ∧ (∀ (f : FmtA) (s : State), issues (.vunpl f) (planPlane f tyPlane s s.cur) s = true →
      let u := acting (planPlane f tyPlane s s.cur) s
      let w := tyWidth f.ty
      ∃ r : VReg, Puts f.tk [vectorOut 3 f s r 0] s (exec (.vunpl f) s) ∧ r.tag = f.ty
        ∧ ∀ b < 32 / w, ∀ i < w, ∀ e < 128,
            r.data.getLsbD (128 * w * b + w * e + i) = (rdVec u u.cur f.a).data.getLsbD (128 * w * b + 128 * planeBit f.ty i + e))

/-- R200-R202: masks: `mand`, `mor`, `mnot` act on all 1,024 bits; `mcnt` counts the bits of TY's elements, or all under none; `mfrom` marks
the nonzero elements of a vector, or the lowest min(A, 1024) bits. -/
def Says.MaskWords : Prop :=
  let row := fun (i : FmtA → Instr) (sig : FmtA → Sig) (g : FmtA → State → Mask) =>
    ∀ (f : FmtA) (s : State), issues (i f) (planNamed (faultsA (sig f) f) f s s.cur) s = true →
      let u := acting (planNamed (faultsA (sig f) f) f s s.cur) s
      Puts f.tk [mkFlight 2 false (destOf f.d) (.mask (g f u)) 0 false (signalsOf s f.tk)] s (exec (i f) s)
  row .mand sigMask2 (fun f u => rdMask u u.cur f.a &&& rdMask u u.cur f.b)
    ∧ row .mor sigMask2 (fun f u => rdMask u u.cur f.a ||| rdMask u u.cur f.b)
    ∧ row .mnot sigMask1 (fun f u => ~~~rdMask u u.cur f.a)
    ∧ ScalarWord .mcnt (fun f => faultsA (sigMcnt f) f) 2 0 (fun f u =>
        (BitVec.ofNat 64 ((List.range (if f.ty = tyNone then 1024 else elems f.ty)).filter fun e => (rdMask u u.cur f.a).getLsbD e).length, 0))
    ∧ (∀ (f : FmtA) (s : State), issues (.mfrom f) (planMfrom f s s.cur) s = true →
      let u := acting (planMfrom f s s.cur) s
      ∃ m : Mask, Puts f.tk [mkFlight 2 false (destOf f.d) (.mask m) 0 false (signalsOf s f.tk)] s (exec (.mfrom f) s)
        ∧ ((clsOf f.a = .w ∨ clsOf f.a = .v) → ∀ e < elems f.ty, m.getLsbD e = decide ((srcBits u u.cur f.ty f.a).getD e 0 ≠ 0))
        ∧ (¬(clsOf f.a = .w ∨ clsOf f.a = .v) → ∀ e < 1024, m.getLsbD e = decide (e < (opA f u).toNat)))


/-! ## Exchanges with the accumulator ring, and the series words (spec 06, R203-R207; spec 09) -/

/-- R203-R206: `accld` and `accst` complete at issue and leave one exchange pending; ACC_EXCHANGE_PERFORMED performs it when its tile is
FREE or FULL: a load puts 64 accumulator words in its vector register, a store puts 64 there; a tile of the other type gives zeros, or
keeps its elements, and holds the mismatch for `waitacc`. -/
def Obligations.AccExchanges : Prop :=
  let pending := fun (e : Exch) (t : Task) => { t with exchs := t.exchs ++ [{ e with seq := t.exchNo }], exchNo := t.exchNo + 1 }
  (∀ (f : FmtA) (s : State), issues (.accld f) (planAccld f s s.cur) s = true →
      let u := acting (planAccld f s s.cur) s
      Completes f.tk (pending ⟨0, true, (opA f u).toNat, (opB f u).toNat, f.ty, regNo f.d, 0, false⟩) s (exec (.accld f) s))
    ∧ (∀ (f : FmtA) (s : State), issues (.accst f) (planAccst f s s.cur) s = true →
      let u := acting (planAccst f s s.cur) s
      Completes f.tk (pending ⟨0, false, (opA f u).toNat, (opB f u).toNat, f.ty, 0, (rdVec u u.cur f.d).data, false⟩) s
        (exec (.accst f) s))
    ∧ (∀ (c k i : Nat) (s : State) (e : Exch), (taskOf s (.slot c k)).exchs[i]? = some e →
      exchReady (coreOf s c) (taskOf s (.slot c k)) e = true → e.spoiled = false → e.index < 16384 →
      let tile := tileOf (coreOf s c) e.tile
      let fits := tile.int = (e.ty = tyI64)
      ∃ t, exec (.accExchangePerformed (.slot c k) i) s = .next t
        ∧ (taskOf t (.slot c k)).exchs = ((taskOf s (.slot c k)).exchs.filter fun g => g.seq != e.seq).map
            (fun g => if e.load && g.load && decide (g.dest = e.dest) then { g with spoiled := true } else g)
        ∧ (taskOf t (.slot c k)).exchFmt = (taskOf s (.slot c k)).exchFmt ++ (if fits then [] else [e.seq])
        ∧ (e.load = true → (tget freshV (taskOf t (.slot c k)).v e.dest).tag = e.ty ∧ coreOf t c = coreOf s c
            ∧ ∀ n < 64, bits (tget freshV (taskOf t (.slot c k)).v e.dest).data.toNat (64 * n) 64
                = if fits then (acc tile (e.index + n)).toNat else 0)
        ∧ (e.load = false → (taskOf t (.slot c k)).v = (taskOf s (.slot c k)).v
            ∧ (¬fits → coreOf t c = coreOf s c)
            ∧ (fits → ∀ j, acc (tileOf (coreOf t c) e.tile) j
                = if e.index ≤ j ∧ j < e.index + 64 then BitVec.ofNat 64 (bits e.data.toNat (64 * (j - e.index)) 64) else acc tile j))
        ∧ (taskOf t (.slot c k)).x = (taskOf s (.slot c k)).x ∧ (coreOf t c).mem = (coreOf s c).mem)

/-- R244, R245, R251: `xord` forms an order register of P, KERNEL 1 and THETA; `xclr` an empty expansion register of the order, centre
and radius it is given, a radius below 0 or undefined becoming +infinity with IV. -/
def Says.SeriesFormed : Prop :=
  (∀ (f : FmtA) (s : State), issues (.xord f) (planXord f s s.cur) s = true →
      let u := acting (planXord f s s.cur) s
      ∃ w : Word, Puts f.tk [mkFlight 1 false (destOf f.d) (.order w) 0 false (signalsOf s f.tk)] s (exec (.xord f) s)
        ∧ w.extractLsb' 0 6 = (opA f u).extractLsb' 0 6 ∧ w.extractLsb' 6 2 = 0 ∧ w.extractLsb' 8 8 = (opC f u).extractLsb' 0 8
        ∧ w.extractLsb' 16 16 = 0 ∧ (clsOf f.b ≠ .c → w.extractLsb' 32 32 = (opB f u).extractLsb' 0 32))
    ∧ (∀ (f : FmtA) (s : State), issues (.xclr f) (planXclr f s s.cur) s = true →
      let u := acting (planXclr f s s.cur) s
      let r := radius (rd64 u u.cur f.b)
      ∃ q : Series, Puts f.tk [mkFlight 2 false (destOf f.d) (.series q) r.2 false (signalsOf s f.tk)] s (exec (.xclr f) s)
        ∧ (∀ k < 32, sCoef q k = cZero) ∧ sCentre q = rdCx u u.cur f.a ∧ sRadius q = r.1
        ∧ sP q = (rdOrd u u.cur f.c).toNat % 64 ∧ sKind q = 0)
    ∧ (∀ w, (f64 w).isNan = true → radius w = (0x7FF0000000000000, fIV)) ∧ radius 0xBFF0000000000000 = (0x7FF0000000000000, fIV)

/-- R243, R246-R248: `xform`, `xm2m`, `xm2l`, `xl2l` and `xadd` add into their destination's coefficients k below its order: `xform` the terms q(w -
c)^k, source by source; the shifts the sums of binomials times powers of the distance (of its reciprocal for `xm2l`, odd terms negated) times A's
coefficients, each operation rounded as R239 says; `xadd` A's coefficient; a kind that the table does not allow makes every coefficient the canonical
NaN and sets IV; centre, radius and order stay. The latency grows with the order. -/
def Says.SeriesAdded : Prop :=
  let kept := fun (d q : Series) => sP q = sP d ∧ sCentre q = sCentre d ∧ sRadius q = sRadius d
    ∧ ∀ k < 32, sP d ≤ k → sCoef q k = sCoef d k
  let allNan := fun (d q : Series) (fl : BitVec 8) => fl = fIV ∧ ∀ k < sP d, k < 32 → sCoef q k = cNan
  let puts := fun (f : FmtA) (s : State) (lat : Nat) (o : Host.Outcome State Fault Refusal) (q : Series) (fl : BitVec 8) =>
    Puts f.tk [mkFlight lat false (destOf f.d) (.series q) fl false (signalsOf s f.tk)] s o
  let power := fun (h : Cx) (n : Nat) => Nat.rec (motive := fun _ => Cx) cOne (fun _ p => (cmul p h).1) n
  let total := fun (l : List (Nat × Cx × Cx)) => l.foldl (fun v e => (cfma (cscale (e.1 : Nat) e.2.1).1 e.2.2 v).1) cZero
  let shift := fun (i : FmtA → Instr) (base ka kd : Nat) (sum : Series → Series → Nat → Cx) => ∀ (f : FmtA) (s : State), issues (i f) (planX2 f s s.cur) s = true →
    let u := acting (planX2 f s s.cur) s
    let a := rdSer u u.cur f.a
    let d := rdSer u u.cur f.d
    sP a ≤ 32 → sP d ≤ 32 →
    ∃ (q : Series) (fl : BitVec 8), puts f s (base + 2 * sP d) (exec (i f) s) q fl ∧ kept d q
      ∧ (sP a ≠ 0 → sKind q = kd)
      ∧ ((sP a = 0 ∨ (kindOf a = 0 ∨ kindOf a = ka) ∧ (kindOf d = 0 ∨ kindOf d = kd)) →
          ∀ k < sP d, sCoef q k = (cadd (sCoef d k) (sum a d k)).1)
      ∧ (sP a ≠ 0 → ¬((kindOf a = 0 ∨ kindOf a = ka) ∧ (kindOf d = 0 ∨ kindOf d = kd)) → allNan d q fl)
  shift .xm2m 6 1 1 (fun a d k =>
      let h := (csub (sCentre a) (sCentre d)).1
      total ((List.range (min (k + 1) (sP a))).map fun j => (bin k j, power h (k - j), sCoef a j)))
    ∧ shift .xm2l 8 1 2 (fun a d l =>
      let h := (crcp (csub (sCentre d) (sCentre a)).1).1
      let v := total ((List.range (sP a)).map fun k => (bin (k + l) l, power h (k + l + 1), sCoef a k))
      if l % 2 = 1 then (cscale (-1) v).1 else v)
    ∧ shift .xl2l 6 2 2 (fun a d l =>
      let h := (csub (sCentre d) (sCentre a)).1
      total ((List.range (sP a - l)).map fun m => (bin (m + l) l, power h m, sCoef a (m + l))))
    ∧ (∀ (f : FmtA) (s : State), issues (.xform f) (planXform f s s.cur) s = true →
      let u := acting (planXform f s s.cur) s
      let d := rdSer u u.cur f.d
      sP d ≤ 32 →
      ∃ (q : Series) (fl : BitVec 8), puts f s (10 + sP d) (exec (.xform f) s) q fl ∧ kept d q ∧ sKind q = 1
        ∧ (kindOf d = 2 → allNan d q fl)
        ∧ (kindOf d ≠ 2 → (∀ e < 32, (laneMask u u.cur f.p).getLsbD e = false) → fl = 0 ∧ ∀ k < 32, sCoef q k = sCoef d k)
        ∧ (kindOf d ≠ 2 → ∀ k < sP d, sCoef q k = (List.range 32).foldl (fun c e =>
            if (laneMask u u.cur f.p).getLsbD e then
              let z := (csub ((rdCv u u.cur f.a).getD e cZero) (sCentre d)).1
              (cadd c (Nat.rec (motive := fun _ => Cx) ((rdCv u u.cur f.b).getD e cZero) (fun _ v => (cmul v z).1) k)).1
            else c) (sCoef d k)))
    ∧ (∀ (f : FmtA) (s : State), issues (.xadd f) (planX2 f s s.cur) s = true →
      let u := acting (planX2 f s s.cur) s
      let a := rdSer u u.cur f.a
      let d := rdSer u u.cur f.d
      sP a ≤ 32 → sP d ≤ 32 →
      ∃ (q : Series) (fl : BitVec 8), puts f s 3 (exec (.xadd f) s) q fl ∧ kept d q
        ∧ sKind q = (if kindOf a = 0 then sKind d else sKind a)
        ∧ ((kindOf a = 0 ∨ kindOf d = 0 ∨ kindOf d = kindOf a) → (sP a = 0 ∨ sP d = 0 ∨ sCentre a = sCentre d ∧ ¬(f64 (sCentre a).re).isNan ∧ ¬(f64 (sCentre a).im).isNan) →
            ∀ k < sP d, sCoef q k = if k < sP a then (cadd (sCoef d k) (sCoef a k)).1 else sCoef d k)
        ∧ (kindOf a ≠ 0 → kindOf d ≠ 0 → kindOf d ≠ kindOf a → allNan d q fl))

/-- R249, R250: `xeval` and `xmeval` give a vector tagged f64 whose element pair t is the value at B's element t in a true lane and
zero in a false one, on the vector stair; a series of the wrong kind gives the canonical NaN and IV. `xadm` answers 1 when θ² times the squared
distance of the centres is at least the squared sum of the radii, in exact reals, and else 0; IV at a NaN. -/
def Obligations.SeriesEvaluated : Prop :=
  let row := fun (i : FmtA → Instr) (base kind : Nat) (mul : Bool) => ∀ (f : FmtA) (s : State), issues (i f) (planEval base f s s.cur) s = true →
    let u := acting (planEval base f s s.cur) s
    let a := rdSer u u.cur f.a
    ∃ (r : VReg) (fl : BitVec 8),
      Puts f.tk [mkFlight (base + sP a) true (destOf f.d) (.vec r) fl f.s (signalsOf s f.tk)] s (exec (i f) s)
      ∧ r.tag = tyF64 ∧ (kindOf a ≠ 0 → kindOf a ≠ kind → fl &&& fIV ≠ 0)
      ∧ ∀ t < 32, (⟨r.data.extractLsb' (128 * t) 64, r.data.extractLsb' (128 * t + 64) 64⟩ : Cx)
          = if !(laneMask u u.cur f.p).getLsbD t then cZero
            else if kindOf a ≠ 0 ∧ kindOf a ≠ kind then cNan
            else (evalOne mul a ((rdCv u u.cur f.b).getD t cZero)
              (if clsOf f.c = .none then none else some ((rdCv u u.cur f.c).getD t cZero))).1
  row .xmeval 10 1 true ∧ row .xeval 6 2 false
    ∧ (∀ (f : FmtA) (s : State), issues (.xadm f) (planXadm f s s.cur) s = true →
      let u := acting (planXadm f s s.cur) s
      let a := rdSer u u.cur f.a
      let b := if clsOf f.b = .q then (sCentre (rdSer u u.cur f.b), sRadius (rdSer u u.cur f.b)) else (rdCx u u.cur f.b, 0)
      let dx := xAdd (f64 (sCentre a).re) (f64 b.1.re).neg
      let dy := xAdd (f64 (sCentre a).im) (f64 b.1.im).neg
      let ra := f64 (sRadius a)
      let rb := f64 b.2
      let th := ordTheta (rdOrd u u.cur f.c)
      ∃ (w : Word) (fl : BitVec 8), Puts f.tk [scalarOut 4 f s (w, fl)] s (exec (.xadm f) s)
        ∧ (if dx.isNan ∨ dy.isNan ∨ ra.isNan ∨ rb.isNan then w = 0 ∧ fl = fIV
          else fl = 0 ∧ (ra = .inf false ∨ rb = .inf false → w = 0)
            ∧ (ra ≠ .inf false → rb ≠ .inf false → isInf dx ∨ isInf dy → w = 1)
            ∧ (ra ≠ .inf false → rb ≠ .inf false → isInf dx = false → isInf dy = false →
              w = if flLt (xMul (xMul th th) (xAdd (xMul dx dx) (xMul dy dy))) (xMul (xAdd ra rb) (xAdd ra rb)) then 0 else 1)))

/-! ## Ordering and synchronisation (spec 15) -/

/-- R345: a `fence` at task scope issues at once, a wider one when every earlier access of the task has been performed; till then its
slot is frozen. It changes nothing. -/
def Says.Fences : Prop :=
  ∀ (sc : Scope) (f : FmtA) (s : State),
    (issues (.fence sc f) (planFence sc f s s.cur) s = true →
      Completes f.tk id s (exec (.fence sc f) s) ∧ (sc = .task ∨ accessesDone (taskOf s s.cur) = true))
    ∧ (sc ≠ .task → accessesDone (taskOf s s.cur) = false → lowest (illFence f) = none → isPorter s.cur = false →
        bpHit s s.cur = none → inactive (taskOf s s.cur) = false →
        ((taskOf s s.cur).flights.filter fun g => g.rem != 0).length ≤ 24 → exec (.fence sc f) s = .next s)

/-- R357-R359: an atomic word on a word of this device, read and written in one step: the old value goes to D, six issue cycles later,
and the new one stands at its home; `cas` writes x(D+1) where the old value equals D's. No other byte changes. -/
def Says.Atomics : Prop :=
  let row := fun (i : FmtM → Instr) (plan : FmtM → State → Party → Plan) (g : TyCode → Nat → Nat → Nat → Nat) =>
    ∀ (f : FmtM) (s : State), (taskOf s s.cur).wait = .none → issues (i f) (plan f s s.cur) s = true →
      let u := acting (plan f s s.cur) s
      let slot := kSlot (fmKReg u u.cur f)
      let o := atomAt u u.cur f
      let n := tyBytes f.ty
      let old := objVal u slot o n
      (atomChk u u.cur f).flag = 0 → quietObj u u.cur slot o n = true →
      ∃ m, Updates f.tk (flying [mkFlight 6 true (destOf f.d) (.word (extend64 f.ty old)) 0 f.s (signalsOf s f.tk)])
          (objPlaces u slot o n) s (exec (i f) s) m
        ∧ objVal m slot o n = g f.ty old ((rdScal u u.cur f.d).toNat % 2 ^ (8 * n)) ((rdScal u u.cur (f.d + 1)).toNat % 2 ^ (8 * n))
  let at1 := fun f => planAtom (illAtom f) f
  row .atomAdd at1 (fun ty old a _ => (old + a) % 2 ^ tyWidth ty) ∧ row .atomAnd at1 (fun _ old a _ => old &&& a)
    ∧ row .atomOr at1 (fun _ old a _ => old ||| a) ∧ row .atomXor at1 (fun _ old a _ => old ^^^ a)
    ∧ row .atomMin at1 (fun ty old a _ => if intDecode ty a < intDecode ty old then a else old)
    ∧ row .atomMax at1 (fun ty old a _ => if intDecode ty old < intDecode ty a then a else old)
    ∧ row .atomSwap at1 (fun _ _ a _ => a) ∧ row .cas planCas (fun _ old a b => if old = a then b else old)

/-- R350, R351, R360-R362: `barinit` posts the object with EXPECTED and no arrivals; `bararr` adds C arrivals and answers the phase as
it was, the phase flipping and the arrivals falling to 0 when they reach EXPECTED; `barwait` issues when the phase is no longer bit 0 of
C, and answers it. -/
def Obligations.Barriers : Prop :=
  let answer := fun (f : FmtA) (s : State) (v : Nat) =>
    mkFlight 1 true (destOf f.d) (.word (BitVec.ofNat 64 (v / 2 ^ 127 % 2 + 2 * (v / 2 ^ 126 % 2)))) 0 false (signalsOf s f.tk)
  (∀ (f : FmtA) (s : State), issues (.barinit f) (planBarinit f s s.cur) s = true →
      let u := acting (planBarinit f s s.cur) s
      let k := rdTok u u.cur f.a
      (barChk u k (kW k) (opB f u).toNat true).flag = 0 →
      ∃ cells, Posts f.tk ⟨cells, .bytes, 0, signalsOf s f.tk, [kSlot k], [], false, 0, 0⟩ s (exec (.barinit f) s)
        ∧ cells.length = 16
        ∧ ∀ i < 16, cells[i]? = some { slot := kSlot k, off := kBase k + (opB f u).toNat + i, el := kBase k + (opB f u).toNat
                                       byte := BitVec.ofNat 8 (if i < 6 then (opC f u).toNat / 2 ^ (8 * i) else 0)
                                       mask := if i = 15 then 0x7F else 0xFF })
    ∧ (∀ (f : FmtA) (s : State), (taskOf s s.cur).wait = .none → issues (.bararr f) (planBararr f s s.cur) s = true →
      let u := acting (planBararr f s s.cur) s
      let slot := kSlot (rdTok u u.cur f.a)
      let o := barAt f u u.cur
      let v := objVal u slot o 16
      let n := (opC f u).toNat
      (bararrChk f u u.cur).flag = 0 → quietObj u u.cur slot o 16 = true →
      ∃ m, Updates f.tk (flying [answer f s v]) (objPlaces u slot o 16) s (exec (.bararr f) s) m
        ∧ (let w := objVal m slot o 16
           barExpected w = barExpected v ∧ barCancel w = barCancel v
            ∧ (if n ≠ 0 ∧ barExpected v ≠ 0 ∧ barExpected v ≤ barArrived v + n then barArrived w = 0 ∧ barPhase w = !barPhase v
               else barArrived w = min (barArrived v + n) (2 ^ 48 - 1) ∧ barPhase w = barPhase v)))
    ∧ (∀ (f : FmtA) (s : State), issues (.barwait f) (planBarwait f s s.cur) s = true →
      let u := acting (planBarwait f s s.cur) s
      let slot := kSlot (rdTok u u.cur f.a)
      (barwaitChk f u u.cur).flag = 0 → (objPlaces u slot (barAt f u u.cur) 16).all (cleanPlace u) = true →
      Puts f.tk [answer f s (objVal u slot (barAt f u u.cur) 16)] s (exec (.barwait f) s))
    ∧ (∀ (f : FmtA) (s : State), (taskOf s s.cur).chk = [] → (barwaitChk f s s.cur).flag = 0 → barFlipped f s s.cur = false →
      refreshHit s s.cur (readsA f) = false → bpHit s s.cur = none → inactive (taskOf s s.cur) = false →
      isPorter s.cur = false → lowest (illBararr f) = none → coldSlot s s.cur (rdTok s s.cur f.a) = none →
      ((taskOf s s.cur).flights.filter fun g => g.rem != 0).length < 24 → exec (.barwait f) s = .next s)

/-- R157, R158, R363: `seminit` sets a semaphore one issue cycle later; `semp` takes a unit, or holds its slot until it can; `semv` gives
one, or, at the ceiling, traps with SEMOVF: where no engine of the core comes before the slot with a P, or a V, on that semaphore. -/
def Says.Semaphores : Prop :=
  let others := fun (s t : State) (n : Nat) => (∀ j, j ≠ n → semOf t s.cur j = semOf s s.cur j)
    ∧ (taskOf t s.cur).x = (taskOf s s.cur).x ∧ ∀ pl, rdByte t pl = rdByte s pl
  let noP := fun (s : State) (n : Nat) => isPorter s.cur = true ∨ ∀ e, nextP s (coreNo s.cur) e ≠ some n
  let noV := fun (s : State) (n : Nat) => isPorter s.cur = true
    ∨ ∀ e r, finishing s (coreNo s.cur) e = some r → semHas (runRec r).semv = true → semId (runRec r).semv ≠ n
  (∀ (f : FmtA) (s : State), issues (.seminit f) (planSeminit f s s.cur) s = true →
      let u := acting (planSeminit f s s.cur) s
      Puts f.tk [mkFlight 1 false (.sem (opA f u).toNat) (.word (BitVec.ofNat 64 ((opC f u).toNat * 256 + (opB f u).toNat))) 0 false
        (signalsOf s f.tk)] s (exec (.seminit f) s))
    ∧ (∀ (s : State) (p : Party) (g : Flight) (n : Nat) (w : Word),
      (taskOf s p).flights.filter (fun h => decide (h.rem = 0)) = [g] → g.dest = .sem n → g.val = .word w → g.stair = false →
      g.fix = none → g.sigs = [] → g.need = [] →
      ∃ t, exec (.resultWrite p) s = .next t ∧ semOf t p n = ⟨w.extractLsb' 8 8, w.extractLsb' 0 8⟩
        ∧ ∀ j, j ≠ n → semOf t p j = semOf s p j)
    ∧ (∀ (f : FmtA) (s : State), (taskOf s s.cur).wait = .none → issues (.semp f) (planSem true f s s.cur) s = true →
      let u := acting (planSem true f s s.cur) s
      let n := (opA f u).toNat
      noP s n → ∃ t, exec (.semp f) s = .next t
        ∧ ((semOf s s.cur n).value ≠ 0 → semOf t s.cur n = { semOf s s.cur n with value := (semOf s s.cur n).value - 1 }
            ∧ others s t n ∧ (taskOf t s.cur).pc = (taskOf s s.cur).pc + 1 ∧ (taskOf t s.cur).wait = .none)
        ∧ ((semOf s s.cur n).value = 0 → semOf t s.cur n = semOf s s.cur n ∧ others s t n
            ∧ (taskOf t s.cur).pc = (taskOf s s.cur).pc ∧ (taskOf t s.cur).wait = .sem n))
    ∧ (∀ (f : FmtA) (s : State) (n : Nat), (taskOf s s.cur).wait = .sem n → plainEnd (taskOf s s.cur) → noP s n →
      ((semOf s s.cur n).value = 0 → exec (.semp f) s = .next s)
        ∧ ((semOf s s.cur n).value ≠ 0 → ∃ t, exec (.semp f) s = .next t
            ∧ semOf t s.cur n = { semOf s s.cur n with value := (semOf s s.cur n).value - 1 }
            ∧ others s t n ∧ (taskOf t s.cur).pc = (taskOf s s.cur).pc + 1 ∧ (taskOf t s.cur).wait = .none))
    ∧ (∀ (f : FmtA) (s : State), issues (.semv f) (planSem false f s s.cur) s = true →
      let u := acting (planSem false f s s.cur) s
      let n := (opA f u).toNat
      let m := semOf s s.cur n
      noV s n →
      (m.value.toNat < m.ceil.toNat → ∃ t, exec (.semv f) s = .next t ∧ semOf t s.cur n = { m with value := m.value + 1 }
          ∧ others s t n ∧ (taskOf t s.cur).pc = (taskOf s s.cur).pc + 1)
        ∧ (m.ceil.toNat ≤ m.value.toNat → ∃ k, exec (.semv f) s
            = .next (trapHere { popTicks s s.cur f.tk with freeNo := k } s.cur ((encodeWord (.semv f)).getD 0)
                { mkTrap cSEMOVF 1 with aux0 := BitVec.ofNat 64 n, aux1 := BitVec.ofNat 64 (m.ceil.toNat * 256 + m.value.toNat) })))

/-- R353, R364-R366: `tlsig` adds C to a timeline word of this device and answers the old value; `tlset` sets one; `tlwait` answers the
word when it has passed C, modulo 2^64, and else holds its slot with one count on the timeline's pin slot; a write that passes the
threshold releases it, with the value that did. That the answers of `tlsig` and `tlwait` come one cycle later is the model's reading (log 17). -/
def Says.Timelines : Prop :=
  (∀ (f : FmtA) (s : State), (taskOf s s.cur).wait = .none → issues (.tlsig f) (planTlsig f s s.cur) s = true →
      let u := acting (planTlsig f s s.cur) s
      let slot := kSlot (rdTok u u.cur f.a)
      let o := barAt f u u.cur
      let old := objVal u slot o 8
      (tlChk f kA true u u.cur).flag = 0 → quietObj u u.cur slot o 8 = true →
      ∃ m, Updates f.tk (flying [mkFlight 1 true (destOf f.d) (.word (BitVec.ofNat 64 old)) 0 false (signalsOf s f.tk)])
          (objPlaces u slot o 8) s (exec (.tlsig f) s) m
        ∧ objVal m slot o 8 = (old + (opC f u).toNat) % 2 ^ 64)
    ∧ (∀ (f : FmtA) (s : State), (taskOf s s.cur).wait = .none → issues (.tlset f) (planTlset f s s.cur) s = true →
      let u := acting (planTlset f s s.cur) s
      let slot := kSlot (rdTok u u.cur f.a)
      let o := barAt f u u.cur
      (tlChk f kW true u u.cur).flag = 0 → quietObj u u.cur slot o 8 = true →
      isSuper s.cur = true ∧ ∃ m, Updates f.tk id (objPlaces u slot o 8) s (exec (.tlset f) s) m
        ∧ objVal m slot o 8 = (opC f u).toNat)
    ∧ (∀ (f : FmtA) (s : State), (taskOf s s.cur).wait = .none → issues (.tlwait f) (planTlwait f s s.cur) s = true →
      let u := acting (planTlwait f s s.cur) s
      let slot := kSlot (rdTok u u.cur f.a)
      let o := barAt f u u.cur
      let v := BitVec.ofNat 64 (objVal u slot o 8)
      (tlChk f kR false u u.cur).flag = 0 → quietObj u u.cur slot o 8 = true →
      ((v - opC f u).toNat < 2 ^ 63 →
          Puts f.tk [mkFlight 1 true (destOf f.d) (.word v) 0 false (signalsOf s f.tk)] s (exec (.tlwait f) s))
        ∧ (2 ^ 63 ≤ (v - opC f u).toNat → ∃ t, exec (.tlwait f) s = .next t
            ∧ (taskOf t s.cur).wait = .timeline f slot o (opC f u) none ∧ (taskOf t s.cur).pc = (taskOf s s.cur).pc
            ∧ (slotOf t slot).inflt = (slotOf s slot).inflt + 1 ∧ (taskOf t s.cur).x = (taskOf s s.cur).x
            ∧ ∀ pl, rdByte t pl = rdByte s pl))
    ∧ (∀ (s : State) (q : Party) (f : FmtA) (slot o : Nat) (th : Word),
      (taskOf s q).wait = .timeline f slot o th none → (pinLookup s slot o).space ≠ .peer →
      let v := BitVec.ofNat 64 (word64 s (pinLookup s slot o))
      (taskOf (wakeTimelines s) q).wait = .timeline f slot o th (if (v - th).toNat < 2 ^ 63 then some v else none))
    ∧ (∀ (s : State) (f g : FmtA) (slot o : Nat) (th v : Word), (taskOf s s.cur).wait = .timeline g slot o th (some v) →
      plainEnd (taskOf s s.cur) →
      ∃ t, exec (.tlwait f) s = .next t ∧ (taskOf t s.cur).wait = .none ∧ (taskOf t s.cur).pc = (taskOf s s.cur).pc + 1
        ∧ (slotOf t slot).inflt = (slotOf s slot).inflt - 1
        ∧ ∃ h ∈ (taskOf t s.cur).flights, h.dest = destOf f.d ∧ h.val = .word v ∧ h.stair = true)

/-! ## Translation, revocation, seals (spec 13) -/

/-- R325, R327, R328, R330: `xlat` and `xlatl` hold their slot until XLAT_COMPLETE; their visits do nothing till then. An extent of 0
bytes, or of 2^40 and more, fails: token 0, XB. A page fault of `xlat.trap` suspends the task with PF; one of `xlat.wait` gives its slot
up, its request sent, once its results have landed and its accesses are done. -/
def Says.TranslationWords : Prop :=
  let held := fun (s t : State) (w : Wait) => (taskOf t s.cur).wait = w ∧ (taskOf t s.cur).pc = (taskOf s s.cur).pc
    ∧ (taskOf t s.cur).x = (taskOf s s.cur).x ∧ (taskOf t s.cur).k = (taskOf s s.cur).k ∧ ∀ pl, rdByte t pl = rdByte s pl
  let words := fun (i : FmtA → Instr) (w : Bool) (pl : FmtA → State → Party → Plan) => ∀ (f : FmtA) (s : State),
    ((taskOf s s.cur).wait = .none → issues (i f) (pl f s s.cur) s = true →
      let u := acting (pl f s s.cur) s
      ∃ t, exec (i f) s = .next t ∧ held s t (.xlat f w (opA f u).toNat (opB f u).toNat) ∧ t.slots = s.slots)
    ∧ ((taskOf s s.cur).wait ≠ .none → exec (i f) s = .next s)
  let lists := fun (i : FmtA → Instr) (w : Bool) => ∀ (f : FmtA) (s : State),
    ((taskOf s s.cur).wait = .none → issues (i f) (planXlatl w f s s.cur) s = true →
      let u := acting (planXlatl w f s s.cur) s
      (listChk f u u.cur).flag = 0 →
      ∃ t, exec (i f) s = .next t ∧ held s t (.xlatl f w (opB f u).toNat (opC f u).toNat)
        ∧ ∀ n, slotOf t n = if n = kSlot (rdTok u u.cur f.a) then { slotOf s n with inflt := (slotOf s n).inflt + 1 } else slotOf s n)
    ∧ ((taskOf s s.cur).wait ≠ .none → exec (i f) s = .next s)
  words .xlatTrap false (planXlat false) ∧ words .xlatWait true (planXlat true) ∧ lists .xlatlTrap false ∧ lists .xlatlWait true
    ∧ (∀ (s : State) (p : Party) (f : FmtA) (w : Bool) (va len : Nat), (taskOf s p).wait = .xlat f w va len →
      (len = 0 ∨ 2 ^ 40 ≤ len) → plainEnd (taskOf s p) →
      ∃ t, exec (.xlatComplete p) s = .next t ∧ (taskOf t p).pc = (taskOf s p).pc + 1 ∧ (taskOf t p).wait = .none
        ∧ (∃ g ∈ (taskOf t p).flights, g.dest = destOf f.d ∧ g.val = .tok noTok ∧ g.flags = fXB) ∧ t.slots = s.slots)
    ∧ (∀ (s : State) (c n : Nat) (f : FmtA) (va len : Nat) (x : Nat × PFault) (r : List (Nat × PFault)),
      (taskOf s (.slot c n)).wait = .xlat f false va len → (taskOf s (.slot c n)).inHandler = false →
      refusedIn s (.slot c n) va len = false →
      let u := walked { s with cur := .slot c n } (taskOf s (.slot c n)).ctx va len (pkBits f)
      xlat u (.slot c n) (taskOf s (.slot c n)).ctx va len (pkBits f) = .fault (x :: r) →
      ∃ t, exec (.xlatComplete (.slot c n)) s = .next t ∧ (taskOf t (.slot c n)).status = .supervised
        ∧ (taskOf t (.slot c n)).trap.cause = cPF ∧ (taskOf t (.slot c n)).trap.detail = x.2.detail
        ∧ (taskOf t (.slot c n)).trap.va = x.1 ∧ (taskOf t (.slot c n)).pc = (taskOf s (.slot c n)).pc)
    ∧ (∀ (s : State) (c n l : Nat) (f : FmtA) (va len : Nat) (x : Nat × PFault) (r : List (Nat × PFault)),
      (taskOf s (.slot c n)).wait = .xlat f true va len → (taskOf s (.slot c n)).launch = some (c / 128, l) →
      (freeGroup s (c / 128)).isSome = true → refusedIn s (.slot c n) va len = false → (taskOf s (.slot c n)).flights = [] →
      accessesDone (taskOf s (.slot c n)) = true →
      let u := walked { s with cur := .slot c n } (taskOf s (.slot c n)).ctx va len (pkBits f)
      xlat u (.slot c n) (taskOf s (.slot c n)).ctx va len (pkBits f) = .fault (x :: r) →
      ∃ t, exec (.xlatComplete (.slot c n)) s = .next t ∧ taskOf t (.slot c n) = Task.fresh
        ∧ t.groups.length = s.groups.length + 1)

/-- R325, R318, R142: a translation that finds its pages, a slot and words makes a live slot, and a current token whose byte i is byte i of
the extent: of the scratchpad slices of cores bound to the context, and of one near or far page (of which the table entries read hold no error to
correct, R398). R325, R327, R328: so an `xlat` of either
mode that issues completes with that token when its walk completes. R330: so an `xlatl` completes with the mask of the entries done: of a
list with no entry to do, and of a list of one hall entry, which takes its token and STATUS 1. -/
def Obligations.TranslationGivesToken : Prop :=
  let token := fun (s t : State) (k : KReg) (len pk : Nat) => kCurrent t k = true ∧ kLen k = len ∧ (kPerms k).toNat = pk
    ∧ (slotOf t (kSlot k)).state = .live ∧ (slotOf s (kSlot k)).state = .free ∧ kGen k = (slotOf s (kSlot k)).gen
  let went := fun (s t : State) (p : Party) => (taskOf t p).pc = (taskOf s p).pc + 1 ∧ (taskOf t p).wait = .none
    ∧ (taskOf t p).x = (taskOf s p).x
  let gives := fun (s t : State) (p : Party) (f : FmtA) (len : Nat) (place : Nat → Place) => ∃ k : KReg,
    (∃ g ∈ (taskOf t p).flights, g.dest = destOf f.d ∧ g.val = .tok k ∧ g.flags = 0) ∧ token s t k len (pkBits f)
      ∧ (∀ i < len, kPlace t k i = place i) ∧ (∀ n, n ≠ kSlot k → slotOf t n = slotOf s n) ∧ went s t p
  let hall := fun (s : State) (p : Party) (va len : Nat) => 1 ≤ len ∧ len < 2 ^ 40 ∧ 0xFFFFFFFFE0000000 ≤ va ∧ va + len ≤ 2 ^ 64
    ∧ (∀ c < 512, c * 2 ^ 20 < va % 2 ^ 29 + len → va % 2 ^ 29 < (c + 1) * 2 ^ 20 → boundTo s (ctxNo s p) c = true)
    ∧ (∀ e ∈ s.words, e.2.used = true → e.2.space = .hall → e.2.swap = 0)
    ∧ (freeSlotNo s).isSome = true ∧ (freeWords s ((va % 65536 + len + 65535) / 65536)).isSome = true
  let page := fun (s : State) (p : Party) (f : FmtA) (va len : Nat) (q : Page) (sp : Space) => 1 ≤ len ∧ len < 2 ^ 40
    ∧ va + len ≤ 2 ^ 52 ∧ (walkPage s (ctxNo s p) (va / 65536 * 65536) (pkBits f)).res = .inr q
    ∧ (∀ a ∈ (walkPage s (ctxNo s p) (va / 65536 * 65536) (pkBits f)).seen, ∀ i < 8, cleanPlace s (keyPlace (a + i)) = true)
    ∧ (q.size = 2 ^ 16 ∨ q.size = 2 ^ 21 ∨ q.size = 2 ^ 30) ∧ q.va % q.size = 0 ∧ q.pa % 65536 = 0 ∧ q.va ≤ va
    ∧ va + len ≤ q.va + q.size ∧ spaceOf q.space = some sp ∧ sp ≠ .hall ∧ movingWord s sp (q.pa / 65536) (q.size / 65536) false = none
    ∧ (freeSlotNo s).isSome = true ∧ (freeWords s 1).isSome = true
  let hallPlace := fun (va i : Nat) => (⟨.hall, va % 2 ^ 29 + i⟩ : Place)
  let pagePlace := fun (q : Page) (sp : Space) (va i : Nat) => (⟨sp, q.pa + (va - q.va) + i⟩ : Place)
  let clear := fun (s : State) (p : Party) (va len : Nat) => refusedIn s p va len = false ∧ xlatWatch { s with cur := p } p va len = none
  let twice := fun (s : State) (i : Instr) (holds : State → Prop) =>
    ∃ t1, exec i s = .next t1 ∧ ∃ t2, exec (.xlatComplete s.cur) t1 = .next t2 ∧ holds t2
  let word := fun (i : FmtA → Instr) (w : Bool) => ∀ (f : FmtA) (s : State), (taskOf s s.cur).wait = .none →
    issues (i f) (planXlat w f s s.cur) s = true →
    let u := acting (planXlat w f s s.cur) s
    let va := (opA f u).toNat
    let len := (opB f u).toNat
    clear s s.cur va len →
    (hall s s.cur va len → twice s (i f) fun t => gives s t s.cur f len (hallPlace va))
      ∧ ∀ q sp, page s s.cur f va len q sp → twice s (i f) fun t => gives s t s.cur f len (pagePlace q sp va)
  let list := fun (i : FmtA → Instr) (w : Bool) => ∀ (f : FmtA) (s : State), (taskOf s s.cur).wait = .none →
    issues (i f) (planXlatl w f s s.cur) s = true →
    let u := acting (planXlatl w f s s.cur) s
    let k := rdTok u u.cur f.a
    let off := (opB f u).toNat
    let n := (opC f u).toNat
    let mask := fun (t : State) (v : Word) => ∃ g ∈ (taskOf t s.cur).flights, g.dest = destOf f.d ∧ g.val = .word v ∧ g.stair = true
    (listChk f u u.cur).flag = 0 → listWatch s s.cur k off n = none →
    ((∀ j < n, listField s k (off + 32 * j) 14 1 ≠ 0) → twice s (i f) fun t => mask t (doneMask s k off n) ∧ went s t s.cur
        ∧ (∀ m, slotOf t m = slotOf s m) ∧ ∀ pl, rdByte t pl = rdByte s pl)
      ∧ (let va := listField s k off 0 8
         let len := listField s k off 8 5
         n = 1 → listField s k off 14 1 = 0 → hall s s.cur va len → xlatWatch s s.cur va len = none →
         (slotOf s (kSlot k)).state = .live → quietObj s s.cur (kSlot k) (kBase k + off) 32 = true →
         (∀ j < 32, (wordOf s ((slotOf s (kSlot k)).first + (kBase k + off + j) / psBytes (slotOf s (kSlot k)).ps)).used = true) →
         twice s (i f) fun t => mask t 1 ∧ went s t s.cur ∧ ∃ e : KReg, token s t e len (listField s k off 13 1 % 16)
           ∧ leNat (rdExtent t k (off + 16) 16) = e.bits.toNat ∧ listField t k off 14 1 = 1)
  word .xlatTrap false ∧ word .xlatWait true ∧ list .xlatlTrap false ∧ list .xlatlWait true
    ∧ (∀ (s : State) (p : Party) (f : FmtA) (w : Bool) (va len : Nat), (taskOf s p).wait = .xlat f w va len → plainEnd (taskOf s p) →
      clear s p va len → hall s p va len →
      ∃ t, exec (.xlatComplete p) s = .next t ∧ gives s t p f len (hallPlace va))
    ∧ (∀ (s : State) (p : Party) (f : FmtA) (w : Bool) (va len : Nat) (q : Page) (sp : Space),
      (taskOf s p).wait = .xlat f w va len → plainEnd (taskOf s p) → clear s p va len → page s p f va len q sp →
      ∃ t, exec (.xlatComplete p) s = .next t ∧ gives s t p f len (pagePlace q sp va))

/-- R329: with no reply in its ring PAGE_REPLY changes nothing; a reply that refuses the one page of an `xlat.wait` closes its group, and
the continuation record that waits on it is resumable, the page among its refused ones. -/
def Says.PageReplies : Prop :=
  (∀ (vf : Nat) (s : State), let ctrl := (ctxOf s vf).params.repRing
      rdNear s (ctrl + 16) 8 ≤ rdNear s (ctrl + 24) 8 → exec (.pageReply vf) s = .next s)
    ∧ (∀ (vf : Nat) (s : State), let ctrl := (ctxOf s vf).params.repRing
      (ctxOf s vf).live = true → (ctxOf s vf).off = [] → rdNear s (ctrl + 8) 1 = 0 → rdNear s (ctrl + 24) 8 < rdNear s (ctrl + 16) 8 →
      exec (.pageReply vf) s = .next (wrNear (takeReply s vf (rdNear s (rdNear s ctrl 8) 16)) (ctrl + 24)
        (leBytes 8 (rdNear s (ctrl + 24) 8 + 1))))
    ∧ (∀ (s : State) (ctx r key d l c n idx va pk : Nat),
      s.groups.find? (fun e => decide (e.1 = bits r 0 32) && decide (e.2.ctx = ctx)
        && e.2.entries.any fun x => decide (x.1 = bits r 32 8)) = some (key, ⟨.slot c n, ctx, d, l, none, [(idx, va, pk)], [], false⟩) →
      groupOf s key = ⟨.slot c n, ctx, d, l, none, [(idx, va, pk)], [], false⟩ → idx = bits r 32 8 → bits r 40 8 ≠ 0 →
      let t := takeReply s ctx r
      (∀ e ∈ t.groups, e.1 ≠ key)
        ∧ (launchOf t d l).conts = (launchOf s d l).conts.map fun x =>
            if x.bar = 2 ^ 63 + key then { x with ready := true, refused := [va], xb := false } else x)

/-- R331-R336: `trel` and `krevoke` revoke: the generation is bumped, so that no token of the old one is current, and the slot is swept.
With nothing in flight on it the slot is drained; SWEEP clears the tag of every copy of a token to it; SLOT_FREE frees it and its words. -/
def Says.Revocation : Prop :=
  let revoked := fun (s t : State) (n : Nat) =>
    slotOf t n = { slotOf s n with gen := (slotOf s n).gen + 1, state := .sweeping, drained := false, swept := false }
      ∧ n ∈ t.sweepSet ∧ (∀ m, m ≠ n → slotOf t m = slotOf s m)
      ∧ ∀ k : KReg, kSlot k = n → kGen k = (slotOf s n).gen → kCurrent t k = false
  let room := fun (s : State) (n : Nat) => (slotOf s n).state = .live ∧ s.revokeQ = [] ∧ s.sweepSet.length < 16
  (∀ (f : FmtA) (s : State), issues (.trel f) (planTrel f s s.cur) s = true →
      let u := acting (planTrel f s s.cur) s
      let k := rdTok u u.cur f.a
      (kCurrent s k = true → room s (kSlot k) →
        ∃ t, exec (.trel f) s = .next t ∧ revoked s t (kSlot k) ∧ (rdTok t s.cur f.a).tag = false
          ∧ (taskOf t s.cur).pc = (taskOf s s.cur).pc + 1 ∧ (taskOf t s.cur).x = (taskOf s s.cur).x)
        ∧ (kCurrent s k = false → Completes f.tk id s (exec (.trel f) s)))
    ∧ (∀ (f : FmtA) (s : State), (taskOf s s.cur).wait = .none → issues (.krevoke f) (planKrevoke f s s.cur) s = true →
      let u := acting (planKrevoke f s s.cur) s
      let n := (opA f u).toNat
      (room s n → (clsOf f.b = .none ∨ (opB f u).extractLsb' 0 8 = (slotOf s n).gen) →
        ∃ t, exec (.krevoke f) s = .next t ∧ revoked s t n ∧ (taskOf t s.cur).wait = .revoke f n 1
          ∧ (taskOf t s.cur).pc = (taskOf s s.cur).pc)
        ∧ (revoking s n = false → ((slotOf s n).state ≠ .live ∨ (clsOf f.b ≠ .none ∧ (opB f u).extractLsb' 0 8 ≠ (slotOf s n).gen)) →
          Puts f.tk [mkFlight 1 true (destOf f.d) (.word 0) 0 false (signalsOf s f.tk)] s (exec (.krevoke f) s)))
    ∧ (∀ (f g : FmtA) (s : State) (n : Nat) (r : Word), (taskOf s s.cur).wait = .revoke g n r → plainEnd (taskOf s s.cur) →
      (revoking s n = true → exec (.krevoke f) s = .next s)
        ∧ (revoking s n = false → ∃ t, exec (.krevoke f) s = .next t ∧ (taskOf t s.cur).wait = .none
          ∧ (taskOf t s.cur).pc = (taskOf s s.cur).pc + 1
          ∧ ∃ h ∈ (taskOf t s.cur).flights, h.dest = destOf f.d ∧ h.val = .word r ∧ h.stair = true))
    ∧ (∀ (n : Nat) (s : State), ∃ t, exec (.revocationDrainDone n) s = .next t
        ∧ slotOf t n = (if (slotOf s n).state = .sweeping ∧ (slotOf s n).inflt = 0 then { slotOf s n with drained := true } else slotOf s n)
        ∧ (∀ m, m ≠ n → slotOf t m = slotOf s m) ∧ t.words = s.words ∧ t.near = s.near)
    ∧ (∀ s : State, ∃ t, exec .sweep s = .next t
        ∧ (∀ p n, tget noTok (taskOf t p).k n
            = if (slotOf s (kSlot (tget noTok (taskOf s p).k n))).drained ∧ kSlot (tget noTok (taskOf s p).k n) ∈ s.sweepSet
              then { tget noTok (taskOf s p).k n with tag := false } else tget noTok (taskOf s p).k n)
        ∧ (∀ a n, rdTag t ⟨.hall, a⟩ = true → n ∈ s.sweepSet → (slotOf s n).drained = true →
            leNat [rdByte s ⟨.hall, a / 16 * 16 + 14⟩, rdByte s ⟨.hall, a / 16 * 16 + 15⟩] ≠ n)
        ∧ (∀ n ∈ s.sweepSet, (slotOf t n).swept = ((slotOf s n).swept || (slotOf s n).drained))
        ∧ (∀ p, (taskOf t p).x = (taskOf s p).x ∧ (taskOf t p).v = (taskOf s p).v) ∧ ∀ pl, rdByte t pl = rdByte s pl)
    ∧ (∀ (n : Nat) (s : State), (slotOf s n).state = .sweeping → (slotOf s n).swept = true → s.revokeQ = [] →
      ∃ t, exec (.slotFree n) s = .next t ∧ slotOf t n = { PinSlot.fresh with gen := (slotOf s n).gen } ∧ n ∉ t.sweepSet
        ∧ (∀ w, (slotOf s n).first ≤ w → w ≤ (slotOf s n).first + (slotOf s n).nwords → wordOf t w = PinWord.fresh)
        ∧ (∀ w, (w < (slotOf s n).first ∨ (slotOf s n).first + (slotOf s n).nwords < w) → wordOf t w = wordOf s w)
        ∧ (∀ m, m ≠ n → slotOf t m = slotOf s m) ∧ ∀ pl, rdByte t pl = rdByte s pl)

/-- R337-R339: `seal` holds its slot until SEAL_IN_FORCE enters the physical runs of its extent, which then refuses every store to them
with SX; a stale token answers 1, an unaligned extent or one that meets another seal 2, a full table 3. A seal whose pages take part in a swap
waits for its end (log 40). `unseal` takes out the runs
within its extent. -/
def Says.Seals : Prop :=
  let answer := fun (f : FmtA) (s : State) (v : Word) (fl : BitVec 8) => mkFlight 1 true (destOf f.d) (.word v) fl false (signalsOf s f.tk)
  (∀ (f : FmtA) (s : State), (taskOf s s.cur).wait = .none → issues (.seal f) (planSealWord f s s.cur) s = true →
      let u := acting (planSealWord f s s.cur) s
      let k := rdTok u u.cur f.a
      let ok := kCurrent s k = true ∧ kR k = true ∧ kW k = true
      swapIn u k = false →
      let good := kBase k % 128 = 0 ∧ kLen k % 128 = 0 ∧ kLen k ≠ 0 ∧ runsOverlap (runsOf u k) s.sealRuns = false
      (ok → good → s.sealRuns.length + (runsOf u k).length ≤ 1024 →
        ∃ t, exec (.seal f) s = .next t ∧ (taskOf t s.cur).wait = .seal f (runsOf u k) ∧ (taskOf t s.cur).pc = (taskOf s s.cur).pc
          ∧ t.sealRuns = s.sealRuns
          ∧ ∃ t2, exec (.sealInForce s.cur) t = .next t2 ∧ t2.sealRuns = s.sealRuns ++ runsOf u k
            ∧ (taskOf t2 s.cur).wait = .none ∧ (taskOf t2 s.cur).pc = (taskOf s s.cur).pc + 1
            ∧ ∃ h ∈ (taskOf t2 s.cur).flights, h.dest = destOf f.d ∧ h.val = .word 0)
        ∧ (ok → ¬good → Puts f.tk [answer f s 2 0] s (exec (.seal f) s))
        ∧ (ok → good → 1024 < s.sealRuns.length + (runsOf u k).length → Puts f.tk [answer f s 3 0] s (exec (.seal f) s))
        ∧ (kCurrent s k = false → ∃ t, exec (.seal f) s = .next t ∧ t.sealRuns = s.sealRuns
            ∧ ∃ h ∈ (taskOf t s.cur).flights, h.dest = destOf f.d ∧ h.val = .word 1 ∧ h.flags = fST))
    ∧ (∀ (s : State) (p : Party) (f : FmtA) (runs : List (Space × Nat × Nat)), (taskOf s p).wait = .seal f runs →
      plainEnd (taskOf s p) →
      let k := rdTok s p f.a
      let runs := sealNow s k runs
      (kCurrent s k = true → swapIn s k = true → exec (.sealInForce p) s = .next s) ∧ ((kCurrent s k = true → swapIn s k = false) →
      let code : Word := if runsOverlap runs s.sealRuns then 2 else if 1024 < s.sealRuns.length + runs.length then 3 else 0
      ∃ t, exec (.sealInForce p) s = .next t ∧ t.sealRuns = s.sealRuns ++ (if code = 0 then runs else [])
        ∧ (taskOf t p).wait = .none ∧ (taskOf t p).pc = (taskOf s p).pc + 1
        ∧ (∃ h ∈ (taskOf t p).flights, h.dest = destOf f.d ∧ h.val = .word code) ∧ ∀ pl, rdByte t pl = rdByte s pl))
    ∧ (∀ (s : State) (k : KReg) (off : Int) (size i : Nat), 0 ≤ off → i < size →
      sealedPlace s (kPlace s k (off.toNat + i)) = true → (access s k off size true).flag ≠ 0)
    ∧ (∀ (f : FmtA) (s : State), issues (.unseal f) (planUnseal f s s.cur) s = true →
      let u := acting (planUnseal f s s.cur) s
      let k := rdTok u u.cur f.a
      let gone := goneRuns s k
      (kCurrent s k = false → Puts f.tk [answer f s 1 0] s (exec (.unseal f) s))
        ∧ (kCurrent s k = true → ¬(kR k = true ∧ kW k = true ∧ gone ≠ []) → Puts f.tk [answer f s 2 0] s (exec (.unseal f) s))
        ∧ (kCurrent s k = true → kR k = true → kW k = true → gone ≠ [] → ∃ t, exec (.unseal f) s = .next t
            ∧ t.sealRuns = s.sealRuns.filter (fun r => !gone.contains r)
            ∧ (∃ h ∈ (taskOf t s.cur).flights, h.dest = destOf f.d ∧ h.val = .word 0)
            ∧ (taskOf t s.cur).x = (taskOf s s.cur).x ∧ ∀ pl, rdByte t pl = rdByte s pl))

/-- R127, R128, R268: `suspend` on a barrier object it may read, in a task with room for a record in its cluster, gives up its slot: the
record resumes after the word, with the point, stage, `fmode` and live registers of the task, when the object's phase is no longer the
recorded one. A failed check makes it a `nop` that sets the flag. -/
def Obligations.Suspends : Prop :=
  ∀ (f : FmtA) (s : State) (c n d l : Nat), s.cur = .slot c n → issues (.suspend f) (planSuspend f s s.cur) s = true →
    let u := acting (planSuspend f s s.cur) s
    let slot := kSlot (rdTok u u.cur f.a)
    let o := barAt f u u.cur
    ((barwaitChk f u u.cur).flag = 0 → (objPlaces u slot o 16).all (cleanPlace u) = true → (taskOf s s.cur).launch = some (d, l) →
      areaUsed s (c / 16) + 142 ≤ 8192 →
      ∃ t r, exec (.suspend f) s = .next t ∧ taskOf t s.cur = Task.fresh
        ∧ (launchOf t d l).conts = (launchOf s d l).conts ++ [r]
        ∧ r.pc = (taskOf s s.cur).pc + 1 ∧ r.point = (taskOf s s.cur).point ∧ r.stage = (taskOf s s.cur).stage
        ∧ r.fmode = (taskOf s s.cur).fmode ∧ r.ready = false ∧ r.cluster = c / 16
        ∧ r.bar = (pinLookup s slot o).addr ∧ r.phase = barPhase (objVal s slot o 16)
        ∧ (∀ regs, ckptOf s s.cur (taskOf s s.cur).pc = some regs → r.live.map (·.1) = regs)
        ∧ (∀ e ∈ r.live, clsOf (BitVec.ofNat 7 e.1) = .x → unsureReg s s.cur (destOf (BitVec.ofNat 7 e.1)) = false → e.2 = .word (tget 0 (taskOf s s.cur).x (regNo (BitVec.ofNat 7 e.1))))
        ∧ ∀ pl, rdByte t pl = rdByte s pl)
      ∧ ((barwaitChk f u u.cur).flag ≠ 0 → ∃ t, exec (.suspend f) s = .next t ∧ (taskOf t s.cur).pc = (taskOf s s.cur).pc + 1
          ∧ (taskOf t s.cur).flags = (taskOf s s.cur).flags ||| (barwaitChk f u u.cur).flag
          ∧ (taskOf t s.cur).x = (taskOf s s.cur).x)

/-! ## Engine streams and their records (spec 07; spec 05, R149-R170) -/

/-- R210, R217, R218: `estart` starts its engine's stream at record B with the task's x, k0-k15, SEED and context as they stand (a register that an
asynchronous load is to write: a free value, log 4); `ewait` answers the stream's status word, or the ring's, and clears its sticky bits; a stream
that halted traps instead, ILL 8 with the record, reason and engine, before its ticks are waited for (R30), or SEMOVF. -/
def Says.EngineWords : Prop :=
  (∀ (f : FmtA) (s : State) (c n : Nat), s.cur = .slot c n → issues (.estart f) (planEstart f s s.cur) s = true →
      let u := acting (planEstart f s s.cur) s
      let e := engArg f u u.cur
      let t0 := taskOf s s.cur
      ∃ t, exec (.estart f) s = .next t
        ∧ (let x := theStream t c e
           x.state = .running ∧ x.ridx = (opB f u).toNat ∧ (∀ i, i ∉ pendingX t0 → tget 0 x.xshadow i = tget 0 t0.x i)
            ∧ (∀ k < 16, tget noTok x.kshadow k = kClean s (tget noTok t0.k k)) ∧ x.lfsr = t0.fmode.extractLsb' 32 32
            ∧ x.slot = n ∧ x.run = t0.run ∧ x.ctx = t0.ctx ∧ x.launch = t0.launch ∧ x.sticky = 0 ∧ x.prog = [])
        ∧ (∀ g, g ≠ e → theStream t c g = theStream s c g) ∧ (coreOf t c).mem = (coreOf s c).mem
        ∧ (taskOf t s.cur).pc = t0.pc + 1 ∧ (taskOf t s.cur).x = t0.x ∧ e ∈ (taskOf t s.cur).started)
    ∧ (∀ (f : FmtA) (s : State) (c n : Nat), s.cur = .slot c n → issues (.ewait f) (planEwait f s s.cur) s = true →
      let u := acting (planEwait f s s.cur) s
      let e := engArg f u u.cur
      let x := theStream s c e
      (x.state ≠ .engill → x.state ≠ .semovf →
        ((opB f u).toNat ≠ 1 → ∃ t, exec (.ewait f) s = .next t ∧ theStream t c e = { x with sticky := 0 }
            ∧ (∃ g ∈ (taskOf t s.cur).flights, g.dest = destOf f.d ∧ g.stair = true ∧ g.val = .word (statusWord x)
                ∧ g.flags = x.sticky.setWidth 8 &&& 7)
            ∧ (taskOf t s.cur).pc = (taskOf s s.cur).pc + 1 ∧ (coreOf t c).tiles = (coreOf s c).tiles)
        ∧ ((opB f u).toNat = 1 → ∃ t, exec (.ewait f) s = .next t ∧ (coreOf t c).ring = 0 ∧ (coreOf t c).failt = 0
            ∧ (∃ g ∈ (taskOf t s.cur).flights, g.dest = destOf f.d ∧ g.stair = true ∧ g.val = .word (ringStatus (coreOf s c)))
            ∧ (taskOf t s.cur).pc = (taskOf s s.cur).pc + 1 ∧ (coreOf t c).tiles = (coreOf s c).tiles))
      ∧ (x.state = .engill → ∃ k, exec (.ewait f) s = .next (trapHere (mapStream { s with freeNo := k } c e
            fun x => { x with state := .ended, reported := true }) s.cur ((encodeWord (.ewait f)).getD 0)
          { mkTrap cILL 8 with aux0 := BitVec.ofNat 64 x.ridx, aux1 := BitVec.ofNat 64 x.ereason, aux2 := BitVec.ofNat 64 (engNo e) }))
      ∧ (x.state = .semovf → ∃ k, exec (.ewait f) s = .next (trapHere (mapStream { popTicks s s.cur f.tk with freeNo := k } c e
            fun x => { x with state := .ended, reported := true }) s.cur ((encodeWord (.ewait f)).getD 0)
          (semovf x.sid ⟨BitVec.ofNat 8 x.sceil, BitVec.ofNat 8 x.sval⟩ 0 x.ridx))))

/-- R155, R156, R214, R232: a stream's next record starts when its pops, its P and its resources are there: its ticks and unit are taken,
it is in progress, and the next index follows. An illegal record halts the stream, with its reason, once those before it are done. A
record whose writes are performed finishes: it leaves, pushing its ticks. No earlier engine comes before it with a P on the same semaphore
(R158). -/
def Obligations.RecordsStartAndFinish : Prop :=
  (∀ (s : State) (c : Nat) (e : Engine) (k : RKind),
      let x := theStream s c e
      let im := streamImage s x
      let bits := recBits s im e x.ridx
      let r := recOf bits
      (∀ g ∈ earlier e, nextP s c e = none ∨ nextP s c g ≠ nextP s c e) →
      (e = .matrix → (coreOf s c).copyS.chained = []) → x.state = .running → hasRoom (coreOf s c) e = true →
      (coreOf s c).stopped = false → x.cutHalt = false → x.ridx < recCount im e → recReason e bits = none → recKind bits = some k →
      (r.chain = true → chainBad s im x.ridx = false) → x.cut = false → popsOk (coreOf s c) (engCode e) r = true →
      semOk (coreOf s c) r.semp = true → resources (coreOf s c) x (recCount im e) x.ridx k r = .go →
      (leaveCharge k = none ∨ x.leaveGot = true) →
      ∃ t p, exec (.recordStart c e) s = .next t ∧ (theStream t c e).prog = x.prog ++ [p] ∧ p.idx = x.ridx ∧ p.bits = bits
        ∧ p.done = false
        ∧ (theStream t c e).ridx = (if k = .jrec ∨ k = .endstr then x.ridx else x.ridx + (if r.chain then 2 else 1))
        ∧ (∀ q, 1 ≤ q → q ≤ 4 → ticksOf (coreOf t c) q (engCode e) = ticksOf (coreOf s c) q (engCode e) - popsFrom r q)
        ∧ (semHas r.semp = true → (coreSem (coreOf t c) (semId r.semp)).value = (coreSem (coreOf s c) (semId r.semp)).value - 1)
        ∧ (coreOf t c).mem = (coreOf s c).mem ∧ ∀ p, (taskOf t p).x = (taskOf s p).x)
    ∧ (∀ (s : State) (c : Nat) (e : Engine) (q : Nat),
      let x := theStream s c e
      let im := streamImage s x
      (∀ g ∈ earlier e, nextP s c e = none ∨ nextP s c g ≠ nextP s c e) →
      (e = .matrix → (coreOf s c).copyS.chained = []) → x.state = .running → hasRoom (coreOf s c) e = true → x.prog = [] →
      (coreOf s c).stopped = false → x.cutHalt = false → x.ridx < recCount im e → recReason e (recBits s im e x.ridx) = some q → q < 11 →
      exec (.recordStart c e) s
        = .next (mapStream s c e fun x => { x with state := .engill, ereason := q, reported := false }))
    ∧ (∀ (s : State) (c n q : Nat) (e : Engine) (p : Prog) (rest : List Prog),
      (theStream s c e).prog = p :: rest → p.done = true → p.waits = [] → (recOf p.bits).chain = false →
      (e = .matrix → (coreOf s c).copyS.active = [] ∧ q ≠ 4) → (theStream s c e).held = none → (coreOf s c).stopped = false →
      hasBar (recOf p.bits) = false → semHas (recOf p.bits).semv = false → pushesOf (recOf p.bits) = [(q, n)] →
      q < 4 → ticksOf (coreOf s c) (engCode e) q + n ≤ 32 →
      ∃ t, exec (.recordFinish c e) s = .next t ∧ (theStream t c e).prog = rest
        ∧ ticksOf (coreOf t c) (engCode e) q = ticksOf (coreOf s c) (engCode e) q + n
        ∧ (∀ m, (slotOf t m).inflt = (slotOf s m).inflt - (p.slots.filter (· = m)).length) ∧ ∀ pl, rdByte t pl = rdByte s pl)

/-- R224, R230, R231, R169, R170: `endstr` ends its stream; `jrec` sends it back N0 + 1 times in all, or for ever; CHAINED_MMA_HANDOFF
hands the `mma` after a finished chaining record to the array, once; a power grant goes to the oldest request of its cluster when the
budget allows, its wait is counted (R171), and it is credited back when its work is over. -/
def Says.StreamControl : Prop :=
  let running := fun (s : State) (u : Run) (i : Instr) => currentRun s = some u ∧ u.chained = false ∧ decodeRecord u.prog.bits = .ok i
    ∧ u.prog.waits = [] ∧ behindWrites s u = false ∧ (theStream s u.core u.own).state = .running
  (∀ (s : State) (u : Run), running s u (.endstr (runRec u)) →
      ∃ t, exec (.endstr (runRec u)) s = .next t ∧ (theStream t u.core u.own).state = .ended
        ∧ (theStream t u.core u.own).ridx = u.prog.idx
        ∧ (u.own = .matrix → filling (coreOf s u.core) = true →
            (tileOf (coreOf t u.core) (coreOf s u.core).head).state = .full ∧ (coreOf t u.core).head = ((coreOf s u.core).head + 1) % 4)
        ∧ ∀ pl, rdByte t pl = rdByte s pl)
    ∧ (∀ (s : State) (u : Run), running s u (.jrec (runRec u)) →
      let r := runRec u
      let x := theStream s u.core u.own
      let n := tget 0 x.passes u.prog.idx
      0 ≤ (u.prog.idx : Int) + r.opd0.base.toInt →
      ∃ t, exec (.jrec r) s = .next t
        ∧ ((r.xf.getLsbD 0 = true ∨ n + 1 < r.n0.toNat + 1) →
            ((theStream t u.core u.own).ridx : Int) = u.prog.idx + r.opd0.base.toInt)
        ∧ (r.xf.getLsbD 0 = false → r.n0.toNat ≤ n → (theStream t u.core u.own).ridx = u.prog.idx + 1)
        ∧ (r.xf.getLsbD 0 = false → tget 0 (theStream t u.core u.own).passes u.prog.idx = if n < r.n0.toNat then n + 1 else 0)
        ∧ (∀ i, i ≠ u.prog.idx → tget 0 (theStream t u.core u.own).passes i = tget 0 x.passes i) ∧ ∀ pl, rdByte t pl = rdByte s pl)
    ∧ (∀ (s : State) (c : Nat) (p : Prog) (rest : List Prog),
      let x := theStream s c .copy
      x.prog = p :: rest → (recOf p.bits).chain = true → p.done = true → p.waits = [] → p.handed = false →
      ∃ t q, exec (.chainedMmaHandoff c) s = .next t ∧ (theStream t c .copy).prog = { p with handed := true } :: rest
        ∧ (theStream t c .copy).chained = x.chained ++ [q] ∧ q.idx = p.idx + 1
        ∧ q.bits = recBits s (streamImage s x) .copy (p.idx + 1) ∧ t.tasks = s.tasks ∧ t.near = s.near)
    ∧ (∀ (s : State) (k w asked : Nat) (p : Party) (rest : List (Nat × Party × Nat × Nat)),
      s.leaveQ = (k, p, w, asked) :: rest → leaveWanted s p = true →
      ∃ t, exec (.leaveGrant k) s = .next t
        ∧ (leaveUsed s k + w ≤ budgetOf s k → t.leaveQ = rest ∧ t.leaveHeld = s.leaveHeld ++ [⟨k, p, w, false⟩] ∧ leaveWanted t p = false
            ∧ ∀ c i, leaveIndex p = some (c, i) →
                tget 0 (coreOf t c).leaveWait i = tget 0 (coreOf s c).leaveWait i + BitVec.ofNat 64 (s.clock - asked))
        ∧ (budgetOf s k < leaveUsed s k + w → t = s))
    ∧ (∀ (s : State) (k i : Nat) (h : Leave), s.leaveHeld[i]? = some h → h.cluster = k →
      (h.spent = true → ∃ t, exec (.leaveEnd k i) s = .next t ∧ t.leaveHeld = dropAt s.leaveHeld i ∧ t.cores = s.cores)
        ∧ (h.spent = false → exec (.leaveEnd k i) s = .next s))

/-- R213, R214, R220, R221: `copy` moves units of 4 * 2^MODE bytes from OPD1 to OPD0, one per issue, `fill` writes a captured register
there, and `copypl` and `copyrm` move blocks of 128 elements into planes and back: each issue writes at its own address what its source
held before, and no other byte changes; a failed source reads as +0, and through a failed destination nothing is written. The record then
stands at its next issue, or has acted. That one issue is one visit of the engine is log 23, and the readings of its words log 41. -/
def Says.CopyRecords : Prop :=
  let clean := fun (f : Rec → List (Byte × Bool) → List (Byte × Bool)) (r : Rec) (d : List Byte) =>
    (f r (d.map fun b => (b, false))).map (·.1)
  let row := fun (i : Rec → Instr) (size : Rec → Nat) (change : Rec → List Byte → List Byte) => ∀ (s : State) (u : Run),
    let r := runRec u
    let n := size r
    standsAt s u (i r) → (failed u 1 = false → readsIssue s u r.opd1 n = true) →
    let data := change r (if failed u 1 then List.replicate n 0 else (issuePlaces s u r.opd1 n).map (rdByte s))
    (failed u 0 = false → opensIssue s u r.opd0 n = true →
      ∃ t, exec (i r) s = .next t ∧ acted s t u (trips r) id ∧ SameBytes s t (issuePlaces s u r.opd0 n)
        ∧ (issuePlaces s u r.opd0 n).map (rdByte t) = data)
      ∧ (failed u 0 = true → ∃ t, exec (i r) s = .next t ∧ acted s t u (trips r) id ∧ SameBytes s t [])
  row .copy unitBytes (fun _ d => d) ∧ row .copypl blockBytes (clean (convBlock planesOf)) ∧ row .copyrm blockBytes (clean (convBlock elemsOf))
    ∧ (∀ (s : State) (u : Run),
      let r := runRec u
      let n := unitBytes r
      standsAt s u (.fill r) →
      (failed u 0 = false → opensIssue s u r.opd0 n = true →
        ∃ t, exec (.fill r) s = .next t ∧ acted s t u (trips r) id ∧ SameBytes s t (issuePlaces s u r.opd0 n)
          ∧ ∀ j < n, rdByte t (kPlace s (runTok s u r.opd0) (opdAddr r r.opd0 u.prog.issue + (j : Nat)).toNat)
            = BitVec.ofNat 8 ((tget 0 (runStream s u).xshadow (r.xf.extractLsb' 0 5).toNat).toNat / 2 ^ (8 * (j % min n 8))))
        ∧ (failed u 0 = true → ∃ t, exec (.fill r) s = .next t ∧ acted s t u (trips r) id ∧ SameBytes s t []))

/-- R222, R339: an issue of `decomp` in mode 0 puts a block of sealed bytes, from where the issue before it ended, into a weight buffer; a
byte outside every seal reads as zero there, and the stream's NSEAL bit says so. No byte of memory changes. -/
def Says.DecompressRecords : Prop :=
  ∀ (s : State) (u : Run),
    let r := runRec u
    let k := runTok s u r.opd1
    let n := blockBytes r
    let o := opdAddr r r.opd0 u.prog.issue
    let from_ := r.opd1.base.toNat + u.prog.src
    let place := fun j : Nat => kPlace s k (from_ + j)
    let buf := fun (m : State) (b : Nat) (a : Nat) => mget (wbOf (coreOf m u.core) b) a
    standsAt s u (.decomp r) → r.mode = 0 → failed u 1 = false → 0 ≤ o → o + n ≤ 65536 →
    (∀ j < n, within k (from_ + j : Nat) 0 = true ∧ ((place j).space = .peer ∨ cleanPlace s (place j) = true)) →
    let b := (r.xf.getLsbD 0).toNat
    ∃ t, exec (.decomp r) s = .next t ∧ acted s t u (trips r) (fun p => { p with src := p.src + n })
      ∧ (∀ j < n, buf t b (o.toNat + j) = if sealedPlace s (place j) then rdByte s (place j) else 0)
      ∧ (∀ a, (a < o.toNat ∨ o.toNat + n ≤ a) → buf t b a = buf s b a) ∧ (∀ a, buf t (1 - b) a = buf s (1 - b) a)
      ∧ ((theStream t u.core u.own).sticky.getLsbD 4 = true ↔
          (theStream s u.core u.own).sticky.getLsbD 4 = true ∨ ∃ j < n, sealedPlace s (place j) = false)
      ∧ ∀ pl, rdByte t pl = rdByte s pl

/-- R98, R99, R151, R225, R227: an issue of `mma` reads its blocks; with the last one each element of the head tile gains its row of A
times its column of B: for integers the exact sum, wrapped or saturated; for floats chunk by chunk in binary64. One that has met poison
leaves the tile to MMA_REPLAY, which performs the window again from the tile as it was, or fails it. `tcfg` sets a tile to +0 of its type,
once it is not being drained. That one issue is one visit, and the last issue acts on the tile, are log 23; log 41 lists other readings. -/
def Says.MatrixRecords : Prop :=
  let others := fun (s t : State) (c h : Nat) => (∀ n, n ≠ h → tileOf (coreOf t c) n = tileOf (coreOf s c) n)
    ∧ ∀ pl, rdByte t pl = rdByte s pl
  (∀ (s : State) (u : Run),
      let r := runRec u
      let h := (coreOf s u.core).head
      let x := runStream s u
      let w : WinRec := ⟨u.own, u.prog.idx, u.prog.bits, runTok s u r.opd1, failed u 1, baseA x r, baseB x r⟩
      let y := feedIssue u.core w true ⟨s, u.prog.fed, 0, u.prog.ate⟩ u.prog.issue
      let steps := (stepsOf w y.blocks).1
      let last := trips r ≤ u.prog.issue + 1
      standsAt s u (.mma r) → (coreOf s u.core).ate = [] →
      (¬last → ∃ t, exec (.mma r) s = .next t ∧ acted s t u (trips r) (fun p => { p with fed := y.blocks, ate := y.ate.eraseDups })
          ∧ (coreOf t u.core).tiles = (coreOf s u.core).tiles ∧ ∀ pl, rdByte t pl = rdByte s pl)
        ∧ (last → y.ate = [] → ∃ t, exec (.mma r) s = .next t ∧ acted s t u (trips r) (fun p => { p with fed := [], ate := [] })
          ∧ others s t u.core h ∧ (tileOf (coreOf t u.core) h).state = (tileOf (coreOf s u.core) h).state
          ∧ ∀ n < 16384, acc (tileOf (coreOf t u.core) h) n
              = (if tyInt r.ty ∧ r.sat = false then
                  BitVec.ofInt 64 ((acc (tileOf (coreOf s u.core) h) n).toInt
                    + (steps.map fun k => (k.1.getD (n / 128) (.int 0)).toInt * (k.2.getD (n % 128) (.int 0)).toInt).sum)
                else (accEl r (steps.map fun k => (k.1.getD (n / 128) (.int 0), k.2.getD (n % 128) (.int 0)))
                  (acc (tileOf (coreOf s u.core) h) n)).1))
        ∧ (last → y.ate ≠ [] → ∃ t, exec (.mma r) s = .next t ∧ (coreOf t u.core).ate = y.ate.eraseDups
            ∧ (coreOf t u.core).tiles = (coreOf s u.core).tiles ∧ ∀ pl, rdByte t pl = rdByte s pl))
    ∧ (∀ (s : State) (c : Nat) (u : Run), currentRun { s with cur := .engine c .matrix } = some u → (coreOf s c).ate ≠ [] →
      (replayable (coreOf s c) = false → ∃ t, exec (.mmaReplay c) s = .next t
          ∧ (filling (coreOf s c) = true → (tileOf (coreOf t c) (coreOf s c).head).state = .full
              ∧ ((coreOf s c).head < 4 → (coreOf t c).failt.getLsbD (coreOf s c).head = true)))
        ∧ (replayable (coreOf s c) = true → (replayAll s c).2.2.2 = [] → ∃ t, exec (.mmaReplay c) s = .next t ∧ (coreOf t c).ate = []
            ∧ (coreOf t c).ring &&& rREPLAY = rREPLAY ∧ (tileOf (coreOf t c) (coreOf s c).head).elems = (replayAll s c).2.1.elems
            ∧ (tileOf (coreOf t c) (coreOf s c).head).state = .filling ∧ others s t c (coreOf s c).head))
    ∧ (∀ (s : State) (u : Run),
      let r := runRec u
      let n := (r.xf.extractLsb' 0 5).toNat % 4
      let st := (tileOf (coreOf s u.core) n).state
      standsAt s u (.tcfg r) →
      (st = .draining → exec (.tcfg r) s = .next s)
        ∧ (st ≠ .draining → ∃ t, exec (.tcfg r) s = .next t ∧ acted s t u 1 id ∧ others s t u.core n
          ∧ (∀ i, acc (tileOf (coreOf t u.core) n) i = 0) ∧ (tileOf (coreOf t u.core) n).int = decide (r.ty = tyI64)
          ∧ (tileOf (coreOf t u.core) n).state = st
          ∧ (coreOf t u.core).ring = (coreOf s u.core).ring ||| (if st = .filling ∨ st = .full then rRECONF else 0)))

/-- R87, R228, R229: without bands, checks or stochastic rounding, an issue of `epi` drains a row of the tail tile to memory, each element rounded
once to the record's type; `epiv` drains elements of it, one register an issue, which its last issue writes to the task that started the stream,
tagged with the type, or which are lost with the LOSTV bit when that task is gone. A drained tile is FREE and the tail advances; of a failed tile
nothing is written. That one issue is one visit is log 23, the readings of the words log 41. -/
def Says.DrainRecords : Prop :=
  let ones := [0x3F80, 0x3F80, 0x3F80, 0x3F80]
  let one := flDecode tyBf16 0x3F80
  let el := fun (r : Rec) (s : State) (c n : Nat) => (drainEl r one one 0 (acc (tileOf (coreOf s c) (coreOf s c).tail) n)).1
  let plain := fun (s : State) (u : Run) (i : Instr) => standsAt s u i ∧ hasBand (runRec u) = false ∧ (runRec u).cks = false
    ∧ (runRec u).mode ≠ 5 ∧ (u.prog.issue = 0 ∨ u.prog.band = ones)
  let sound := fun (s : State) (u : Run) => tileFailed (coreOf s u.core) (coreOf s u.core).tail = false
  let last := fun (u : Run) => trips (runRec u) ≤ u.prog.issue + 1
  let drained := fun (s t : State) (c : Nat) => (tileOf (coreOf t c) (coreOf s c).tail).state = .free
    ∧ (coreOf t c).tail = ((coreOf s c).tail + 1) % 4
  let stays := fun (s t : State) (c : Nat) => tileOf (coreOf t c) (coreOf s c).tail = tileOf (coreOf s c) (coreOf s c).tail
    ∧ (coreOf t c).tail = (coreOf s c).tail
  (∀ (s : State) (u : Run),
      let r := runRec u
      let size := tyWidth r.ty / 8
      plain s u (.epi r) → sound s u → failed u 0 = false → opensIssue s u r.opd0 (128 * size) = true →
      ∃ t, exec (.epi r) s = .next t ∧ acted s t u (trips r) (fun p => { p with band := ones })
        ∧ (last u → drained s t u.core) ∧ (¬last u → stays s t u.core)
        ∧ SameBytes s t (issuePlaces s u r.opd0 (128 * size))
        ∧ ∀ e < 128, ∀ j < size,
            rdByte t (kPlace s (runTok s u r.opd0) (opdAddr r r.opd0 u.prog.issue + (e * size + j : Nat)).toNat)
              = BitVec.ofNat 8 (el r s u.core (128 * u.prog.issue + e) / 2 ^ (8 * j)))
    ∧ (∀ (s : State) (u : Run) (i : Instr), (i = .epi (runRec u) ∨ i = .epiv (runRec u)) → plain s u i → ¬sound s u →
      ∃ t, exec i s = .next t ∧ drained s t u.core ∧ SameBytes s t [] ∧ (∀ p, (taskOf t p).v = (taskOf s p).v)
        ∧ runList t u = mapFirst (fun p => { p with
            issue := p.issue + 1, asked := false, waits := [], peer := [], band := ones, done := true }) (runList s u))
    ∧ (∀ (s : State) (u : Run),
      let r := runRec u
      let p := Party.slot u.core (runStream s u).slot
      let reg := fun (t : State) (i : Nat) => tget freshV (taskOf t p).v (vbase r + i)
      plain s u (.epiv r) → sound s u → u.prog.regs.length = u.prog.issue →
      (¬last u → ∃ t, exec (.epiv r) s = .next t ∧ stays s t u.core ∧ (∀ q, taskOf t q = taskOf s q) ∧ (∀ pl, rdByte t pl = rdByte s pl)
        ∧ ∃ v : Nat, acted s t u (trips r) (fun p => { p with band := ones, regs := p.regs ++ [v] })
          ∧ ∀ e < elems r.ty, bits v (tyWidth r.ty * e) (tyWidth r.ty)
              = el r s u.core (r.opd0.base.toNat + elems r.ty * u.prog.issue + e) % 2 ^ tyWidth r.ty)
        ∧ (last u → (taskOf s p).status ≠ .idle → (taskOf s p).run = (runStream s u).run →
        ∃ t, exec (.epiv r) s = .next t ∧ acted s t u (trips r) (fun p => { p with band := ones })
          ∧ (if r.xf.getLsbD 8 then drained s t u.core else (tileOf (coreOf t u.core) (coreOf s u.core).tail).state = .full)
          ∧ (∀ i < u.prog.issue, reg t i = ⟨BitVec.ofNat 4096 (u.prog.regs.getD i 0), r.ty⟩)
          ∧ (reg t u.prog.issue).tag = r.ty
          ∧ (∀ e < elems r.ty, bits (reg t u.prog.issue).data.toNat (tyWidth r.ty * e) (tyWidth r.ty)
              = el r s u.core (r.opd0.base.toNat + elems r.ty * u.prog.issue + e) % 2 ^ tyWidth r.ty)
          ∧ (∀ n, (n < vbase r ∨ vbase r + u.prog.issue < n) → tget freshV (taskOf t p).v n = tget freshV (taskOf s p).v n)
          ∧ (taskOf t p).x = (taskOf s p).x ∧ ∀ pl, rdByte t pl = rdByte s pl)
        ∧ (last u → (taskOf s p).status = .idle ∨ (taskOf s p).run ≠ (runStream s u).run →
          ∃ t, exec (.epiv r) s = .next t ∧ acted s t u (trips r) (fun p => { p with band := ones })
            ∧ (theStream t u.core u.own).sticky.getLsbD 3 = true ∧ (∀ q, taskOf t q = taskOf s q) ∧ ∀ pl, rdByte t pl = rdByte s pl))

/-! ## Clusters (spec 11) -/

/-- R259, R271-R274: `mcast` posts one multicast of its source to the cores of its stage, and a bad descriptor posts nothing but XB;
`qsend` posts an entry for a stage and adds a task to its point; `qtake` and `stage` answer the Usher's words for this task. -/
def Says.ClusterWords : Prop :=
  (∀ (f : FmtA) (s : State), issues (.mcast f) (planMcast f s s.cur) s = true →
      let u := acting (planMcast f s s.cur) s
      let k := rdTok u u.cur f.a
      let v := mcDesc f u u.cur
      let off := (opB f u).toNat
      let n := mcLen v
      (mcBad u u.cur v = true → Posts f.tk (emptyStore fXB (signalsOf s f.tk)) s (exec (.mcast f) s))
        ∧ (∀ d l, (taskOf s s.cur).launch = some (d, l) → mcBad u u.cur v = false → (mcAccess f u u.cur).flag = 0 →
            (∀ i < n, quietPlace u u.cur (kPlace u k (off + i)) = true) →
            let cores := (stageCores u d l (clusterOf (coreNo s.cur)) (bits v 28 3)).map (·.1)
            cores ≠ [] →
            Posts f.tk ⟨[], .mcast (bits v 32 32) (bits v 28 3) (512 * (bits v 20 8 + 1)) (bits v 0 20)
                ((List.range n).map fun i => rdByte u (kPlace u k (off + i))) cores, 0, signalsOf s f.tk, [kSlot k], [], false, 0, 0⟩
              s (exec (.mcast f) s)))
    ∧ (∀ (f : FmtA) (s : State), issues (.qsend f) (planQsend f s s.cur) s = true →
      let u := acting (planQsend f s s.cur) s
      let x := fun i : Nat => rdScal u u.cur (f.b + BitVec.ofNat 7 i)
      (stageOk u u.cur (opA f u) = false → Posts f.tk (emptyStore fXB (signalsOf s f.tk)) s (exec (.qsend f) s))
        ∧ (∀ d l, (taskOf s s.cur).launch = some (d, l) → stageOk u u.cur (opA f u) = true →
            let n : Entry := ⟨x 0, x 1, (List.range 8).map fun i => bits (x (2 + i / 2)).toNat (32 * (i % 2)) 32, (taskOf s s.cur).point,
              s.clock, 0, false⟩
            ∃ m, exec (.qsend f) s = .next (endCycle m s.cur)
              ∧ Began { s with dies := m.dies } m f.tk (fun t => { t with
                  qsent := true, stores := t.stores ++ [⟨[], .qsend (opA f u).toNat n (taskOf s s.cur).exchNo, 0, signalsOf s f.tk, [], [], false, t.sigNo, t.here⟩] })
              ∧ (launchOf m d l).flying = ((launchOf s d l).flying.map fun g =>
                  if g.point = (taskOf s s.cur).point then { g with live := g.live + 1 } else g)
              ∧ (launchOf m d l).queues = (launchOf s d l).queues ∧ (launchOf m d l).risers = (launchOf s d l).risers
              ∧ ∀ d' l', (d', l') ≠ (d, l) → launchOf m d' l' = launchOf s d' l'))
    ∧ ScalarWord .qtake illQtake 1 0 (fun f u =>
      let t := taskOf u u.cur
      let n := (opA f u).toNat
      let id := fun i : Nat => t.entry.ins.getD i 0
      (if n = 0 then t.entry.pay0 else if n = 1 then t.entry.pay1 else if n = 2 then BitVec.ofNat 64 t.stage
        else if n = 3 then BitVec.ofNat 64 (t.entry.ins.countP (· != 0))
        else if 4 ≤ n ∧ n ≤ 11 then BitVec.ofNat 64 (id (n - 4))
        else if 12 ≤ n ∧ n ≤ 19 then
          (match (coreOf u (coreNo u.cur)).residents.find? fun r => id (n - 12) != 0 && decide (r.1 = id (n - 12)) with
            | some r => BitVec.ofNat 64 r.2.1
            | none => BitVec.allOnes 64)
        else if n = 20 ∧ t.resumed = true then 1 else 0, 0))
    ∧ ScalarWord .stage illStage 4 0 (fun f u =>
      let st := (opA f u).toNat
      let c := clusterOf (coreNo u.cur)
      match (taskOf u u.cur).launch with
      | none => (0, 0)
      | some (d, l) =>
        let e := launchOf u d l
        if e.stages.length ≤ st then (0, 0)
        else (BitVec.ofNat 64 ((queueOf e (queueKey c st)).length + 65536 * (stageCores u d l c st).length
          + if (e.overflow.any fun o => decide (o.1 = queueKey c st)) then 2 ^ 32 else 0), 0))

/-- R263-R265: MCAST_PLACE writes the tile of the first multicast that can go on to its next core and enters it in that core's residency map, from
which the tiles it overwrites are gone, sealed bytes left as they are (R337; in a tile sealed in part, log 58); the store ends with its last core.
USHER_REBALANCE marks a core of the emptiest stage for the fullest when their queues differ by 128, and CORE_STAGE_MOVE moves it when its slots are
empty, its map cleared. -/
def Says.ClusterEvents : Prop :=
  (∀ (k : Nat) (s : State) (p : Party) (m : McStep),
      ((clusterSlots k).findSome? fun p => (mcastNext s p).map fun x => (p, x)) = some (p, m) →
      ∃ t, exec (.mcastPlace k) s = .next t
        ∧ (∀ i < m.data.length, let pl : Place := ⟨.hall, m.core * 2 ^ 20 + m.dest + i⟩
            rdByte t pl = if sealedPlace s pl then rdByte s pl else m.data.getD i 0)
        ∧ ((mcastPlaces m.core m.dest m.len).any (sealedPlace s) = false → SameBytes s t (mcastPlaces m.core m.dest m.data.length))
        ∧ (m.tile ≠ 0 → (m.tile, m.dest, m.data.length) ∈ (coreOf t m.core).residents)
        ∧ (∀ r ∈ (coreOf t m.core).residents, r ≠ (m.tile, m.dest, m.data.length) →
            r ∈ (coreOf s m.core).residents ∧ overlap r.2.1 r.2.2 m.dest m.data.length = false)
        ∧ (∀ c, c ≠ m.core → (coreOf t c).residents = (coreOf s c).residents)
        ∧ (m.rest = [] → (taskOf t p).stores = dropAt (taskOf s p).stores m.idx)
        ∧ (m.rest ≠ [] → ((taskOf t p).stores.map (·.act))
            = updAt (fun _ => .mcast m.tile m.stage m.len m.dest m.data m.rest) ((taskOf s p).stores.map (·.act)) m.idx))
    ∧ (∀ (k : Nat) (s : State), ((clusterSlots k).all fun p => (mcastNext s p).isNone) = true → exec (.mcastPlace k) s = .next s)
    ∧ (∀ (s : State) (d l c : Nat) (x : Core) (k : Nat) (rest : List (Nat × Core)) (first : Nat × Core),
      let e := launchOf s d l
      let cores := stageCores s d l k 1
      starting e = true → e.stages.length = 2 → coresBound s d l = first :: rest → clusterOf first.1 = k →
      ((coresBound s d l).all fun q => q.2.moving.isNone) = true → 2 ≤ cores.length → cores.find? (fun q => !lastHolder s e k 1 cores q.1) = some (c, x) →
      (occupancy e k 1 + 128 ≤ occupancy e k 0 → ∃ t, exec (.usherRebalance d l) s = .next t ∧ (coreOf t c).moving = some 0
          ∧ (coreOf t c).stage = (coreOf s c).stage ∧ (∀ q, q ≠ c → coreOf t q = coreOf s q) ∧ t.dies = s.dies ∧ t.tasks = s.tasks)
        ∧ (occupancy e k 0 < occupancy e k 1 + 128 → occupancy e k 1 < occupancy e k 0 + 128 → exec (.usherRebalance d l) s = .next s))
    ∧ (∀ (s : State) (c f : Nat), (coreOf s c).moving = some f →
      ((∀ n < 4, (taskOf s (.slot c n)).status = .idle) → ∃ t, exec (.coreStageMove c) s = .next t
          ∧ coreOf t c = { coreOf s c with residents := [], stage := some f, moving := none }
          ∧ (∀ q, q ≠ c → coreOf t q = coreOf s q) ∧ t.tasks = s.tasks ∧ t.dies = s.dies)
        ∧ ((∃ n < 4, (taskOf s (.slot c n)).status ≠ .idle) → exec (.coreStageMove c) s = .next s))

/-! ## The frontier (spec 12, R279-R285) and the start of tasks (spec 11, R260, R261, R269) -/

/-- R281, R282, R285, R261: a fired point is eligible, and its fold can be held beside those of the points in flight (log 60); it enters the launch's
in-flight set and the stage 0 queue of its cluster. RISER_RETURN takes back one spilled riser when the die has room; an entry that waited 65,536
clocks rises one class, once. -/
def Says.Firing : Prop :=
  (∀ (e : Launch) (ok : List Nat → Bool) (pt : List Nat), nextPoint e ok = some pt → ok pt = true ∧
      completed e pt = false ∧ isFlying e pt = false ∧ (∀ a < 4, pt.getD a 0 < extOf e a)
        ∧ ∀ q ∈ e.deps, insideSpace e (minusDep pt q) = true → completed e ((minusDep pt q).map Int.toNat) = true)
    ∧ (∀ (s : State) (d l c : Nat) (pt : List Nat), flyingOn s d < 4096 →
      ((fireOrder s d).findSome? fun l => (fireable s d l).map fun x => (l, x)) = some (l, pt, c) →
      queueRoom (launchOf s d l) (queueKey c 0) = true →
      canHold s d l ((foldedRisers (launchOf s d l) pt).length + reservedRisers (launchOf s d l)) = true ∧ ∃ t, exec (.stairwellFire d) s = .next t
        ∧ (launchOf t d l).flying = (launchOf s d l).flying ++ [⟨pt, 1, false, false, 0, 0⟩]
        ∧ queueOf (launchOf t d l) (queueKey c 0)
            = queueOf (launchOf s d l) (queueKey c 0) ++ [⟨0, 0, [], pt, s.clock, (launchOf s d l).prio, false⟩]
        ∧ (∀ k, k ≠ queueKey c 0 → queueOf (launchOf t d l) k = queueOf (launchOf s d l) k)
        ∧ (∀ d' l', (d', l') ≠ (d, l) → launchOf t d' l' = launchOf s d' l') ∧ t.tasks = s.tasks ∧ t.cores = s.cores ∧ t.near = s.near)
    ∧ (∀ (s : State) (d : Nat), 4096 ≤ flyingOn s d → exec (.stairwellFire d) s = .next s)
    ∧ (∀ (s : State) (d l : Nat),
      (0 < (launchOf s d l).spillN → heldRisers s d < 4096 → ∃ t, exec (.riserReturn d l) s = .next t
          ∧ launchOf t d l = { launchOf s d l with spillN := (launchOf s d l).spillN - 1 } ∧ t.tasks = s.tasks ∧ t.near = s.near)
        ∧ ((launchOf s d l).spillN = 0 ∨ 4096 ≤ heldRisers s d → exec (.riserReturn d l) s = .next s))
    ∧ (∀ (s : State) (d l i : Nat), ∃ t, exec (.entryClassRise d l i) s = .next t ∧ t.tasks = s.tasks ∧ t.near = s.near
      ∧ let rise := fun n : Entry => if n.risen = false ∧ n.arrived + 65536 ≤ s.clock ∧ n.cls < 7 then
            { n with cls := n.cls + 1, risen := true } else n
        let e := launchOf s d l
        let n := (e.queues.flatMap (·.2)).length
        ((launchOf t d l).queues.flatMap (·.2)) = (if i < n then updAt rise (e.queues.flatMap (·.2)) i else e.queues.flatMap (·.2))
          ∧ (launchOf t d l).overflow = if i < n then e.overflow else updAt (fun o => (o.1, o.2.1, rise o.2.2)) e.overflow (i - n))

/-- R266, R267: SPILL_ENTRY_RETURN brings the oldest spilled entry whose queue has room back from its 64 bytes, as it was sent;
OVERFLOW_TRANSLATION_DONE lets the waiting clusters go on once no page request of the launch's overflow area is open.
The area as a ring, and a place refused while another's reply is waited for, are log 24. -/
def Says.SpilledEntries : Prop :=
  (∀ (s : State) (d l i key place : Nat) (n : Entry) (pls : List Place),
      let e := launchOf s d l
      let u := overflowWalked s e 12 place
      returning e = some i → e.overflow[i]? = some (key, place, n) → overflowPlaces u e 12 place = .inl pls → pls.all (cleanPlace u) = true →
      pls.map (rdByte s) = entryBytes n → n.ins.length = 8 → (∀ i ∈ n.ins, i < 2 ^ 32) → n.point.length = 4 → (∀ a ∈ n.point, a < 2 ^ 20) →
      ∃ t, exec (.spillEntryReturn d l) s = .next t ∧ queueOf (launchOf t d l) key = queueOf e key ++ [n]
        ∧ (launchOf t d l).overflow = dropAt e.overflow i ∧ (launchOf t d l).flying = e.flying
        ∧ t.tasks = s.tasks ∧ t.near = s.near ∧ t.far = s.far ∧ t.cores = s.cores)
    ∧ (∀ (s : State) (d l : Nat), returning (launchOf s d l) = none → exec (.spillEntryReturn d l) s = .next s)
    ∧ ∀ (s : State) (d l : Nat),
      ((∀ g ∈ s.groups, g.2.party = .super d → g.2.die = d → g.2.launch ≠ l) → ∃ t, exec (.overflowTranslationDone d l) s = .next t
          ∧ launchOf t d l = { launchOf s d l with ovfWait := [] } ∧ (∀ d' l', (d', l') ≠ (d, l) → launchOf t d' l' = launchOf s d' l')
          ∧ t.tasks = s.tasks)
        ∧ ((∃ g ∈ s.groups, g.2.party = .super d ∧ g.2.die = d ∧ g.2.launch = l) → exec (.overflowTranslationDone d l) s = .next s)

/-- R51, R257, R260, R269, R277: USHER_TASK_START takes the best startable entry of a cluster from its queue and starts its task in a fresh
window, with the launch's tokens in k0-k7; CONTINUATION_RESUME takes the best resumable record, and its task goes on at the record's
word with the live registers of the record and no others. That free slots are taken lowest first is log 37. -/
def Says.TasksStart : Prop :=
  (∀ (s : State) (k : Nat) (c : Cand) (ent : Entry), bestCand (entryCands s k) = some c → bestCand (contCands s k) = none →
      let e := launchOf s c.die c.launch
      (queueOf e c.key)[c.idx]? = some ent → e.argmode = 0 →
      ∃ t, exec (.usherTaskStart k) s = .next t
        ∧ queueOf (launchOf t c.die c.launch) c.key = dropAt (queueOf e c.key) c.idx
        ∧ (let w := taskOf t (.slot c.core c.slot)
           w.status = .run ∧ w.pc = ((e.stages[c.key % 8]?).map (·.word)).getD 0 ∧ w.ctx = e.ctx ∧ w.launch = some (c.die, c.launch)
            ∧ w.stage = c.key % 8 ∧ w.point = ent.point ∧ w.entry = ent ∧ w.resumed = false ∧ w.x = [] ∧ w.v = [] ∧ w.m = [] ∧ w.t = []
            ∧ w.w = [] ∧ w.flags = 0 ∧ w.fmode = 0x100000000 ∧ w.loops = [] ∧ w.flights = [] ∧ w.stores = []
            ∧ (∀ n < 8, tget noTok w.k n = kClean s (e.args.getD n noTok)) ∧ ∀ n, 8 ≤ n → tget noTok w.k n = noTok)
        ∧ (∀ g ∈ (launchOf t c.die c.launch).flying, g.point = ent.point → g.begun = true)
        ∧ (∀ q, partyKey q ≠ partyKey (.slot c.core c.slot) → taskOf t q = taskOf s q)
        ∧ t.cores = s.cores ∧ t.slots = s.slots ∧ t.near = s.near)
    ∧ (∀ (s : State) (k : Nat), bestCand (entryCands s k) = none → exec (.usherTaskStart k) s = .next s)
    ∧ (∀ (s : State) (k : Nat) (c : Cand) (r : Cont), bestCand (contCands s k) = some c → bestCand (entryCands s k) = none →
      let e := launchOf s c.die c.launch
      e.conts[c.idx]? = some r → r.spilled = false → r.streams = [] → (r.live.map (·.1)).Nodup → (∀ x ∈ r.live, x.1 < 128) →
      ∃ t, exec (.continuationResume k) s = .next t
        ∧ (launchOf t c.die c.launch).conts = dropAt e.conts c.idx
        ∧ (let w := taskOf t (.slot c.core c.slot)
           w.status = .run ∧ w.pc = r.pc ∧ w.fmode = r.fmode ∧ w.ctx = e.ctx ∧ w.launch = some (c.die, c.launch) ∧ w.stage = r.stage
            ∧ w.point = r.point ∧ w.entry.ins = r.ins ∧ w.resumed = true ∧ w.flags = (if r.xb then fXB else 0) ∧ w.t = [] ∧ w.w = [] ∧ w.refused = r.refused
            ∧ (∀ n < 32, ∀ v, (0x10 + n, Val.word v) ∈ r.live → tget 0 w.x n = v)
            ∧ (∀ n < 16, ∀ v, (0x40 + n, Val.vec v) ∈ r.live → tget freshV w.v n = v)
            ∧ (∀ n < 32, (∀ x ∈ r.live, x.1 ≠ 0x10 + n) → tget 0 w.x n = 0)
            ∧ (∀ n < 16, (∀ x ∈ r.live, x.1 ≠ 0x40 + n) → tget freshV w.v n = freshV))
        ∧ (∀ q, partyKey q ≠ partyKey (.slot c.core c.slot) → taskOf t q = taskOf s q)
        ∧ t.cores = s.cores ∧ t.slots = s.slots ∧ t.near = s.near)
    ∧ ∀ (s : State) (k : Nat), bestCand (contCands s k) = none → exec (.continuationResume k) s = .next s

/-! ## Launches (spec 12, R276-R307) -/

/-- R302, R303, R307, R309: on the Porter `launch` checks a record and enters it in the next slot with a new generation, answering the handle, and
traps with LAUNCH where a check fails, an image that has passed R45 kept as checked; under a false CP it answers all ones; where the die's 4,096
risers are held already the launch's first riser spills. `ptc` answers a point's index, `frstat` the launch's words. -/
def Says.LaunchWords : Prop :=
  (∀ (f : FmtA) (s : State), issues (.launch f) (planLaunch f s s.cur) s = true →
      let u := acting (planLaunch f s s.cur) s
      let d := dieNo s.cur
      let check := checkRecord u u.cur (rdTok u u.cur f.a) (opB f u).toNat (taskOf s s.cur).ctx
      let answer := fun (v : Word) (t : Task) => flying [mkFlight 1 true (destOf f.d) (.word v) 0 false (signalsOf s f.tk)]
        { t with peerBuf := [], peerAsk := [] }
      ((taskOf s s.cur).cp = false → Puts f.tk [mkFlight 1 true (destOf f.d) (.word (BitVec.allOnes 64)) 0 false (signalsOf s f.tk)] s
          (exec (.launch f) s))
        ∧ (∀ n l, (taskOf s s.cur).cp = true → check = .inr n → pickSlot u d = some l → heldRisers u d < 4096 → ∃ m,
            exec (.launch f) s = .next (endCycle m s.cur)
              ∧ (let g := (launchOf s d l).gen + 1
                 Began { s with images := m.images, dies := m.dies } m f.tk (answer (BitVec.ofNat 64 (d * 65536 + g.toNat * 256 + l)))
                  ∧ launchOf m d l = { n with gen := g, state := if n.held then .saved else .queued, seq := nextOrder s
                                              switched := (ctxOf s n.ctx).off.contains d })
              ∧ n.image ∈ m.images ∧ ∀ d' l', (d', l') ≠ (d, l) → launchOf m d' l' = launchOf s d' l')
        ∧ (∀ n l, (taskOf s s.cur).cp = true → check = .inr n → pickSlot u d = some l → 4096 ≤ heldRisers u d → ∃ m,
            exec (.launch f) s = .next (endCycle m s.cur)
              ∧ launchOf m d l = { n with
                  gen := (launchOf s d l).gen + 1, state := if n.held then .saved else .queued, seq := nextOrder s
                  switched := (ctxOf s n.ctx).off.contains d, spillN := 1, everSpilled := true }
              ∧ ∀ d' l', (d', l') ≠ (d, l) → launchOf m d' l' = launchOf s d' l')
        ∧ (∀ n im, (taskOf s s.cur).cp = true → check = .inl (n, im) → ∃ k, exec (.launch f) s
            = .next (trapHere (dropPeer s.cur (match im with
              | some im => keepImage { popTicks s s.cur f.tk with freeNo := k } im
              | none => { popTicks s s.cur f.tk with freeNo := k })) s.cur ((encodeWord (.launch f)).getD 0) (mkTrap cLAUNCH n))))
    ∧ ScalarWord .ptc illPtc 3 0 (fun f u =>
      let t := taskOf u u.cur
      match t.launch with
      | none => (BitVec.allOnes 64, 0)
      | some (d, l) =>
        let e := launchOf u d l
        let n := (opA f u).toNat
        let q : Nat → Int := fun a => (t.point.getD a 0 : Int) - (if n = 8 then 0 else (e.deps.getD n []).getD a 0)
        if (n = 8 ∨ n < e.deps.length) ∧ ∀ a < 4, 0 ≤ q a ∧ q a < extOf e a then
          (BitVec.ofNat 64 (((((q 0).toNat * extOf e 1 + (q 1).toNat) * extOf e 2 + (q 2).toNat) * extOf e 3 + (q 3).toNat) % 2 ^ 63), 0)
        else (BitVec.allOnes 64, 0))
    ∧ ∀ (f : FmtA) (s : State), issues (.frstat f) (planFrstat f s s.cur) s = true →
      let u := acting (planFrstat f s s.cur) s
      let at_ := if isPorter s.cur then handleLaunch u (opA f u) else (taskOf s s.cur).launch
      let val : Word := match at_, (opB f u).toNat with
        | some (d, l), 0 => stateWord (launchOf s d l)
        | some (d, l), 1 => bindWord d (launchOf s d l)
        | some (d, l), 2 => BitVec.ofNat 64 (launchOf s d l).completed
        | some (d, l), 3 => BitVec.ofNat 64 (launchOf s d l).failedN
        | _, _ => 0
      Puts f.tk [scalarOut 4 f s (if scalLane u f.p then val else 0, 0)] s (exec (.frstat f) s)

/-- R286-R289, R295, R296, R331, R340: LAUNCH_BIND gives a waiting launch the cores of a free rectangle, cleared of another context's data, once no
slot of that context names them;
LAUNCH_END ends a launch DONE or FAILED, frees its cores, writes its completion record and adds 1 to its context's launch timeline; where the record
lies at a peer it asks for the WRITE, and the launch ends once that is answered (R353, R437). -/
def Says.LaunchesBindAndEnd : Prop :=
  (∀ (s : State) (d l x y xf : Nat) (cs : List Nat) (ps : List (Nat × Nat)),
      let e := launchOf s d l
      waitingLaunch e = true → xf ≤ 7 → bindCores s d e (fun _ => false) x y xf = some cs → positions e x y xf = some ps →
      ((dieOf s d).launches.any fun o => o.1 != l && waitingLaunch o.2 && boundFirst o.2 e && canBind s d o.2 fun _ => false) = false →
      slotsInWay s e.ctx cs = [] →
      ∃ t, exec (.launchBind d l x y xf) s = .next t
        ∧ (let n := launchOf t d l
           n.state = .running ∧ n.bound = true ∧ n.x0 = x ∧ n.y0 = y ∧ n.xform = xf ∧ n.gen = e.gen ∧ n.risers = e.risers
            ∧ n.flying = e.flying ∧ n.queues = e.queues)
        ∧ (∀ c ∈ cs, (coreOf t c).bound = some (d, l) ∧ (coreOf t c).residents = [] ∧ (coreOf t c).owner = e.ctx
            ∧ ((coreOf s c).owner ≠ e.ctx → (coreOf t c).mem = [] ∧ (coreOf t c).tags = [] ∧ (coreOf t c).wb0 = [] ∧ (coreOf t c).wb1 = []
                ∧ (coreOf t c).tiles = [])
            ∧ ((coreOf s c).owner = e.ctx → (coreOf t c).mem = (coreOf s c).mem))
        ∧ (∀ c, c ∉ cs → coreOf t c = coreOf s c) ∧ t.tasks = s.tasks ∧ t.near = s.near ∧ t.slots = s.slots)
    ∧ (∀ (s : State) (d l x y xf : Nat),
      (waitingLaunch (launchOf s d l) = false ∨ bindCores s d (launchOf s d l) (fun _ => false) x y xf = none) →
      exec (.launchBind d l x y xf) s = .next s)
    ∧ (∀ (s : State) (d l st : Nat) (ids : List Nat), endStatus s d l = some st →
      let e := launchOf s d l
      (e.ending = some (st, ids) → ids ≠ [] → exec (.launchEnd d l) s = .next s)
        ∧ (e.ending = some (st, []) → ∃ t, exec (.launchEnd d l) s = .next t
            ∧ (launchOf t d l).state = (if st = 1 then .done else .failed) ∧ (launchOf t d l).ending = none)
        ∧ (e.ending = none → (access s e.doneTok 0 16 true).flag = 0 → kSpace e.doneTok = 3 → ∃ t ids, ids ≠ []
            ∧ exec (.launchEnd d l) s = .next t ∧ (launchOf t d l).ending = some (st, ids) ∧ (launchOf t d l).state = .running
            ∧ t.near = s.near ∧ t.far = s.far))
    ∧ (∀ (s : State) (d l st : Nat), endStatus s d l = some st →
      let e := launchOf s d l
      e.ending = none → (kSpace e.doneTok ≠ 3 ∨ (access s e.doneTok 0 16 true).flag ≠ 0) →
      let rec_ := (List.range 16).map fun i => kPlace s e.doneTok i
      let line := (List.range 8).map fun j => (⟨.near, (ctxOf s e.ctx).params.timeline + j⟩ : Place)
      ∃ t, exec (.launchEnd d l) s = .next t
        ∧ (launchOf t d l).state = (if st = 1 then .done else .failed) ∧ (launchOf t d l).bound = false ∧ (launchOf t d l).flying = e.flying
        ∧ (∀ c, (coreOf s c).bound = some (d, l) → (coreOf t c).bound = none ∧ (coreOf t c).ticks = [] ∧ (coreOf t c).stage = none)
        ∧ ((access s e.doneTok 0 16 true).flag = 0 → rec_.all (openPlace s) = true → rec_.Nodup →
            (∀ pl ∈ rec_, pl ∉ line) → line.all (openPlace s) = true →
            rec_.map (rdByte t) = doneBytes e st (ticksHeld s d l)
              ∧ ((ctxOf s e.ctx).live = true → leNat (line.map (rdByte t)) = (leNat (line.map (rdByte s)) + 1) % 2 ^ 64)))
    ∧ ∀ (s : State) (d l : Nat), endStatus s d l = none → exec (.launchEnd d l) s = .next s

/-- R289-R291: PREEMPT makes the next victim, of the lowest class below the waiting launch's, when the victims together would free a
rectangle; a task at its checkpoint word leaves as a resumable record in the launch's spill area; a restartable one past its budget is killed and its
point may fire again; a victim with nothing left to settle gives up its cores. -/
def Says.Preemption : Prop :=
  (∀ (s : State) (d l v : Nat),
      let e := launchOf s d l
      waitingLaunch e = true → canBind s d e (boundBelow s d e.prio fun v => v.state = .running) = true →
      canBind s d e (freeing s d e.prio) = false → nextVictim s d e.prio = some v →
      ∃ t, exec (.preempt d l) s = .next t ∧ (launchOf t d v).victimBy = some l ∧ t.near = s.near ∧ t.far = s.far)
    ∧ (∀ (s : State) (d l : Nat), waitingLaunch (launchOf s d l) = false ∨ canBind s d (launchOf s d l) (freeing s d (launchOf s d l).prio) = true
        ∨ canBind s d (launchOf s d l) (boundBelow s d (launchOf s d l).prio fun v => v.state = .running) = false →
      exec (.preempt d l) s = .next s)
    ∧ (∀ (s : State) (p : Party) (d l : Nat),
      let t0 := taskOf s p
      let c0 := contOf s p t0.pc 0 false true ((ckptOf s p t0.pc).getD [])
      let e := launchOf s d l
      isPorter p = false → checkpointDue s p = true → t0.flights = [] → accessesDone t0 = true → ownStreams s (coreNo p) t0.run = [] →
      t0.launch = some (d, l) → spillOk s e.cspill (spillPlace e (contUnits c0)) (64 * contUnits c0) true = true →
      ∃ t, exec (.taskCheckpoint p) s = .next t ∧ taskOf t p = Task.fresh
        ∧ ∃ c ∈ (launchOf t d l).conts, c.pc = t0.pc ∧ c.point = t0.point ∧ c.stage = t0.stage ∧ c.fmode = t0.fmode ∧ c.ready = true
            ∧ c.spilled = true ∧ c.ins = t0.entry.ins ∧ c.live = liveVals s p ((ckptOf s p t0.pc).getD []))
    ∧ (∀ (s : State) (p : Party), checkpointDue s p = false → exec (.taskCheckpoint p) s = .next s)
    ∧ (∀ (s : State) (c n d l b : Nat),
      let p := Party.slot c n
      let t0 := taskOf s p
      t0.status ≠ .idle → t0.fate = .checkpointWithin b → t0.launch = some (d, l) → checkpointDue s p = false →
      (b ≤ t0.ic → restartableTask s p = true → ∃ t, exec (.preemptBudgetExpiry p) s = .next t ∧ taskOf t p = Task.fresh
          ∧ (∀ g ∈ (launchOf t d l).flying, g.point ≠ t0.point)
          ∧ (launchOf t d l).flying = (launchOf s d l).flying.filter (fun g => g.point != t0.point) ∧ t.near = s.near ∧ t.far = s.far)
        ∧ (t0.ic < b ∨ restartableTask s p = false → exec (.preemptBudgetExpiry p) s = .next s))
    ∧ (∀ (s : State) (d l by_ : Nat),
      let e := launchOf s d l
      e.victimBy = some by_ → launchQuiet s d l = true → e.switched = false → e.conts = [] → (∀ q ∈ e.queues, q.2 = []) →
      ∃ t, exec (.victimSettled d l) s = .next t
        ∧ (launchOf t d l).state = (if by_ = 32 then .saved else .preempted) ∧ (launchOf t d l).victimBy = none
        ∧ (launchOf t d l).bound = false ∧ (launchOf t d l).risers = e.risers
        ∧ (∀ c, (coreOf s c).bound = some (d, l) → (coreOf t c).bound = none ∧ (coreOf t c).mem = (coreOf s c).mem)
        ∧ t.near = s.near ∧ t.tasks = s.tasks)
    ∧ ∀ (s : State) (d l : Nat), (launchOf s d l).victimBy = none ∨ launchQuiet s d l = false → exec (.victimSettled d l) s = .next s

/-- R293, R304-R306: `frsave` freezes the frontier of the launch its handle names and, when the launch is SAVED, writes its landing; `frload` puts a
landing in a SAVED launch, which is QUEUED again; a handle of no such launch traps with LAUNCH 6, an unreadable landing with 8, one that does not
match with 7. A landing at a peer is asked for by WRITEs, and the word ends once all are answered, or raises LAUNCH 8 where one failed. -/
def Says.Landings : Prop :=
  (∀ (f : FmtA) (s : State) (d l : Nat), (taskOf s s.cur).wait = .none → issues (.frsave f) (planFrsave f s s.cur) s = true →
      let u := acting (planFrsave f s s.cur) s
      handleIn u (opA f u) [.queued, .running, .preempted, .saved] = some (d, l) → (opC f u).toNat % 64 = 0 → isSuper s.cur = true
        ∧ ∃ t, exec (.frsave f) s = .next t ∧ frozenFrontier (launchOf t d l) = true
          ∧ ((launchOf s d l).state = .running → (launchOf t d l).victimBy = some 32)
          ∧ ((launchOf s d l).state ≠ .running → (launchOf t d l).state = .saved ∧ t.cores = (acting (planFrsave f s s.cur) s).cores
              ∧ (taskOf t s.cur).wait = .frsave (32 * d + l) (rdTok u u.cur f.b) (opC f u).toNat false
              ∧ (taskOf t s.cur).pc = (taskOf s s.cur).pc))
    ∧ (∀ (f : FmtA) (s : State) (n off : Nat) (k : KReg), (taskOf s s.cur).wait = .frsave n k off false → plainEnd (taskOf s s.cur) →
      let e := launchOf s (n / 32) (n % 32)
      let bs := landBytes e
      let pls := (List.range bs.length).map fun i => kPlace s k (off + i)
      (e.state ≠ .saved → exec (.frsave f) s = .next s)
        ∧ (e.state = .saved → (access s k off bs.length true).flag = 0 → kSpace k ≠ 3 → pls.all (openPlace s) = true → pls.Nodup →
            ∃ t, exec (.frsave f) s = .next t ∧ pls.map (rdByte t) = bs ∧ SameBytes s t pls
              ∧ (taskOf t s.cur).wait = .none ∧ (taskOf t s.cur).pc = (taskOf s s.cur).pc + 1
              ∧ (taskOf t s.cur).x = (taskOf s s.cur).x))
    ∧ (∀ (f : FmtA) (s : State) (n off : Nat) (k : KReg), (taskOf s s.cur).wait = .frsave n k off true →
      ((taskOf s s.cur).peerAsk ≠ [] → exec (.frsave f) s = .next s)
        ∧ ((taskOf s s.cur).peerAsk = [] → (taskOf s s.cur).peerFlags = 0 → plainEnd (taskOf s s.cur) → ∃ t, exec (.frsave f) s = .next t
            ∧ (taskOf t s.cur).wait = .none ∧ (taskOf t s.cur).pc = (taskOf s s.cur).pc + 1 ∧ t.near = s.near)
        ∧ ((taskOf s s.cur).peerAsk = [] → (taskOf s s.cur).peerFlags ≠ 0 → exec (.frsave f) s
            = .next (trapHere (mapTask (dropPeer s.cur s) s.cur fun t => { t with wait := .none }) s.cur ((encodeWord (.frsave f)).getD 0)
                (mkTrap cLAUNCH 8))))
    ∧ ∀ (f : FmtA) (s : State), issues (.frload f) (planFrload f s s.cur) s = true →
      let u := acting (planFrload f s s.cur) s
      let k := rdTok u u.cur f.b
      let off := (opC f u).toNat
      let word := fun o n => leNat (rdExtent u k (off + o) n)
      isSuper s.cur = true
        ∧ (let traps := fun n : Nat => ∃ k, exec (.frload f) s
              = .next (trapHere (dropPeer s.cur { popTicks s s.cur f.tk with freeNo := k }) s.cur ((encodeWord (.frload f)).getD 0) (mkTrap cLAUNCH n))
           (handleIn u (opA f u) [.saved] = none → traps 6)
            ∧ ∀ d l n, handleIn u (opA f u) [.saved] = some (d, l) → landingOf u u.cur (launchOf u d l) k off = .inl n → traps n)
        ∧ ∀ d l, handleIn u (opA f u) [.saved] = some (d, l) → 0 < word 4 4 → word 8 4 = 0 →
            landingAccess u k off 64 = true → landingAccess u k off (64 + 32 * word 4 4) = true →
            (∀ i < 64 + 32 * word 4 4, cleanPlace u (kPlace u k (off + i)) = true) →
            landingBad (launchOf u d l) (rdExtent u k off (64 + 32 * word 4 4)) = false →
            ∃ t, exec (.frload f) s = .next t
              ∧ (let n := launchOf t d l
                 n.state = .queued ∧ n.completed = word 32 8 ∧ n.failedN = word 40 8 ∧ n.flying = [] ∧ n.conts = []
                  ∧ n.risers = (List.range (word 4 4)).map fun i =>
                      ⟨word (64 + 32 * i) 8, word (64 + 32 * i + 8) 8, word (64 + 32 * i + 16) 4⟩)
              ∧ (taskOf t s.cur).pc = (taskOf s s.cur).pc + 1 ∧ (taskOf t s.cur).x = (taskOf s s.cur).x

/-! ## The Porter (spec 12, R297-R312) -/

/-- R308-R312: `callb` enters another buffer and `retb` returns; `predm` sets CP by a condition on a word in memory; `loopc` repeats or
skips a block; `ffence` empties the fetch-ahead; `waitline` freezes its stream until the condition holds and answers the word. Under a
false CP `callb` has no effect. -/
def Says.PorterWords : Prop :=
  (∀ (f : FmtA) (s : State), issues (.callb f) (planCallb f s s.cur) s = true →
      let u := acting (planCallb f s s.cur) s
      let k := rdTok u u.cur f.a
      let b := (opB f u).toNat
      ((taskOf s s.cur).cp = false → Completes f.tk id s (exec (.callb f) s))
        ∧ ((taskOf s s.cur).cp = true → kCurrent u k = true → kR k = true → b % 8 = 0 →
            Completes f.tk (fun t => { t with stack := (t.buf, t.pc) :: t.stack, level := t.level + 1, buf := k, pc := b / 8
                                              fell := false, fetched := [] }) s (exec (.callb f) s))
        ∧ ((taskOf s s.cur).cp = true → kCurrent u k = true → kR k = true → b % 8 ≠ 0 →
            ∃ t, exec (.callb f) s = .next t ∧ (taskOf t s.cur).flags &&& fXB = fXB ∧ (taskOf t s.cur).stack = (taskOf s s.cur).stack
              ∧ (taskOf t s.cur).buf = (taskOf s s.cur).buf ∧ (taskOf t s.cur).pc = (taskOf s s.cur).pc + 1))
    ∧ (∀ (f : FmtA) (s : State) (k : KReg) (pc : Nat) (r : List (KReg × Nat)), issues (.retb f) (planRetb f s s.cur) s = true →
      (taskOf s s.cur).stack = (k, pc) :: r →
      (∃ t, exec (.retb f) s = .next t ∧ (taskOf t s.cur).stack = r ∧ (taskOf t s.cur).buf = k ∧ (taskOf t s.cur).pc = pc
          ∧ (taskOf t s.cur).level = (taskOf s s.cur).level - 1 ∧ (taskOf t s.cur).x = (taskOf s s.cur).x)
        ∧ (hereLoop (taskOf s s.cur) = none → Completes f.tk (fun t => { t with
            stack := r, level := t.level - 1, buf := k, pc := pc, fell := true, fetched := []
            loopcs := t.loopcs.filter fun l => l.level != t.level }) s (exec (.retb f) s)))
    ∧ (∀ (f : FmtA) (s : State) (c : ICond), (taskOf s s.cur).wait = .none → issues (.predm f) (planPredm f s s.cur) s = true →
      let u := acting (planPredm f s s.cur) s
      let slot := kSlot (rdTok u u.cur f.a)
      let b := icond c (BitVec.ofNat 64 (objVal u slot (barAt f u u.cur) 8)) (opC f u)
      condOf f = some c → (memChk f u u.cur).flag = 0 → quietObj u u.cur slot (barAt f u u.cur) 8 = true →
      ∃ m, exec (.predm f) s = .next (endCycle m s.cur)
        ∧ Began s m f.tk (fun t => flying [mkFlight 1 true (destOf f.d) (.word (if b then 1 else 0)) 0 false (signalsOf s f.tk)]
            { t with cp := b }))
    ∧ (∀ (f g : FmtA) (s : State) (slot at_ : Nat) (q c : ICond) (v w : Word), (taskOf s s.cur).wait = .pred g slot at_ q v (some w) →
      plainEnd (taskOf s s.cur) → condOf f = some c →
      ∃ t, exec (.predm f) s = .next t ∧ (taskOf t s.cur).wait = .none ∧ (taskOf t s.cur).cp = icond c w v
        ∧ (taskOf t s.cur).pc = (taskOf s s.cur).pc + 1 ∧ (slotOf t slot).inflt = (slotOf s slot).inflt - 1)
    ∧ (∀ (f : FmtA) (s : State), issues (.loopc f) (planLoopc f s s.cur) s = true →
      let u := acting (planLoopc f s s.cur) s
      let a := (opA f u).toNat
      let n := (opB f u).toNat
      (a = 0 → Completes f.tk (fun t => { t with pc := t.pc + n, fell := true }) s (exec (.loopc f) s))
        ∧ (a ≠ 0 → Completes f.tk (fun t => { t with loopcs := t.loopcs ++ [⟨t.level, t.pc, n, a⟩], fell := false }) s (exec (.loopc f) s)))
    ∧ (∀ (f : FmtA) (s : State), issues (.ffence f) (planNone f.tk (illNoOps f) [] s s.cur) s = true →
      Completes f.tk (fun t => { t with fetched := [] }) s (exec (.ffence f) s))
    ∧ (∀ (f : FmtA) (s : State), (taskOf s s.cur).wait = .none → issues (.waitline f) (planWaitline f s s.cur) s = true →
      let u := acting (planWaitline f s s.cur) s
      let slot := kSlot (rdTok u u.cur f.a)
      (memChk f u u.cur).flag = 0 → objPeer u slot (barAt f u u.cur) = false →
      ∃ t, exec (.waitline f) s = .next t
        ∧ (taskOf t s.cur).wait = .line f slot (barAt f u u.cur) ((condOf f).getD .eq) (opC f u) none
        ∧ (taskOf t s.cur).pc = (taskOf s s.cur).pc ∧ (slotOf t slot).inflt = (slotOf s slot).inflt + 1
        ∧ (taskOf t s.cur).x = (taskOf s s.cur).x ∧ ∀ pl, rdByte t pl = rdByte s pl)
    ∧ ∀ (f g : FmtA) (s : State) (slot off : Nat) (q c : ICond) (v : Word), (taskOf s s.cur).wait = .line g slot off q v none →
      plainEnd (taskOf s s.cur) → condOf f = some c → objPeer s slot off = false → (objPlaces s slot off 8).all (cleanPlace s) = true →
      let w := BitVec.ofNat 64 (objVal s slot off 8)
      (icond c w v = false → exec (.waitline f) s = .next s)
        ∧ (icond c w v = true → ∃ t, exec (.waitline f) s = .next t ∧ (taskOf t s.cur).wait = .none
            ∧ (taskOf t s.cur).pc = (taskOf s s.cur).pc + 1 ∧ (slotOf t slot).inflt = (slotOf s slot).inflt - 1
            ∧ (∃ h ∈ (taskOf t s.cur).flights, h.dest = destOf f.d ∧ h.val = .word w ∧ h.stair = true)
            ∧ ∀ pl, rdByte t pl = rdByte s pl)

/-- R298, R299: the hypervisor starts an idle stream of a live context at a buffer and offset, and its registers stay; a stopped stream
keeps its registers too. The fetch-ahead, through a buffer on this device, holds, for each of the next 64 words of the buffer, the word that memory holds. -/
def Says.StreamsStart : Prop :=
  (∀ (s : State) (d c off : Nat) (tok : BitVec 128),
      let p := Party.stream d c
      ((taskOf s p).status = .idle → (ctxOf s c).live = true → c < 64 → d < 4 → ∃ t, exec (.commandStreamStart d c tok off) s = .next t
          ∧ taskOf t p = { taskOf s p with status := .run, ctx := c, pc := off / 8, fell := false, wait := .none, level := 0, stack := []
                                           loopcs := [], loops := [], lbuf := [], exits := false, cp := true, buf := kClean s ⟨tok, true⟩, fetched := [], peerBuf := [], peerAsk := [] }
          ∧ (∀ q, partyKey q ≠ partyKey p → taskOf t q = taskOf s q) ∧ t.near = s.near ∧ t.dies = s.dies)
        ∧ ((taskOf s p).status ≠ .idle ∨ (ctxOf s c).live = false → exec (.commandStreamStart d c tok off) s = .next s))
    ∧ (∀ (s : State) (d c : Nat),
      let p := Party.stream d c
      ((taskOf s p).stores = [] → ∃ t, exec (.commandStreamStop d c) s = .next t ∧ (taskOf t p).status = .idle
          ∧ (taskOf t p).x = (taskOf s p).x ∧ (taskOf t p).k = (taskOf s p).k ∧ (taskOf t p).ctimeo = (taskOf s p).ctimeo
          ∧ (taskOf t p).flights = [] ∧ (taskOf t p).wait = .none ∧ t.near = s.near ∧ t.far = s.far)
        ∧ ((taskOf s p).stores ≠ [] → exec (.commandStreamStop d c) s = .next s))
    ∧ ∀ (s : State) (p : Party), isPorter p = true → (taskOf s p).stores = [] → (taskOf s p).status = .run →
      let t0 := taskOf s p
      (∀ o, (kPlace s t0.buf o).space ≠ .peer) →
      ∃ t, exec (.commandFetch p) s = .next t ∧ (taskOf t p).pc = t0.pc ∧ (taskOf t p).x = t0.x ∧ t.near = s.near ∧ t.slots = s.slots
        ∧ ∀ i, t0.pc ≤ i → i < t0.pc + 64 → i < codeWords s p → (t0.fetched.all fun e => e.1 != i) = true →
            (access s t0.buf (8 * i) 8 false).flag = 0 →
            (∀ j < 8, placePoison s (kPlace s t0.buf (8 * i + j)) = false) →
            codeWord t p i = some (BitVec.ofNat 64 (leNat (rdExtent s t0.buf (8 * i) 8)))

/-! ## Collectives and rings (spec 21, R438-R449) -/

/-- R438, R446: `coll` takes the lowest free slot and answers the collective's id, which holds the ring's next sequence number; a ring
that is not FORMED ends it with status 7, and a count of 0 or past 32 bits with status 4, reason 3. Operands at a peer are read and written as log 36 says. -/
def Says.CollectiveIds : Prop :=
  ∀ (f : FmtA) (s : State), issues (.coll f) (planColl f s s.cur) s = true →
    let u := acting (planColl f s s.cur) s
    let x := collArg f u u.cur
    let key := ringKey (dieNo s.cur) (ctxNo s s.cur) ((x 3).toNat % 32)
    let r := ringOf s key
    let known := r.used && (r.formed || r.broken) && decide (ringHandle key r = x 3)
    let slot := (freeColl s s.cur).getD 0
    let seq := if known then r.seq else 0
    ∃ t c, exec (.coll f) s = .next t ∧ collAt t (dieNo s.cur) (ctxNo s s.cur) slot = some c
      ∧ c.seq = seq ∧ c.kind = (low5 f).toNat / 8 ∧ c.op = (low5 f).toNat % 8 ∧ c.ty = f.ty ∧ c.count = (x 0).toNat
      ∧ (∃ g ∈ (taskOf t s.cur).flights, g.dest = destOf f.d ∧ g.stair = true
          ∧ g.val = .word (BitVec.ofNat 64 (dieNo s.cur * 2 ^ 32 + seq * 2 ^ 16 + (x 3).toNat % 32 * 16 + slot)))
      ∧ (taskOf t s.cur).pc = (taskOf s s.cur).pc + 1 ∧ (taskOf t s.cur).x = (taskOf s s.cur).x
      ∧ (known = true → (ringOf t key).seq = (r.seq + 1) % 65536)
      ∧ ((known && r.formed) = false → c.ended = true ∧ c.status = 7)
      ∧ ((known && r.formed) = true → (x 0).toNat = 0 ∨ 2 ^ 32 ≤ (x 0).toNat → c.ended = true ∧ c.status = 4 ∧ c.reason = 3)

/-- R439-R444: in a ring of two, the predecessor's data of a reduce-scatter end this member's part: each element of its chunk is the one received
combined with its own. A result that lies at a peer is written when its last message is acknowledged. An abort ends a collective with status 2,
silence past its timeout with status 3; its ring breaks. The order of a reduction, and operands at a peer, are
log 36; a poisoned source element is log 28. -/
def Says.CollectiveSteps : Prop :=
  (∀ (s s1 : State) (m : Msg) (key : Nat) (c : Coll),
      let r := ringOf s key
      let n := partLen c.count 2 r.pos
      let lo := partLo c.count 2 r.pos
      let es := elSize c
      let pls := (List.range (es * n)).map fun i => kPlace s c.dst (c.dstOff + es * lo + i)
      takeMsg s 7 = some (m, s1) → ringFor s1 m = some (key, r) →
      (r.broken = true ∨ 32768 ≤ (bits m.arg 7 16 + 65536 - r.seq) % 65536) →
      s1.colls.find? (fun c => !c.ended && decide (c.ring = some key) && decide (c.seq = bits m.arg 7 16)) = some c →
      predOf r = (m.src, m.sctx) → ringLen r = 2 → r.pos < 2 → c.kind = 1 → c.step = 0 → c.got = 0 → bits m.arg 23 11 = 0 →
      leNat (m.data.take 2) = collDigest c → 0 < es → m.data.length = 2 + es * n → collOverlap s c = false →
      pls.all (openPlace s) = true → pls.Nodup →
      ∃ t, exec .collectiveData s = .next t
        ∧ pls.map (rdByte t) = ((List.range n).flatMap fun i => leBytes es
            (combine c.op c.ty (leNat ((m.data.drop (2 + es * i)).take es)) (tget 0 c.parts (lo + i))).1)
        ∧ SameBytes s t pls ∧ (∃ d ∈ t.colls, sameColl d c = true ∧ d.ended = true ∧ d.status = 1) ∧ t.rings = s.rings)
    ∧ (∀ s : State, takeMsg s 7 = none → exec .collectiveData s = .next s)
    ∧ (∀ (s s1 : State) (m : Msg) (key : Nat) (c : Coll),
      let r := ringOf s key
      takeMsg s 8 = some (m, s1) → ringFor s1 m = some (key, r) →
      (r.broken = true ∨ 32768 ≤ (bits m.arg 7 16 + 65536 - r.seq) % 65536) →
      s1.colls.find? (fun c => !c.ended && decide (c.ring = some key) && decide (c.seq = bits m.arg 7 16)) = some c →
      ∃ t, exec .abort s = .next t ∧ (∃ d ∈ t.colls, sameColl d c = true ∧ d.ended = true ∧ d.status = 2 ∧ d.dev = m.src)
        ∧ (ringOf t key).broken = true ∧ (ringOf t key).formed = false)
    ∧ (∀ s : State, takeMsg s 8 = none → exec .abort s = .next s)
    ∧ (∀ (s s1 : State) (m : Msg) (q : PeerReq) (c : Coll),
      takeMsg s 4 = some (m, s1) → bits m.arg 16 8 = 0 →
      s.peers.find? (fun q => decide (q.msg.dst = m.src) && decide (q.msg.eseq = bits m.arg 0 16) && decide (q.msg.kind + 1 = m.kind)) = some q →
      s.colls.find? (fun c => c.need.contains q.id) = some c → c.need = [q.id] →
      ∃ t, exec .writeAck s = .next t
        ∧ ∃ d ∈ t.colls, sameColl d c = true ∧ d.ended = true ∧ d.status = 1 ∧ d.need = [] ∧ d.flags = c.flags)
    ∧ ∀ (s : State) (i : Nat) (c : Coll), s.colls[i]? = some c →
      (c.ended = false → c.need = [] → c.timeout ≠ 0 → c.since + 1024 * c.timeout ≤ s.clock → ∃ t, exec (.collectiveTimeout i) s = .next t
          ∧ (∃ d ∈ t.colls, sameColl d c = true ∧ d.ended = true ∧ d.status = 3 ∧ d.dev = (predOf (collRing s c)).1)
          ∧ ∀ k, c.ring = some k → (ringOf t k).broken = true)
        ∧ (c.ended = true ∨ c.need ≠ [] ∨ c.timeout = 0 ∨ s.clock < c.since + 1024 * c.timeout → exec (.collectiveTimeout i) s = .next s)

/-- R443, R447, R448: `cwait` answers the status word of a collective that has ended and frees its slot; `cabort` ends a pending one with
status 5 and breaks its ring. An id that names none answers 0, or does nothing. -/
def Says.CollectiveEnds : Prop :=
  (∀ (f : FmtA) (s : State), issues (.cwait f) (planCwait f s s.cur) s = true →
      let u := acting (planCwait f s s.cur) s
      let answer := fun (v : Nat) (fl : BitVec 8) => flying [mkFlight 1 true (destOf f.d) (.word (BitVec.ofNat 64 v)) fl false (signalsOf s f.tk)]
      match collOfId u u.cur (opA f u) with
      | none => Puts f.tk [mkFlight 1 true (destOf f.d) (.word 0) 0 false (signalsOf s f.tk)] s (exec (.cwait f) s)
      | some c => ∃ m, exec (.cwait f) s = .next (endCycle m s.cur) ∧ collAt m c.die c.ctx c.slot = none
          ∧ m.colls = s.colls.filter (fun x => !sameColl x c)
          ∧ Began { s with colls := m.colls } m f.tk (answer
              (c.dev % 1024 * 2 ^ 48 + c.step % 65536 * 2 ^ 32 + c.seq * 2 ^ 16 + collFlg c.flags * 2 ^ 12 + c.reason * 2 ^ 4 + c.status)
              (c.flags ||| (if c.status = 4 ∧ c.reason = 1 then fST else 0)
                ||| (if c.status = 4 ∧ c.reason = 2 then fXB else 0))))
    ∧ ∀ (f : FmtA) (s : State), issues (.cabort f) (planNone f.tk (illCabort f) (readsA f) s s.cur) s = true →
      let u := acting (planNone f.tk (illCabort f) (readsA f) s s.cur) s
      match collOfId u u.cur (opA f u) with
      | none => Completes f.tk id s (exec (.cabort f) s)
      | some c => (c.ended = true → Completes f.tk id s (exec (.cabort f) s))
          ∧ (c.ended = false → ∃ t, exec (.cabort f) s = .next t
              ∧ (∃ d, collAt t c.die c.ctx c.slot = some d ∧ d.ended = true ∧ d.status = 5)
              ∧ (∀ k, c.ring = some k → (ringOf t k).broken = true ∧ (ringOf t k).formed = false)
              ∧ (taskOf t s.cur).pc = (taskOf s s.cur).pc + 1 ∧ (taskOf t s.cur).x = (taskOf s s.cur).x)

/-- R449: `ringf` with n = 0 releases the ring its handle names; an n that no ring has answers 2^63 + 1; else it takes a ring slot, sends
its hellos and waits. Its neighbours' hellos form the ring and answer its handle; one that differs, or none in time, ends it with reason
5 or 3 and the slot is free. A hello that meets no waiting word is held 2^24 clocks. What a hello holds on the wire is log 27, a list at a peer log 36. -/
def Says.RingsForm : Prop :=
  (∀ (f : FmtA) (s : State), (taskOf s s.cur).wait = .none → issues (.ringf f) (planRingf f s s.cur) s = true →
      let u := acting (planRingf f s s.cur) s
      let n := ringCount f u u.cur
      let k := rdTok u u.cur f.a
      let off := (rdScal u u.cur f.b).toNat
      (n = 0 → ∃ m, exec (.ringf f) s = .next (endCycle m s.cur)
          ∧ Began { s with rings := m.rings } m f.tk (flying [mkFlight 1 true (destOf f.d) (.word 0) 0 false (signalsOf s f.tk)])
          ∧ (∀ key, namedRing u u.cur (ringArg f u u.cur) = some key → ringOf m key = Ring.fresh)
          ∧ ∀ j, namedRing u u.cur (ringArg f u u.cur) ≠ some j → ringOf m j = ringOf s j)
        ∧ (n ≠ 0 → (n < 2 ∨ 1024 < n) → Puts f.tk [mkFlight 1 true (destOf f.d) (.word (BitVec.ofNat 64 (2 ^ 63 + 1))) 0 false
            (signalsOf s f.tk)] s (exec (.ringf f) s))
        ∧ (∀ key, 2 ≤ n → n ≤ 1024 → (access u k off (4 * n) false).flag = 0 → allCame u u.cur k off (4 * n) = true →
            objPoison u (kSlot k) (kBase k + off) (4 * n) = none → ringListOk f u u.cur = true → freeRing u u.cur = some key → s.hellos = [] →
            ((planRingf f s s.cur).reads.all fun r => !rdPending s s.cur r) = true →
            ∃ t l r, exec (.ringf f) s = .next t
              ∧ (taskOf t s.cur).wait = .ring f key n (ringPos f u u.cur) l r (ringDigest f u u.cur)
                  ((ringArg f u u.cur).toNat % 2 ^ 32) none none s.clock (taskOf s s.cur).ctimeo.toNat
              ∧ (ringOf t key).used = true ∧ (ringOf t key).formed = false ∧ (ringOf t key).members = ringMembers f u u.cur
              ∧ l = predOf (ringOf t key) ∧ r = succOf (ringOf t key)
              ∧ (∃ m ∈ t.outbox, m.kind = 9 ∧ m.dst = r.1) ∧ (∃ m ∈ t.outbox, m.kind = 9 ∧ m.dst = l.1)
              ∧ (taskOf t s.cur).pc = (taskOf s s.cur).pc ∧ (taskOf t s.cur).x = (taskOf s s.cur).x))
    ∧ (∀ (f g : FmtA) (s : State) (key n r d e since lim : Nat) (l rr : Nat × Nat) (a b : Bool),
      (taskOf s s.cur).wait = .ring g key n r l rr d e (some a) (some b) since lim → plainEnd (taskOf s s.cur) →
      ∃ t h, exec (.ringf f) s = .next t ∧ (taskOf t s.cur).wait = .none ∧ h ∈ (taskOf t s.cur).flights ∧ h.dest = destOf g.d
        ∧ (a = true ∧ b = true → h.val = .word (ringHandle key (ringOf s key)) ∧ ringOf t key = { ringOf s key with formed := true })
        ∧ (a = false ∨ b = false → h.val = .word (BitVec.ofNat 64 (2 ^ 63 + 5)) ∧ ringOf t key = Ring.fresh)
        ∧ (taskOf t s.cur).pc = (taskOf s s.cur).pc + 1)
    ∧ (∀ (s s1 : State) (m : Msg), takeMsg s 9 = some (m, s1) →
      ((∀ e ∈ s.tasks, lacks m e.2.wait = false) → exec .ringHello s = .next { s1 with hellos := s.hellos ++ [⟨m, s.clock⟩] })
        ∧ (∀ e f key n r d ep since lim l rr, s.tasks.find? (fun e => lacks m e.2.wait && sameDigest m e.2.wait) = some e →
            tget Task.fresh s.tasks e.1 = e.2 → l ≠ rr → l = (m.src, m.sctx) → e.2.wait = .ring f key n r l rr d ep none none since lim →
            ∃ t, exec .ringHello s = .next t
              ∧ (tget Task.fresh t.tasks e.1).wait = .ring f key n r l rr d ep (some true) none s.clock lim
              ∧ (ringOf t key).predSlot = (m.data.getD 4 0).toNat % 128))
    ∧ (∀ s : State, takeMsg s 9 = none → exec .ringHello s = .next s)
    ∧ (∀ (s : State) (i : Nat) (h : Hello), s.hellos[i]? = some h →
      exec (.helloHoldExpiry i) s = .next (if h.since + 2 ^ 24 ≤ s.clock then { s with hellos := dropAt s.hellos i } else s))
    ∧ ∀ (s : State) (p : Party) (g : FmtA) (key n r d e since lim : Nat) (l rr : Nat × Nat) (gl gr : Option Bool),
      (taskOf s p).wait = .ring g key n r l rr d e gl gr since lim → plainEnd (taskOf s p) → ¬(gl = some true ∧ gr = some true) →
      (lim ≠ 0 → since + 1024 * lim ≤ s.clock → ∃ t h, exec (.ringFormationTimeout p) s = .next t ∧ (taskOf t p).wait = .none
          ∧ h ∈ (taskOf t p).flights ∧ h.dest = destOf g.d ∧ h.val = .word (BitVec.ofNat 64 (2 ^ 63 + 3)) ∧ ringOf t key = Ring.fresh)
        ∧ (lim = 0 ∨ s.clock < since + 1024 * lim → exec (.ringFormationTimeout p) s = .next s)

/-! ## Links and peer memory (spec 21, R427-R437) -/

/-- R428: a flit that carries whole messages in 240 bytes passes its CRC and gives them back, in order, with its sequence number.
The CRC's start value and the null flit are log 27. -/
def Says.FlitsCarryMessages : Prop :=
  ∀ (ms : List Msg) (seq ack cred : Nat) (nak : Bool),
    (∀ m ∈ ms, 1 ≤ m.kind ∧ m.kind ≤ 9 ∧ m.sctx < 64 ∧ m.dst < 1024 ∧ m.src < 1024 ∧ m.eseq < 65536 ∧ m.arg < 2 ^ 48) →
    (ms.map fun m => 16 + m.data.length).sum ≤ 240 → seq < 4096 → ack < 4096 → cred < 65536 →
    let f := mkFlit seq ack nak cred (payloadOf ms)
    flitGood f = true ∧ msgsOf (flitPayload f) = ms ∧ flitField f 0 12 = seq ∧ flitField f 16 12 = ack ∧ flitField f 32 16 = cred
      ∧ f.getLsbD 30 = nak

/-- R429-R433: a good flit with the next number is taken, and its message for this device joins the inbox, unless it came before; a flit
that fails its CRC takes nothing. A trained link is up from sequence 0 with 192 credits owed; one that goes down is reported. The tables
hold what management writes. The first numbers are log 27, the report's code log 34. -/
def Says.Links : Prop :=
  (∀ (s : State) (n : Nat) (f : BitVec 2048) (m : Msg), (linkOf s n).up = true → flitGood f = true → msgsOf (flitPayload f) = [m] →
      flitField f 0 12 = ((linkOf s n).lastGood + 1) % 4096 → s.outbox = [] →
      ∃ t, exec (.linkFlitReceive n f) s = .next t ∧ (linkOf t n).lastGood = flitField f 0 12 ∧ (linkOf t n).up = true
        ∧ t.inbox = (if m.dst = s.identity ∧ seenMsg s m = false then s.inbox ++ [m] else s.inbox)
        ∧ t.discarded = (if m.dst = s.identity then s.discarded else s.discarded + 1) ∧ t.tasks = s.tasks ∧ t.near = s.near)
    ∧ (∀ (s : State) (n : Nat) (f : BitVec 2048), (linkOf s n).up = true → flitGood f = false → s.outbox = [] →
      ∃ t, exec (.linkFlitReceive n f) s = .next t ∧ (linkOf t n).lastGood = (linkOf s n).lastGood ∧ t.inbox = s.inbox ∧ t.tasks = s.tasks)
    ∧ (∀ (s : State) (n : Nat) (f : BitVec 2048), (linkOf s n).up = false → exec (.linkFlitReceive n f) s = .next s)
    ∧ (∀ (s : State) (n : Nat),
      let l := linkOf s n
      let failed := l.up = true ∧ (16 ≤ l.naks ∨ (l.unacked ≠ [] ∧ l.sinceAck + 2 ^ 20 ≤ s.clock))
      (failed → ∃ t, exec (.linkDown n) s = .next t ∧ (linkOf t n).up = false ∧ t.mgmtLog = s.mgmtLog ++ [2 ^ 32 + n]
          ∧ t.tasks = s.tasks)
        ∧ (¬failed → exec (.linkDown n) s = .next s))
    ∧ (∀ (s : State) (n : Nat), n < 16 → (linkOf s n).up = false →
      ∃ t, exec (.linkTrained n) s = .next t ∧ (linkOf t n).up = true ∧ (linkOf t n).seq = 0 ∧ (linkOf t n).lastGood = 4095
        ∧ (linkOf t n).credits = 0 ∧ (∃ f, (n, f) ∈ t.wire ∧ flitField f 32 16 = 192) ∧ t.tasks = s.tasks)
    ∧ (∀ (s : State) (n : Nat), 16 ≤ n ∨ (linkOf s n).up = true → exec (.linkTrained n) s = .next s)
    ∧ (∀ (s : State) (d : Nat) (mask : BitVec 16), ∃ t, exec (.routingTableWrite d mask) s = .next t ∧ t.links = s.links
      ∧ ∀ e, tget 0 t.routes e = if e = d ∧ d < 1024 then mask else tget 0 s.routes e)
    ∧ ∀ (s : State) (i : Nat) (v : BitVec 128), ∃ t, exec (.exportTableWrite i v) s = .next t ∧ t.slots = s.slots
      ∧ ∀ e, tget 0 t.exports e = if e = i ∧ i < 4096 then v else tget 0 s.exports e

/-- R359, R433, R435: a peer's READ, WRITE and ATOMIC pass the export entry's checks in order and are answered with the status of the
first that fails; one that passes reads, writes, or changes the bytes at their home, once. The three messages of one series image are checked as
one and all written or none (R251); where the operands of an ATOMIC stand is log 15, where a READ names its size log 14. -/
def Says.ExportsServe : Prop :=
  let answered := fun (t : State) (m : Msg) (kind st : Nat) (data : List Byte) =>
    ∃ r ∈ t.outbox, r.kind = kind ∧ r.dst = m.src ∧ r.arg = m.eseq + st * 65536 ∧ r.data = data
  (∀ (s s1 : State) (m : Msg), takeMsg s 1 = some (m, s1) →
      let n := (m.data.headD 0).toNat
      let st := exportStatus s m 2 n
      let pls := objPlaces s (expSlot (exportOf s m)) (expOff m) n
      ∃ t, exec .read s = .next t ∧ answered t m 2 st (if st = 0 then pls.map (rdByte s) else []) ∧ (∀ pl, rdByte t pl = rdByte s pl)
        ∧ t.slots = s.slots)
    ∧ (∀ (s s1 : State) (m : Msg), takeMsg s 3 = some (m, s1) → bits m.arg 46 2 ≠ 3 →
      let st := exportStatus s m 1 m.data.length
      let pls := objPlaces s (expSlot (exportOf s m)) (expOff m) m.data.length
      ∃ t, exec .write s = .next t ∧ answered t m 4 st []
        ∧ (st ≠ 0 → ∀ pl, rdByte t pl = rdByte s pl)
        ∧ (st = 0 → pls.all (openPlace s) = true → pls.Nodup → bits m.arg 46 2 = 0 → pls.map (rdByte t) = m.data ∧ SameBytes s t pls))
    ∧ (∀ (s s1 s2 s3 : State) (m a b : Msg), takeMsg s 3 = some (m, s1) → takeMsg s1 3 = some (a, s2) → takeMsg s2 3 = some (b, s3) →
      (∀ x ∈ [m, a, b], x.src = m.src ∧ bits x.arg 46 2 = 3) →
      let data := m.data ++ a.data ++ b.data
      let st := exportStatus s m 1 data.length
      let pls := objPlaces s (expSlot (exportOf s m)) (expOff m) data.length
      ∃ t, exec .write s = .next t ∧ (∀ x ∈ [m, a, b], answered t x 4 st [])
        ∧ (st ≠ 0 → ∀ pl, rdByte t pl = rdByte s pl)
        ∧ (st = 0 → pls.all (openPlace s) = true → pls.Nodup → pls.map (rdByte t) = data ∧ SameBytes s t pls))
    ∧ (∀ (s s1 : State) (m : Msg), takeMsg s 5 = some (m, s1) →
      let f := fun i n : Nat => leNat ((m.data.drop i).take n)
      let n := tyBytes (BitVec.ofNat 5 (f 1 1))
      let st := exportStatus s m 0 n
      let slot := expSlot (exportOf s m)
      let pls := objPlaces s slot (expOff m) n
      let old := objVal s slot (expOff m) n
      ∃ t, exec .atomic s = .next t ∧ answered t m 6 st (if st = 0 then leBytes n old else [])
        ∧ (st ≠ 0 → ∀ pl, rdByte t pl = rdByte s pl)
        ∧ (st = 0 → pls.all (openPlace s) = true → pls.Nodup → SameBytes s t pls
            ∧ pls.map (rdByte t) = leBytes n (atomNew (AtomOp.ofCode (f 0 1)) (BitVec.ofNat 5 (f 1 1)) old (f 2 n) (f (2 + n) n))))
    ∧ ∀ s : State, (takeMsg s 1 = none → exec .read s = .next s) ∧ (takeMsg s 3 = none → exec .write s = .next s)
      ∧ (takeMsg s 5 = none → exec .atomic s = .next s)

/-- R435-R437: an answer meets its request by device and sequence: the request's count on its slot is given back, the result that waits
for it takes its data, or +0 for its whole element and the flag of its status (an atomic's all ones); a failure is told to the other requests of its
operand, which log no event of their own (R341). A request past 2^24 clocks, or whose destination no link reaches, ends with XB. The pieces of
a request and its limits are logs 14, 15 and 49. -/
def Says.PeerAnswers : Prop :=
  let ends := fun (s t : State) (q : PeerReq) (failed : Bool) => t.peers = otherReqs s.peers q failed
    ∧ (slotOf t q.pinSlot).inflt = (slotOf s q.pinSlot).inflt - 1
  (∀ (k : Nat) (i : Instr), (k, i) ∈ [(2, Instr.readReply), (4, .writeAck), (6, .atomicReply)] →
      ∀ (s s1 : State) (m : Msg), takeMsg s k = some (m, s1) →
        (s.peers.find? (fun q => decide (q.msg.dst = m.src) && decide (q.msg.eseq = bits m.arg 0 16) && decide (q.msg.kind + 1 = m.kind)) = none →
          exec i s = .next s1)
        ∧ (∀ q, s.peers.find? (fun q => decide (q.msg.dst = m.src) && decide (q.msg.eseq = bits m.arg 0 16) && decide (q.msg.kind + 1 = m.kind))
              = some q → (∀ c e, q.party ≠ .engine c e) → bits m.arg 16 8 ≤ 5 →
            (s.colls.all fun c => !c.need.contains q.id) = true →
            let t0 := taskOf s q.party
            let fl : BitVec 8 := match bits m.arg 16 8 with | 0 => 0 | 2 => fST | 5 => fSX | _ => fXB
            let failed := decide (fl ≠ 0)
            (∀ f w n, t0.flights = [f] → f.need = [q.id] → f.val = .word w → q.pieces = [⟨0, 0, 0, n, 0⟩] → q.base = 0 → k = 2 →
              t0.asyncs = [] → t0.stores = [] →
              ∃ t, exec i s = .next t ∧ ends s t q failed
                ∧ (taskOf t q.party).flights = [{ f with
                    val := .word (if fl = 0 then w ||| BitVec.ofNat 64 (leNat (m.data.take n) % 2 ^ (8 * n))
                      else w &&& ~~~BitVec.ofNat 64 (2 ^ (8 * n) - 1))
                    flags := f.flags ||| fl, need := [] }])
            ∧ (∀ e, t0.flights = [] → t0.asyncs = [] → t0.stores = [e] → e.need = [q.id] → e.act = .bytes → k = 4 →
              ∃ t, exec i s = .next t ∧ ends s t q failed
                ∧ (taskOf t q.party).stores = [{ e with need := [], flags := e.flags ||| fl }])
            ∧ (∀ f w n, t0.flights = [f] → f.need = [q.id] → f.val = .word w → q.pieces = [⟨0, 0, 0, n, 0⟩] → q.base = 0 → k = 6 →
              t0.asyncs = [] → t0.stores = [] → (fl = 0 ∨ f.fix = none) →
              ∃ t, exec i s = .next t ∧ ends s t q failed
                ∧ (taskOf t q.party).flights = [{ f with
                    val := .word (if fl = 0 then w ||| BitVec.ofNat 64 (leNat (m.data.take n) % 2 ^ (8 * n)) else BitVec.allOnes 64)
                    flags := f.flags ||| fl, need := [] }])))
    ∧ (∀ s : State, (takeMsg s 2 = none → exec .readReply s = .next s) ∧ (takeMsg s 4 = none → exec .writeAck s = .next s)
      ∧ (takeMsg s 6 = none → exec .atomicReply s = .next s))
    ∧ ∀ (s : State) (i : Nat) (q : PeerReq), s.peers[i]? = some q →
      ((q.since + 2 ^ 24 ≤ s.clock ∨ (q.msg.dst ≠ s.identity ∧ routeOf s q.msg.dst = none)) →
          (s.colls.all fun c => !c.need.contains q.id) = true → ∃ t, exec (.peerRequestTimeout i) s = .next t
          ∧ ends s t q true)
        ∧ (s.clock < q.since + 2 ^ 24 → (q.msg.dst = s.identity ∨ routeOf s q.msg.dst ≠ none) → exec (.peerRequestTimeout i) s = .next s)

/-! ## The memory package (spec 19) -/

/-- R404-R408: SWAP_PAIR_OPEN moves a far page alone to a spare frame, or exchanges it with a near page; SWAP_LINE_MOVE moves the next
line of 128 bytes both ways; SWAP_PAIR_COMPLETE gives the word its new frame; an abandoned pair moves nothing more. Which frame of
an abandoned pair is lost, and a leaf's SPACE, are log 40. -/
def Says.SwapPairs : Prop :=
  (∀ (s : State) (d a pa n f : Nat) (near : Option (Nat × Nat)),
      let wa := (slotOf s a).first + pa
      swapPage s a wa = true → (wordOf s wa).space = .far → freePair s d = some n → spareRun s d 1 false = some f →
      ∃ t, exec (.swapPairOpen d a pa near) s = .next t
        ∧ (pairAt t d n).words = [(a, wa)] ∧ (pairAt t d n).lone = true ∧ (pairAt t d n).moved = 0
        ∧ (wordOf t wa).swap = 2 ∧ (wordOf t wa).frameA = (wordOf s wa).frameA ∧ (wordOf t wa).frameB = f
        ∧ (slotOf t a).inflt = (slotOf s a).inflt + 1 ∧ f ∉ (dieOf t d).spare ∧ t.near = s.near ∧ t.far = s.far)
    ∧ (∀ (s : State) (d a pa n b pb : Nat),
      let wa := (slotOf s a).first + pa
      let wb := (slotOf s b).first + pb
      swapPage s a wa = true → (wordOf s wa).space = .far → swapPage s b wb = true → (wordOf s wb).space = .near →
      (slotOf s b).ctx = (slotOf s a).ctx → frameDie (wordOf s wb).frameA = d → freePair s d = some n → spareRun s d 1 false = none →
      ∃ t, exec (.swapPairOpen d a pa (some (b, pb))) s = .next t ∧ (pairAt t d n).words = [(a, wa), (b, wb)] ∧ (pairAt t d n).lone = false
        ∧ (wordOf t wa).swap = 1 ∧ (wordOf t wa).frameB = (wordOf s wb).frameA ∧ (wordOf t wa).frameA = (wordOf s wa).frameA
        ∧ (wordOf t wb).swap = 1 ∧ (wordOf t wb).frameB = (wordOf s wa).frameA ∧ (wordOf t wb).frameA = (wordOf s wb).frameA
        ∧ t.near = s.near ∧ t.far = s.far)
    ∧ (∀ (s : State) (d a pa : Nat) (near : Option (Nat × Nat)), swapPage s a ((slotOf s a).first + pa) = false →
      exec (.swapPairOpen d a pa near) s = .next s)
    ∧ (∀ (s : State) (d n a w l : Nat) (rest : List (Nat × Nat)),
      let p := pairAt s d n
      let at_ := fun (x : Place) (i : Nat) => (⟨x.space, x.addr + i⟩ : Place)
      let pa := lineA s w p l
      let pb := lineB s w p l
      p.words = (a, w) :: rest → nextLine p = some l → p.abandoned = false →
      (pa.space ≠ pb.space ∨ pa.addr + 128 ≤ pb.addr ∨ pb.addr + 128 ≤ pa.addr) → pa.space ≠ .peer → pb.space ≠ .peer →
      ∃ t, exec (.swapLineMove d n) s = .next t
        ∧ (∀ i < 128, rdByte t (at_ pb i) = rdByte s (at_ pa i))
        ∧ (∀ i < 128, rdByte t (at_ pa i) = if p.lone then rdByte s (at_ pa i) else rdByte s (at_ pb i))
        ∧ SameBytes s t ((List.range 128).map (at_ pa) ++ (List.range 128).map (at_ pb))
        ∧ (pairAt t d n = { p with moved := p.moved ||| (1#512 <<< l) } ∨ pairAt t d n = { p with cursor := p.cursor + 1, moved := 0 })
        ∧ t.words = s.words ∧ t.slots = s.slots)
    ∧ (∀ (s : State) (d n : Nat), (pairAt s d n).abandoned = true ∨ (pairAt s d n).words = [] → exec (.swapLineMove d n) s = .next s)
    ∧ (∀ (s : State) (d n a w : Nat),
      let p := pairAt s d n
      p.words = [(a, w)] → p.abandoned = false → p.moved = BitVec.allOnes 512 → p.units ≤ p.cursor + 1 →
      ∃ t, exec (.swapPairComplete d n) s = .next t
        ∧ wordOf t w = { wordOf s w with space := spaceB p (wordOf s w).space, frameA := (wordOf s w).frameB, frameB := 0, swap := 0, pair := none }
        ∧ (slotOf t a).inflt = (slotOf s a).inflt - 1 ∧ pairAt t d n = zeroPair)
    ∧ (∀ (s : State) (d n : Nat), (pairAt s d n).moved ≠ BitVec.allOnes 512 → exec (.swapPairComplete d n) s = .next s)
    ∧ ∀ (s : State) (d n a w : Nat),
      let p := pairAt s d n
      p.words = [(a, w)] → p.abandoned = false →
      ∃ t, exec (.swapPairAbandon d n) s = .next t ∧ pairAt t d n = { p with abandoned := true }
        ∧ (slotOf t a).inflt = (slotOf s a).inflt - 1 ∧ wordOf t w = wordOf s w
        ∧ (∃ far f, (∀ i < max 1 p.units, ∀ j < 2048, atomPoison t far (2048 * (f + i) + j) = true)
          ∧ ((far, f) = (decide ((wordOf s w).space = .far), regionOf p (wordOf s w).frameA)
            ∨ (far, f) = (decide (spaceB p (wordOf s w).space = .far), regionOf p (wordOf s w).frameB)))
        ∧ (dieOf t d).tier = (dieOf s d).tier.filter (fun q => q.pair != some (d, n))

/-- R409-R411: `tierpf` queues one request for each far page of its token that can move and answers the number of its 64-KiB units; a
failed barrier check answers all ones; a request that finds no frame within 2^20 clocks leaves the queue. The order of its steps within the word is log 58. -/
def Says.TierRequests : Prop :=
  (∀ (f : FmtA) (s : State), (taskOf s s.cur).wait = .none → issues (.tierpf f) (planTierpf f s s.cur) s = true →
      let u := acting (planTierpf f s s.cur) s
      let k := rdTok u u.cur f.a
      let b := barPlace f u u.cur
      let d := dieNo s.cur
      let answers := fun (t : State) (v : Word) => (∃ g ∈ (taskOf t s.cur).flights, g.dest = destOf f.d ∧ g.val = .word v ∧ g.stair = true)
        ∧ (taskOf t s.cur).wait = .none ∧ (taskOf t s.cur).pc = (taskOf s s.cur).pc + 1 ∧ (taskOf t s.cur).x = (taskOf s s.cur).x
      ((tierBar f u u.cur).flag ≠ 0 → ∃ t, exec (.tierpf f) s = .next t ∧ answers t (BitVec.allOnes 64))
        ∧ ((tierBar f u u.cur).flag = 0 → objPoison u b.1 b.2 16 = none → (tierChk k u).flag ≠ 0 →
            ∃ t, exec (.tierpf f) s = .next t ∧ answers t 0)
        ∧ ((tierBar f u u.cur).flag = 0 → objPoison u b.1 b.2 16 = none → (tierChk k u).flag = 0 →
            ((planTierpf f s s.cur).reads.all fun r => !rdPending s s.cur r) = true →
            (dieOf s d).tier.length + tierUnits k ≤ 1024 →
            ∃ t, exec (.tierpf f) s = .next t ∧ answers t (BitVec.ofNat 64 (tierUnits k))
              ∧ (∀ word, tierUnits k = 1 → word = (slotOf s (kSlot k)).first + kBase k / 65536 * 65536 / psBytes (slotOf s (kSlot k)).ps →
                  swapPage s (kSlot k) word = true → (wordOf s word).space = .far →
                  (dieOf t d).tier = (dieOf s d).tier ++ [⟨ctxNo s s.cur, kSlot k, word, (tierUnit k 0).2, b.1, b.2, s.clock, none⟩])))
    ∧ ∀ (s : State) (d i : Nat) (q : TierReq), (dieOf s d).tier[i]? = some q →
      (q.pair = none → q.since + 2 ^ 20 ≤ s.clock → ∃ t, exec (.tierpfRequestTimeout d i) s = .next t
          ∧ (dieOf t d).tier = dropAt (dieOf s d).tier i ∧ t.words = s.words ∧ t.slots = s.slots)
        ∧ (q.pair ≠ none ∨ s.clock < q.since + 2 ^ 20 → exec (.tierpfRequestTimeout d i) s = .next s)

/-- R394, R395, R399, R400, R412-R414, R425: the controllers' words. A retiring pseudo-channel moves its pages out, with every word that names a part
of one, and is RETIRED when no word names a frame of it, nor one to which its page still moves; a stack at 95 degrees narrows its pseudo-channels. When
a retirement is done is log 43, the budgets given back log 44. -/
def Says.Channels : Prop :=
  (∀ (s : State) (pc n f slot : Nat) (w h : Nat × PinWord),
      (tget 0 s.pcStat pc).getLsbD 62 = true → s.words.find? (fun w => wordIn s pc w.2 && decide (w.2.swap = 0)) = some w →
      wordOf s w.1 = w.2 → wordOf s h.1 = h.2 →
      let r := retireRegion s w.2
      let q := retireRegion s h.2
      let sharing := wordsSharing s r.1 r.2
      let moving := wordsSharing s q.1 q.2
      let d := frameDie q.1
      sharing.head? = some h → (∀ x ∈ moving, x.2.swap = 0) → freePair s d = some n →
      spareRun s d q.2 (gangAt s (65536 * q.1)) = some f →
      slotOfWord s h.1 = some slot →
      ∃ t, exec (.channelRetireStart pc) s = .next t
        ∧ (pairAt t d n).words = moving.filterMap (fun x => (slotOfWord s x.1).map fun k => (k, x.1)) ∧ (pairAt t d n).retire = true
        ∧ (moving = [h] → (wordOf t h.1).frameB = f + (h.2.frameA - q.1) ∧ (wordOf t h.1).swap = 2 ∧ (slotOf t slot).inflt = (slotOf s slot).inflt + 1)
        ∧ t.near = s.near ∧ t.far = s.far)
    ∧ (∀ (s : State) (pc : Nat), (tget 0 s.pcStat pc).getLsbD 62 = false → exec (.channelRetireStart pc) s = .next s)
    ∧ (∀ (s : State) (pc : Nat), (tget 0 s.pcStat pc).getLsbD 62 = true → (∀ x ∈ s.words, wordIn s pc x.2 = false ∧ wordTo s pc x.2 = false) →
      ∃ t, exec (.channelRetired pc) s = .next t ∧ (tget 0 t.pcStat pc).getLsbD 63 = true ∧ (tget 0 t.pcStat pc).getLsbD 62 = false
        ∧ (∀ q, q ≠ pc → tget 0 t.pcStat q = tget 0 s.pcStat q) ∧ t.words = s.words)
    ∧ (∀ (s : State) (pc : Nat), ((tget 0 s.pcStat pc).getLsbD 62 = false ∨ ∃ x ∈ s.words, wordIn s pc x.2 = true ∨ wordTo s pc x.2 = true) →
      exec (.channelRetired pc) s = .next s)
    ∧ (∀ (s : State) (pc : Nat) (v : Word), pc < 1152 → ∃ t, exec (.pcStatusWrite pc v) s = .next t
      ∧ (tget 0 t.pcStat pc).extractLsb' 0 48 = 0 ∧ (tget 0 t.pcStat pc).getLsbD 63 = (tget 0 s.pcStat pc).getLsbD 63
      ∧ (tget 0 t.pcStat pc).getLsbD 62 = (v.getLsbD 62 && !(tget 0 s.pcStat pc).getLsbD 63)
      ∧ (∀ q, q ≠ pc → tget 0 t.pcStat q = tget 0 s.pcStat q) ∧ t.near = s.near)
    ∧ (∀ (s : State) (r : Nat) (v : BitVec 32), ∃ t, exec (.erasureListWrite r v) s = .next t ∧ t.near = s.near
      ∧ ∀ q, tget 0 t.erasure q = if q = r then v else tget 0 s.erasure q)
    ∧ (∀ (s : State) (pc : Nat) (cause : BitVec 2), pc < 1152 → (tget 0 s.pcStat pc).getLsbD 61 = false →
      ∃ t, exec (.pseudoChannelNarrow pc cause) s = .next t ∧ (tget 0 t.pcStat pc).getLsbD 60 = decide (cause ≠ 0)
        ∧ (tget 0 t.pcStat pc).extractLsb' 58 2 = cause ∧ (tget 0 t.pcStat pc).extractLsb' 0 48 = (tget 0 s.pcStat pc).extractLsb' 0 48
        ∧ (∀ q, q ≠ pc → tget 0 t.pcStat q = tget 0 s.pcStat q) ∧ t.near = s.near)
    ∧ (∀ (s : State) (k temp : Nat), k < 12 → 95 ≤ temp → ∃ t, exec (.hbmTempReport k temp) s = .next t
      ∧ (∀ i < 96, (tget 0 t.pcStat (96 * k + i)).getLsbD 60 = true)
      ∧ (105 ≤ temp → s.hot = [] → ∀ c, c / 8 = k / 3 → tget 480 t.budgets c = tget 480 s.budgets c / 2)
      ∧ (temp < 105 → 95 < temp → t.budgets = s.budgets)
      ∧ (temp = 95 → ∀ j ∈ s.hotStacks, j / 3 = k / 3 → j ≠ k → t.budgets = s.budgets) ∧ t.near = s.near)
    ∧ (∀ (s : State) (d : Nat) (l : List Nat), ∃ t, exec (.spareFramePoolFill d l) s = .next t
      ∧ (∀ f ∈ (dieOf s d).spare, f ∈ (dieOf t d).spare)
      ∧ (∀ f ∈ l, nearOk (65536 * f) = true → frameDie f = d → s.words = [] → f ∈ (dieOf t d).spare)
      ∧ (∀ f ∈ (dieOf t d).spare, f ∈ (dieOf s d).spare ∨ (f ∈ l ∧ frameDie f = d)) ∧ t.near = s.near)
    ∧ ∀ (s : State) (f : Nat) (g : Bool),
      let named := s.words.any fun w => namesNear s w.2 (f / 2 * 2) 2
      (named = false → nearOk (65536 * f) = true → ∃ t, exec (.modeTableWrite f g) s = .next t ∧ tget false t.gang (f / 2) = g
          ∧ (∀ q, q ≠ f / 2 → tget false t.gang q = tget false s.gang q) ∧ t.words = s.words ∧ t.near = s.near)
        ∧ (named = true ∨ nearOk (65536 * f) = false → exec (.modeTableWrite f g) s = .next s)

/-! ## Management, the host, and contexts (spec 13, 16, 20) -/

/-- R312, R333, R337, R418, R423, R424: the power words are taken when they keep RESERVE and the budgets within the cap, and logged when they do not;
a context registers up to 64 MiB of token pages; the host reads near memory with its poison mark (a replica's poison is none of it), all ones where no
memory is, and writes its own memory and unsealed near bytes. The codes logged, the vector a report raises and the dropped sealed bytes are the
model's (logs 33 and 34). -/
def Says.ManagementWords : Prop :=
  (∀ (s : State) (cap reserve : Nat),
      let fits := cap ≤ 26000 ∧ reserve < 65536 ∧ reserve + budgetSum s ≤ cap
      (fits → exec (.capWordWrite cap reserve) s = .next { s with cap := cap, reserve := reserve })
        ∧ (¬fits → ∃ v < 16, exec (.capWordWrite cap reserve) s
            = .next { s with mgmtLog := s.mgmtLog ++ [2 ^ 33], msix := s.msix ++ [(64, v)] }))
    ∧ (∀ (s : State) (c b : Nat),
      let fits := c < 32 ∧ b < 65536 ∧ budgetSum s - tget 480 s.budgets c + b + s.reserve ≤ s.cap
      (fits → ∃ t, exec (.budgetWordWrite c b) s = .next t ∧ tget 480 t.budgets c = b
          ∧ (∀ q, q ≠ c → tget 480 t.budgets q = tget 480 s.budgets q) ∧ t.cap = s.cap ∧ t.leaveHeld = s.leaveHeld)
        ∧ (¬fits → ∃ t, exec (.budgetWordWrite c b) s = .next t ∧ t.budgets = s.budgets ∧ t.mgmtLog.length = s.mgmtLog.length + 1))
    ∧ (∀ (s : State) (c base len : Nat),
      let fits := (ctxOf s c).live = true ∧ (ctxOf s c).userPages + len ≤ 2 ^ 26
      (fits → ∃ t, exec (.tokenPageRegister c base len) s = .next t ∧ (ctxOf t c).pages = (ctxOf s c).pages ++ [(base, len)]
          ∧ (ctxOf t c).userPages = (ctxOf s c).userPages + len ∧ (∀ q, q ≠ c → ctxOf t q = ctxOf s q) ∧ t.near = s.near)
        ∧ (¬fits → exec (.tokenPageRegister c base len) s = .next s))
    ∧ (∀ (s : State) (a len : Nat),
      let pls := (List.range len).map fun i => (⟨.near, a + i⟩ : Place)
      let u := { s with cur := .super 0 }
      ∃ t, exec (.hostCxlMemAccess a len none) s = .next t
        ∧ t.hostReads = s.hostReads ++ [(pls.map (fun pl => if pl.addr < 12 * 2 ^ 37 then rdByte s pl else 0xFF),
            pls.any fun pl => decide (pl.addr < 12 * 2 ^ 37) && placePoison u pl)]
        ∧ t.cur = s.cur ∧ ∀ pl, rdByte t pl = rdByte s pl)
    ∧ (∀ (s : State) (a len : Nat) (bs : List Byte),
      let pls := (List.range len).map fun i => (⟨.near, a + i⟩ : Place)
      bs.length = len → a + len ≤ 12 * 2 ^ 37 → (pls.all fun pl => (atomDrops { s with cur := .super 0 } [pl]).isEmpty) = true →
      ∃ t, exec (.hostCxlMemAccess a len (some bs)) s = .next t ∧ SameBytes s t pls
        ∧ ∀ i < len, rdByte t ⟨.near, a + i⟩ = if sealedPlace s ⟨.near, a + i⟩ then rdByte s ⟨.near, a + i⟩ else bs.getD i 0)
    ∧ ∀ (s : State) (a : Nat) (bs : List Byte), ∃ t, exec (.hostLineChange a bs) s = .next t
      ∧ (∀ i < bs.length, rdByte t ⟨.host, a + i⟩ = bs.getD i 0) ∧ SameBytes s t ((List.range bs.length).map fun i => ⟨.host, a + i⟩)

/-- R298, R322, R331, R375, R443, R275: CONTEXT_CREATE makes a context with its parameters and starts its command stream, or loads and starts a
supervisor stream, each die's under a number of its own whose CTX field is 0xFFF (log 29); both once a bring-up has reached them (log 30);
CONTEXT_TEARDOWN leaves no task, collective, live slot, frame or core of it; a core that faults ends its tasks, reports their points failed and leaves
its stage. -/
def Says.ContextsLive : Prop :=
  (∀ (s s1 : State) (c : CtxParams) (k : KReg),
      let p := Party.stream c.die c.ctx
      let base := c.saveBase / 65536 * 65536
      let n := (c.saveBase % 65536 + c.saveLen + 65535) / 65536
      c.ctx < 64 → c.die < 4 → (ctxOf s c.ctx).live = false → s.bringup = 0xFF → (∀ i < n, nearOk (base + 65536 * i) = true) →
      makeSlot s p c.ctx .near 0 c.saveBase c.saveLen 0xC
        ((List.range n).map fun i => (base + 65536 * i, true, 0, 0, base + 65536 * i, 0)) = .done s1 k →
      ∃ t, exec (.contextCreate c) s = .next t ∧ (ctxOf t c.ctx).live = true ∧ (ctxOf t c.ctx).params = c ∧ (ctxOf t c.ctx).saveSlot = kSlot k
        ∧ (taskOf t p).status = .run ∧ (taskOf t p).pc = c.bufOff / 8 ∧ (taskOf t p).ctx = c.ctx ∧ (taskOf t p).buf.bits = c.bufTok
        ∧ (taskOf t p).x = [] ∧ (taskOf t p).cp = true ∧ ∀ q, q ≠ c.ctx → ctxOf t q = ctxOf s1 q)
    ∧ (∀ (s : State) (c : CtxParams), c.ctx = 0xFFF → c.die < 4 →
      let n := 0xFFF + 4096 * c.die
      ∃ t, exec (.contextCreate c) s = .next t ∧ (ctxOf t n).live = true
        ∧ (ctxOf t n).params = { c with saveBase := 0, saveLen := 0, timeline := 0, dbg := 0 } ∧ (dieOf t c.die).superEntry = c.entry
        ∧ (dieOf t c.die).ringTok.bits = c.ringTok ∧ (taskOf t (.super c.die)).status = .run ∧ (taskOf t (.super c.die)).pc = c.bufOff / 8
        ∧ (taskOf t (.super c.die)).ctx = n ∧ (taskOf t (.super c.die)).buf.bits = c.bufTok ∧ t.trust.log.length = s.trust.log.length + 1
        ∧ ∀ q, q ≠ n → ctxOf t q = ctxOf s q)
    ∧ (∀ (s : State) (c : CtxParams), ¬(c.ctx = 0xFFF ∧ c.die < 4) → 64 ≤ c.ctx ∨ 4 ≤ c.die ∨ (ctxOf s c.ctx).live = true ∨ s.bringup ≠ 0xFF →
      exec (.contextCreate c) s = .next s)
    ∧ (∀ (s : State) (c : Nat), (ctxOf s c).live = true → c < 64 →
      ∃ t, exec (.contextTeardown c) s = .next t ∧ ctxOf t c = Ctx.fresh
        ∧ (∀ k < 512, ∀ n < 4, (taskOf t (.slot k n)).status = .idle ∨ (taskOf t (.slot k n)).ctx ≠ c)
        ∧ (∀ x ∈ t.colls, x.ctx ≠ c) ∧ (∀ g ∈ t.groups, g.2.ctx ≠ c) ∧ (∀ x ∈ t.shelf, x.1 ≠ c)
        ∧ (∀ x ∈ t.owners, x.2 ≠ c + 1) ∧ (∀ k, (coreOf t k).owner ≠ c)
        ∧ ∀ n, (slotOf t n).state = .live → (slotOf t n).ctx = c → n ∈ t.revokeQ)
    ∧ (∀ (s : State) (c : Nat), (ctxOf s c).live = false ∨ 64 ≤ c → exec (.contextTeardown c) s = .next s)
    ∧ (∀ (s : State) (c : Nat), c < 512 → (coreOf s c).dead = false →
      ∃ t, exec (.coreFault c) s = .next t ∧ (coreOf t c).dead = true ∧ (coreOf t c).stage = none
        ∧ (∀ n < 4, (taskOf t (.slot c n)).status = .idle)
        ∧ ∀ n < 4, ∀ d l, (taskOf s (.slot c n)).status ≠ .idle → (taskOf s (.slot c n)).launch = some (d, l) →
            ∀ g ∈ (launchOf t d l).flying, g.point = (taskOf s (.slot c n)).point → g.failed = true)
    ∧ ∀ (s : State) (c : Nat), 512 ≤ c ∨ (coreOf s c).dead = true → exec (.coreFault c) s = .next s

/-- R375-R378: CONTEXT_SWITCH_CUT stops a context's tasks on a die at their words; when its streams are quiet and its accesses have ended, the context
leaves the die: its windows and cores go to the shelf and the cores are free. CONTEXT_RESTORE puts each where its mapping says, and the tasks run on
at the same word (where no page reply or held completion is taken with it). The form of the switch is log 45. -/
def Says.ContextSwitch : Prop :=
  (∀ (s : State) (d c : Nat),
      let cores := ctxCores s d c
      (ctxOf s c).live = true → (ctxOf s c).off.contains d = false → d < 4 → cutReady (beginCut s c cores) cores = true →
      ∃ t, exec (.contextSwitchCut d c) s = .next t ∧ (ctxOf t c).off = (ctxOf s c).off ++ [d]
        ∧ (∀ k ∈ cores, (coreOf t k).bound = none ∧ (coreOf t k).mem = [] ∧ (coreOf t k).tiles = [] ∧ (coreOf t k).dead = (coreOf s k).dead
            ∧ ∃ x ∈ t.coreShelf, x.1 = c ∧ x.2.1 = k ∧ x.2.2.bound = (coreOf s k).bound ∧ x.2.2.residents = (coreOf s k).residents)
        ∧ (∀ k ∈ cores, ∀ n < 4, (taskOf t (.slot k n)).status = .idle
            ∧ ((taskOf s (.slot k n)).status ≠ .idle → ∃ x ∈ t.shelf, x.1 = c ∧ x.2.1 = partyKey (.slot k n)
                ∧ x.2.2.pc = (taskOf s (.slot k n)).pc ∧ x.2.2.x = (taskOf s (.slot k n)).x ∧ x.2.2.t = (taskOf s (.slot k n)).t)))
    ∧ (∀ (s : State) (d c : Nat),
      let cores := ctxCores s d c
      (ctxOf s c).live = true → (ctxOf s c).off.contains d = false → d < 4 → cutReady (beginCut s c cores) cores = false →
      ∃ t, exec (.contextSwitchCut d c) s = .next t ∧ (ctxOf t c).off = (ctxOf s c).off
        ∧ ∀ k ∈ cores, ∀ n < 4, (taskOf s (.slot k n)).status = .run → cuttable (taskOf s (.slot k n)).wait = true →
            (taskOf t (.slot k n)).status = .cut ∧ (taskOf t (.slot k n)).pc = (taskOf s (.slot k n)).pc)
    ∧ (∀ (s : State) (d c : Nat), (ctxOf s c).live = false ∨ (ctxOf s c).off.contains d = true ∨ 4 ≤ d → exec (.contextSwitchCut d c) s = .next s)
    ∧ (∀ (s : State) (d c : Nat) (move : List (Nat × Nat)),
      let olds := s.coreShelf.filter fun x => decide (x.1 = c) && decide (x.2.1 / 128 = d)
      let wins := s.shelf.filter fun x => decide (x.1 = c) && decide (x.2.1 % 4096 / 512 = d)
      let target := fun k : Nat => 4 * moved move (k % 4096 / 4) + k % 4
      (ctxOf s c).off.contains d = true → moveOk s d c move = true → (∀ x ∈ (dieOf s d).launches, x.2.heldDone = []) →
      (∀ g ∈ s.groups, g.2.ctx ≠ c) → (olds.map (·.2.1)).Nodup →
      (wins.map fun x => (decide (4096 ≤ x.2.1), target x.2.1)).Nodup →
      ∃ t, exec (.contextRestore d c move) s = .next t ∧ (ctxOf t c).off = (ctxOf s c).off.filter (· != d)
        ∧ (∀ x ∈ olds, (coreOf t (moved move x.2.1)).bound = x.2.2.bound ∧ (coreOf t (moved move x.2.1)).tiles = x.2.2.tiles
            ∧ (coreOf t (moved move x.2.1)).ticks = x.2.2.ticks)
        ∧ (∀ x ∈ wins, x.2.1 < 4096 →
            let w := tget Task.fresh t.tasks (target x.2.1)
            w.status = (if x.2.2.status = .cut then .run else x.2.2.status) ∧ w.pc = x.2.2.pc ∧ w.x = x.2.2.x ∧ w.v = x.2.2.v ∧ w.t = x.2.2.t)
        ∧ (∀ x ∈ t.coreShelf, ¬(x.1 = c ∧ x.2.1 / 128 = d)))
    ∧ ∀ (s : State) (d c : Nat) (move : List (Nat × Nat)), (ctxOf s c).off.contains d = false ∨ moveOk s d c move = false →
      exec (.contextRestore d c move) s = .next s

/-! ## Debugging (spec 16) and trust (spec 20) -/

/-- R374, R382, R384: a debug event under STOP stops every core of its launch with one frame; a full block of the Gallery goes to its
spill area, or the Gallery stops; the oldest frame is written to the supervisor's ring at its next free place. -/
def Says.DebugEvents : Prop :=
  (∀ (s : State) (d l : Nat) (p : Party),
      (launchTasks s d l).find? (fun p => decide ((taskOf s p).status = .held)) = some p → (launchOf s d l).stopHeld = false →
      (launchOf s d l).dbg.stop = true →
      ∃ t, exec (.debugStop d l) s = .next t ∧ (launchOf t d l).stopHeld = true
        ∧ (∀ c, (coreOf s c).bound = some (d, l) → (coreOf t c).stopped = true ∧ (coreOf t c).mem = (coreOf s c).mem)
        ∧ (dieOf t (dieNo p)).frames.length = (dieOf s (dieNo p)).frames.length + 1 ∧ t.near = s.near)
    ∧ (∀ (s : State) (d l : Nat), (∀ p ∈ launchTasks s d l, (taskOf s p).status ≠ .held) → exec (.debugStop d l) s = .next s)
    ∧ (∀ (s : State) (c : Nat), 32768 ≤ (coreOf s c).gal.length → galFrozen (coreOf s c) = false → (coreOf s c).galLost = false →
      (galSpillAt s c = none → ∃ t, exec (.gallerySpill c) s = .next t ∧ (coreOf t c).galLost = true ∧ (coreOf t c).gal = (coreOf s c).gal
          ∧ t.near = s.near)
        ∧ (∀ k off, galSpillAt s c = some (k, off) →
            let pls := (List.range 32768).map fun i => kPlace s k (off + i)
            pls.all (openPlace s) = true → pls.Nodup →
            ∃ t, exec (.gallerySpill c) s = .next t ∧ (coreOf t c).gal = (coreOf s c).gal.drop 32768
              ∧ pls.map (rdByte t) = (coreOf s c).gal.take 32768 ∧ SameBytes s t pls))
    ∧ (∀ (s : State) (c : Nat), (coreOf s c).gal.length < 32768 ∨ galFrozen (coreOf s c) = true ∨ (coreOf s c).galLost = true →
      exec (.gallerySpill c) s = .next s)
    ∧ (∀ (s : State) (d i n : Nat) (f : Frame),
      let e := dieOf s d
      let pls := (List.range 64).map fun j => kPlace s e.ringTok (64 * n + j)
      indexWhere (fun f : Frame => f.written.isNone) e.frames = some i → e.frames[i]? = some f → ringPlace e = some n →
      (access s e.ringTok ((64 * n : Nat) : Int) 64 true).flag = 0 → pls.all (openPlace s) = true → pls.Nodup →
      ∃ t, exec (.supervisorFrameWrite d) s = .next t ∧ (dieOf t d).ringNext = (n + 1) % 256
        ∧ (dieOf t d).frames[i]? = some { f with written := some n } ∧ SameBytes s t pls
        ∧ pls.map (rdByte t) = leBytes 2 (f.ctx % 4096) ++ leBytes 2 f.core ++ leBytes 1 f.slot ++ leBytes 1 f.info.cause ++ leBytes 1 f.info.detail
            ++ leBytes 1 f.info.level ++ leBytes 8 f.word ++ leBytes 8 f.info.va ++ leBytes 8 f.info.gpa ++ leBytes 2 f.info.mask
            ++ List.replicate 30 0)
    ∧ ∀ (s : State) (d : Nat), (∀ f ∈ (dieOf s d).frames, f.written ≠ none) → exec (.supervisorFrameWrite d) s = .next s

/-- R420-R422, R426: POWER_ON takes the module through the first steps of a bring-up, with all memory zero, the waiting firmware running and three
parts measured, or stops at a failed step, whose number BRINGUP shows (which one is the model's open value, log 30); BRINGUP reads 0 until the
dies' supervisors are loaded and the host link has trained (log 30). Power loss keeps the fuses and the host's memory, and the firmware's store
(logs 30, 53); the identity is the model's open value (log 5). Only a verified image of no older version waits. Each SPDM request of a function is
answered once and changes nothing else; a measurement is the running image's, with the identity key's signature. The answers' bytes, the signature
and the sessions' form are log 9's. -/
def Says.TrustAndPower : Prop :=
  (∀ s : State, s.powered = false →
      let k := Config.bringupFails s.freeNo
      let failed := 1 ≤ k.toNat ∧ k.toNat ≤ 8
      ∃ t, exec .powerOn s = .next t
        ∧ t.powered = (if failed then false else true) ∧ t.bringup = (if failed then k else 0)
        ∧ t.trust.running = (if failed then s.trust.running else nextFirmware s.trust)
        ∧ t.trust.waiting = (if failed then s.trust.waiting else [])
        ∧ t.trust.log.map (·.1) = (if failed then [] else [1, 2, 4])
        ∧ (∀ pl, pl.space ≠ .host → rdByte t pl = 0) ∧ (∀ n, slotOf t n = PinSlot.fresh) ∧ (∀ p, (taskOf t p).status = .idle)
        ∧ t.host = s.host ∧ t.fuses = s.fuses ∧ (¬failed → t.identity = (Config.identity s.freeNo).toNat))
    ∧ (∀ s : State, s.powered = true → exec .powerOn s = .next s)
    ∧ (∀ s : State, ∃ t, exec .powerLoss s = .next t ∧ t.powered = false ∧ t.bringup = 0 ∧ t.near = [] ∧ t.far = [] ∧ t.tasks = []
      ∧ t.cores = [] ∧ t.slots = [] ∧ t.ctxs = [] ∧ t.host = s.host ∧ t.fuses = s.fuses ∧ t.trust.running = s.trust.running
      ∧ t.trust.minVersion = s.trust.minVersion ∧ t.trust.sessions = [] ∧ t.trust.ide = false)
    ∧ (∀ (s : State) (img : FwImage),
      let w := if Config.fwVerifies Config.signingKey img = true ∧ s.trust.minVersion ≤ img.version then
          s.trust.waiting.filter (fun w => w.part != img.part) ++ [img]
        else s.trust.waiting
      exec (.firmwareUpdateLoad img) s = .next { s with trust := { s.trust with waiting := w } })
    ∧ (∀ (s : State) (fn x : Nat), fn ≤ 64 →
      let sent := fun (code : Nat) (b : List Byte) (i : Instr) =>
        exec i s = .next { s with trust := { s.trust with answers := s.trust.answers ++ [(code, fn, b)] } }
      let signed := fun b : List Byte => b ++ leBytes 7856 (Config.signature b).toNat
      sent 0x84 (Config.spdmAnswer 0x84 fn 0) (.getVersion fn) ∧ sent 0xE1 (Config.spdmAnswer 0xE1 fn 0) (.getCapabilities fn)
        ∧ sent 0xE3 (Config.spdmAnswer 0xE3 fn 0) (.negotiateAlgorithms fn)
        ∧ sent 0x81 (leBytes 48 (Config.sha384 Config.certChain).toNat) (.getDigests fn)
        ∧ sent 0x82 Config.certChain (.getCertificate fn) ∧ sent 0x83 (signed (Config.spdmAnswer 0x83 fn x)) (.challenge fn x)
        ∧ (∀ img, x ≠ 3 → s.trust.running.find? (fun i => decide (i.part = x)) = some img →
            sent 0xE0 (signed (leBytes 48 img.digest.toNat)) (.getMeasurements fn x))
        ∧ (x ≠ 3 → s.trust.running.find? (fun i => decide (i.part = x)) = none →
            sent 0xE0 (signed (leBytes 48 (Config.measured x s.fuses).toNat)) (.getMeasurements fn x))
        ∧ ((s.trust.log.any fun e => decide (e.1 = 3)) = true → x = 3 → sent 0xE0 (signed (leBytes 48 (Config.sha384
            ((s.trust.log.filter fun e => decide (e.1 = 3)).flatMap fun e => leBytes 48 e.2.toNat)).toNat)) (.getMeasurements fn x)))
    ∧ (∀ (s : State) (fn x : Nat), fn ≤ 64 →
      let signed := fun b : List Byte => b ++ leBytes 7856 (Config.signature b).toNat
      let n := tget 0 s.trust.sessions fn
      (∃ t, exec (.keyExchange fn x) s = .next t ∧ tget 0 t.trust.sessions fn = 1 ∧ (∀ q, q ≠ fn → tget 0 t.trust.sessions q = tget 0 s.trust.sessions q)
          ∧ t.trust.answers = s.trust.answers ++ [(0xE4, fn, signed (Config.spdmAnswer 0xE4 fn x))] ∧ t.near = s.near ∧ t.tasks = s.tasks)
        ∧ ∃ t, exec (.finish fn) s = .next t ∧ tget 0 t.trust.sessions fn = (if n = 1 then 2 else n)
          ∧ (n = 1 → fn = 64 → t.trust.ide = true)
          ∧ t.trust.answers = s.trust.answers ++ [(0xE5, fn, Config.spdmAnswer 0xE5 fn n)] ∧ t.near = s.near ∧ t.tasks = s.tasks)
    ∧ ∀ (s : State) (fn x : Nat), 64 < fn →
      ∀ i ∈ [Instr.getVersion fn, .getCapabilities fn, .negotiateAlgorithms fn, .getDigests fn, .getCertificate fn, .challenge fn x,
        .getMeasurements fn x, .keyExchange fn x, .finish fn], exec i s = .next s

/-! ## The parts joined -/

/-- A word that decodes is the encoding of what it decodes to, and reserved bits are refused. -/
def Obligations.WordsDecodeUniquely : Prop := Says.EncodeDecode ∧ Says.ReservedBitsRefused

/-- A visit of a running slot or stream runs the decoded word at its pc (turns are the model's, log 2). -/
def Obligations.StepRunsDecodedWord : Prop := Says.RunsDecodedWord ∧ Says.VisitsRotate

/-- An illegal word traps with the lowest detail that its fields show (logs 39, 47, 58, 62); the traps at issue come in order. -/
def Obligations.TrapsAtIssue : Prop := Says.IllFormedTraps ∧ Says.TrapOrder

/-- A word that is not ready freezes its slot; operands are read at issue (a pending register reads a free value, log 4). -/
def Obligations.SlotsAtIssue : Prop := Says.SlotFreezes ∧ Says.OperandsReadAtIssue

/-- eret restores the trapped task (its saved copy: log 7), and the supervisor returns or ends a party. -/
def Obligations.Returns : Prop := Says.ReturnRestores ∧ Says.EretReturns

/-- Results land on their stair and in D after their latency. -/
def Obligations.ResultsLand : Prop := Says.ResultLands ∧ Says.VectorResultLands

/-- Integer sums and products (log 54), the immediate words, and the copies of a named register. -/
def Obligations.SumsImmediatesCopies : Prop := Says.IntegerSums ∧ Says.Immediates ∧ Says.NameCopies

/-- csrr and csrw on every CSR of a task and of the Porter. -/
def Obligations.CsrAccess : Prop := Says.CsrWords ∧ Says.CsrWritesLand

/-- Branches, jumps, calls and returns, inside loops and out (targets modulo 2^48: log 58). -/
def Obligations.ControlTransfers : Prop := Says.Transfers ∧ Says.TransfersInLoops

/-- Hardware loops open, iterate and end. -/
def Obligations.HardwareLoops : Prop := Says.LoopOpens ∧ Says.LoopIterates ∧ Says.LoopEnds

/-- halt, nop, the waits, trap and bkpt. -/
def Obligations.HaltAndTrapWords : Prop := Says.HaltAndWaits ∧ Says.TrapWordsTrap

/-- Gallery words and spill, debug stops, supervisor frames. -/
def Obligations.GalleryAndDebug : Prop := Says.GalleryWords ∧ Says.DebugEvents

/-- Loads deliver memory's bits as at issue (log 6; tags: log 58); failed checks give zero and a flag. -/
def Obligations.Loads : Prop := Says.LoadsDeliver ∧ Says.LoadsFail

/-- Stores post their bytes (tags: log 58); a failed check posts none of its element. -/
def Obligations.Stores : Prop := Says.StoresPost ∧ Says.StoresFail

/-- The element-wise vector arithmetic words (special functions: log 11; minima and maxima unrounded: log 58). -/
def Obligations.VectorArithmetic : Prop := Says.VectorIntegers ∧ Says.VectorFloats

/-- Reductions and mask words. -/
def Obligations.ReductionsAndMasks : Prop := Says.Reductions ∧ Says.MaskWords

/-- Series are formed, shifted and added, to the order of their destination. -/
def Obligations.SeriesFormedAndAdded : Prop := Says.SeriesFormed ∧ Says.SeriesAdded

/-- Fences, and the atomic words at their home. -/
def Obligations.FencesAndAtomics : Prop := Says.Fences ∧ Says.Atomics

/-- Semaphores and timelines (the latency of tlsig: log 17). -/
def Obligations.SemaphoresAndTimelines : Prop := Says.Semaphores ∧ Says.Timelines

/-- Token arithmetic, translation words and the replies to their page requests. -/
def Obligations.TokenWords : Prop := Says.TokenArithmetic ∧ Says.TranslationWords ∧ Says.PageReplies

/-- Revocation and sealing. -/
def Obligations.RevocationAndSeals : Prop := Says.Revocation ∧ Says.Seals

/-- Engine streams start, report, end and jump; power leave. -/
def Obligations.EngineStreams : Prop := Says.EngineWords ∧ Says.StreamControl

/-- Each issue of the copy engine's records moves exactly its bytes (an issue is a visit: log 23). -/
def Obligations.MoveRecords : Prop := Says.CopyRecords ∧ Says.DecompressRecords

/-- The matrix array adds A times B to its tile; the epilogue drains it (when a record acts: logs 23, 41). -/
def Obligations.MatrixAndDrain : Prop := Says.MatrixRecords ∧ Says.DrainRecords

/-- Multicast, qsend, qtake, stage, and the Usher's moves (a partly sealed multicast: log 58). -/
def Obligations.Clusters : Prop := Says.ClusterWords ∧ Says.ClusterEvents

/-- Points fire in the frontier, entries spill and return, and tasks start or resume (logs 24, 37, 60). -/
def Obligations.FrontierAndStarts : Prop := Says.Firing ∧ Says.SpilledEntries ∧ Says.TasksStart

/-- launch, ptc, frstat, frsave and frload. -/
def Obligations.LaunchesAndLandings : Prop := Says.LaunchWords ∧ Says.Landings

/-- Launches bind, end and are pre-empted. -/
def Obligations.BindingAndPreemption : Prop := Says.LaunchesBindAndEnd ∧ Says.Preemption

/-- The Porter's words and its streams' start, stop and fetch. -/
def Obligations.PorterStreams : Prop := Says.PorterWords ∧ Says.StreamsStart

/-- Collectives and rings (orders and operands at a peer: logs 27, 28, 36). -/
def Obligations.CollectivesAndRings : Prop := Says.CollectiveIds ∧ Says.CollectiveSteps ∧ Says.CollectiveEnds ∧ Says.RingsForm

/-- Hall links, exports and peer answers (the wire format choices are the model's, logs 14, 15, 27, 49). -/
def Obligations.LinksAndPeers : Prop := Says.FlitsCarryMessages ∧ Says.Links ∧ Says.ExportsServe ∧ Says.PeerAnswers

/-- Tier swaps, tierpf, and the controllers' words (choices within them: logs 40, 43, 44, 58). -/
def Obligations.MemoryPackage : Prop := Says.SwapPairs ∧ Says.TierRequests ∧ Says.Channels

/-- Contexts are created, torn down, cut and restored; a core faults (supervisors: log 29; the switch: log 45). -/
def Obligations.Contexts : Prop := Says.ContextsLive ∧ Says.ContextSwitch

/-- Power words, host accesses, bring-up, firmware and SPDM answers (logs 5, 9, 30, 33, 34, 53). -/
def Obligations.ManagementAndTrust : Prop := Says.ManagementWords ∧ Says.TrustAndPower
end

