-- ==== Sys2Proof/Laws/State.lean ====
section
/-! SUPPORT. What each update of State leaves alone, field by field. -/

namespace Sys2Proof.Machine

section
variable (s : State) (p : Party) (t : Task)
@[simp] theorem putTask_powered : (putTask s p t).powered = s.powered := rfl
@[simp] theorem putTask_bringup : (putTask s p t).bringup = s.bringup := rfl
@[simp] theorem putTask_fuses : (putTask s p t).fuses = s.fuses := rfl
@[simp] theorem putTask_clock : (putTask s p t).clock = s.clock := rfl
@[simp] theorem putTask_turnAt : (putTask s p t).turnAt = s.turnAt := rfl
@[simp] theorem putTask_sched : (putTask s p t).sched = s.sched := rfl
@[simp] theorem putTask_turnNo : (putTask s p t).turnNo = s.turnNo := rfl
@[simp] theorem putTask_freeNo : (putTask s p t).freeNo = s.freeNo := rfl
@[simp] theorem putTask_moved : (putTask s p t).moved = s.moved := rfl
@[simp] theorem putTask_runNo : (putTask s p t).runNo = s.runNo := rfl
@[simp] theorem putTask_cur : (putTask s p t).cur = s.cur := rfl
@[simp] theorem putTask_near : (putTask s p t).near = s.near := rfl
@[simp] theorem putTask_far : (putTask s p t).far = s.far := rfl
@[simp] theorem putTask_host : (putTask s p t).host = s.host := rfl
@[simp] theorem putTask_nearTags : (putTask s p t).nearTags = s.nearTags := rfl
@[simp] theorem putTask_farTags : (putTask s p t).farTags = s.farTags := rfl
@[simp] theorem putTask_nearPoison : (putTask s p t).nearPoison = s.nearPoison := rfl
@[simp] theorem putTask_farPoison : (putTask s p t).farPoison = s.farPoison := rfl
@[simp] theorem putTask_hostPoison : (putTask s p t).hostPoison = s.hostPoison := rfl
@[simp] theorem putTask_nearErr : (putTask s p t).nearErr = s.nearErr := rfl
@[simp] theorem putTask_farErr : (putTask s p t).farErr = s.farErr := rfl
@[simp] theorem putTask_pcStat : (putTask s p t).pcStat = s.pcStat := rfl
@[simp] theorem putTask_erasure : (putTask s p t).erasure = s.erasure := rfl
@[simp] theorem putTask_gang : (putTask s p t).gang = s.gang := rfl
@[simp] theorem putTask_lostFrames : (putTask s p t).lostFrames = s.lostFrames := rfl
@[simp] theorem putTask_slots : (putTask s p t).slots = s.slots := rfl
@[simp] theorem putTask_words : (putTask s p t).words = s.words := rfl
@[simp] theorem putTask_sweepSet : (putTask s p t).sweepSet = s.sweepSet := rfl
@[simp] theorem putTask_revokeQ : (putTask s p t).revokeQ = s.revokeQ := rfl
@[simp] theorem putTask_sealRuns : (putTask s p t).sealRuns = s.sealRuns := rfl
@[simp] theorem putTask_owners : (putTask s p t).owners = s.owners := rfl
@[simp] theorem putTask_pinCold : (putTask s p t).pinCold = s.pinCold := rfl
@[simp] theorem putTask_slices : (putTask s p t).slices = s.slices := rfl
@[simp] theorem putTask_sliceFixed : (putTask s p t).sliceFixed = s.sliceFixed := rfl
@[simp] theorem putTask_detector : (putTask s p t).detector = s.detector := rfl
@[simp] theorem putTask_images : (putTask s p t).images = s.images := rfl
@[simp] theorem putTask_cap : (putTask s p t).cap = s.cap := rfl
@[simp] theorem putTask_reserve : (putTask s p t).reserve = s.reserve := rfl
@[simp] theorem putTask_budgets : (putTask s p t).budgets = s.budgets := rfl
@[simp] theorem putTask_hot : (putTask s p t).hot = s.hot := rfl
@[simp] theorem putTask_hotStacks : (putTask s p t).hotStacks = s.hotStacks := rfl
@[simp] theorem putTask_leaveQ : (putTask s p t).leaveQ = s.leaveQ := rfl
@[simp] theorem putTask_leaveHeld : (putTask s p t).leaveHeld = s.leaveHeld := rfl
@[simp] theorem putTask_ctxs : (putTask s p t).ctxs = s.ctxs := rfl
@[simp] theorem putTask_groups : (putTask s p t).groups = s.groups := rfl
@[simp] theorem putTask_cores : (putTask s p t).cores = s.cores := rfl
@[simp] theorem putTask_saved : (putTask s p t).saved = s.saved := rfl
@[simp] theorem putTask_shelf : (putTask s p t).shelf = s.shelf := rfl
@[simp] theorem putTask_coreShelf : (putTask s p t).coreShelf = s.coreShelf := rfl
@[simp] theorem putTask_dies : (putTask s p t).dies = s.dies := rfl
@[simp] theorem putTask_identity : (putTask s p t).identity = s.identity := rfl
@[simp] theorem putTask_routes : (putTask s p t).routes = s.routes := rfl
@[simp] theorem putTask_exports : (putTask s p t).exports = s.exports := rfl
@[simp] theorem putTask_links : (putTask s p t).links = s.links := rfl
@[simp] theorem putTask_eseqOut : (putTask s p t).eseqOut = s.eseqOut := rfl
@[simp] theorem putTask_eseqIn : (putTask s p t).eseqIn = s.eseqIn := rfl
@[simp] theorem putTask_inbox : (putTask s p t).inbox = s.inbox := rfl
@[simp] theorem putTask_outbox : (putTask s p t).outbox = s.outbox := rfl
@[simp] theorem putTask_wire : (putTask s p t).wire = s.wire := rfl
@[simp] theorem putTask_early : (putTask s p t).early = s.early := rfl
@[simp] theorem putTask_hostReads : (putTask s p t).hostReads = s.hostReads := rfl
@[simp] theorem putTask_discarded : (putTask s p t).discarded = s.discarded := rfl
@[simp] theorem putTask_peers : (putTask s p t).peers = s.peers := rfl
@[simp] theorem putTask_reqNo : (putTask s p t).reqNo = s.reqNo := rfl
@[simp] theorem putTask_rings : (putTask s p t).rings = s.rings := rfl
@[simp] theorem putTask_colls : (putTask s p t).colls = s.colls := rfl
@[simp] theorem putTask_hellos : (putTask s p t).hellos = s.hellos := rfl
@[simp] theorem putTask_trust : (putTask s p t).trust = s.trust := rfl
@[simp] theorem putTask_msix : (putTask s p t).msix = s.msix := rfl
@[simp] theorem putTask_mgmtLog : (putTask s p t).mgmtLog = s.mgmtLog := rfl
@[simp] theorem putTask_mgmtReads : (putTask s p t).mgmtReads = s.mgmtReads := rfl
@[simp] theorem putTask_hostRate : (putTask s p t).hostRate = s.hostRate := rfl
@[simp] theorem putTask_hostLanes : (putTask s p t).hostLanes = s.hostLanes := rfl
end

section
variable (s : State) (p : Party) (f : Task → Task)
@[simp] theorem mapTask_powered : (mapTask s p f).powered = s.powered := rfl
@[simp] theorem mapTask_bringup : (mapTask s p f).bringup = s.bringup := rfl
@[simp] theorem mapTask_fuses : (mapTask s p f).fuses = s.fuses := rfl
@[simp] theorem mapTask_clock : (mapTask s p f).clock = s.clock := rfl
@[simp] theorem mapTask_turnAt : (mapTask s p f).turnAt = s.turnAt := rfl
@[simp] theorem mapTask_sched : (mapTask s p f).sched = s.sched := rfl
@[simp] theorem mapTask_turnNo : (mapTask s p f).turnNo = s.turnNo := rfl
@[simp] theorem mapTask_freeNo : (mapTask s p f).freeNo = s.freeNo := rfl
@[simp] theorem mapTask_moved : (mapTask s p f).moved = s.moved := rfl
@[simp] theorem mapTask_runNo : (mapTask s p f).runNo = s.runNo := rfl
@[simp] theorem mapTask_cur : (mapTask s p f).cur = s.cur := rfl
@[simp] theorem mapTask_near : (mapTask s p f).near = s.near := rfl
@[simp] theorem mapTask_far : (mapTask s p f).far = s.far := rfl
@[simp] theorem mapTask_host : (mapTask s p f).host = s.host := rfl
@[simp] theorem mapTask_nearTags : (mapTask s p f).nearTags = s.nearTags := rfl
@[simp] theorem mapTask_farTags : (mapTask s p f).farTags = s.farTags := rfl
@[simp] theorem mapTask_nearPoison : (mapTask s p f).nearPoison = s.nearPoison := rfl
@[simp] theorem mapTask_farPoison : (mapTask s p f).farPoison = s.farPoison := rfl
@[simp] theorem mapTask_hostPoison : (mapTask s p f).hostPoison = s.hostPoison := rfl
@[simp] theorem mapTask_nearErr : (mapTask s p f).nearErr = s.nearErr := rfl
@[simp] theorem mapTask_farErr : (mapTask s p f).farErr = s.farErr := rfl
@[simp] theorem mapTask_pcStat : (mapTask s p f).pcStat = s.pcStat := rfl
@[simp] theorem mapTask_erasure : (mapTask s p f).erasure = s.erasure := rfl
@[simp] theorem mapTask_gang : (mapTask s p f).gang = s.gang := rfl
@[simp] theorem mapTask_lostFrames : (mapTask s p f).lostFrames = s.lostFrames := rfl
@[simp] theorem mapTask_slots : (mapTask s p f).slots = s.slots := rfl
@[simp] theorem mapTask_words : (mapTask s p f).words = s.words := rfl
@[simp] theorem mapTask_sweepSet : (mapTask s p f).sweepSet = s.sweepSet := rfl
@[simp] theorem mapTask_revokeQ : (mapTask s p f).revokeQ = s.revokeQ := rfl
@[simp] theorem mapTask_sealRuns : (mapTask s p f).sealRuns = s.sealRuns := rfl
@[simp] theorem mapTask_owners : (mapTask s p f).owners = s.owners := rfl
@[simp] theorem mapTask_pinCold : (mapTask s p f).pinCold = s.pinCold := rfl
@[simp] theorem mapTask_slices : (mapTask s p f).slices = s.slices := rfl
@[simp] theorem mapTask_sliceFixed : (mapTask s p f).sliceFixed = s.sliceFixed := rfl
@[simp] theorem mapTask_detector : (mapTask s p f).detector = s.detector := rfl
@[simp] theorem mapTask_images : (mapTask s p f).images = s.images := rfl
@[simp] theorem mapTask_cap : (mapTask s p f).cap = s.cap := rfl
@[simp] theorem mapTask_reserve : (mapTask s p f).reserve = s.reserve := rfl
@[simp] theorem mapTask_budgets : (mapTask s p f).budgets = s.budgets := rfl
@[simp] theorem mapTask_hot : (mapTask s p f).hot = s.hot := rfl
@[simp] theorem mapTask_hotStacks : (mapTask s p f).hotStacks = s.hotStacks := rfl
@[simp] theorem mapTask_leaveQ : (mapTask s p f).leaveQ = s.leaveQ := rfl
@[simp] theorem mapTask_leaveHeld : (mapTask s p f).leaveHeld = s.leaveHeld := rfl
@[simp] theorem mapTask_ctxs : (mapTask s p f).ctxs = s.ctxs := rfl
@[simp] theorem mapTask_groups : (mapTask s p f).groups = s.groups := rfl
@[simp] theorem mapTask_cores : (mapTask s p f).cores = s.cores := rfl
@[simp] theorem mapTask_saved : (mapTask s p f).saved = s.saved := rfl
@[simp] theorem mapTask_shelf : (mapTask s p f).shelf = s.shelf := rfl
@[simp] theorem mapTask_coreShelf : (mapTask s p f).coreShelf = s.coreShelf := rfl
@[simp] theorem mapTask_dies : (mapTask s p f).dies = s.dies := rfl
@[simp] theorem mapTask_identity : (mapTask s p f).identity = s.identity := rfl
@[simp] theorem mapTask_routes : (mapTask s p f).routes = s.routes := rfl
@[simp] theorem mapTask_exports : (mapTask s p f).exports = s.exports := rfl
@[simp] theorem mapTask_links : (mapTask s p f).links = s.links := rfl
@[simp] theorem mapTask_eseqOut : (mapTask s p f).eseqOut = s.eseqOut := rfl
@[simp] theorem mapTask_eseqIn : (mapTask s p f).eseqIn = s.eseqIn := rfl
@[simp] theorem mapTask_inbox : (mapTask s p f).inbox = s.inbox := rfl
@[simp] theorem mapTask_outbox : (mapTask s p f).outbox = s.outbox := rfl
@[simp] theorem mapTask_wire : (mapTask s p f).wire = s.wire := rfl
@[simp] theorem mapTask_early : (mapTask s p f).early = s.early := rfl
@[simp] theorem mapTask_hostReads : (mapTask s p f).hostReads = s.hostReads := rfl
@[simp] theorem mapTask_discarded : (mapTask s p f).discarded = s.discarded := rfl
@[simp] theorem mapTask_peers : (mapTask s p f).peers = s.peers := rfl
@[simp] theorem mapTask_reqNo : (mapTask s p f).reqNo = s.reqNo := rfl
@[simp] theorem mapTask_rings : (mapTask s p f).rings = s.rings := rfl
@[simp] theorem mapTask_colls : (mapTask s p f).colls = s.colls := rfl
@[simp] theorem mapTask_hellos : (mapTask s p f).hellos = s.hellos := rfl
@[simp] theorem mapTask_trust : (mapTask s p f).trust = s.trust := rfl
@[simp] theorem mapTask_msix : (mapTask s p f).msix = s.msix := rfl
@[simp] theorem mapTask_mgmtLog : (mapTask s p f).mgmtLog = s.mgmtLog := rfl
@[simp] theorem mapTask_mgmtReads : (mapTask s p f).mgmtReads = s.mgmtReads := rfl
@[simp] theorem mapTask_hostRate : (mapTask s p f).hostRate = s.hostRate := rfl
@[simp] theorem mapTask_hostLanes : (mapTask s p f).hostLanes = s.hostLanes := rfl
end

section
variable (s : State) (c : Nat) (k : Core)
@[simp] theorem putCore_powered : (putCore s c k).powered = s.powered := rfl
@[simp] theorem putCore_bringup : (putCore s c k).bringup = s.bringup := rfl
@[simp] theorem putCore_fuses : (putCore s c k).fuses = s.fuses := rfl
@[simp] theorem putCore_clock : (putCore s c k).clock = s.clock := rfl
@[simp] theorem putCore_turnAt : (putCore s c k).turnAt = s.turnAt := rfl
@[simp] theorem putCore_sched : (putCore s c k).sched = s.sched := rfl
@[simp] theorem putCore_turnNo : (putCore s c k).turnNo = s.turnNo := rfl
@[simp] theorem putCore_freeNo : (putCore s c k).freeNo = s.freeNo := rfl
@[simp] theorem putCore_moved : (putCore s c k).moved = s.moved := rfl
@[simp] theorem putCore_runNo : (putCore s c k).runNo = s.runNo := rfl
@[simp] theorem putCore_cur : (putCore s c k).cur = s.cur := rfl
@[simp] theorem putCore_near : (putCore s c k).near = s.near := rfl
@[simp] theorem putCore_far : (putCore s c k).far = s.far := rfl
@[simp] theorem putCore_host : (putCore s c k).host = s.host := rfl
@[simp] theorem putCore_nearTags : (putCore s c k).nearTags = s.nearTags := rfl
@[simp] theorem putCore_farTags : (putCore s c k).farTags = s.farTags := rfl
@[simp] theorem putCore_nearPoison : (putCore s c k).nearPoison = s.nearPoison := rfl
@[simp] theorem putCore_farPoison : (putCore s c k).farPoison = s.farPoison := rfl
@[simp] theorem putCore_hostPoison : (putCore s c k).hostPoison = s.hostPoison := rfl
@[simp] theorem putCore_nearErr : (putCore s c k).nearErr = s.nearErr := rfl
@[simp] theorem putCore_farErr : (putCore s c k).farErr = s.farErr := rfl
@[simp] theorem putCore_pcStat : (putCore s c k).pcStat = s.pcStat := rfl
@[simp] theorem putCore_erasure : (putCore s c k).erasure = s.erasure := rfl
@[simp] theorem putCore_gang : (putCore s c k).gang = s.gang := rfl
@[simp] theorem putCore_lostFrames : (putCore s c k).lostFrames = s.lostFrames := rfl
@[simp] theorem putCore_slots : (putCore s c k).slots = s.slots := rfl
@[simp] theorem putCore_words : (putCore s c k).words = s.words := rfl
@[simp] theorem putCore_sweepSet : (putCore s c k).sweepSet = s.sweepSet := rfl
@[simp] theorem putCore_revokeQ : (putCore s c k).revokeQ = s.revokeQ := rfl
@[simp] theorem putCore_sealRuns : (putCore s c k).sealRuns = s.sealRuns := rfl
@[simp] theorem putCore_owners : (putCore s c k).owners = s.owners := rfl
@[simp] theorem putCore_pinCold : (putCore s c k).pinCold = s.pinCold := rfl
@[simp] theorem putCore_slices : (putCore s c k).slices = s.slices := rfl
@[simp] theorem putCore_sliceFixed : (putCore s c k).sliceFixed = s.sliceFixed := rfl
@[simp] theorem putCore_detector : (putCore s c k).detector = s.detector := rfl
@[simp] theorem putCore_images : (putCore s c k).images = s.images := rfl
@[simp] theorem putCore_cap : (putCore s c k).cap = s.cap := rfl
@[simp] theorem putCore_reserve : (putCore s c k).reserve = s.reserve := rfl
@[simp] theorem putCore_budgets : (putCore s c k).budgets = s.budgets := rfl
@[simp] theorem putCore_hot : (putCore s c k).hot = s.hot := rfl
@[simp] theorem putCore_hotStacks : (putCore s c k).hotStacks = s.hotStacks := rfl
@[simp] theorem putCore_leaveQ : (putCore s c k).leaveQ = s.leaveQ := rfl
@[simp] theorem putCore_leaveHeld : (putCore s c k).leaveHeld = s.leaveHeld := rfl
@[simp] theorem putCore_ctxs : (putCore s c k).ctxs = s.ctxs := rfl
@[simp] theorem putCore_groups : (putCore s c k).groups = s.groups := rfl
@[simp] theorem putCore_tasks : (putCore s c k).tasks = s.tasks := rfl
@[simp] theorem putCore_saved : (putCore s c k).saved = s.saved := rfl
@[simp] theorem putCore_shelf : (putCore s c k).shelf = s.shelf := rfl
@[simp] theorem putCore_coreShelf : (putCore s c k).coreShelf = s.coreShelf := rfl
@[simp] theorem putCore_dies : (putCore s c k).dies = s.dies := rfl
@[simp] theorem putCore_identity : (putCore s c k).identity = s.identity := rfl
@[simp] theorem putCore_routes : (putCore s c k).routes = s.routes := rfl
@[simp] theorem putCore_exports : (putCore s c k).exports = s.exports := rfl
@[simp] theorem putCore_links : (putCore s c k).links = s.links := rfl
@[simp] theorem putCore_eseqOut : (putCore s c k).eseqOut = s.eseqOut := rfl
@[simp] theorem putCore_eseqIn : (putCore s c k).eseqIn = s.eseqIn := rfl
@[simp] theorem putCore_inbox : (putCore s c k).inbox = s.inbox := rfl
@[simp] theorem putCore_outbox : (putCore s c k).outbox = s.outbox := rfl
@[simp] theorem putCore_wire : (putCore s c k).wire = s.wire := rfl
@[simp] theorem putCore_early : (putCore s c k).early = s.early := rfl
@[simp] theorem putCore_hostReads : (putCore s c k).hostReads = s.hostReads := rfl
@[simp] theorem putCore_discarded : (putCore s c k).discarded = s.discarded := rfl
@[simp] theorem putCore_peers : (putCore s c k).peers = s.peers := rfl
@[simp] theorem putCore_reqNo : (putCore s c k).reqNo = s.reqNo := rfl
@[simp] theorem putCore_rings : (putCore s c k).rings = s.rings := rfl
@[simp] theorem putCore_colls : (putCore s c k).colls = s.colls := rfl
@[simp] theorem putCore_hellos : (putCore s c k).hellos = s.hellos := rfl
@[simp] theorem putCore_trust : (putCore s c k).trust = s.trust := rfl
@[simp] theorem putCore_msix : (putCore s c k).msix = s.msix := rfl
@[simp] theorem putCore_mgmtLog : (putCore s c k).mgmtLog = s.mgmtLog := rfl
@[simp] theorem putCore_mgmtReads : (putCore s c k).mgmtReads = s.mgmtReads := rfl
@[simp] theorem putCore_hostRate : (putCore s c k).hostRate = s.hostRate := rfl
@[simp] theorem putCore_hostLanes : (putCore s c k).hostLanes = s.hostLanes := rfl
end

section
variable (s : State) (c : Nat) (f : Core → Core)
@[simp] theorem mapCore_powered : (mapCore s c f).powered = s.powered := rfl
@[simp] theorem mapCore_bringup : (mapCore s c f).bringup = s.bringup := rfl
@[simp] theorem mapCore_fuses : (mapCore s c f).fuses = s.fuses := rfl
@[simp] theorem mapCore_clock : (mapCore s c f).clock = s.clock := rfl
@[simp] theorem mapCore_turnAt : (mapCore s c f).turnAt = s.turnAt := rfl
@[simp] theorem mapCore_sched : (mapCore s c f).sched = s.sched := rfl
@[simp] theorem mapCore_turnNo : (mapCore s c f).turnNo = s.turnNo := rfl
@[simp] theorem mapCore_freeNo : (mapCore s c f).freeNo = s.freeNo := rfl
@[simp] theorem mapCore_moved : (mapCore s c f).moved = s.moved := rfl
@[simp] theorem mapCore_runNo : (mapCore s c f).runNo = s.runNo := rfl
@[simp] theorem mapCore_cur : (mapCore s c f).cur = s.cur := rfl
@[simp] theorem mapCore_near : (mapCore s c f).near = s.near := rfl
@[simp] theorem mapCore_far : (mapCore s c f).far = s.far := rfl
@[simp] theorem mapCore_host : (mapCore s c f).host = s.host := rfl
@[simp] theorem mapCore_nearTags : (mapCore s c f).nearTags = s.nearTags := rfl
@[simp] theorem mapCore_farTags : (mapCore s c f).farTags = s.farTags := rfl
@[simp] theorem mapCore_nearPoison : (mapCore s c f).nearPoison = s.nearPoison := rfl
@[simp] theorem mapCore_farPoison : (mapCore s c f).farPoison = s.farPoison := rfl
@[simp] theorem mapCore_hostPoison : (mapCore s c f).hostPoison = s.hostPoison := rfl
@[simp] theorem mapCore_nearErr : (mapCore s c f).nearErr = s.nearErr := rfl
@[simp] theorem mapCore_farErr : (mapCore s c f).farErr = s.farErr := rfl
@[simp] theorem mapCore_pcStat : (mapCore s c f).pcStat = s.pcStat := rfl
@[simp] theorem mapCore_erasure : (mapCore s c f).erasure = s.erasure := rfl
@[simp] theorem mapCore_gang : (mapCore s c f).gang = s.gang := rfl
@[simp] theorem mapCore_lostFrames : (mapCore s c f).lostFrames = s.lostFrames := rfl
@[simp] theorem mapCore_slots : (mapCore s c f).slots = s.slots := rfl
@[simp] theorem mapCore_words : (mapCore s c f).words = s.words := rfl
@[simp] theorem mapCore_sweepSet : (mapCore s c f).sweepSet = s.sweepSet := rfl
@[simp] theorem mapCore_revokeQ : (mapCore s c f).revokeQ = s.revokeQ := rfl
@[simp] theorem mapCore_sealRuns : (mapCore s c f).sealRuns = s.sealRuns := rfl
@[simp] theorem mapCore_owners : (mapCore s c f).owners = s.owners := rfl
@[simp] theorem mapCore_pinCold : (mapCore s c f).pinCold = s.pinCold := rfl
@[simp] theorem mapCore_slices : (mapCore s c f).slices = s.slices := rfl
@[simp] theorem mapCore_sliceFixed : (mapCore s c f).sliceFixed = s.sliceFixed := rfl
@[simp] theorem mapCore_detector : (mapCore s c f).detector = s.detector := rfl
@[simp] theorem mapCore_images : (mapCore s c f).images = s.images := rfl
@[simp] theorem mapCore_cap : (mapCore s c f).cap = s.cap := rfl
@[simp] theorem mapCore_reserve : (mapCore s c f).reserve = s.reserve := rfl
@[simp] theorem mapCore_budgets : (mapCore s c f).budgets = s.budgets := rfl
@[simp] theorem mapCore_hot : (mapCore s c f).hot = s.hot := rfl
@[simp] theorem mapCore_hotStacks : (mapCore s c f).hotStacks = s.hotStacks := rfl
@[simp] theorem mapCore_leaveQ : (mapCore s c f).leaveQ = s.leaveQ := rfl
@[simp] theorem mapCore_leaveHeld : (mapCore s c f).leaveHeld = s.leaveHeld := rfl
@[simp] theorem mapCore_ctxs : (mapCore s c f).ctxs = s.ctxs := rfl
@[simp] theorem mapCore_groups : (mapCore s c f).groups = s.groups := rfl
@[simp] theorem mapCore_tasks : (mapCore s c f).tasks = s.tasks := rfl
@[simp] theorem mapCore_saved : (mapCore s c f).saved = s.saved := rfl
@[simp] theorem mapCore_shelf : (mapCore s c f).shelf = s.shelf := rfl
@[simp] theorem mapCore_coreShelf : (mapCore s c f).coreShelf = s.coreShelf := rfl
@[simp] theorem mapCore_dies : (mapCore s c f).dies = s.dies := rfl
@[simp] theorem mapCore_identity : (mapCore s c f).identity = s.identity := rfl
@[simp] theorem mapCore_routes : (mapCore s c f).routes = s.routes := rfl
@[simp] theorem mapCore_exports : (mapCore s c f).exports = s.exports := rfl
@[simp] theorem mapCore_links : (mapCore s c f).links = s.links := rfl
@[simp] theorem mapCore_eseqOut : (mapCore s c f).eseqOut = s.eseqOut := rfl
@[simp] theorem mapCore_eseqIn : (mapCore s c f).eseqIn = s.eseqIn := rfl
@[simp] theorem mapCore_inbox : (mapCore s c f).inbox = s.inbox := rfl
@[simp] theorem mapCore_outbox : (mapCore s c f).outbox = s.outbox := rfl
@[simp] theorem mapCore_wire : (mapCore s c f).wire = s.wire := rfl
@[simp] theorem mapCore_early : (mapCore s c f).early = s.early := rfl
@[simp] theorem mapCore_hostReads : (mapCore s c f).hostReads = s.hostReads := rfl
@[simp] theorem mapCore_discarded : (mapCore s c f).discarded = s.discarded := rfl
@[simp] theorem mapCore_peers : (mapCore s c f).peers = s.peers := rfl
@[simp] theorem mapCore_reqNo : (mapCore s c f).reqNo = s.reqNo := rfl
@[simp] theorem mapCore_rings : (mapCore s c f).rings = s.rings := rfl
@[simp] theorem mapCore_colls : (mapCore s c f).colls = s.colls := rfl
@[simp] theorem mapCore_hellos : (mapCore s c f).hellos = s.hellos := rfl
@[simp] theorem mapCore_trust : (mapCore s c f).trust = s.trust := rfl
@[simp] theorem mapCore_msix : (mapCore s c f).msix = s.msix := rfl
@[simp] theorem mapCore_mgmtLog : (mapCore s c f).mgmtLog = s.mgmtLog := rfl
@[simp] theorem mapCore_mgmtReads : (mapCore s c f).mgmtReads = s.mgmtReads := rfl
@[simp] theorem mapCore_hostRate : (mapCore s c f).hostRate = s.hostRate := rfl
@[simp] theorem mapCore_hostLanes : (mapCore s c f).hostLanes = s.hostLanes := rfl
end

section
variable (s : State) (d : Nat) (f : Die → Die)
@[simp] theorem mapDie_powered : (mapDie s d f).powered = s.powered := rfl
@[simp] theorem mapDie_bringup : (mapDie s d f).bringup = s.bringup := rfl
@[simp] theorem mapDie_fuses : (mapDie s d f).fuses = s.fuses := rfl
@[simp] theorem mapDie_clock : (mapDie s d f).clock = s.clock := rfl
@[simp] theorem mapDie_turnAt : (mapDie s d f).turnAt = s.turnAt := rfl
@[simp] theorem mapDie_sched : (mapDie s d f).sched = s.sched := rfl
@[simp] theorem mapDie_turnNo : (mapDie s d f).turnNo = s.turnNo := rfl
@[simp] theorem mapDie_freeNo : (mapDie s d f).freeNo = s.freeNo := rfl
@[simp] theorem mapDie_moved : (mapDie s d f).moved = s.moved := rfl
@[simp] theorem mapDie_runNo : (mapDie s d f).runNo = s.runNo := rfl
@[simp] theorem mapDie_cur : (mapDie s d f).cur = s.cur := rfl
@[simp] theorem mapDie_near : (mapDie s d f).near = s.near := rfl
@[simp] theorem mapDie_far : (mapDie s d f).far = s.far := rfl
@[simp] theorem mapDie_host : (mapDie s d f).host = s.host := rfl
@[simp] theorem mapDie_nearTags : (mapDie s d f).nearTags = s.nearTags := rfl
@[simp] theorem mapDie_farTags : (mapDie s d f).farTags = s.farTags := rfl
@[simp] theorem mapDie_nearPoison : (mapDie s d f).nearPoison = s.nearPoison := rfl
@[simp] theorem mapDie_farPoison : (mapDie s d f).farPoison = s.farPoison := rfl
@[simp] theorem mapDie_hostPoison : (mapDie s d f).hostPoison = s.hostPoison := rfl
@[simp] theorem mapDie_nearErr : (mapDie s d f).nearErr = s.nearErr := rfl
@[simp] theorem mapDie_farErr : (mapDie s d f).farErr = s.farErr := rfl
@[simp] theorem mapDie_pcStat : (mapDie s d f).pcStat = s.pcStat := rfl
@[simp] theorem mapDie_erasure : (mapDie s d f).erasure = s.erasure := rfl
@[simp] theorem mapDie_gang : (mapDie s d f).gang = s.gang := rfl
@[simp] theorem mapDie_lostFrames : (mapDie s d f).lostFrames = s.lostFrames := rfl
@[simp] theorem mapDie_slots : (mapDie s d f).slots = s.slots := rfl
@[simp] theorem mapDie_words : (mapDie s d f).words = s.words := rfl
@[simp] theorem mapDie_sweepSet : (mapDie s d f).sweepSet = s.sweepSet := rfl
@[simp] theorem mapDie_revokeQ : (mapDie s d f).revokeQ = s.revokeQ := rfl
@[simp] theorem mapDie_sealRuns : (mapDie s d f).sealRuns = s.sealRuns := rfl
@[simp] theorem mapDie_owners : (mapDie s d f).owners = s.owners := rfl
@[simp] theorem mapDie_pinCold : (mapDie s d f).pinCold = s.pinCold := rfl
@[simp] theorem mapDie_slices : (mapDie s d f).slices = s.slices := rfl
@[simp] theorem mapDie_sliceFixed : (mapDie s d f).sliceFixed = s.sliceFixed := rfl
@[simp] theorem mapDie_detector : (mapDie s d f).detector = s.detector := rfl
@[simp] theorem mapDie_images : (mapDie s d f).images = s.images := rfl
@[simp] theorem mapDie_cap : (mapDie s d f).cap = s.cap := rfl
@[simp] theorem mapDie_reserve : (mapDie s d f).reserve = s.reserve := rfl
@[simp] theorem mapDie_budgets : (mapDie s d f).budgets = s.budgets := rfl
@[simp] theorem mapDie_hot : (mapDie s d f).hot = s.hot := rfl
@[simp] theorem mapDie_hotStacks : (mapDie s d f).hotStacks = s.hotStacks := rfl
@[simp] theorem mapDie_leaveQ : (mapDie s d f).leaveQ = s.leaveQ := rfl
@[simp] theorem mapDie_leaveHeld : (mapDie s d f).leaveHeld = s.leaveHeld := rfl
@[simp] theorem mapDie_ctxs : (mapDie s d f).ctxs = s.ctxs := rfl
@[simp] theorem mapDie_groups : (mapDie s d f).groups = s.groups := rfl
@[simp] theorem mapDie_cores : (mapDie s d f).cores = s.cores := rfl
@[simp] theorem mapDie_tasks : (mapDie s d f).tasks = s.tasks := rfl
@[simp] theorem mapDie_saved : (mapDie s d f).saved = s.saved := rfl
@[simp] theorem mapDie_shelf : (mapDie s d f).shelf = s.shelf := rfl
@[simp] theorem mapDie_coreShelf : (mapDie s d f).coreShelf = s.coreShelf := rfl
@[simp] theorem mapDie_identity : (mapDie s d f).identity = s.identity := rfl
@[simp] theorem mapDie_routes : (mapDie s d f).routes = s.routes := rfl
@[simp] theorem mapDie_exports : (mapDie s d f).exports = s.exports := rfl
@[simp] theorem mapDie_links : (mapDie s d f).links = s.links := rfl
@[simp] theorem mapDie_eseqOut : (mapDie s d f).eseqOut = s.eseqOut := rfl
@[simp] theorem mapDie_eseqIn : (mapDie s d f).eseqIn = s.eseqIn := rfl
@[simp] theorem mapDie_inbox : (mapDie s d f).inbox = s.inbox := rfl
@[simp] theorem mapDie_outbox : (mapDie s d f).outbox = s.outbox := rfl
@[simp] theorem mapDie_wire : (mapDie s d f).wire = s.wire := rfl
@[simp] theorem mapDie_early : (mapDie s d f).early = s.early := rfl
@[simp] theorem mapDie_hostReads : (mapDie s d f).hostReads = s.hostReads := rfl
@[simp] theorem mapDie_discarded : (mapDie s d f).discarded = s.discarded := rfl
@[simp] theorem mapDie_peers : (mapDie s d f).peers = s.peers := rfl
@[simp] theorem mapDie_reqNo : (mapDie s d f).reqNo = s.reqNo := rfl
@[simp] theorem mapDie_rings : (mapDie s d f).rings = s.rings := rfl
@[simp] theorem mapDie_colls : (mapDie s d f).colls = s.colls := rfl
@[simp] theorem mapDie_hellos : (mapDie s d f).hellos = s.hellos := rfl
@[simp] theorem mapDie_trust : (mapDie s d f).trust = s.trust := rfl
@[simp] theorem mapDie_msix : (mapDie s d f).msix = s.msix := rfl
@[simp] theorem mapDie_mgmtLog : (mapDie s d f).mgmtLog = s.mgmtLog := rfl
@[simp] theorem mapDie_mgmtReads : (mapDie s d f).mgmtReads = s.mgmtReads := rfl
@[simp] theorem mapDie_hostRate : (mapDie s d f).hostRate = s.hostRate := rfl
@[simp] theorem mapDie_hostLanes : (mapDie s d f).hostLanes = s.hostLanes := rfl
end

section
variable (s : State) (n : Nat) (f : PinSlot → PinSlot)
@[simp] theorem mapSlot_powered : (mapSlot s n f).powered = s.powered := rfl
@[simp] theorem mapSlot_bringup : (mapSlot s n f).bringup = s.bringup := rfl
@[simp] theorem mapSlot_fuses : (mapSlot s n f).fuses = s.fuses := rfl
@[simp] theorem mapSlot_clock : (mapSlot s n f).clock = s.clock := rfl
@[simp] theorem mapSlot_turnAt : (mapSlot s n f).turnAt = s.turnAt := rfl
@[simp] theorem mapSlot_sched : (mapSlot s n f).sched = s.sched := rfl
@[simp] theorem mapSlot_turnNo : (mapSlot s n f).turnNo = s.turnNo := rfl
@[simp] theorem mapSlot_freeNo : (mapSlot s n f).freeNo = s.freeNo := rfl
@[simp] theorem mapSlot_moved : (mapSlot s n f).moved = s.moved := rfl
@[simp] theorem mapSlot_runNo : (mapSlot s n f).runNo = s.runNo := rfl
@[simp] theorem mapSlot_cur : (mapSlot s n f).cur = s.cur := rfl
@[simp] theorem mapSlot_near : (mapSlot s n f).near = s.near := rfl
@[simp] theorem mapSlot_far : (mapSlot s n f).far = s.far := rfl
@[simp] theorem mapSlot_host : (mapSlot s n f).host = s.host := rfl
@[simp] theorem mapSlot_nearTags : (mapSlot s n f).nearTags = s.nearTags := rfl
@[simp] theorem mapSlot_farTags : (mapSlot s n f).farTags = s.farTags := rfl
@[simp] theorem mapSlot_nearPoison : (mapSlot s n f).nearPoison = s.nearPoison := rfl
@[simp] theorem mapSlot_farPoison : (mapSlot s n f).farPoison = s.farPoison := rfl
@[simp] theorem mapSlot_hostPoison : (mapSlot s n f).hostPoison = s.hostPoison := rfl
@[simp] theorem mapSlot_nearErr : (mapSlot s n f).nearErr = s.nearErr := rfl
@[simp] theorem mapSlot_farErr : (mapSlot s n f).farErr = s.farErr := rfl
@[simp] theorem mapSlot_pcStat : (mapSlot s n f).pcStat = s.pcStat := rfl
@[simp] theorem mapSlot_erasure : (mapSlot s n f).erasure = s.erasure := rfl
@[simp] theorem mapSlot_gang : (mapSlot s n f).gang = s.gang := rfl
@[simp] theorem mapSlot_lostFrames : (mapSlot s n f).lostFrames = s.lostFrames := rfl
@[simp] theorem mapSlot_words : (mapSlot s n f).words = s.words := rfl
@[simp] theorem mapSlot_sweepSet : (mapSlot s n f).sweepSet = s.sweepSet := rfl
@[simp] theorem mapSlot_revokeQ : (mapSlot s n f).revokeQ = s.revokeQ := rfl
@[simp] theorem mapSlot_sealRuns : (mapSlot s n f).sealRuns = s.sealRuns := rfl
@[simp] theorem mapSlot_owners : (mapSlot s n f).owners = s.owners := rfl
@[simp] theorem mapSlot_pinCold : (mapSlot s n f).pinCold = s.pinCold := rfl
@[simp] theorem mapSlot_slices : (mapSlot s n f).slices = s.slices := rfl
@[simp] theorem mapSlot_sliceFixed : (mapSlot s n f).sliceFixed = s.sliceFixed := rfl
@[simp] theorem mapSlot_detector : (mapSlot s n f).detector = s.detector := rfl
@[simp] theorem mapSlot_images : (mapSlot s n f).images = s.images := rfl
@[simp] theorem mapSlot_cap : (mapSlot s n f).cap = s.cap := rfl
@[simp] theorem mapSlot_reserve : (mapSlot s n f).reserve = s.reserve := rfl
@[simp] theorem mapSlot_budgets : (mapSlot s n f).budgets = s.budgets := rfl
@[simp] theorem mapSlot_hot : (mapSlot s n f).hot = s.hot := rfl
@[simp] theorem mapSlot_hotStacks : (mapSlot s n f).hotStacks = s.hotStacks := rfl
@[simp] theorem mapSlot_leaveQ : (mapSlot s n f).leaveQ = s.leaveQ := rfl
@[simp] theorem mapSlot_leaveHeld : (mapSlot s n f).leaveHeld = s.leaveHeld := rfl
@[simp] theorem mapSlot_ctxs : (mapSlot s n f).ctxs = s.ctxs := rfl
@[simp] theorem mapSlot_groups : (mapSlot s n f).groups = s.groups := rfl
@[simp] theorem mapSlot_cores : (mapSlot s n f).cores = s.cores := rfl
@[simp] theorem mapSlot_tasks : (mapSlot s n f).tasks = s.tasks := rfl
@[simp] theorem mapSlot_saved : (mapSlot s n f).saved = s.saved := rfl
@[simp] theorem mapSlot_shelf : (mapSlot s n f).shelf = s.shelf := rfl
@[simp] theorem mapSlot_coreShelf : (mapSlot s n f).coreShelf = s.coreShelf := rfl
@[simp] theorem mapSlot_dies : (mapSlot s n f).dies = s.dies := rfl
@[simp] theorem mapSlot_identity : (mapSlot s n f).identity = s.identity := rfl
@[simp] theorem mapSlot_routes : (mapSlot s n f).routes = s.routes := rfl
@[simp] theorem mapSlot_exports : (mapSlot s n f).exports = s.exports := rfl
@[simp] theorem mapSlot_links : (mapSlot s n f).links = s.links := rfl
@[simp] theorem mapSlot_eseqOut : (mapSlot s n f).eseqOut = s.eseqOut := rfl
@[simp] theorem mapSlot_eseqIn : (mapSlot s n f).eseqIn = s.eseqIn := rfl
@[simp] theorem mapSlot_inbox : (mapSlot s n f).inbox = s.inbox := rfl
@[simp] theorem mapSlot_outbox : (mapSlot s n f).outbox = s.outbox := rfl
@[simp] theorem mapSlot_wire : (mapSlot s n f).wire = s.wire := rfl
@[simp] theorem mapSlot_early : (mapSlot s n f).early = s.early := rfl
@[simp] theorem mapSlot_hostReads : (mapSlot s n f).hostReads = s.hostReads := rfl
@[simp] theorem mapSlot_discarded : (mapSlot s n f).discarded = s.discarded := rfl
@[simp] theorem mapSlot_peers : (mapSlot s n f).peers = s.peers := rfl
@[simp] theorem mapSlot_reqNo : (mapSlot s n f).reqNo = s.reqNo := rfl
@[simp] theorem mapSlot_rings : (mapSlot s n f).rings = s.rings := rfl
@[simp] theorem mapSlot_colls : (mapSlot s n f).colls = s.colls := rfl
@[simp] theorem mapSlot_hellos : (mapSlot s n f).hellos = s.hellos := rfl
@[simp] theorem mapSlot_trust : (mapSlot s n f).trust = s.trust := rfl
@[simp] theorem mapSlot_msix : (mapSlot s n f).msix = s.msix := rfl
@[simp] theorem mapSlot_mgmtLog : (mapSlot s n f).mgmtLog = s.mgmtLog := rfl
@[simp] theorem mapSlot_mgmtReads : (mapSlot s n f).mgmtReads = s.mgmtReads := rfl
@[simp] theorem mapSlot_hostRate : (mapSlot s n f).hostRate = s.hostRate := rfl
@[simp] theorem mapSlot_hostLanes : (mapSlot s n f).hostLanes = s.hostLanes := rfl
end

section
variable (s : State) (n : Nat) (f : PinWord → PinWord)
@[simp] theorem mapWord_powered : (mapWord s n f).powered = s.powered := rfl
@[simp] theorem mapWord_bringup : (mapWord s n f).bringup = s.bringup := rfl
@[simp] theorem mapWord_fuses : (mapWord s n f).fuses = s.fuses := rfl
@[simp] theorem mapWord_clock : (mapWord s n f).clock = s.clock := rfl
@[simp] theorem mapWord_turnAt : (mapWord s n f).turnAt = s.turnAt := rfl
@[simp] theorem mapWord_sched : (mapWord s n f).sched = s.sched := rfl
@[simp] theorem mapWord_turnNo : (mapWord s n f).turnNo = s.turnNo := rfl
@[simp] theorem mapWord_freeNo : (mapWord s n f).freeNo = s.freeNo := rfl
@[simp] theorem mapWord_moved : (mapWord s n f).moved = s.moved := rfl
@[simp] theorem mapWord_runNo : (mapWord s n f).runNo = s.runNo := rfl
@[simp] theorem mapWord_cur : (mapWord s n f).cur = s.cur := rfl
@[simp] theorem mapWord_near : (mapWord s n f).near = s.near := rfl
@[simp] theorem mapWord_far : (mapWord s n f).far = s.far := rfl
@[simp] theorem mapWord_host : (mapWord s n f).host = s.host := rfl
@[simp] theorem mapWord_nearTags : (mapWord s n f).nearTags = s.nearTags := rfl
@[simp] theorem mapWord_farTags : (mapWord s n f).farTags = s.farTags := rfl
@[simp] theorem mapWord_nearPoison : (mapWord s n f).nearPoison = s.nearPoison := rfl
@[simp] theorem mapWord_farPoison : (mapWord s n f).farPoison = s.farPoison := rfl
@[simp] theorem mapWord_hostPoison : (mapWord s n f).hostPoison = s.hostPoison := rfl
@[simp] theorem mapWord_nearErr : (mapWord s n f).nearErr = s.nearErr := rfl
@[simp] theorem mapWord_farErr : (mapWord s n f).farErr = s.farErr := rfl
@[simp] theorem mapWord_pcStat : (mapWord s n f).pcStat = s.pcStat := rfl
@[simp] theorem mapWord_erasure : (mapWord s n f).erasure = s.erasure := rfl
@[simp] theorem mapWord_gang : (mapWord s n f).gang = s.gang := rfl
@[simp] theorem mapWord_lostFrames : (mapWord s n f).lostFrames = s.lostFrames := rfl
@[simp] theorem mapWord_slots : (mapWord s n f).slots = s.slots := rfl
@[simp] theorem mapWord_sweepSet : (mapWord s n f).sweepSet = s.sweepSet := rfl
@[simp] theorem mapWord_revokeQ : (mapWord s n f).revokeQ = s.revokeQ := rfl
@[simp] theorem mapWord_sealRuns : (mapWord s n f).sealRuns = s.sealRuns := rfl
@[simp] theorem mapWord_owners : (mapWord s n f).owners = s.owners := rfl
@[simp] theorem mapWord_pinCold : (mapWord s n f).pinCold = s.pinCold := rfl
@[simp] theorem mapWord_slices : (mapWord s n f).slices = s.slices := rfl
@[simp] theorem mapWord_sliceFixed : (mapWord s n f).sliceFixed = s.sliceFixed := rfl
@[simp] theorem mapWord_detector : (mapWord s n f).detector = s.detector := rfl
@[simp] theorem mapWord_images : (mapWord s n f).images = s.images := rfl
@[simp] theorem mapWord_cap : (mapWord s n f).cap = s.cap := rfl
@[simp] theorem mapWord_reserve : (mapWord s n f).reserve = s.reserve := rfl
@[simp] theorem mapWord_budgets : (mapWord s n f).budgets = s.budgets := rfl
@[simp] theorem mapWord_hot : (mapWord s n f).hot = s.hot := rfl
@[simp] theorem mapWord_hotStacks : (mapWord s n f).hotStacks = s.hotStacks := rfl
@[simp] theorem mapWord_leaveQ : (mapWord s n f).leaveQ = s.leaveQ := rfl
@[simp] theorem mapWord_leaveHeld : (mapWord s n f).leaveHeld = s.leaveHeld := rfl
@[simp] theorem mapWord_ctxs : (mapWord s n f).ctxs = s.ctxs := rfl
@[simp] theorem mapWord_groups : (mapWord s n f).groups = s.groups := rfl
@[simp] theorem mapWord_cores : (mapWord s n f).cores = s.cores := rfl
@[simp] theorem mapWord_tasks : (mapWord s n f).tasks = s.tasks := rfl
@[simp] theorem mapWord_saved : (mapWord s n f).saved = s.saved := rfl
@[simp] theorem mapWord_shelf : (mapWord s n f).shelf = s.shelf := rfl
@[simp] theorem mapWord_coreShelf : (mapWord s n f).coreShelf = s.coreShelf := rfl
@[simp] theorem mapWord_dies : (mapWord s n f).dies = s.dies := rfl
@[simp] theorem mapWord_identity : (mapWord s n f).identity = s.identity := rfl
@[simp] theorem mapWord_routes : (mapWord s n f).routes = s.routes := rfl
@[simp] theorem mapWord_exports : (mapWord s n f).exports = s.exports := rfl
@[simp] theorem mapWord_links : (mapWord s n f).links = s.links := rfl
@[simp] theorem mapWord_eseqOut : (mapWord s n f).eseqOut = s.eseqOut := rfl
@[simp] theorem mapWord_eseqIn : (mapWord s n f).eseqIn = s.eseqIn := rfl
@[simp] theorem mapWord_inbox : (mapWord s n f).inbox = s.inbox := rfl
@[simp] theorem mapWord_outbox : (mapWord s n f).outbox = s.outbox := rfl
@[simp] theorem mapWord_wire : (mapWord s n f).wire = s.wire := rfl
@[simp] theorem mapWord_early : (mapWord s n f).early = s.early := rfl
@[simp] theorem mapWord_hostReads : (mapWord s n f).hostReads = s.hostReads := rfl
@[simp] theorem mapWord_discarded : (mapWord s n f).discarded = s.discarded := rfl
@[simp] theorem mapWord_peers : (mapWord s n f).peers = s.peers := rfl
@[simp] theorem mapWord_reqNo : (mapWord s n f).reqNo = s.reqNo := rfl
@[simp] theorem mapWord_rings : (mapWord s n f).rings = s.rings := rfl
@[simp] theorem mapWord_colls : (mapWord s n f).colls = s.colls := rfl
@[simp] theorem mapWord_hellos : (mapWord s n f).hellos = s.hellos := rfl
@[simp] theorem mapWord_trust : (mapWord s n f).trust = s.trust := rfl
@[simp] theorem mapWord_msix : (mapWord s n f).msix = s.msix := rfl
@[simp] theorem mapWord_mgmtLog : (mapWord s n f).mgmtLog = s.mgmtLog := rfl
@[simp] theorem mapWord_mgmtReads : (mapWord s n f).mgmtReads = s.mgmtReads := rfl
@[simp] theorem mapWord_hostRate : (mapWord s n f).hostRate = s.hostRate := rfl
@[simp] theorem mapWord_hostLanes : (mapWord s n f).hostLanes = s.hostLanes := rfl
end

section
variable (s : State) (n : Nat) (f : Ctx → Ctx)
@[simp] theorem mapCtx_powered : (mapCtx s n f).powered = s.powered := rfl
@[simp] theorem mapCtx_bringup : (mapCtx s n f).bringup = s.bringup := rfl
@[simp] theorem mapCtx_fuses : (mapCtx s n f).fuses = s.fuses := rfl
@[simp] theorem mapCtx_clock : (mapCtx s n f).clock = s.clock := rfl
@[simp] theorem mapCtx_turnAt : (mapCtx s n f).turnAt = s.turnAt := rfl
@[simp] theorem mapCtx_sched : (mapCtx s n f).sched = s.sched := rfl
@[simp] theorem mapCtx_turnNo : (mapCtx s n f).turnNo = s.turnNo := rfl
@[simp] theorem mapCtx_freeNo : (mapCtx s n f).freeNo = s.freeNo := rfl
@[simp] theorem mapCtx_moved : (mapCtx s n f).moved = s.moved := rfl
@[simp] theorem mapCtx_runNo : (mapCtx s n f).runNo = s.runNo := rfl
@[simp] theorem mapCtx_cur : (mapCtx s n f).cur = s.cur := rfl
@[simp] theorem mapCtx_near : (mapCtx s n f).near = s.near := rfl
@[simp] theorem mapCtx_far : (mapCtx s n f).far = s.far := rfl
@[simp] theorem mapCtx_host : (mapCtx s n f).host = s.host := rfl
@[simp] theorem mapCtx_nearTags : (mapCtx s n f).nearTags = s.nearTags := rfl
@[simp] theorem mapCtx_farTags : (mapCtx s n f).farTags = s.farTags := rfl
@[simp] theorem mapCtx_nearPoison : (mapCtx s n f).nearPoison = s.nearPoison := rfl
@[simp] theorem mapCtx_farPoison : (mapCtx s n f).farPoison = s.farPoison := rfl
@[simp] theorem mapCtx_hostPoison : (mapCtx s n f).hostPoison = s.hostPoison := rfl
@[simp] theorem mapCtx_nearErr : (mapCtx s n f).nearErr = s.nearErr := rfl
@[simp] theorem mapCtx_farErr : (mapCtx s n f).farErr = s.farErr := rfl
@[simp] theorem mapCtx_pcStat : (mapCtx s n f).pcStat = s.pcStat := rfl
@[simp] theorem mapCtx_erasure : (mapCtx s n f).erasure = s.erasure := rfl
@[simp] theorem mapCtx_gang : (mapCtx s n f).gang = s.gang := rfl
@[simp] theorem mapCtx_lostFrames : (mapCtx s n f).lostFrames = s.lostFrames := rfl
@[simp] theorem mapCtx_slots : (mapCtx s n f).slots = s.slots := rfl
@[simp] theorem mapCtx_words : (mapCtx s n f).words = s.words := rfl
@[simp] theorem mapCtx_sweepSet : (mapCtx s n f).sweepSet = s.sweepSet := rfl
@[simp] theorem mapCtx_revokeQ : (mapCtx s n f).revokeQ = s.revokeQ := rfl
@[simp] theorem mapCtx_sealRuns : (mapCtx s n f).sealRuns = s.sealRuns := rfl
@[simp] theorem mapCtx_owners : (mapCtx s n f).owners = s.owners := rfl
@[simp] theorem mapCtx_pinCold : (mapCtx s n f).pinCold = s.pinCold := rfl
@[simp] theorem mapCtx_slices : (mapCtx s n f).slices = s.slices := rfl
@[simp] theorem mapCtx_sliceFixed : (mapCtx s n f).sliceFixed = s.sliceFixed := rfl
@[simp] theorem mapCtx_detector : (mapCtx s n f).detector = s.detector := rfl
@[simp] theorem mapCtx_images : (mapCtx s n f).images = s.images := rfl
@[simp] theorem mapCtx_cap : (mapCtx s n f).cap = s.cap := rfl
@[simp] theorem mapCtx_reserve : (mapCtx s n f).reserve = s.reserve := rfl
@[simp] theorem mapCtx_budgets : (mapCtx s n f).budgets = s.budgets := rfl
@[simp] theorem mapCtx_hot : (mapCtx s n f).hot = s.hot := rfl
@[simp] theorem mapCtx_hotStacks : (mapCtx s n f).hotStacks = s.hotStacks := rfl
@[simp] theorem mapCtx_leaveQ : (mapCtx s n f).leaveQ = s.leaveQ := rfl
@[simp] theorem mapCtx_leaveHeld : (mapCtx s n f).leaveHeld = s.leaveHeld := rfl
@[simp] theorem mapCtx_groups : (mapCtx s n f).groups = s.groups := rfl
@[simp] theorem mapCtx_cores : (mapCtx s n f).cores = s.cores := rfl
@[simp] theorem mapCtx_tasks : (mapCtx s n f).tasks = s.tasks := rfl
@[simp] theorem mapCtx_saved : (mapCtx s n f).saved = s.saved := rfl
@[simp] theorem mapCtx_shelf : (mapCtx s n f).shelf = s.shelf := rfl
@[simp] theorem mapCtx_coreShelf : (mapCtx s n f).coreShelf = s.coreShelf := rfl
@[simp] theorem mapCtx_dies : (mapCtx s n f).dies = s.dies := rfl
@[simp] theorem mapCtx_identity : (mapCtx s n f).identity = s.identity := rfl
@[simp] theorem mapCtx_routes : (mapCtx s n f).routes = s.routes := rfl
@[simp] theorem mapCtx_exports : (mapCtx s n f).exports = s.exports := rfl
@[simp] theorem mapCtx_links : (mapCtx s n f).links = s.links := rfl
@[simp] theorem mapCtx_eseqOut : (mapCtx s n f).eseqOut = s.eseqOut := rfl
@[simp] theorem mapCtx_eseqIn : (mapCtx s n f).eseqIn = s.eseqIn := rfl
@[simp] theorem mapCtx_inbox : (mapCtx s n f).inbox = s.inbox := rfl
@[simp] theorem mapCtx_outbox : (mapCtx s n f).outbox = s.outbox := rfl
@[simp] theorem mapCtx_wire : (mapCtx s n f).wire = s.wire := rfl
@[simp] theorem mapCtx_early : (mapCtx s n f).early = s.early := rfl
@[simp] theorem mapCtx_hostReads : (mapCtx s n f).hostReads = s.hostReads := rfl
@[simp] theorem mapCtx_discarded : (mapCtx s n f).discarded = s.discarded := rfl
@[simp] theorem mapCtx_peers : (mapCtx s n f).peers = s.peers := rfl
@[simp] theorem mapCtx_reqNo : (mapCtx s n f).reqNo = s.reqNo := rfl
@[simp] theorem mapCtx_rings : (mapCtx s n f).rings = s.rings := rfl
@[simp] theorem mapCtx_colls : (mapCtx s n f).colls = s.colls := rfl
@[simp] theorem mapCtx_hellos : (mapCtx s n f).hellos = s.hellos := rfl
@[simp] theorem mapCtx_trust : (mapCtx s n f).trust = s.trust := rfl
@[simp] theorem mapCtx_msix : (mapCtx s n f).msix = s.msix := rfl
@[simp] theorem mapCtx_mgmtLog : (mapCtx s n f).mgmtLog = s.mgmtLog := rfl
@[simp] theorem mapCtx_mgmtReads : (mapCtx s n f).mgmtReads = s.mgmtReads := rfl
@[simp] theorem mapCtx_hostRate : (mapCtx s n f).hostRate = s.hostRate := rfl
@[simp] theorem mapCtx_hostLanes : (mapCtx s n f).hostLanes = s.hostLanes := rfl
end

end Sys2Proof.Machine
end

