-- ==== Sys2Proof/Laws/Store.lean ====
section
/-! SUPPORT. Sparse tables and byte memories: read after write, and the canonical form kept by every operation. -/

namespace Sys2Proof.Machine

section tables
variable {α : Type}

theorem rising_cons (e : Nat × α) (t : Table α) :
    Rising (e :: t) = true ↔ (∀ x ∈ t, e.1 < x.1) ∧ Rising t = true := by
  induction t generalizing e with
  | nil => simp [Rising]
  | cons a r ih =>
    simp only [Rising, Bool.and_eq_true, decide_eq_true_eq, List.mem_cons]
    constructor
    · rintro ⟨h, hr⟩
      refine ⟨?_, hr⟩
      rintro x (rfl | hx)
      · exact h
      · exact Nat.lt_trans h (((ih a).mp hr).1 x hx)
    · rintro ⟨h, hr⟩
      exact ⟨h a (.inl rfl), hr⟩

theorem rising_filter (q : Nat × α → Bool) (t : Table α) (h : Rising t = true) : Rising (t.filter q) = true := by
  induction t with
  | nil => simp [Rising]
  | cons a r ih =>
    have ⟨h1, h2⟩ := (rising_cons a r).mp h
    by_cases hq : q a = true
    · rw [List.filter_cons_of_pos hq, rising_cons]
      exact ⟨fun x hx => h1 x (List.mem_filter.mp hx).1, ih h2⟩
    · rw [List.filter_cons_of_neg hq]
      exact ih h2

theorem mem_tins (k : Nat) (a : α) (t : Table α) (x : Nat × α) : x ∈ tins k a t ↔ x = (k, a) ∨ x ∈ t := by
  induction t with
  | nil => simp [tins]
  | cons e r ih =>
    obtain ⟨i, b⟩ := e
    simp only [tins]
    split
    · simp
    · simp only [List.mem_cons, ih]
      grind

theorem rising_tins (k : Nat) (a : α) (t : Table α) (h : Rising t = true) (hk : ∀ x ∈ t, x.1 ≠ k) :
    Rising (tins k a t) = true := by
  induction t with
  | nil => simp [tins, Rising]
  | cons e r ih =>
    obtain ⟨i, b⟩ := e
    have ⟨h1, h2⟩ := (rising_cons (i, b) r).mp h
    simp only [tins]
    split
    · rename_i hlt
      refine (rising_cons _ _).mpr ⟨?_, h⟩
      intro x hx
      rcases List.mem_cons.mp hx with rfl | hx
      · exact hlt
      · exact Nat.lt_trans hlt (h1 x hx)
    · rename_i hge
      refine (rising_cons _ _).mpr ⟨?_, ih h2 fun x hx => hk x (List.mem_cons_of_mem _ hx)⟩
      intro x hx
      rcases (mem_tins k a r x).mp hx with rfl | hx
      · have := hk (i, b) List.mem_cons_self
        simp only at this ⊢
        omega
      · exact h1 x hx

theorem mem_tdel (t : Table α) (k : Nat) (x : Nat × α) : x ∈ tdel t k ↔ x ∈ t ∧ x.1 ≠ k := by
  simp [tdel, List.mem_filter]

theorem rising_tdel (t : Table α) (k : Nat) (h : Rising t = true) : Rising (tdel t k) = true := rising_filter _ _ h

theorem rising_tput (t : Table α) (k : Nat) (a : α) (h : Rising t = true) : Rising (tput t k a) = true :=
  rising_tins _ _ _ (rising_tdel t k h) fun x hx => ((mem_tdel t k x).mp hx).2

@[simp] theorem tget_tdel_self (d : α) (t : Table α) (k : Nat) : tget d (tdel t k) k = d := by
  induction t with
  | nil => rfl
  | cons e r ih =>
    by_cases h : e.1 = k
    · simpa [tdel, List.filter_cons, h] using ih
    · have : (e.1 != k) = true := by simpa using h
      simp only [tdel, List.filter_cons, this, if_true, tget]
      rw [if_neg h]
      exact ih

theorem tget_tdel_ne (d : α) (t : Table α) (k j : Nat) (h : j ≠ k) : tget d (tdel t k) j = tget d t j := by
  induction t with
  | nil => rfl
  | cons e r ih =>
    by_cases hk : e.1 = k
    · have : (e.1 != k) = false := by simpa using hk
      simp only [tdel, List.filter_cons, this]
      rw [if_neg (by decide)]
      simp only [tget]
      rw [if_neg (by omega)]
      exact ih
    · have : (e.1 != k) = true := by simpa using hk
      simp only [tdel, List.filter_cons, this, if_true, tget]
      by_cases hj : e.1 = j
      · simp [hj]
      · simp only [if_neg hj]
        exact ih

theorem tget_none (d : α) (t : Table α) (k : Nat) (h : ∀ x ∈ t, x.1 ≠ k) : tget d t k = d := by
  induction t with
  | nil => rfl
  | cons e r ih =>
    simp only [tget]
    rw [if_neg (h e List.mem_cons_self)]
    exact ih fun x hx => h x (List.mem_cons_of_mem _ hx)

theorem tget_tins_self (d : α) (k : Nat) (a : α) (t : Table α) (h : ∀ x ∈ t, x.1 ≠ k) : tget d (tins k a t) k = a := by
  induction t with
  | nil => simp [tins, tget]
  | cons e r ih =>
    simp only [tins]
    split
    · simp [tget]
    · simp only [tget]
      rw [if_neg (h e List.mem_cons_self)]
      exact ih fun x hx => h x (List.mem_cons_of_mem _ hx)

theorem tget_tins_ne (d : α) (k j : Nat) (a : α) (t : Table α) (h : j ≠ k) : tget d (tins k a t) j = tget d t j := by
  induction t with
  | nil => simp [tins, tget, Ne.symm h]
  | cons e r ih =>
    simp only [tins]
    split
    · simp [tget, Ne.symm h]
    · simp only [tget, ih]

@[simp] theorem tget_tput_self (d : α) (t : Table α) (k : Nat) (a : α) : tget d (tput t k a) k = a :=
  tget_tins_self _ _ _ _ fun x hx => ((mem_tdel t k x).mp hx).2

theorem tget_tput_ne (d : α) (t : Table α) (k j : Nat) (a : α) (h : j ≠ k) : tget d (tput t k a) j = tget d t j :=
  (tget_tins_ne _ _ _ _ _ h).trans (tget_tdel_ne _ _ _ _ h)

theorem tget_tput (d : α) (t : Table α) (k j : Nat) (a : α) : tget d (tput t k a) j = if j = k then a else tget d t j := by
  split
  · subst_vars; simp
  · exact tget_tput_ne _ _ _ _ _ ‹_›

theorem tget_tset [DecidableEq α] (d : α) (t : Table α) (k j : Nat) (a : α) :
    tget d (tset d t k a) j = if j = k then a else tget d t j := by
  unfold tset
  by_cases ha : a = d
  · rw [if_pos ha]
    by_cases hj : j = k
    · subst hj; simp [ha]
    · rw [if_neg hj]; exact tget_tdel_ne _ _ _ _ hj
  · rw [if_neg ha]; exact tget_tput _ _ _ _ _

theorem rising_tset [DecidableEq α] (d : α) (t : Table α) (k : Nat) (a : α) (h : Rising t = true) : Rising (tset d t k a) = true := by
  unfold tset
  split
  · exact rising_tdel _ _ h
  · exact rising_tput _ _ _ h

end tables

/-! ## Memory -/

theorem memory_wf_filter (m : Memory) (q : Host.Cell → Bool) (h : Memory.wf m = true) : Memory.wf (m.filter q) = true := by
  simp only [Memory.wf, Bool.and_eq_true, List.all_eq_true] at h ⊢
  exact ⟨rising_filter _ _ h.1, fun x hx => h.2 x (List.mem_filter.mp hx).1⟩

/-- Writing a byte keeps the canonical form. -/
theorem memory_wf_mset (m : Memory) (a : Nat) (b : Byte) (h : Memory.wf m = true) : Memory.wf (mset m a b) = true := by
  unfold mset tset
  split
  · exact memory_wf_filter _ _ h
  · rename_i hb
    simp only [Memory.wf, Bool.and_eq_true, List.all_eq_true] at h ⊢
    refine ⟨rising_tput _ _ _ h.1, fun x hx => ?_⟩
    rcases (mem_tins _ _ _ _).mp hx with rfl | hx
    · simpa using hb
    · exact h.2 x ((mem_tdel _ _ _).mp hx).1

theorem memory_wf_msetBytes (m : Memory) (a : Nat) (bs : List Byte) (h : Memory.wf m = true) :
    Memory.wf (msetBytes m a bs) = true := by
  induction bs generalizing m a with
  | nil => exact h
  | cons b r ih => exact ih _ _ (memory_wf_mset m a b h)

theorem memory_wf_nil : Memory.wf [] = true := rfl

/-- Read after write. -/
theorem mget_mset (m : Memory) (a c : Nat) (b : Byte) : mget (mset m a b) c = if c = a then b else mget m c :=
  tget_tset _ _ _ _ _

end Sys2Proof.Machine
end

