-- ==== Sys2Proof/Laws/Issue.lean ====
section
/-! SUPPORT. What issuing a word does, said once: the frame of a word that begins, and the outcome of a word that issues freely. -/

namespace Sys2Proof.Machine

/-! ## Windows and cores after an update -/

@[simp] theorem taskOf_putTask_self (s : State) (p : Party) (t : Task) : taskOf (putTask s p t) p = t := by
  simp [taskOf, putTask]

theorem taskOf_putTask_ne (s : State) (p q : Party) (t : Task) (h : partyKey q ≠ partyKey p) :
    taskOf (putTask s p t) q = taskOf s q := by
  simp only [taskOf, putTask]
  exact tget_tput_ne _ _ _ _ _ h

@[simp] theorem taskOf_mapTask_self (s : State) (p : Party) (f : Task → Task) : taskOf (mapTask s p f) p = f (taskOf s p) := by
  simp [mapTask]

theorem taskOf_mapTask_ne (s : State) (p q : Party) (f : Task → Task) (h : partyKey q ≠ partyKey p) :
    taskOf (mapTask s p f) q = taskOf s q := taskOf_putTask_ne _ _ _ _ h

@[simp] theorem taskOf_mapCore (s : State) (c : Nat) (f : Core → Core) (p : Party) : taskOf (mapCore s c f) p = taskOf s p := rfl
@[simp] theorem coreOf_mapTask (s : State) (c : Nat) (f : Task → Task) (p : Party) : coreOf (mapTask s p f) c = coreOf s c := rfl

theorem coreOf_mapCore (s : State) (c d : Nat) (f : Core → Core) :
    coreOf (mapCore s c f) d = if d = c then f (coreOf s c) else coreOf s d := by
  simp only [coreOf, mapCore, putCore]
  exact tget_tput _ _ _ _ _

/-! ## What the race detector notes -/

@[simp] theorem noteOrder_cur (s : State) (p : Party) : (noteOrder s p).cur = s.cur := by unfold noteOrder; split <;> rfl
@[simp] theorem taskOf_noteOrder (s : State) (p q : Party) : taskOf (noteOrder s p) q = taskOf s q := by unfold noteOrder; split <;> rfl
@[simp] theorem coreOf_noteOrder (s : State) (p : Party) (c : Nat) : coreOf (noteOrder s p) c = coreOf s c := by unfold noteOrder; split <;> rfl
@[simp] theorem rest_noteOrder (s : State) (p : Party) : (noteOrder s p).rest = s.rest := by unfold noteOrder; split <;> rfl

/-- Noting changes the detector alone. -/
theorem noteWord_eq (s : State) (p : Party) (w : Word) (k : Tk) : ∃ d, noteWord s p w k = { s with detector := d } := by
  unfold noteWord noteOrder
  split
  · split
    · exact ⟨_, rfl⟩
    · exact ⟨s.detector, rfl⟩
  · exact ⟨s.detector, rfl⟩

theorem spendFree_eq (s : State) (p : Party) (pl : Plan) (t : State) : ∃ n, spendFree s p pl t = { t with freeNo := n } := by
  unfold spendFree
  split
  · exact ⟨_, rfl⟩
  · exact ⟨t.freeNo, rfl⟩

/-! ## A word that begins -/

@[simp] theorem popTicks_cur (s : State) (p : Party) (k : Tk) : (popTicks s p k).cur = s.cur := by
  simp only [popTicks]; split <;> split <;> split <;> simp

@[simp] theorem rest_mapTask (s : State) (p : Party) (f : Task → Task) : (mapTask s p f).rest = s.rest := rfl
@[simp] theorem rest_mapCore (s : State) (c : Nat) (f : Core → Core) : (mapCore s c f).rest = s.rest := rfl

@[simp] theorem rest_popTicks (s : State) (p : Party) (k : Tk) : (popTicks s p k).rest = s.rest := by
  simp only [popTicks]
  split <;> split <;> split <;> simp only [rest_mapTask, rest_mapCore, rest_noteOrder]

@[simp] theorem rest_beginWord (s : State) (p : Party) (pl : Plan) : (beginWord s p pl).rest = s.rest := rfl

theorem popTicks_other (s : State) (p q : Party) (k : Tk) (h : partyKey q ≠ partyKey p) :
    taskOf (popTicks s p k) q = taskOf s q := by
  simp only [popTicks]
  split <;> split <;> split <;> simp [taskOf_mapTask_ne _ _ _ _ h]

theorem popTicks_task (s : State) (p : Party) (k : Tk) :
    taskOf (popTicks s p k) p
      = if k.wc || k.we then { taskOf s p with heldC := (taskOf s p).heldC || k.wc, heldE := (taskOf s p).heldE || k.we }
        else taskOf s p := by
  simp only [popTicks]
  split <;> split <;> split <;> simp

theorem popTicks_core (s : State) (p : Party) (k : Tk) (c : Nat) :
    coreOf (popTicks s p k) c
      = if k.wc || k.we then (if c = coreNo p then poppedCore (slotNo p) (coreOf s c) (taskOf s p) k else coreOf s c) else coreOf s c := by
  simp only [popTicks, poppedCore]
  by_cases hc : c = coreNo p
  · subst hc
    rcases k with ⟨wc, sc, we, se⟩
    cases wc <;> cases we <;> simp <;> (repeat' split) <;> simp_all [coreOf_mapCore]
  · rcases k with ⟨wc, sc, we, se⟩
    cases wc <;> cases we <;> simp [hc] <;> (repeat' split) <;> simp_all [coreOf_mapCore]

@[simp] theorem acting_cur (pl : Plan) (s : State) : (acting pl s).cur = s.cur := by
  simp [acting, beginWord]

/-- A word that has begun: `s` but for its window and the ticks it waited for. -/
theorem began_acting (pl : Plan) (s : State) : Began s (acting pl s) pl.tk id := by
  refine ⟨?_, rfl, ?_, ?_, ?_⟩
  · simp only [acting, rest_beginWord, rest_popTicks]
  · simp only [acting, beginWord, taskOf_mapTask_self, id]
    have ht : ∀ (u : State) (b : Bool), taskOf { u with moved := b } s.cur = taskOf u s.cur := fun _ _ => rfl
    rw [ht, popTicks_task]
    rcases pl.tk with ⟨wc, sc, we, se⟩
    cases wc <;> cases we <;> simp [begunTask, newSigs]
  · intro q hq
    simp only [acting, beginWord]
    rw [taskOf_mapTask_ne _ _ _ _ hq]
    exact popTicks_other s s.cur q pl.tk hq
  · intro c
    simp only [acting, beginWord, coreOf_mapTask]
    exact popTicks_core s s.cur pl.tk c

/-- The window of a begun word changed. -/
theorem began_mapTask {s m : State} {tk : Tk} {g : Task → Task} (h : Began s m tk g) (k : Task → Task) :
    Began s (mapTask m s.cur k) tk (k ∘ g) := by
  obtain ⟨h1, h2, h3, h4, h5⟩ := h
  refine ⟨h1, h2, ?_, fun q hq => ?_, fun c => ?_⟩
  · rw [taskOf_mapTask_self, h3]; rfl
  · rw [taskOf_mapTask_ne _ _ _ _ hq]; exact h4 q hq
  · rw [coreOf_mapTask]; exact h5 c

/-- The model's own marks of a turn, and the detector's, are outside the frame. -/
theorem began_marks {s m : State} {tk : Tk} {g : Task → Task} (h : Began s m tk g) (n : Nat) (d : Detector) :
    Began s { m with freeNo := n, detector := d } tk g := h

/-! ## A word that issues freely -/

theorem newSigs_popTicks (s : State) (p : Party) (k : Tk) :
    (newSigs (taskOf (popTicks s p k) p) k).map (·.1) = (newSigs (taskOf s p) k).map (·.1) := by
  rw [popTicks_task]
  split <;> rfl

theorem inPiped_popTicks (s : State) (p : Party) (k : Tk) : inPiped (taskOf (popTicks s p k) p) = inPiped (taskOf s p) := by
  rw [popTicks_task]
  split <;> rfl

theorem issues_step {i : Instr} {pl : Plan} {s : State} (h : issues i pl s = true) : (taskOf s s.cur).step = false := by
  simp only [issues, Bool.and_eq_true, Bool.not_eq_true'] at h
  exact h.1.1.2

theorem issues_event {i : Instr} {pl : Plan} {s : State} (h : issues i pl s = true) : (taskOf s s.cur).loopEvent = none := by
  simp only [issues, Bool.and_eq_true, Option.isNone_iff_eq_none] at h
  exact h.1.2

/-- A word that issues freely acts on `acting`, whatever its effect is. -/
theorem issueWord_acts {i : Instr} {mk : State → Party → Plan} {act : List Nat → State → Act} {s s3 : State}
    (h : issues i (mk s s.cur) s = true) (ha : act (signalsOf s (mk s s.cur).tk) (acting (mk s s.cur) s) = .done s3) :
    ∃ n d, runWord i mk act s = .next (endWord { s3 with freeNo := n, detector := d } s.cur (inPiped (taskOf s s.cur))) := by
  simp only [issues, Bool.and_eq_true, Option.isNone_iff_eq_none, Bool.not_eq_true', List.isEmpty_iff] at h
  obtain ⟨⟨⟨⟨⟨⟨⟨⟨⟨⟨⟨⟨⟨h1, h2⟩, h3⟩, h4⟩, h5⟩, h6⟩, h7⟩, h8⟩, h9⟩, h10⟩, h11⟩, _⟩, _⟩, h12⟩ := h
  have hd : ((mk s s.cur).drain && !(taskOf s s.cur).flights.isEmpty) = false := by
    revert h5; cases (mk s s.cur).drain <;> cases (taskOf s s.cur).flights <;> simp
  have hc : (mk s s.cur).cold.isSome = false := by rw [h6]; rfl
  have hn : ∀ q, countSoft (popTicks s s.cur (mk s s.cur).tk) s.cur (mk s s.cur) = q → q = popTicks s s.cur (mk s s.cur).tk := by
    intro q hq; rw [← hq]; unfold countSoft; rw [h12]
  have hg : (newSigs (taskOf (popTicks s s.cur (mk s s.cur).tk) s.cur) (mk s s.cur).tk).map (·.1)
      = signalsOf s (mk s s.cur).tk := newSigs_popTicks _ _ _
  unfold acting at ha
  unfold runWord issueWord
  simp only [h1, h2, h3, h4, hd, hc, h7, h8, h9, Bool.false_eq_true, if_false, Bool.and_self, if_true]
  unfold actWord
  simp only [h10, h11, ite_self]
  rw [hn _ rfl, hg, ha, inPiped_popTicks]
  obtain ⟨n, hs⟩ := spendFree_eq s s.cur (mk s s.cur) s3
  obtain ⟨d, hw⟩ := noteWord_eq (spendFree s s.cur (mk s s.cur) s3) s.cur ((encodeWord i).getD 0) (mk s s.cur).tk
  refine ⟨n, d, ?_⟩
  dsimp only
  rw [hw, hs]

/-- The outcome of a word that issues freely and whose effect leaves it done, with no event held. -/
theorem runWord_done {i : Instr} {mk : State → Party → Plan} {act : List Nat → State → Act} {s s3 : State}
    (h : issues i (mk s s.cur) s = true) (ha : act (signalsOf s (mk s s.cur).tk) (acting (mk s s.cur) s) = .done s3)
    (hs : (taskOf s3 s.cur).step = false) (hl : (taskOf s3 s.cur).loopEvent = none) :
    ∃ n d, runWord i mk act s = .next (endCycle { s3 with freeNo := n, detector := d } s.cur) := by
  obtain ⟨n, d, hr⟩ := issueWord_acts h ha
  refine ⟨n, d, hr.trans ?_⟩
  have h0 : taskOf { s3 with freeNo := n, detector := d } s.cur = taskOf s3 s.cur := rfl
  have e1 : (taskOf (endCycle { s3 with freeNo := n, detector := d } s.cur) s.cur).step = false := by
    simp only [endCycle, taskOf_mapTask_self, tickTask, h0]; exact hs
  have e2 : (taskOf (endCycle { s3 with freeNo := n, detector := d } s.cur) s.cur).loopEvent = none := by
    simp only [endCycle, taskOf_mapTask_self, tickTask, h0]; exact hl
  simp [endWord, e1, e2]

theorem step_begun {s m : State} {tk : Tk} {fs : List Flight} (h : Began s m tk (flying fs)) :
    (taskOf m s.cur).step = (taskOf s s.cur).step := by
  rw [h.2.2.1]; rfl

theorem loopEvent_begun {s m : State} {tk : Tk} {fs : List Flight} (h : Began s m tk (flying fs)) :
    (taskOf m s.cur).loopEvent = (taskOf s s.cur).loopEvent := by
  rw [h.2.2.1]; rfl

/-- A word whose effect is one result put in flight. -/
theorem runWord_puts {i : Instr} {mk : State → Party → Plan} {act : List Nat → State → Act} {s : State} {f : Flight}
    (h : issues i (mk s s.cur) s = true)
    (ha : act (signalsOf s (mk s s.cur).tk) (acting (mk s s.cur) s) = .done (addFlight (acting (mk s s.cur) s) s.cur f)) :
    Puts (mk s s.cur).tk [f] s (runWord i mk act s) := by
  have hb : Began s (addFlight (acting (mk s s.cur) s) s.cur f) (mk s s.cur).tk (flying [f]) :=
    began_mapTask (began_acting (mk s s.cur) s) _
  obtain ⟨n, d, hr⟩ := runWord_done h ha ((step_begun hb).trans (issues_step h)) ((loopEvent_begun hb).trans (issues_event h))
  exact ⟨_, hr, began_marks hb n d⟩

end Sys2Proof.Machine
end

