-- ==== Sys2Proof/Machine/Ecc.lean ====
section
/-! DEFINITION. The codeword of an atom (spec 19, R397): its 37 symbols over GF(2^8). What a read does with errors in it is `correctable` (R398). -/

namespace Sys2Proof.Machine

/-- A field element times the generator 0x02, modulo x^8 + x^4 + x^3 + x^2 + 1. -/
def gfDouble (a : Byte) : Byte := (a <<< 1) ^^^ if a.getLsbD 7 then 0x1D#8 else 0#8
def gfMulGo : Nat → Byte → Byte → Byte
  | 0, _, _ => 0
  | n + 1, a, b => (if b.getLsbD 0 then a else 0) ^^^ gfMulGo n (gfDouble a) (b >>> 1)
/-- The product in the field. -/
def gfMul (a b : Byte) : Byte := gfMulGo 8 a b
/-- The powers 0 to 3 of the generator. -/
def alphaPow : Nat → Byte
  | 0 => 1
  | n + 1 => gfDouble (alphaPow n)

/-- A polynomial, its highest coefficient first, times x - r. -/
def timesRoot (p : List Byte) (r : Byte) : List Byte := List.zipWith (· ^^^ ·) (p ++ [0]) (0 :: p.map (gfMul r))
/-- g(x), its highest coefficient first. -/
def genPoly : List Byte := ((List.range 4).map alphaPow).foldl timesRoot [1]

/-- One symbol of the message divided in: the remainder of x times what came, plus it. -/
def checkStep (rem : List Byte) (c : Byte) : List Byte :=
  let f := c ^^^ rem.headD 0
  List.zipWith (· ^^^ ·) (rem.drop 1 ++ [0]) ((genPoly.drop 1).map (gfMul f))
/-- The four check symbols of a message: the remainder of it times x^4 divided by g(x). -/
def checkSymbols (message : List Byte) : List Byte := message.foldl checkStep [0, 0, 0, 0]

/-- The metadata byte of an atom: the tags of its two 16-byte units, and its poison bit. -/
def metaByte (s : State) (far : Bool) (a : Nat) : Byte :=
  let tag (i : Nat) : Nat := (rdTag s ⟨farSpace far, 32 * a + 16 * i⟩).toNat
  BitVec.ofNat 8 (tag 0 + 2 * tag 1 + 4 * (tget false (if far then s.farPoison else s.nearPoison) a).toNat)
/-- The codeword as it was written: bytes, metadata, checks. -/
def atomCodeword (s : State) (far : Bool) (a : Nat) : List Byte :=
  let message := (List.range 32).map (fun i => rdByte s ⟨farSpace far, 32 * a + i⟩) ++ [metaByte s far a]
  message ++ checkSymbols message

/-- The codeword as a polynomial at alpha^j: zero for j from 0 to 3 of a word without errors. -/
def syndrome (w : List Byte) (j : Nat) : Byte := w.foldl (fun acc c => gfMul acc (alphaPow j) ^^^ c) 0

end Sys2Proof.Machine
end

