-- ==== Sys2Proof/Tests/Slice0.lean ====
section
/-! SUPPORT. The model's own tests: words of the spec, ill-formed terms, results worked out by hand from the rules, and for each
statement with hypotheses a state and operands that meet them. `fx` is the small state they share. -/

namespace Sys2Proof.Tests

open Sys2Proof Sys2Proof.Machine

set_option Elab.async false

/-! ## Shorthands -/

def fa (ty : TyCode) (d a b c : SpecBits) : FmtA :=
  { tk := noTk, ty := ty, s := false, p := 0, z := false, d := d, a := a, b := b, c := c, ma := 0, mb := 0, mc := 0, cl := 0, sc := 0 }
def fm (ty : TyCode) (d : SpecBits) (k : BitVec 4) (x : SpecBits) (imm : BitVec 21) : FmtM :=
  { tk := noTk, ty := ty, s := false, p := 0, z := false, d := d, k := k, x := x, imm := imm }
def fi (d a : SpecBits) (imm : BitVec 34) : FmtI := ⟨noTk, false, d, a, imm⟩
/-- No operand. -/
def no : SpecBits := 0x7F
def xs (n : Nat) : SpecBits := BitVec.ofNat 7 (0x10 + n)
def vs (n : Nat) : SpecBits := BitVec.ofNat 7 (0x40 + n)
def kz (n : Nat) : SpecBits := BitVec.ofNat 7 (0x50 + n)
def qs (n : Nat) : SpecBits := BitVec.ofNat 7 (0x60 + n)
def os (n : Nat) : SpecBits := BitVec.ofNat 7 (0x68 + n)
def ms (n : Nat) : SpecBits := BitVec.ofNat 7 (0x70 + n)

/-- The results that a word has put in flight: what is left of its latency after its issue cycle, destination, value and flags. -/
def flown (o : Host.Outcome State Fault Refusal) : List (Nat × Dest × Val × BitVec 8) :=
  match o with
  | .next t => (taskOf t t.cur).flights.map fun g => (g.rem, g.dest, g.val, g.flags)
  | _ => []
/-- The state after a word. -/
def after (o : Host.Outcome State Fault Refusal) : State :=
  match o with
  | .next t => t
  | _ => State.reset

/-! ## The shared state -/

/-- x0 = 10, x1 = -3, x2 = 7, x3 = 0, x4 = -2^63, x5 = -1, x6 = 64, x7 and x8 the f32 numbers 1.5 and 2, x9 = 48, x10 = 2. -/
def regs : Table Word :=
  [(0, 10), (1, 0xFFFFFFFFFFFFFFFD), (2, 7), (4, 0x8000000000000000), (5, 0xFFFFFFFFFFFFFFFF), (6, 64), (7, 0x3FC00000),
   (8, 0x40000000), (9, 48), (10, 2)]
/-- Tokens: k0 in slot 1 (near), k1 in slot 2 (far), k2 in slot 1 with R only, k3 of an old generation, k4 in slot 3 (the
scratchpad of core 0). -/
def toks : Table KReg :=
  [(0, mkTok 1 7 0 15 4096 64), (1, mkTok 2 7 1 15 4096 0), (2, mkTok 1 7 0 8 256 0), (3, mkTok 1 6 0 15 4096 0),
   (4, mkTok 3 7 2 15 4096 0)]
def win : Task :=
  { Task.fresh with status := .run, ctx := 1, launch := some (0, 0), pc := 3, x := regs, k := toks, m := [(1, 0), (2, 0xFF)] }
def page (sp : Space) (first : Nat) : PinSlot :=
  { PinSlot.fresh with gen := 7, state := .live, ctx := 1, first := first, nwords := 1, space := sp, extlen := 65536 }
def frame (sp : Space) (n : Nat) : PinWord := { PinWord.fresh with used := true, space := sp, frameA := n }
def image : Image := { Image.mk noTok (0, 64) (64, 64) (128, 64) (192, 64) [] with tok := mkTok 1 7 0 15 4096 0 }
def run1 : Launch :=
  { Launch.fresh with state := .running, ctx := 1, ext := [2, 1, 1, 1], handler := 5, image := image
                      stages := [⟨0, 10, 1, true⟩, ⟨4, 10, 1, false⟩], bound := true }
def ctx1 : Ctx := { Ctx.fresh with live := true, saveSlot := 1 }
/-- A window in slot 0 of core 0, three pin slots of one page each, a launch running, a context. -/
def fx : State :=
  { State.reset with
    powered := true, cur := .slot 0 0, tasks := [(0, win)], slots := [(1, page .near 10), (2, page .far 11), (3, page .hall 12)]
    words := [(10, frame .near 1), (11, frame .far 2), (12, frame .hall 0)]
    near := [(65600, 0x80), (65601, 0xFF), (65602, 0x01)]
    dies := [(0, { Die.fresh with launches := [(0, run1)] })], ctxs := [(1, ctx1)] }
/-- `fx` with the window changed. -/
def fxw (g : Task → Task) : State := mapTask fx fx.cur g

/-- A `copy` record for the copy engine: eight bytes from operand 1 to operand 0, both through k0. -/
def rec0 : Rec :=
  { eng := 1, res := 0, pop0 := 0, pop1 := 0, push0 := 0, push1 := 0, semp := 0, semv := 0, chain := false, tsm := false, acc := false
    cks := false, sat := false, wrap := false, xf := 0, ty := 31, mode := 0, n3 := 0, n2 := 0, n1 := 0, n0 := 0
    opd0 := ⟨0, 0, 0, 0, 0, 0⟩, opd1 := ⟨0, 64, 0, 0, 0, 0⟩, opd2 := ⟨0, 0, 0, 0, 0, 0⟩ }

/-! ## Words the spec writes out (spec 01, 04 to 16) -/

theorem test_decode_addi : decodeWord 0x080024440000000A = .ok (.addi ⟨noTk, false, 0x12, 0x11, 10⟩) := by decide +kernel
theorem test_decode_vfma : decodeWord 0x7246F3C5610998CE = .ok (.vfma
    { tk := ⟨true, false, false, true⟩, ty := 15, s := false, p := 3, z := true, d := 0x45, a := 0x30, b := 0x42, c := 0x33
      ma := 0, mb := 1, mc := 2, cl := 1, sc := 6 }) := by decide +kernel
theorem test_decode_br : decodeWord 0x300203C0FFFFFFFD = .ok (.br .ne ⟨noTk, 0x00, 0x78, 0xFFFFFFFD⟩) := by decide +kernel
theorem test_decode_ld : decodeWord 0x5800301632800020 = .ok (.ld (fm 3 0x16 3 0x14 32)) := by decide +kernel
theorem test_decode_vld : decodeWord 0xA001004322200040 = .ok (.vld (fm 16 0x43 2 0x11 64)) := by decide +kernel
theorem test_decode_estart : decodeWord 0xE001F07FF257F800 = .ok (.estart (fa 31 no 0x79 0x15 no)) := by decide +kernel
theorem test_decode_xm2l : decodeWord 0xC4031062C1FFF800 = .ok (.xm2l (fa 17 0x62 0x60 no no)) := by decide +kernel
theorem test_decode_mcast : decodeWord 0xE801F07FA250B000 = .ok (.mcast (fa 31 no 0x51 0x14 0x16)) := by decide +kernel
theorem test_decode_launch : decodeWord 0xEC01F012A9E3F800 = .ok (.launch (fa 31 0x12 0x54 0x78 no)) := by decide +kernel
theorem test_decode_ffence : decodeWord 0xF009F07FFFFFF800 = .ok (.ffence (fa 31 no no no no)) := by decide +kernel
theorem test_decode_atom : decodeWord 0xD400401432400001 = .ok (.atomAdd (fm 4 0x14 3 0x12 1)) := by decide +kernel
theorem test_decode_trmark : decodeWord 0xF805F01427FFF800 = .ok (.trmark (fa 31 0x14 0x13 no no)) := by decide +kernel
/-- The `mma` record of spec 08's example: 512 bits written as eight words, the highest first. -/
theorem test_decode_mma : (match decodeRecord (0x1020000000008182#64 ++ 0x53E0780000000000#64 ++ 0x00003F0000000000#64 ++ 0#64
    ++ 0x0000000002000000#64 ++ 1#64 ++ 0#64 ++ 0x100#64) with
    | .ok (.mma r) => r.eng = 2 && r.semp = 0x81 && r.semv = 0x82 && r.tsm && r.cks && r.xf = 0x3E0 && r.ty = 15 && r.n0 = 63 && r.opd1.base = 0x20000
        && r.opd1.s0 = 0x100 && r.opd2.base = 0 && r.opd2.s0 = 0x100
    | _ => false) = true := by decide +kernel
theorem test_reserved_bits_refused :
    decodeWord 0x300203C1FFFFFFFD = .bad .reserved ∧ decodeWord 0xFC00000000000000 = .bad .unassigned := by decide +kernel

/-! ## Well-formedness: a term for each check, which the check refuses (spec 01, R25-R35; spec 07, R212) -/

/-- The terms next to the ill-formed ones are well formed. -/
theorem test_wf_accepts : ([.add (fa 4 (xs 1) (xs 2) (xs 3) no), .addi (fi (xs 1) (xs 2) 5), .br .eq ⟨noTk, xs 1, xs 2, 4⟩,
    .loop .l0 ⟨noTk, xs 1, 3, 1, 7⟩, .ld (fm 4 (xs 1) 0 no 0), .st (fm 4 (xs 1) 0 no 0), .vadd (fa 16 (vs 0) (vs 1) (vs 2) no),
    .vzip (fa 16 (vs 2) (vs 1) (vs 4) no), .xclr (fa 17 (qs 0) (xs 2) (xs 4) (os 1)), .csrr (fi (xs 1) no 0x20),
    .bfx (fi (xs 1) (xs 2) 0xFC0), .barwait { fa 31 (xs 1) (kz 0) (xs 2) (xs 3) with sc := 6 }] : List Instr).all (·.wf) = true := by
  decide +kernel
/-- Operand classes (R31, R32, R35 case 3): a vector for a scalar, a constant for D, `#0.5` for an integer, no operand. -/
theorem test_wf_refuses_operands : ([.add (fa 4 (xs 1) (vs 2) (xs 3) no), .add (fa 4 0x78 (xs 2) (xs 3) no),
    .add (fa 4 (xs 1) 0x7C (xs 3) no), .add (fa 4 (xs 1) (xs 2) no no), .add (fa 4 (xs 1) (xs 2) (xs 3) (xs 4)),
    .addi (fi (xs 1) (vs 2) 5), .li (fi (xs 1) (xs 2) 5), .br .eq ⟨noTk, vs 1, xs 2, 4⟩, .jmp ⟨noTk, xs 1, no, 4⟩,
    .loop .l0 ⟨noTk, no, 3, 1, 7⟩, .ld (fm 4 (vs 1) 0 no 0), .st (fm 4 no 0 no 0), .mand (fa 31 (ms 0) (ms 1) (ms 2) no),
    .estart (fa 31 no no (xs 1) no), .coll (fa 16 (xs 20) (xs 1) (kz 2) (xs 10)), .halt (fa 31 no (xs 1) no no)]
      : List Instr).all (fun i => !i.wf) = true := by decide +kernel
/-- Types (R35 case 4). -/
theorem test_wf_refuses_types : ([.add (fa 16 (xs 1) (xs 2) (xs 3) no), .fadd (fa 4 (xs 1) (xs 2) (xs 3) no), .and (fa 4 (xs 1) (xs 2) (xs 3) no),
    .vadd (fa 11 (vs 0) (vs 1) (vs 2) no), .vdiv (fa 4 (vs 0) (vs 1) (vs 2) no), .ld (fm 11 (xs 1) 0 no 0), .vgath (fm 1 (vs 0) 0 (vs 1) 0),
    .vnarrow (fa 4 (vs 0) (vs 1) no 4), .vwmul (fa 4 (vs 0) (vs 1) (vs 2) 1), .xclr (fa 16 (qs 0) (xs 2) (xs 4) (os 1)),
    .atomAdd (fm 2 (xs 1) 0 no 0), .accld (fa 16 (vs 0) (xs 1) (xs 2) no), .vcmp .un (fa 4 (ms 1) (vs 1) (vs 2) no), .estart (fa 0 no (xs 1) (xs 2) no)]
      : List Instr).all (fun i => !i.wf) = true := by decide +kernel
/-- S, predicates, modifiers, clamp and scale (R25-R28, R35 case 5), and fields that must be zero (case 2). -/
theorem test_wf_refuses_fields : ([.add { fa 4 (xs 1) (xs 2) (xs 3) no with s := true }, .add { fa 4 (xs 1) (xs 2) (xs 3) no with z := true },
    .add { fa 4 (xs 1) (xs 2) (xs 3) no with p := 1 }, .add { fa 9 (xs 1) (xs 2) (xs 3) no with ma := 1 },
    .add { fa 4 (xs 1) (xs 2) (xs 3) no with cl := 1 }, .add { fa 4 (xs 1) (xs 2) (xs 3) no with sc := 1 },
    .and { fa 31 (xs 1) (xs 2) (xs 3) no with cl := 3 }, .suspend { fa 31 no (kz 0) (xs 1) no with tk := ⟨true, false, false, false⟩ },
    .eret { fa 31 no (xs 1) (xs 2) no with tk := ⟨false, true, false, false⟩ }, .fcvt (fa 4 (xs 1) (xs 2) no 0x30),
    .bfx (fi (xs 1) (xs 2) 0x2000), .bfx (fi (xs 1) (xs 2) 0xFC1), .bfi (fi (xs 1) (xs 2) 0x1000), .lih (fi (xs 1) (xs 2) 0x40000000),
    .csrr (fi (xs 1) no 7), .csrw (fi no (xs 2) 0), .trap (fi no no 0x10000), .loop .l0 ⟨noTk, xs 1, 3, 8, 7⟩,
    .loop .l0 ⟨noTk, xs 1, 2, 1, 7⟩, .vzip (fa 16 (vs 1) (vs 1) (vs 4) no), .vld { fm 18 (vs 0) 0 no 0 with p := 1, z := true },
    .vst { fm 16 (vs 0) 0 no 0 with z := true }, .kst { fm 31 (kz 0) 0 no 0 with p := 1 }, .ksub { fa 31 (kz 0) (kz 1) (xs 2) (xs 3) with cl := 2 },
    .xlatTrap { fa 31 (kz 0) (xs 1) (xs 2) no with cl := 2 }, .barwait { fa 31 (xs 1) (kz 0) (xs 2) (xs 3) with sc := 7 },
    .cas (fm 4 (xs 1) 0 no 0), .xclr (fa 17 (qs 0) (xs 1) (xs 4) (os 1)), .xeval (fa 17 (vs 0) (qs 0) (xs 1) no),
    .ringf (fa 31 (xs 1) (kz 0) (xs 2) (xs 3)), .qsend (fa 31 no (xs 1) (xs 27) no), .coll { fa 16 (xs 20) (kz 1) (kz 2) (xs 10) with sc := 3 },
    .predm { fa 31 (xs 1) (kz 0) (xs 2) (xs 3) with sc := 7 }] : List Instr).all (fun i => !i.wf) = true := by decide +kernel

/-- Records: the reasons 2 to 6 of R232 for a `copy` record of the copy engine, and a field of each other record. -/
theorem test_wf_records : (Instr.copy rec0).wf = true ∧ ([.copy { rec0 with eng := 2 }, .copy { rec0 with res := 1 },
    .copy { rec0 with pop0 := 0x05 }, .copy { rec0 with semp := 0x40 }, .copy { rec0 with semv := 0x01 },
    .copy { rec0 with sat := true, wrap := true }, .copy { rec0 with ty := 4 }, .fill { rec0 with opd1 := ⟨1, 0, 0, 0, 0, 0⟩ },
    .copypl rec0, .copyrm { rec0 with ty := 16, mode := 1 }, .decomp { rec0 with ty := 16, mode := 2 },
    .mma { rec0 with eng := 2, ty := 16, chain := true }, .tcfg { rec0 with eng := 2 }, .epi { rec0 with eng := 3, ty := 16, n0 := 126 },
    .epiv { rec0 with eng := 3, ty := 16, opd0 := ⟨0, 1, 0, 0, 0, 0⟩ }, .jrec { rec0 with eng := 1, n1 := 1 }, .endstr { rec0 with xf := 1 }]
      : List Instr).all (fun i => !i.wf) = true := by decide +kernel
/-- Events name a party, core, die, cluster or link that the module has (R3, R140, R297). -/
theorem test_wf_events : ([.resultWrite (.slot 511 3), .bankRefresh 511 7, .linkDown 15, .commandFetch (.stream 3 63)] : List Instr).all (·.wf) = true
    ∧ ([.resultWrite (.slot 512 3), .resultWrite (.slot 0 4), .bankRefresh 512 0, .linkDown 16, .commandFetch (.stream 4 0),
      .leaveGrant 32, .stairwellFire 4, .launchEnd 0 32] : List Instr).all (fun i => !i.wf) = true := by decide +kernel

/-! ## Issue, traps and results (spec 01, 02, 16) -/

def hasOutcome (o : Host.Outcome State Fault Refusal) (g : State → Bool) : Bool := match o with | .next t => g t | _ => false

/-- An ill-formed word, its premises, and its trap: ILL 3 with the handler running. -/
theorem test_ill_formed : (encodeWord (.add (fa 4 (xs 1) (vs 2) (xs 3) no))).isSome = true ∧ (Instr.add (fa 4 (xs 1) (vs 2) (xs 3) no)).wf = false
    ∧ (taskOf fx fx.cur).wait = .none ∧ (coreOf fx (coreNo fx.cur)).refresh = none ∧ bpHit fx fx.cur = none := by decide +kernel
theorem test_ill_formed_traps : hasOutcome (exec (.add (fa 4 (xs 1) (vs 2) (xs 3) no)) fx) (fun t =>
    (taskOf t t.cur).inHandler && (taskOf t t.cur).pc = 5 && (tget Task.fresh t.saved 0).trap.cause = cILL
      && (tget Task.fresh t.saved 0).trap.detail = 3 && (tget Task.fresh t.saved 0).trap.resume = 3) = true := by decide +kernel

/-- An expired entry gives EXP, a register of another tag FMT. -/
def expired : State := fxw fun t => { t with w := [⟨⟨0, 16⟩, .expired⟩], v := [(1, ⟨0, 16⟩)] }
theorem test_trap_order : (let f := fa 16 (vs 0) 0x30 (vs 1) no
    (Instr.vadd f).wf = true ∧ refreshHit expired expired.cur (readsV f (some 16) (some 16) (some 16)) = false ∧ bpHit expired expired.cur = none
      ∧ isPorter expired.cur = false ∧ inactive (taskOf expired expired.cur) = false ∧ ticksReady expired expired.cur f.tk = true
      ∧ (taskOf expired expired.cur).rfErr = [] ∧ expField (taskOf expired expired.cur) (readsV f (some 16) (some 16) (some 16)) = some 1) := by decide +kernel
theorem test_trap_order_format : (let f := fa 16 (vs 0) (vs 2) (vs 1) no
    (Instr.vadd f).wf = true ∧ ((taskOf expired expired.cur).flights.filter fun g => g.rem != 0).length < 24
      ∧ expField (taskOf expired expired.cur) (readsV f (some 16) (some 16) (some 16)) = none
      ∧ fmtField expired expired.cur (readsV f (some 16) (some 16) (some 16)) = some 1) := by decide +kernel

/-- A `nop` that waits for a copy tick that is not there. -/
theorem test_slot_freezes : (let f := { fa 31 no no no no with tk := ⟨true, false, false, false⟩ }
    (Instr.nop f).wf = true ∧ isPorter fx.cur = false ∧ (coreOf fx (coreNo fx.cur)).refresh = none ∧ bpHit fx fx.cur = none
      ∧ inactive (taskOf fx fx.cur) = false ∧ ((taskOf fx fx.cur).flights.filter fun g => g.rem != 0).length ≤ 24
      ∧ ticksReady fx fx.cur f.tk = false ∧ hasOutcome (exec (.nop f) fx) (fun t => decide (t = fx)) = true) := by decide +kernel

theorem test_handler_premises : isPorter fx.cur = false ∧ (taskOf fx fx.cur).flights = [] ∧ (taskOf fx fx.cur).inHandler = false
    ∧ (mkTrap cDBG 15).cause ∉ [cPF, cLAUNCH] ∧ (launchDebug fx fx.cur).stop = false ∧ asyncDone (taskOf fx fx.cur) = true
    ∧ (taskOf fx fx.cur).launch = some (0, 0) ∧ (coreDebug fx (coreNo fx.cur)).gkinds = 0 := by decide +kernel

/-- A task in its handler, the saved task beside it: the frame in near memory says pc 9. -/
def handled : State :=
  { fxw (fun t => { t with inHandler := true, pc := 5 }) with
    saved := [(0, win)], near := [((framePlace fx (.slot 0 0) 8).addr, 9), ((framePlace fx (.slot 0 0) 65).addr, 1)] }
theorem test_return : handled.saved.find? (fun e => decide (e.1 = partyKey handled.cur)) = some (partyKey handled.cur, win)
    ∧ frameField handled handled.cur 64 1 < 0x10 ∧ handled.sweepSet = [] := by decide +kernel
theorem test_eret_returns : issues (.eret (fa 31 no no no no)) (planEret (fa 31 no no no no) handled handled.cur) handled = true
    ∧ hasOutcome (exec (.eret (fa 31 no no no no)) handled) (fun t =>
      (taskOf t t.cur).pc = 9 && (taskOf t t.cur).step && !(taskOf t t.cur).inHandler && (taskOf t t.cur).x = regs) = true := by decide +kernel
/-- No asynchronous operation pends in `fx`. -/
theorem test_operands : unsureReg fx fx.cur (destOf (xs 1)) = false := by decide +kernel

/-- A scalar and a vector result that are due. -/
def due (f : Flight) : State := fxw fun t => { t with flights := [f] }
theorem test_results_due :
    (let f := mkFlight 0 true (.x 5) (.word 42) 0 false []
     (taskOf (due f) fx.cur).flights.filter (fun g => decide (g.rem = 0)) = [f] ∧ f.stair = true ∧ f.sigs = [] ∧ f.need = [] ∧ f.fix = none
      ∧ f.short = false)
    ∧ (let f := mkFlight 0 true (.v 5) (.vec ⟨7, 16⟩) 0 false []
       (taskOf (due f) fx.cur).flights.filter (fun g => decide (g.rem = 0)) = [f] ∧ f.dest = .v 5 ∧ f.val = .vec ⟨7, 16⟩) := by decide +kernel
theorem test_result_lands : hasOutcome (exec (.resultWrite fx.cur) (due (mkFlight 0 true (.x 5) (.word 42) fOF false []))) (fun t =>
    tget 0 (taskOf t t.cur).x 5 = 42 && (taskOf t t.cur).t = [⟨42, .lasting 0⟩] && (taskOf t t.cur).flags = fOF && (taskOf t t.cur).flights.isEmpty) = true := by
  decide +kernel
theorem test_short_lived_expires : hasOutcome (exec (.shortLivedExpiry fx.cur) (fxw fun t => { t with t := [⟨1, .left 0⟩, ⟨2, .left 3⟩] })) (fun t =>
    (taskOf t t.cur).t = [⟨1, .expired⟩, ⟨2, .left 3⟩]) = true := by decide +kernel
theorem test_bank_refresh : hasOutcome (exec (.bankRefresh 0 3) fx) (fun t => (coreOf t 0).refresh = some 3) = true := by decide +kernel
theorem test_pin_cache_fill : hasOutcome (exec (.pinCacheFill 0 1) { fxw (fun t => { t with pinMiss := some 1 }) with pinCold := [(0, 1)] }) (fun t =>
    t.pinCold.isEmpty && (taskOf t t.cur).pinMiss = none) = true := by decide +kernel
theorem test_held_tick : (let s := fxw fun t => { t with sigq := [(4, .copy, true)] }
    (taskOf s (.slot 0 0)).sigq = [(4, .copy, true)] ∧ ticksOf (coreOf s 0) 1 2 < 32
      ∧ hasOutcome (exec (.heldTickPush (.slot 0 0)) s) (fun t => ticksOf (coreOf t 0) 1 2 = 1 && (taskOf t t.cur).sigq.isEmpty) = true) := by
  decide +kernel

/-! ## Scalar words (spec 04): each issues in `fx`, and its result is worked out by hand -/

/-- The breaches of `add`, `sub` and `mul`. -/
def illA (f : FmtA) : List (Nat × Bool) := faultsA (sigIntAri f) f
def scal (ty : TyCode) (a b : SpecBits) : FmtA := fa ty (xs 20) a b no
def out (lat : Nat) (v : Word) (fl : BitVec 8) : List (Nat × Dest × Val × BitVec 8) := [(lat - 1, .x 20, .word v, fl)]

/-- -1 + -1 in n8 wraps to 0xFE with OF: 255 + 255 = 510 = 256 + 254 (R105). -/
theorem test_add_wraps : issues (.add (scal 6 (xs 5) (xs 5))) (planScal (illA (scal 6 (xs 5) (xs 5))) (scal 6 (xs 5) (xs 5)) 1 fx fx.cur) fx = true
    ∧ flown (exec (.add (scal 6 (xs 5) (xs 5))) fx) = out 1 0xFE fOF := by decide +kernel
/-- -2^63 - 7 saturates at -2^63 with OF. -/
theorem test_sub_saturates : flown (exec (.sub { scal 4 (xs 4) (xs 2) with cl := 3 }) fx) = out 1 0x8000000000000000 fOF := by decide +kernel
theorem test_mul : flown (exec (.mul (scal 4 (xs 1) (xs 2))) fx) = out 3 0xFFFFFFFFFFFFFFEB 0 := by decide +kernel
/-- A false predicate bit gives 0 and no flag (R102). -/
theorem test_add_predicated_off : flown (exec (.add { scal 6 (xs 5) (xs 5) with p := 1, z := true }) fx) = out 1 0 0 := by decide +kernel
theorem test_min_max : flown (exec (.min (scal 31 (xs 1) (xs 2))) fx) = out 1 0xFFFFFFFFFFFFFFFD 0
    ∧ flown (exec (.max (scal 31 (xs 1) (xs 2))) fx) = out 1 7 0 ∧ flown (exec (.minn (scal 31 (xs 1) (xs 2))) fx) = out 1 7 0
    ∧ flown (exec (.maxn (scal 31 (xs 1) (xs 2))) fx) = out 1 0xFFFFFFFFFFFFFFFD 0 := by decide +kernel
theorem test_min_max_float : flown (exec (.min (scal 16 (xs 7) (xs 8))) fx) = out 1 0x3FC00000 0
    ∧ flown (exec (.max (scal 16 (xs 7) (xs 8))) fx) = out 1 0x40000000 0 := by decide +kernel
theorem test_high_products : flown (exec (.mulh (scal 31 (xs 1) (xs 2))) fx) = out 3 0xFFFFFFFFFFFFFFFF 0
    ∧ flown (exec (.mulhn (scal 31 (xs 5) (xs 2))) fx) = out 3 6 0 := by decide +kernel
/-- -3 / 7 = 0 and 7 / -3 = -2, remainder 1; -2^63 / -1 wraps with OF; by zero: 0, or the dividend, with DZ (R108). -/
theorem test_divide : flown (exec (.div (scal 31 (xs 2) (xs 1))) fx) = out 16 0xFFFFFFFFFFFFFFFE 0
    ∧ flown (exec (.rem (scal 31 (xs 2) (xs 1))) fx) = out 16 1 0 ∧ flown (exec (.div (scal 31 (xs 4) (xs 5))) fx) = out 16 0x8000000000000000 fOF
    ∧ flown (exec (.rem (scal 31 (xs 1) (xs 3))) fx) = out 16 0xFFFFFFFFFFFFFFFD fDZ := by decide +kernel
theorem test_divide_natural : flown (exec (.divn (scal 31 (xs 5) (xs 3))) fx) = out 16 0 fDZ
    ∧ flown (exec (.divn (scal 31 (xs 5) (xs 10))) fx) = out 16 0x7FFFFFFFFFFFFFFF 0 ∧ flown (exec (.remn (scal 31 (xs 5) (xs 0))) fx) = out 16 5 0 := by
  decide +kernel
theorem test_logic : flown (exec (.and (scal 31 (xs 1) (xs 2))) fx) = out 1 5 0 ∧ flown (exec (.or (scal 31 (xs 0) (xs 2))) fx) = out 1 15 0
    ∧ flown (exec (.xor (scal 31 (xs 0) (xs 2))) fx) = out 1 13 0 ∧ flown (exec (.andn (scal 31 (xs 2) (xs 0))) fx) = out 1 5 0 := by decide +kernel
/-- A shift by 64 gives 0, or the sign for `sra`; a rotation by 64 is none. -/
theorem test_shifts : flown (exec (.shl (scal 31 (xs 5) (xs 6))) fx) = out 1 0 0 ∧ flown (exec (.shr (scal 31 (xs 5) (xs 6))) fx) = out 1 0 0
    ∧ flown (exec (.sra (scal 31 (xs 4) (xs 6))) fx) = out 1 0xFFFFFFFFFFFFFFFF 0 ∧ flown (exec (.rot (scal 31 (xs 2) (xs 6))) fx) = out 1 7 0 := by
  decide +kernel
theorem test_compare : flown (exec (.cmp .lt (scal 31 (xs 1) (xs 2))) fx) = out 1 1 0 ∧ flown (exec (.cmp .ltn (scal 31 (xs 1) (xs 2))) fx) = out 1 0 0
    ∧ flown (exec (.cmp .gen (scal 31 (xs 2) (xs 2))) fx) = out 1 1 0 := by decide +kernel
theorem test_select : flown (exec (.sel (fa 31 (xs 20) (xs 3) (xs 1) (xs 2))) fx) = out 1 7 0 := by decide +kernel
theorem test_counts : flown (exec (.clz (fa 31 (xs 20) (xs 3) no no)) fx) = out 1 64 0 ∧ flown (exec (.ctz (fa 31 (xs 20) (xs 0) no no)) fx) = out 1 1 0
    ∧ flown (exec (.popc (fa 31 (xs 20) (xs 1) no no)) fx) = out 1 63 0 := by decide +kernel
/-- 2^63 - 1 + 1 wraps with OF; `li` and `lih` make 64 bits from 34 and 30. -/
theorem test_immediates : flown (exec (.addi (fi (xs 20) (xs 4) 0x3FFFFFFFF)) fx) = out 1 0x7FFFFFFFFFFFFFFF fOF
    ∧ flown (exec (.li (fi (xs 20) no 0x3FFFFFFFE)) fx) = out 1 0xFFFFFFFFFFFFFFFE 0
    ∧ flown (exec (.lih (fi (xs 20) (xs 2) 1)) fx) = out 1 0x400000007 0 := by decide +kernel
/-- Bits 4 to 7 of 0x80000000 ... : 8 bits from bit 60 of -2^63 would pass bit 63; 4 bits from bit 60 are 8, or -8 signed. -/
theorem test_bit_fields : flown (exec (.bfx (fi (xs 20) (xs 4) 0xFC)) fx) = out 1 8 0
    ∧ flown (exec (.bfx (fi (xs 20) (xs 4) 0x10FC)) fx) = out 1 0xFFFFFFFFFFFFFFF8 0
    ∧ flown (exec (.bfi (fi (xs 6) (xs 2) 0x48)) fx) = [(0, .x 6, .word 0x340, 0)] := by decide +kernel
theorem test_name : flown (exec (.name (fa 31 (xs 20) 0x7A no no)) fx) = out 1 2 0
    ∧ flown (exec (.name (fa 31 (kz 5) (kz 0) no no)) fx) = [(0, .k 5, .tok (mkTok 1 7 0 15 4096 64), 0)]
    ∧ flown (exec (.name (fa 31 (ms 3) (ms 2) no no)) fx) = [(1, .m 3, .mask 0xFF, 0)] := by decide +kernel
/-- 1.5 + 2 = 3.5; 1.5 x 2 = 3; 1.5 x 2 + 1.5 = 4.5; 1.5 < 2; 1.5 to i32 rounds to even, 2, with NX. -/
theorem test_floats : flown (exec (.fadd (scal 16 (xs 7) (xs 8))) fx) = out 4 0x40600000 0
    ∧ flown (exec (.fmul (scal 16 (xs 7) (xs 8))) fx) = out 4 0x40400000 0
    ∧ flown (exec (.ffma (fa 16 (xs 20) (xs 7) (xs 8) (xs 7))) fx) = out 4 0x40900000 0 := by decide +kernel
theorem test_float_compare_convert : flown (exec (.fcmp .lt (scal 16 (xs 7) (xs 8))) fx) = out 4 1 0
    ∧ flown (exec (.fcvt (fa 3 (xs 20) (xs 7) no 16)) fx) = out 4 2 fNX := by decide +kernel
theorem test_csr : flown (exec (.csrr (fi (xs 20) no 1)) (fxw fun t => { t with flags := 0x28 })) = out 1 0x28 0
    ∧ flown (exec (.csrr (fi (xs 20) no 2)) fx) = out 1 0x100000000 0
    ∧ flown (exec (.csrw (fi no (xs 2) 16)) fx) = [(0, .csr 16, .word 7, 0)] := by decide +kernel
/-- The premises of the statements on these words hold in `fx`. -/
theorem test_scalar_words_issue :
    ([(.add, illA, 4, 1), (.sub, illA, 4, 1), (.mul, illA, 4, 3)] : List ((FmtA → Instr) × (FmtA → List (Nat × Bool)) × TyCode × Nat)).all
      (fun e => issues (e.1 (scal e.2.2.1 (xs 1) (xs 2))) (planScal (e.2.1 (scal e.2.2.1 (xs 1) (xs 2))) (scal e.2.2.1 (xs 1) (xs 2)) e.2.2.2 fx fx.cur) fx) = true
    ∧ ([(.minn, 1), (.maxn, 1), (.mulh, 3), (.mulhn, 3), (.div, 16), (.rem, 16), (.divn, 16), (.remn, 16), (.and, 1), (.or, 1), (.xor, 1),
        (.andn, 1), (.shl, 1), (.shr, 1), (.sra, 1), (.rot, 1), (.cmp .eq, 1), (.cmp .gen, 1)] : List ((FmtA → Instr) × Nat)).all (fun e =>
          issues (e.1 (scal 31 (xs 1) (xs 2))) (planScal (faultsA (sigNone2 (scal 31 (xs 1) (xs 2))) (scal 31 (xs 1) (xs 2))) (scal 31 (xs 1) (xs 2)) e.2 fx fx.cur) fx) = true
    ∧ ([.min, .max] : List (FmtA → Instr)).all (fun i => [31, 16].all fun ty =>
          issues (i (scal ty (xs 7) (xs 8))) (planScal (faultsA (sigMinMax (scal ty (xs 7) (xs 8))) (scal ty (xs 7) (xs 8))) (scal ty (xs 7) (xs 8)) 1 fx fx.cur) fx) = true
    ∧ ([.clz, .ctz, .popc] : List (FmtA → Instr)).all (fun i => let f := fa 31 (xs 20) (xs 1) no no
          issues (i f) (planScal (faultsA (sigNone1 f) f) f 1 fx fx.cur) fx) = true
    ∧ (let f := fa 31 (xs 20) (xs 3) (xs 1) (xs 2)
       issues (.sel f) (planScal (faultsA (sigNone3 f) f) f 1 fx fx.cur) fx = true) := by decide +kernel
theorem test_immediate_words_issue :
    issues (.addi (fi (xs 20) (xs 1) 5)) (planImm (illAddi (fi (xs 20) (xs 1) 5)) (fi (xs 20) (xs 1) 5) fx fx.cur) fx = true
    ∧ issues (.li (fi (xs 20) no 5)) (planImm (illLi (fi (xs 20) no 5)) (fi (xs 20) no 5) fx fx.cur) fx = true
    ∧ issues (.lih (fi (xs 20) (xs 1) 5)) (planImm (illLih (fi (xs 20) (xs 1) 5)) (fi (xs 20) (xs 1) 5) fx fx.cur) fx = true
    ∧ issues (.bfx (fi (xs 20) (xs 4) 0xFC)) (planImm (illBfx (fi (xs 20) (xs 4) 0xFC)) (fi (xs 20) (xs 4) 0xFC) fx fx.cur) fx = true
    ∧ issues (.bfi (fi (xs 6) (xs 2) 0x48)) (planImm (illBfi (fi (xs 6) (xs 2) 0x48)) (fi (xs 6) (xs 2) 0x48) fx fx.cur) fx = true
    ∧ issues (.csrr (fi (xs 20) no 0x10)) (planCsrr (fi (xs 20) no 0x10) fx fx.cur) fx = true
    ∧ issues (.csrw (fi no (xs 2) 16)) (planCsrw (fi no (xs 2) 16) fx fx.cur) fx = true := by decide +kernel
theorem test_name_and_float_words_issue :
    ([(xs 20, xs 1, 0), (xs 20, 0x78, 0), (vs 1, vs 2, 0), (vs 1, vs 2, 2), (kz 5, kz 0, 0), (ms 3, ms 2, 0), (qs 1, qs 0, 0), (os 1, os 0, 0)]
      : List (SpecBits × SpecBits × BitVec 3)).all (fun e => let f := { fa 31 e.1 e.2.1 no no with p := e.2.2 }
        issues (.name f) (planName f fx fx.cur) fx) = true
    ∧ ([.fadd, .fmul] : List (FmtA → Instr)).all (fun i => let f := scal 16 (xs 7) (xs 8)
        issues (i f) (planScal (faultsA (sigFp2 f) f) f 4 fx fx.cur) fx) = true
    ∧ (let f := fa 16 (xs 20) (xs 7) (xs 8) (xs 7)
       issues (.ffma f) (planScal (faultsA (sigFp3 f) f) f 4 fx fx.cur) fx = true)
    ∧ (let f := scal 16 (xs 7) (xs 8)
       issues (.fcmp .un f) (planScal (faultsA (sigFcmp f) f) f 4 fx fx.cur) fx = true)
    ∧ (let f := fa 3 (xs 20) (xs 7) no 16
       issues (.fcvt f) (planFcvt f fx fx.cur) fx = true) := by decide +kernel

/-! ## Control (spec 04) -/

def fb (a b : SpecBits) (disp : BitVec 32) : FmtB := ⟨noTk, a, b, disp⟩
/-- A loop of four words whose body begins at word 2, with `stages` stages. -/
def looping (stages : Nat) : State :=
  fxw fun t => { t with loops := [⟨0, 2, 4, stages, 7, 0, false, 0⟩], lc := [(0, 3)], pc := 6, fell := true }
def here (s : State) (n : Nat) : State := mapTask s s.cur fun t => { t with pc := n, fell := false }

theorem test_transfer_premises :
    (taskOf fx fx.cur).loops = [] ∧ isPorter fx.cur = false ∧ (coreDebug fx (coreNo fx.cur)).gkinds = 0
    ∧ issues (.br .ne (fb (xs 1) (xs 2) 0xFFFFFFFE)) (planNone noTk (illBr (fb (xs 1) (xs 2) 0xFFFFFFFE)) (readsB (fb (xs 1) (xs 2) 0xFFFFFFFE)) fx fx.cur) fx = true
    ∧ issues (.jmp (fb no no 2)) (planNone noTk (illJmp (fb no no 2)) [] fx fx.cur) fx = true := by decide +kernel
theorem test_register_transfer_premises :
    issues (.call (fb no no 2)) (planCall (fb no no 2) fx fx.cur) fx = true
    ∧ issues (.jmpr (fa 31 no (xs 9) no no)) (planJmpr (fa 31 no (xs 9) no no) fx fx.cur) fx = true
    ∧ issues (.ret (fa 31 no (xs 3) no no)) (planJmpr (fa 31 no (xs 3) no no) fx fx.cur) fx = true := by decide +kernel
/-- From word 3: by -2 to word 1; `call` by 2 to word 5 with 32, the byte address of word 4, to x31; to byte 48, word 6. -/
theorem test_transfers : hasOutcome (exec (.br .ne (fb (xs 1) (xs 2) 0xFFFFFFFE)) fx) (fun t => (taskOf t t.cur).pc = 1) = true
    ∧ hasOutcome (exec (.br .eq (fb (xs 1) (xs 2) 0xFFFFFFFE)) fx) (fun t => (taskOf t t.cur).pc = 4) = true
    ∧ hasOutcome (exec (.jmp (fb no no 2)) fx) (fun t => (taskOf t t.cur).pc = 5) = true
    ∧ hasOutcome (exec (.call (fb no no 2)) fx) (fun t => (taskOf t t.cur).pc = 5) = true
    ∧ flown (exec (.call (fb no no 2)) fx) = [(0, .x 31, .word 32, 0)]
    ∧ hasOutcome (exec (.jmpr (fa 31 no (xs 9) no no)) fx) (fun t => (taskOf t t.cur).pc = 6) = true := by decide +kernel
/-- In a loop of words 2 to 5, from word 3: by 2 stays in it, by 4 leaves it. -/
theorem test_transfers_in_loops :
    (taskOf (here (looping 1) 3) fx.cur).loops.length ≤ 3
    ∧ issues (.jmp (fb no no 4)) (planNone noTk (illJmp (fb no no 4)) [] (here (looping 1) 3) fx.cur) (here (looping 1) 3) = true
    ∧ hasOutcome (exec (.jmp (fb no no 2)) (here (looping 1) 3)) (fun t => (taskOf t t.cur).pc = 5 && (taskOf t t.cur).loops.length = 1) = true
    ∧ hasOutcome (exec (.jmp (fb no no 4)) (here (looping 1) 3)) (fun t => (taskOf t t.cur).pc = 7 && (taskOf t t.cur).loops.isEmpty) = true := by
  decide +kernel
theorem test_branch_in_loop :
    issues (.br .eq (fb (xs 1) (xs 1) 4)) (planNone noTk (illBr (fb (xs 1) (xs 1) 4)) (readsB (fb (xs 1) (xs 1) 4)) (here (looping 1) 3) fx.cur) (here (looping 1) 3) = true
    ∧ icond .eq (rdScal fx fx.cur (xs 1)) (rdScal fx fx.cur (xs 1)) = true ∧ icond .eq (rdScal fx fx.cur (xs 1)) (rdScal fx fx.cur (xs 2)) = false := by
  decide +kernel

/-- A body of two words from word 4, ten times; two stages; no time at all. -/
theorem test_loop_opens :
    issues (.loop .l0 ⟨noTk, xs 0, 1, 0, 9⟩) (planLoop .l0 ⟨noTk, xs 0, 1, 0, 9⟩ fx fx.cur) fx = true
    ∧ issues (.loop .l0 ⟨noTk, xs 3, 1, 1, 9⟩) (planLoop .l0 ⟨noTk, xs 3, 1, 1, 9⟩ fx fx.cur) fx = true
    ∧ hasOutcome (exec (.loop .l0 ⟨noTk, xs 0, 1, 1, 9⟩) fx) (fun t => (taskOf t t.cur).loops = [⟨0, 4, 2, 2, 9, 0, false, 0⟩]
        && tget 0 (taskOf t t.cur).lc 0 = 11 && (taskOf t t.cur).spred = 1 && (taskOf t t.cur).pc = 4) = true
    ∧ hasOutcome (exec (.loop .l0 ⟨noTk, xs 3, 1, 0, 9⟩) fx) (fun t => (taskOf t t.cur).pc = 6 && tget 0 (taskOf t t.cur).lc 0 = 0) = true := by
  decide +kernel
theorem test_loop_iterates :
    innerLoop (taskOf (looping 1) fx.cur) = some ⟨0, 2, 4, 1, 7, 0, false, 0⟩ ∧ atLoopEnd (taskOf (looping 1) fx.cur) = true
    ∧ hasOutcome (exec (.loopIterationEnd fx.cur) (looping 1)) (fun t => (taskOf t t.cur).pc = 2 && tget 0 (taskOf t t.cur).lc 0 = 2) = true
    ∧ hasOutcome (exec (.loopIterationEnd fx.cur) (looping 2)) (fun t => (taskOf t t.cur).pc = 2 && (taskOf t t.cur).spred = 3) = true := by
  decide +kernel
theorem test_last_iteration : (let s := fxw fun t => { (taskOf (looping 1) fx.cur) with lc := [(0, 1)], x := t.x }
    hasOutcome (exec (.loopIterationEnd fx.cur) s) (fun t => (taskOf t t.cur).exits && (taskOf t t.cur).pc = 6) = true) := by decide +kernel
def pipedAlone : State := mapTask (looping 2) fx.cur fun t => { t with launch := none }
theorem test_pipelined_iteration_premises : innerLoop (taskOf pipedAlone fx.cur) = some ⟨0, 2, 4, 2, 7, 0, false, 0⟩
    ∧ atLoopEnd (taskOf pipedAlone fx.cur) = true ∧ (taskOf pipedAlone fx.cur).loopEvent = none ∧ (taskOf pipedAlone fx.cur).step = false
    ∧ (taskOf pipedAlone fx.cur).launch = none := by decide +kernel
def leaving : State := mapTask (looping 1) fx.cur fun t => { t with exits := true }
theorem test_loop_exit : (taskOf leaving fx.cur).exits = true ∧ innerLoop (taskOf leaving fx.cur) = some ⟨0, 2, 4, 1, 7, 0, false, 0⟩
    ∧ hasOutcome (exec (.loopExit fx.cur) leaving) (fun t => (taskOf t t.cur).loops.isEmpty && (taskOf t t.cur).pc = 6) = true := by decide +kernel
/-- `loopx` leaves for word 6 when A is not 0, and else goes on. -/
theorem test_loopx : issues (.loopx (fa 31 no (xs 1) no no)) (planLoopx (fa 31 no (xs 1) no no) (here (looping 1) 3) fx.cur) (here (looping 1) 3) = true
    ∧ issues (.loopx (fa 31 no no no no)) (planLoopx (fa 31 no no no no) (here (looping 1) 3) fx.cur) (here (looping 1) 3) = true
    ∧ hasOutcome (exec (.loopx (fa 31 no (xs 1) no no)) (here (looping 1) 3)) (fun t => (taskOf t t.cur).pc = 6 && (taskOf t t.cur).loops.isEmpty) = true
    ∧ hasOutcome (exec (.loopx (fa 31 no (xs 3) no no)) (here (looping 1) 3)) (fun t => (taskOf t t.cur).pc = 4) = true := by decide +kernel

theorem test_halt_and_waits : issues (.nop (fa 31 no no no no)) (planNone noTk (illCtl (fa 31 no no no no) cNone) [] fx fx.cur) fx = true
    ∧ issues (.halt (fa 31 no no no no)) (planHalt (fa 31 no no no no) fx fx.cur) fx = true
    ∧ issues (.halt (fa 31 no no no no)) (planHalt (fa 31 no no no no) (here (looping 1) 3) fx.cur) (here (looping 1) 3) = true
    ∧ issues (.waita (fa 31 no no no no)) (planWaita (fa 31 no no no no) fx fx.cur) fx = true
    ∧ issues (.waitacc (fa 31 no (xs 3) no no)) (planWaitacc (fa 31 no (xs 3) no no) fx fx.cur) fx = true ∧ (taskOf fx fx.cur).exchFmt = [] := by
  decide +kernel
theorem test_halt_ends_loops : hasOutcome (exec (.halt (fa 31 no no no no)) (here (looping 1) 3)) (fun t =>
    (taskOf t t.cur).status = .halting && (taskOf t t.cur).loops.isEmpty) = true := by decide +kernel
theorem test_trap_words : issues (.trap (fi no no 0xFFFF)) (planNone noTk (illTrap (fi no no 0xFFFF)) [] fx fx.cur) fx = true
    ∧ issues (.bkpt (fa 31 no (xs 2) no no)) (planBkpt (fa 31 no (xs 2) no no) fx fx.cur) fx = true := by decide +kernel
/-- The handler runs; the saved task resumes at word 4, with 0xFFFF or 7 in AUX0. -/
theorem test_trap_words_trap : hasOutcome (exec (.trap (fi no no 0xFFFF)) fx) (fun t => let u := tget Task.fresh t.saved 0
      (taskOf t t.cur).inHandler && u.trap.cause = cDBG && u.trap.detail = 15 && u.trap.aux0 = 0xFFFF && u.trap.resume = 4) = true
    ∧ hasOutcome (exec (.bkpt (fa 31 no (xs 2) no no)) fx) (fun t => let u := tget Task.fresh t.saved 0
      u.trap.detail = 1 && u.trap.aux0 = 7 && u.trap.resume = 4) = true := by decide +kernel

/-- The supervisor about to return frame 0, of the supervised task in slot 0 of core 0. -/
def supervising : State :=
  { mapDie (mapTask (fxw fun t => { t with status := .supervised }) (.super 0) fun t =>
      { t with status := .run, ctx := 0xFFF, x := [(1, 0), (2, 1)], buf := mkTok 1 7 0 15 4096 0, fetched := [(0, 0)] }) 0 (fun d =>
        { d with frames := [⟨.slot 0 0, 0, some (0, 0), 1, 0, 0, mkTrap cPF 1, 3, some 0⟩] }) with cur := .super 0 }
theorem test_supervisor_eret : (let f := fa 31 no (xs 1) (xs 2) no
    isSuper supervising.cur = true ∧ issues (.eret f) (planEret f supervising supervising.cur) supervising = true
      ∧ (dieOf supervising 0).frames.find? (fun g => decide (g.written = some (opA f (acting (planEret f supervising supervising.cur) supervising)).toNat))
          = some ⟨.slot 0 0, 0, some (0, 0), 1, 0, 0, mkTrap cPF 1, 3, some 0⟩
      ∧ partyOk supervising.cur = true ∧ partyOk (.slot 0 0) = true ∧ (taskOf supervising (.slot 0 0)).status = .supervised
      ∧ (opB f (acting (planEret f supervising supervising.cur) supervising)).toNat ≤ 1) := by decide +kernel
theorem test_supervisor_eret_returns : hasOutcome (exec (.eret (fa 31 no (xs 1) (xs 2) no)) supervising) (fun t =>
    (dieOf t 0).frames.isEmpty && (taskOf t (.slot 0 0)).status = .run && (taskOf t (.slot 0 0)).pc = 4) = true := by decide +kernel

def halting : State := fxw fun t => { t with status := .halting }
def streamHalting : State := mapTask fx (.stream 0 5) fun t => { t with status := .halting }
theorem test_retire : haltDone halting fx.cur = true ∧ haltDone streamHalting (.stream 0 5) = true ∧ haltDone fx fx.cur = false
    ∧ hasOutcome (exec (.haltRetire fx.cur) halting) (fun t => decide (taskOf t t.cur = Task.fresh)) = true := by decide +kernel
def trapped : State := fxw fun t => { t with status := .trapped, trap := mkTrap cILL 1 }
theorem test_handler_start : (taskOf trapped fx.cur).status = .trapped ∧ asyncDone (taskOf trapped fx.cur) = true
    ∧ (taskOf trapped fx.cur).launch = some (0, 0) ∧ isPorter fx.cur = false
    ∧ hasOutcome (exec (.handlerStart fx.cur) trapped) (fun t => (taskOf t t.cur).pc = 5 && (taskOf t t.cur).inHandler) = true := by decide +kernel

/-- A marker is 16 bytes of kind 6 (R384); the snapshot clears the counters. -/
theorem test_gallery_words : issues (.trmark (fa 31 (xs 4) (xs 2) no no)) (planTrmark (fa 31 (xs 4) (xs 2) no no) fx fx.cur) fx = true
    ∧ galFrozen (coreOf fx 0) = false ∧ (coreOf fx 0).galLost = false ∧ (coreOf fx 0).galTrig = false ∧ (coreOf fx 0).gal.length ≤ 20000
    ∧ issues (.perfsnap (fa 31 no no no no)) (planNone noTk (noneWord cNone cNone cNone cNone (fa 31 no no no no)) [] fx fx.cur) fx = true := by
  decide +kernel
theorem test_trmark : hasOutcome (exec (.trmark (fa 31 (xs 4) (xs 2) no no)) fx) (fun t =>
    (coreOf t 0).gal = [6, 0, 0, 0xFF, 0, 0, 0, 0, 0, 0, 0, 0, 7, 0, 0, 0]) = true := by decide +kernel
theorem test_perfsnap : hasOutcome (exec (.perfsnap (fa 31 no no no no)) { fx with cores := [(0, { Core.fresh with conflict := [(3, 9)] })] }) (fun t =>
    (coreOf t 0).conflict.isEmpty) = true := by decide +kernel

/-! ## Token-addressed memory (spec 04, 06, 09, 13) -/

/-- Slot 1's page lies at near byte 65536; k0 begins 64 bytes into it, where 0x80, 0xFF, 0x01 stand. -/
theorem test_loads_quiet : (let f := fm 2 (xs 20) 0 (xs 3) 0
    issues (.ld f) (planLd f fx fx.cur) fx = true
      ∧ (let u := acting (planLd f fx fx.cur) fx
         (memEl u u.cur f).lane = true ∧ quietLoad u u.cur (fmKReg u u.cur f) [memEl u u.cur f] = true)) := by decide +kernel
/-- i16 0xFF80 extends to 64 bits; the byte at offset 2 is 1; a nibble of 0x80 is 8; in a false lane nothing is read. -/
theorem test_ld : flown (exec (.ld (fm 2 (xs 20) 0 (xs 3) 0)) fx) = out 6 0xFFFFFFFFFFFFFF80 0
    ∧ flown (exec (.ld (fm 6 (xs 20) 0 (xs 10) 0)) fx) = out 6 1 0 ∧ flown (exec (.ld (fm 5 (xs 20) 0 no 1)) fx) = out 6 8 0
    ∧ flown (exec (.ld { fm 2 (xs 20) 0 (xs 3) 0 with p := 1, z := true }) fx) = out 6 0 0 := by decide +kernel
/-- The last byte of k0's 4,096 is read; the one after it, and a token of an old generation, are not. -/
theorem test_ld_fails : flown (exec (.ld (fm 6 (xs 20) 0 no 4095)) fx) = out 6 0 0 ∧ flown (exec (.ld (fm 6 (xs 20) 0 no 4096)) fx) = out 6 0 fXB
    ∧ flown (exec (.ld (fm 6 (xs 20) 3 no 0)) fx) = out 6 0 fST := by decide +kernel
theorem test_failing_load_premises : (let f := fm 6 (xs 20) 0 no 4096
    issues (.ld f) (planLd f fx fx.cur) fx = true
      ∧ (let u := acting (planLd f fx fx.cur) fx
         let e := memEl u u.cur f
         e.lane = true ∧ (access u (fmKReg u u.cur f) e.off e.size false).flag ≠ 0)) := by decide +kernel
theorem test_token_loads_quiet : (let f := fm 31 (kz 5) 0 no 16
    issues (.kld f) (planKld f fx fx.cur) fx = true ∧ (taskOf fx fx.cur).stores = []
      ∧ (let u := acting (planKld f fx fx.cur) fx
         elemOff u u.cur f % 16 = 0 ∧ quietLoad u u.cur (fmKReg u u.cur f) [tokEl (elemOff u u.cur f)] = true)) := by decide +kernel
theorem test_series_loads_quiet : (let f := fm 31 (qs 1) 0 no 16
    issues (.xld f) (planXld f fx fx.cur) fx = true
      ∧ (let u := acting (planXld f fx fx.cur) fx
         elemOff u u.cur f % 16 = 0 ∧ quietLoad u u.cur (fmKReg u u.cur f) [serEl (elemOff u u.cur f)] = true)) := by decide +kernel
/-- A stored tag is kept in a token page alone. -/
theorem test_kld : flown (exec (.kld (fm 31 (kz 5) 0 no 0))
      { fx with nearTags := [(4100, true)], words := [(10, { frame .near 1 with tp := true })] }) = [(5, .k 5, .tok ⟨0x1FF80, true⟩, 0)]
    ∧ flown (exec (.kld (fm 31 (kz 5) 0 no 0)) fx) = [(5, .k 5, .tok ⟨0x1FF80, false⟩, 0)] := by decide +kernel
theorem test_async_load_premises : (let f := fm 2 (xs 20) 0 (xs 3) 0
    issues (.lda f) (planLda f fx fx.cur) fx = true
      ∧ (let u := acting (planLda f fx fx.cur) fx
         quietLoad u u.cur (fmKReg u u.cur f) [memEl u u.cur f] = true)) := by decide +kernel
theorem test_async_vector_load_premises : (let f := fm 17 (vs 2) 0 no 0
    issues (.vlda f) (planVlda f fx fx.cur) fx = true
      ∧ (let u := acting (planVlda f fx fx.cur) fx
         quietLoad u u.cur (fmKReg u u.cur f) (vmEls u u.cur f) = true)) := by decide +kernel
def loaded (st : Status) : State := fxw fun t => { t with status := st, asyncs := [⟨0, [(.x 20, .word 9)], fOF, [], none, []⟩] }
theorem test_async_data : (taskOf (loaded .run) fx.cur).asyncs[0]? = some ⟨0, [(.x 20, .word 9)], fOF, [], none, []⟩
    ∧ (taskOf (loaded .run) fx.cur).status ≠ .halting ∧ (taskOf (loaded .halting) fx.cur).status = .halting
    ∧ hasOutcome (exec (.asyncLoadDataWritten fx.cur 0) (loaded .run)) (fun t =>
        tget 0 (taskOf t t.cur).x 20 = 9 && (taskOf t t.cur).asyncs.isEmpty && (taskOf t t.cur).flags = fOF) = true := by decide +kernel
theorem test_vector_loads_quiet : (let f := fm 17 (vs 2) 0 no 0
    issues (.vld f) (planVld f fx fx.cur) fx = true
      ∧ (let u := acting (planVld f fx fx.cur) fx
         quietLoad u u.cur (fmKReg u u.cur f) (vmEls u u.cur f) = true)) := by decide +kernel
/-- v1 holds 64 offsets of 0. -/
def gathering : State := fxw fun t => { t with v := [(1, ⟨0, tyI64⟩), (3, ⟨0, tyF64⟩)] }
theorem test_gather_quiet : (let f := fm 17 (vs 2) 0 (vs 1) 0
    issues (.vgath f) (planVgath f gathering fx.cur) gathering = true
      ∧ (let u := acting (planVgath f gathering fx.cur) gathering
         quietLoad u u.cur (fmKReg u u.cur f) (gathEls u u.cur f) = true)) := by decide +kernel
/-- The first eight bytes, 0x01FF80, in element 0 of `vld` and in every element of `vgath`. -/
theorem test_vector_loads : (match (flown (exec (.vld (fm 17 (vs 2) 0 no 0)) fx)) with
      | [(7, .v 2, .vec r, 0)] => decide (r = ⟨0x01FF80, 17⟩) | _ => false) = true
    ∧ (match (flown (exec (.vgath (fm 17 (vs 2) 0 (vs 1) 0)) gathering)) with
      | [(11, .v 2, .vec r, 0)] => r.tag = 17 && r.data.extractLsb' 4032 64 = 0x01FF80 | _ => false) = true := by decide +kernel

theorem test_stores_quiet : (let f := fm 6 (xs 2) 0 (xs 10) 0
    issues (.st f) (planSt f fx fx.cur) fx = true
      ∧ (let u := acting (planSt f fx fx.cur) fx
         (memEl u u.cur f).lane = true ∧ quietStore u (fmKReg u u.cur f) [memEl u u.cur f] = true)) := by decide +kernel
theorem test_failing_store_premises : (let f := fm 6 (xs 2) 2 no 0
    issues (.st f) (planSt f fx fx.cur) fx = true
      ∧ (let u := acting (planSt f fx fx.cur) fx
         (access u (fmKReg u u.cur f) (memEl u u.cur f).off (memEl u u.cur f).size true).flag ≠ 0)
      ∧ (let u := acting (planSt { f with p := 1 } fx fx.cur) fx
         (memEl u u.cur { f with p := 1 }).lane = false)) := by decide +kernel
theorem test_other_stores_quiet : (let f := fm 31 (kz 1) 0 no 16
    issues (.kst f) (planKst f fx fx.cur) fx = true ∧ quietStore fx (fmKReg fx fx.cur f) [tokEl 16] = true)
    ∧ (let f := fm 31 (qs 1) 0 no 16
       issues (.xst f) (planXst f fx fx.cur) fx = true ∧ quietStore fx (fmKReg fx fx.cur f) [serEl 16] = true)
    ∧ (let f := fm 17 (vs 3) 0 no 0
       issues (.vst f) (planVst f gathering fx.cur) gathering = true ∧ quietStore gathering (fmKReg fx fx.cur f) (vstEls gathering fx.cur f) = true)
    ∧ (let f := fm 17 (vs 3) 0 (vs 1) 0
       issues (.vscat f) (planVscat f gathering fx.cur) gathering = true ∧ quietStore gathering (fmKReg fx fx.cur f) (gathEls gathering fx.cur f) = true) := by
  decide +kernel
def stored : Store := ⟨[⟨1, 66, 66, 7, 0xFF⟩], .bytes, 0, [], [1], [], false, 2, 3⟩
/-- `st` posts 7 at offset 2 of k0, 66 of slot 1; performed, it stands at near byte 65602, where 1 stood. -/
theorem test_st : hasOutcome (exec (.st (fm 6 (xs 2) 0 (xs 10) 0)) fx) (fun t =>
    (taskOf t t.cur).stores = [stored] && (slotOf t 1).inflt = 1 && t.near = fx.near) = true := by
  decide +kernel
def posted : State := after (exec (.st (fm 6 (xs 2) 0 (xs 10) 0)) fx)
theorem test_store_performs : (taskOf posted fx.cur).stores[0]? = some stored
    ∧ storeHeld posted (taskOf posted fx.cur) 0 stored = false
    ∧ storePlaces posted stored = [⟨.near, 65602⟩] ∧ placePoison posted ⟨.near, 65602⟩ = false
    ∧ hasOutcome (exec (.storePerformed fx.cur 0) posted) (fun t => rdByte t ⟨.near, 65602⟩ = 7 && (slotOf t 1).inflt = 0) = true := by decide +kernel

/-- k0 narrowed by 16 to 4,080 bytes; to 4,081 it is untagged, with XB. -/
theorem test_ksub : flown (exec (.ksub { fa 31 (kz 5) (kz 0) (xs 20) (xs 21) with cl := 1, sc := 7 }) (fxw fun t => { t with x := [(20, 16), (21, 4080)] }))
      = [(0, .k 5, .tok (mkTok 1 7 0 15 4080 80), 0)]
    ∧ flown (exec (.ksub { fa 31 (kz 5) (kz 0) (xs 20) (xs 21) with cl := 1, sc := 7 }) (fxw fun t => { t with x := [(20, 16), (21, 4081)] }))
      = [(0, .k 5, .tok { mkTok 1 7 0 15 4081 80 with tag := false }, fXB)] := by decide +kernel
theorem test_kinfo : flown (exec (.kinfo (fa 31 (xs 20) (kz 0) (xs 3) no)) fx) = out 1 4096 0
    ∧ flown (exec (.kinfo (fa 31 (xs 20) (kz 3) 0x79 no)) fx) = out 1 0 0
    ∧ issues (.kinfo (fa 31 (xs 20) (kz 0) (xs 3) no)) (planKinfo (fa 31 (xs 20) (kz 0) (xs 3) no) fx fx.cur) fx = true
    ∧ issues (.ksub (fa 31 (kz 5) (kz 0) (xs 20) (xs 21))) (planKsub (illKsub (fa 31 (kz 5) (kz 0) (xs 20) (xs 21))) (fa 31 (kz 5) (kz 0) (xs 20) (xs 21)) fx fx.cur) fx = true := by
  decide +kernel

/-! ## Vector words (spec 06): premises, and results worked out by hand -/

/-- v0: 1.5 in f32 element 0, zeros behind; v1: 2.0 there. v4 to v7 the same under i16: 7 and -3. -/
def vecs : State := fxw fun t => { t with
  v := [(0, ⟨0x3FC00000, 16⟩), (1, ⟨0x40000000, 16⟩), (4, ⟨7, 2⟩), (5, ⟨0xFFFD, 2⟩), (6, ⟨0x10F, 7⟩), (7, ⟨0xF1, 1⟩), (8, ⟨3, 18⟩)] }
def vout (lat n : Nat) (r : Vec) (ty : TyCode) (fl : BitVec 8) : List (Nat × Dest × Val × BitVec 8) := [(lat - 1, .v n, .vec ⟨r, ty⟩, fl)]

theorem test_vector_arithmetic_issues :
    ([(.vadd, sigVec2, 16), (.vadd, sigVec2, 2), (.vsub, sigVec2, 2), (.vmul, sigVec2, 2), (.vmin, sigVminmax, 2), (.vmax, sigVminmax, 2), (.vdiv, sigVdiv, 16)]
      : List ((FmtA → Instr) × (FmtA → Sig) × TyCode)).all (fun e =>
        let f := fa e.2.2 (vs 3) (if e.2.2 = 16 then vs 0 else vs 4) (if e.2.2 = 16 then vs 1 else vs 5) no
        issues (e.1 f) (planVec (faultsA (e.2.1 f) f) f (readsV f (some f.ty) (some f.ty) (some f.ty)) 1
          (if e.2.2 = 2 then 2 else 5) vecs vecs.cur) vecs) = true
    ∧ ([(.vfma, sigVec3), (.vfms, sigVec3)] : List ((FmtA → Instr) × (FmtA → Sig))).all (fun e =>
        let f := fa 2 (vs 3) (vs 4) (vs 5) (vs 4)
        issues (e.1 f) (planVec (faultsA (e.2 f) f) f (readsV f (some 2) (some 2) (some 2)) 1 (latIF 2) vecs vecs.cur) vecs) = true
    ∧ ([(.vsqrt, sigVsqrt), (.vexp2, sigVspec), (.vlog2, sigVspec), (.vrcp, sigVspec), (.vrsq, sigVspec), (.vsin, sigVspec), (.vcos, sigVspec),
        (.vtanh, sigVspec)] : List ((FmtA → Instr) × (FmtA → Sig))).all (fun e =>
        let f := fa 16 (vs 3) (vs 0) no no
        issues (e.1 f) (planVec (faultsA (e.2 f) f) f (readsV f (some 16) (some 16) (some 16)) 1 12 vecs vecs.cur) vecs) = true := by decide +kernel
/-- 7 + -3 = 4, 7 x -3 = -21 in 16 bits; 1.5 + 2 = 3.5. -/
theorem test_vector_integers : flown (exec (.vadd (fa 2 (vs 3) (vs 4) (vs 5) no)) vecs) = vout 2 3 4 2 0
    ∧ flown (exec (.vmul (fa 2 (vs 3) (vs 4) (vs 5) no)) vecs) = vout 2 3 0xFFEB 2 0
    ∧ flown (exec (.vmin (fa 2 (vs 3) (vs 4) (vs 5) no)) vecs) = vout 2 3 0xFFFD 2 0 := by decide +kernel
theorem test_vector_fma : flown (exec (.vfma (fa 2 (vs 3) (vs 4) (vs 5) (vs 4))) vecs) = vout 2 3 0xFFF2 2 0 := by decide +kernel
theorem test_vector_floats : flown (exec (.vadd (fa 16 (vs 3) (vs 0) (vs 1) no)) vecs) = vout 5 3 0x40600000 16 0 := by decide +kernel
/-- A lane that is false gives 0 under Z, and A's element without: m2 holds the lanes 0 to 7. -/
theorem test_vector_predicate : flown (exec (.vsub { fa 2 (vs 3) (vs 4) (vs 5) no with p := 1, z := true }) vecs) = vout 2 3 0 2 0
    ∧ flown (exec (.vsub { fa 2 (vs 3) (vs 4) (vs 5) no with p := 1 }) vecs) = vout 2 3 7 2 0
    ∧ flown (exec (.vsub { fa 2 (vs 3) (vs 4) (vs 5) no with p := 2 }) vecs) = vout 2 3 10 2 0 := by decide +kernel

theorem test_vector_logic_issues :
    ([(.vand, sigVlogic), (.vor, sigVlogic), (.vxor, sigVlogic), (.vshl, sigVshift), (.vshr, sigVshift), (.vsra, sigVshift)]
      : List ((FmtA → Instr) × (FmtA → Sig))).all (fun e =>
        let f := fa 2 (vs 3) (vs 4) (vs 5) no
        issues (e.1 f) (planVec (faultsA (e.2 f) f) f (readsV f (some 2) (some 2) none) 1 2 vecs vecs.cur) vecs) = true
    ∧ (let f := fa 2 (vs 3) (vs 4) (vs 5) (ms 2)
       issues (.vsel f) (planVec (faultsA (sigVsel f) f) f (readsV f (some 2) (some 2) none) 1 2 vecs vecs.cur) vecs = true)
    ∧ (let f := fa 2 (ms 3) (vs 4) (vs 5) no
       issues (.vcmp .lt f) (planVcmp .lt f vecs vecs.cur) vecs = true) := by decide +kernel
/-- 7 & 0xFFFD = 5; -3 by 64 to the right: all ones; 7 < -3 in no lane, 7 > -3 in lane 0. -/
theorem test_vector_logic : flown (exec (.vand (fa 2 (vs 3) (vs 4) (vs 5) no)) vecs) = vout 2 3 5 2 0
    ∧ flown (exec (.vsra (fa 2 (vs 3) (vs 5) (xs 6) no)) vecs) = vout 2 3 0xFFFF 2 0
    ∧ flown (exec (.vshl (fa 2 (vs 3) (vs 4) (xs 6) no)) vecs) = vout 2 3 0 2 0
    ∧ flown (exec (.vsel (fa 2 (vs 3) (vs 4) (vs 5) (ms 2))) vecs) = vout 2 3 7 2 0 := by decide +kernel
theorem test_vcmp : flown (exec (.vcmp .gt (fa 2 (ms 3) (vs 4) (vs 5) no)) vecs) = [(1, .m 3, .mask 1, 0)]
    ∧ flown (exec (.vcmp .lt (fa 16 (ms 3) (vs 0) (vs 1) no)) vecs) = [(4, .m 3, .mask 1, 0)] := by decide +kernel

theorem test_vector_conversions_issue :
    (let f := fa 31 (vs 3) (vs 4) no 31
     isReinterpret f = true ∧ issues (.vcvt { f with ty := 7 }) (planVcvt { f with ty := 7 } vecs vecs.cur) vecs = true)
    ∧ (let f := fa 3 (vs 3) (vs 0) no 16
       isReinterpret f = false ∧ f.ty ≠ tyLs4 ∧ issues (.vcvt f) (planVcvt f vecs vecs.cur) vecs = true)
    ∧ (let f := fa 11 (vs 2) (vs 0) (xs 3) 16
       f.ty = tyLs4 ∧ isReinterpret f = false ∧ issues (.vcvt f) (planVcvt f vecs vecs.cur) vecs = true)
    ∧ (let f := fa 1 (vs 3) (vs 4) no 2
       issues (.vnarrow f) (planVnarrow f vecs vecs.cur) vecs = true)
    ∧ (let f := fa 2 (vs 2) (vs 4) (vs 5) 3
       issues (.vwmul f) (planWide f vecs vecs.cur) vecs = true ∧ issues (.vwadd f) (planWide f vecs vecs.cur) vecs = true) := by decide +kernel
/-- A new tag alone; 1.5 to i32 is 2; 7 x -3 = -21 in 32 bits in part 0, element 0; v5's elements go to the odd places of a narrowed pair. -/
theorem test_vector_conversions : flown (exec (.vcvt (fa 7 (vs 3) (vs 4) no 31)) vecs) = vout 4 3 7 7 0
    ∧ flown (exec (.vcvt (fa 3 (vs 3) (vs 0) no 16)) vecs) = vout 4 3 2 3 fNX
    ∧ flown (exec (.vnarrow (fa 1 (vs 3) (vs 4) no 2)) vecs) = vout 4 3 0xFD07 1 0
    ∧ flown (exec (.vwmul (fa 2 (vs 2) (vs 4) (vs 5) 3)) vecs)
      = [(1, .v 2, .vec ⟨0xFFFFFFEB, 3⟩, 0), (1, .v 3, .vec ⟨0, 3⟩, 0)] := by decide +kernel

theorem test_reductions : (let f := fa 2 (xs 20) (vs 5) no no
    issues (.vredAdd f) (planRed (sigVred f) f vecs vecs.cur) vecs = true ∧ issues (.vredMin f) (planRed (sigVredMM f) f vecs vecs.cur) vecs = true
      ∧ issues (.vredMax f) (planRed (sigVredMM f) f vecs vecs.cur) vecs = true ∧ flown (exec (.vredAdd f) vecs) = out 8 0xFFFFFFFFFFFFFFFD 0)
    ∧ (let f := fa 16 (xs 20) (vs 0) no no
       issues (.vredAdd f) (planRed (sigVred f) f vecs vecs.cur) vecs = true ∧ flown (exec (.vredAdd f) vecs) = out 8 0x3FC00000 0) := by decide +kernel
theorem test_float_reductions_issue : (let f := fa 16 (xs 20) (vs 0) no no
    issues (.vredMin f) (planRed (sigVredMM f) f vecs vecs.cur) vecs = true ∧ issues (.vredMax f) (planRed (sigVredMM f) f vecs vecs.cur) vecs = true) := by
  decide +kernel

theorem test_vector_moves_issue :
    (let f := fa 2 (vs 3) (vs 4) (xs 3) no
     issues (.vbcast f) (planVec (faultsA (sigVbcast f) f) f (readsV f (some 2) none none) 1 3 vecs vecs.cur) vecs = true)
    ∧ (let f := fa 2 (vs 3) (vs 4) (vs 6) no
       issues (.vperm f) (planVec (faultsA (sigVperm f) f) f (readsV f (some 2) (some (idxTy 2)) none) 1 3 vecs vecs.cur) vecs = true)
    ∧ (let f := fa 2 (vs 2) (vs 4) (vs 5) no
       issues (.vzip f) (planZip f vecs vecs.cur) vecs = true ∧ issues (.vuzp f) (planZip f vecs vecs.cur) vecs = true)
    ∧ (let f := fa 2 (vs 3) (vs 4) no (ms 2)
       issues (.vpack f) (planVec (faultsA (sigVpack f) f) f (readsV f (some 2) none none) 1 3 vecs vecs.cur) vecs = true)
    ∧ (let f := fa 1 (vs 3) (vs 7) no no
       issues (.vplane f) (planPlane f f.ty vecs vecs.cur) vecs = true
        ∧ issues (.vunpl { f with a := vs 8 }) (planPlane { f with a := vs 8 } tyPlane vecs vecs.cur) vecs = true) := by decide +kernel
/-- `vzip` puts 7 and -3 side by side; `vpack` keeps element 0; `vplane` of 0xF1 has bit 0 of planes 0 and 4 to 7. -/
theorem test_vector_moves : flown (exec (.vzip (fa 2 (vs 2) (vs 4) (vs 5) no)) vecs) = [(2, .v 2, .vec ⟨0xFFFD0007, 2⟩, 0), (2, .v 3, .vec ⟨0, 2⟩, 0)]
    ∧ flown (exec (.vuzp (fa 2 (vs 2) (vs 4) (vs 5) no)) vecs)
      = [(2, .v 2, .vec ⟨0xFFFD <<< 2048 ||| 7, 2⟩, 0), (2, .v 3, .vec ⟨0, 2⟩, 0)]
    ∧ flown (exec (.vpack (fa 2 (vs 3) (vs 4) no (ms 2))) vecs) = vout 3 3 7 2 0 := by decide +kernel
/-- Index 0x10F is 15 modulo 256, an element of 0; the other lanes take element 0. -/
theorem test_vperm : flown (exec (.vperm { fa 2 (vs 3) (vs 4) (vs 6) no with p := 2, z := true }) vecs) = vout 3 3 0x00070007000700070007000700070000 2 0 := by
  decide +kernel
theorem test_planes : flown (exec (.vplane (fa 1 (vs 3) (vs 7) no no)) vecs)
    = vout 3 3 (1 <<< 0 ||| 1 <<< 512 ||| 1 <<< 640 ||| 1 <<< 768 ||| 1 <<< 896) 18 0 := by decide +kernel

theorem test_masks : (let f := fa 31 (ms 3) (ms 2) (ms 1) no
    issues (.mand f) (planNamed (faultsA (sigMask2 f) f) f fx fx.cur) fx = true ∧ issues (.mor f) (planNamed (faultsA (sigMask2 f) f) f fx fx.cur) fx = true
      ∧ flown (exec (.mor f) fx) = [(1, .m 3, .mask 0xFF, 0)])
    ∧ (let f := fa 31 (ms 3) (ms 2) no no
       issues (.mnot f) (planNamed (faultsA (sigMask1 f) f) f fx fx.cur) fx = true
        ∧ flown (exec (.mnot f) fx) = [(1, .m 3, .mask (~~~0xFF), 0)])
    ∧ (let f := fa 31 (xs 20) (ms 2) no no
       issues (.mcnt f) (planScal (faultsA (sigMcnt f) f) f 2 fx fx.cur) fx = true ∧ flown (exec (.mcnt f) fx) = out 2 8 0) := by decide +kernel
/-- 64 gives the lowest 64 bits; all ones gives all 1,024; a vector its nonzero elements. -/
theorem test_mfrom : (let f := fa 31 (ms 3) (xs 6) no no
    issues (.mfrom f) (planMfrom f fx fx.cur) fx = true ∧ flown (exec (.mfrom f) fx) = [(1, .m 3, .mask 0xFFFFFFFFFFFFFFFF, 0)]
      ∧ flown (exec (.mfrom { f with a := xs 5 }) fx) = [(1, .m 3, .mask (BitVec.allOnes 1024), 0)])
    ∧ (let f := fa 2 (ms 3) (vs 5) no no
       issues (.mfrom f) (planMfrom f vecs vecs.cur) vecs = true ∧ flown (exec (.mfrom f) vecs) = [(1, .m 3, .mask 1, 0)]) := by decide +kernel

/-! ## The accumulator ring and expansions (spec 06, 09) -/

theorem test_exchanges_issue : (let f := fa 17 (vs 3) (xs 3) (xs 3) no
    issues (.accld f) (planAccld f fx fx.cur) fx = true
      ∧ issues (.accst f) (planAccst f gathering fx.cur) gathering = true) := by decide +kernel
/-- A load from the first tile, of the type it has and of the other; a store there. -/
def exchanging (load : Bool) (ty : TyCode) : State :=
  { fxw (fun t => { t with exchs := [⟨0, load, 0, 0, ty, 3, 5, false⟩] }) with
    cores := [(0, { Core.fresh with tiles := [(0, { Tile.fresh with elems := [(0, 9)] })] })] }
theorem test_exchange_premises : (taskOf (exchanging true tyF64) (.slot 0 0)).exchs[0]? = some ⟨0, true, 0, 0, tyF64, 3, 5, false⟩
    ∧ exchReady (coreOf (exchanging true tyF64) 0) (taskOf (exchanging true tyF64) (.slot 0 0)) ⟨0, true, 0, 0, tyF64, 3, 5, false⟩ = true
    ∧ exchReady (coreOf (exchanging false tyI64) 0) (taskOf (exchanging false tyI64) (.slot 0 0)) ⟨0, false, 0, 0, tyI64, 3, 5, false⟩ = true := by
  decide +kernel
theorem test_exchanges : hasOutcome (exec (.accExchangePerformed (.slot 0 0) 0) (exchanging true tyF64)) (fun t =>
      tget freshV (taskOf t t.cur).v 3 = ⟨9, 17⟩ && (taskOf t t.cur).exchs.isEmpty) = true
    ∧ hasOutcome (exec (.accExchangePerformed (.slot 0 0) 0) (exchanging true tyI64)) (fun t =>
      tget freshV (taskOf t t.cur).v 3 = ⟨0, 4⟩ && (taskOf t t.cur).exchFmt = [0]) = true
    ∧ hasOutcome (exec (.accExchangePerformed (.slot 0 0) 0) (exchanging false tyF64)) (fun t => acc (tileOf (coreOf t 0) 0) 0 = 5) = true := by
  decide +kernel

/-- q0: order 2, kind 1, centre 0, radius 1, coefficients 1 and 2; q1 the same of kind 2; q2 of order 2, kind 0. o1: P 2, KERNEL 1, THETA 0.5.
x12 and x13: 1 and 0; x14: -1.0. -/
def ser (kind : Nat) : Series :=
  BitVec.ofNat 4352 (0x3FF0000000000000 + 0x4000000000000000 * 2 ^ 128 + 0x3FF0000000000000 * 2 ^ 4224 + 2 * 2 ^ 4288 + kind * 2 ^ 4296)
def series : State := fxw fun t => { t with
  q := [(0, ser 1), (1, ser 2), (2, ser 0)], o := [(1, 0x3F00000000000102)]
  x := [(10, 2), (11, 1), (12, 0x3FF0000000000000), (14, 0xBFF0000000000000), (16, 0x4000000000000000)] }
theorem test_series_words_issue : (let f := fa 16 (os 2) (xs 10) 0x79 (xs 11)
    issues (.xord f) (planXord f series fx.cur) series = true ∧ flown (exec (.xord f) series) = [(0, .o 2, .order 0x3F80000000000102, 0)])
    ∧ (let f := fa 17 (qs 4) (xs 12) (xs 14) (os 1)
       issues (.xclr f) (planXclr f series fx.cur) series = true)
    ∧ ([(.xm2m, qs 2), (.xm2l, qs 2), (.xl2l, qs 2), (.xadd, qs 2)] : List ((FmtA → Instr) × SpecBits)).all (fun e =>
        let f := fa 17 e.2 (qs 0) no no
        issues (e.1 f) (planX2 f series fx.cur) series) = true
    ∧ (let f := fa 17 (qs 0) (xs 12) (xs 16) no
       issues (.xform f) (planXform f series fx.cur) series = true) := by decide +kernel
/-- A radius of -1 is written as infinity with IV. -/
theorem test_xclr : (match (flown (exec (.xclr (fa 17 (qs 4) (xs 12) (xs 14) (os 1))) series)) with
    | [(1, .q 4, .series q, fl)] => sRadius q = 0x7FF0000000000000 && fl = fIV && sP q = 2 && sCentre q = ⟨0x3FF0000000000000, 0⟩
    | _ => false) = true := by decide +kernel
/-- Coefficients 1 and 2 doubled are 2 and 4; kinds 1 and 2 do not add. -/
theorem test_xadd : (match (flown (exec (.xadd (fa 17 (qs 2) (qs 0) no no)) series)) with
    | [(2, .q 2, .series q, 0)] => sCoef q 0 = ⟨0x4000000000000000, 0⟩ && sCoef q 1 = ⟨0x4010000000000000, 0⟩ && sKind q = 1
    | _ => false) = true
    ∧ (match (flown (exec (.xadd (fa 17 (qs 1) (qs 0) no no)) series)) with
    | [(2, .q 1, .series q, fl)] => sCoef q 0 = cNan && fl = fIV
    | _ => false) = true := by decide +kernel
/-- Every lane false: nothing is added. -/
theorem test_xform_lanes : (let f := { fa 17 (qs 0) (xs 12) (xs 16) no with p := 1, z := true }
    issues (.xform f) (planXform f series fx.cur) series = true ∧ laneMask series fx.cur f.p = 0
      ∧ flown (exec (.xform f) series) = [(11, .q 0, .series (ser 1), 0)]) := by decide +kernel
theorem test_evaluations_issue : (let f := fa 17 (vs 3) (qs 0) (xs 12) no
    issues (.xmeval f) (planEval 10 f series fx.cur) series = true)
    ∧ (let f := fa 17 (vs 3) (qs 1) (xs 16) (xs 12)
       issues (.xeval f) (planEval 6 f series fx.cur) series = true)
    ∧ (let f := fa 17 (xs 20) (qs 0) (qs 1) (os 1)
       issues (.xadm f) (planXadm f series fx.cur) series = true) := by decide +kernel
/-- 1 + 2 x 2 = 5 at 2 + 0i, in every lane; of the wrong kind, NaN. -/
theorem test_xeval : (match (flown (exec (.xeval (fa 17 (vs 3) (qs 1) (xs 16) no)) series)) with
    | [(7, .v 3, .vec r, 0)] => r.tag = 17 && r.data.extractLsb' 3968 128 = 0x4014000000000000 | _ => false) = true := by decide +kernel
theorem test_xadm : flown (exec (.xadm (fa 17 (xs 20) (qs 0) (qs 1) (os 1))) series) = out 4 0 0 := by decide +kernel

/-! ## Ordering and synchronisation (spec 15) -/

theorem test_fences : issues (.fence .task (fa 31 no no no no)) (planFence .task (fa 31 no no no no) fx fx.cur) fx = true
    ∧ issues (.fence .system (fa 31 no no no no)) (planFence .system (fa 31 no no no no) fx fx.cur) fx = true
    ∧ accessesDone (taskOf fx fx.cur) = true := by decide +kernel
/-- With a store posted, a `fence` at core scope freezes. -/
theorem test_fence_freezes : accessesDone (taskOf posted fx.cur) = false ∧ lowest (illFence (fa 31 no no no no)) = none
    ∧ isPorter posted.cur = false ∧ bpHit posted posted.cur = none ∧ inactive (taskOf posted posted.cur) = false
    ∧ hasOutcome (exec (.fence .core (fa 31 no no no no)) posted) (fun t => decide (t = posted)) = true := by decide +kernel

/-- At offset 8 of k0 (near 65608) the word 9; at 256 of k4 a barrier that expects 2. -/
def synced : State := { fxw (fun t => { t with x := (20, 256) :: (22, 9) :: (23, 5) :: [] }) with
  near := [(65608, 9)], cores := [(0, { Core.fresh with mem := [(256, 2)] })] }
def at8 (n : Nat) : FmtM := fm 4 (xs n) 0 no 1
theorem test_atomics_issue : ([.atomAdd, .atomAnd, .atomOr, .atomXor, .atomMin, .atomMax, .atomSwap] : List (FmtM → Instr)).all (fun i =>
      issues (i (at8 22)) (planAtom (illAtom (at8 22)) (at8 22) synced fx.cur) synced) = true
    ∧ issues (.cas (at8 22)) (planCas (at8 22) synced fx.cur) synced = true
    ∧ (let u := acting (planCas (at8 22) synced fx.cur) synced
       (atomChk u u.cur (at8 22)).flag = 0 ∧ quietObj u u.cur (kSlot (fmKReg u u.cur (at8 22))) (atomAt u u.cur (at8 22)) (tyBytes 4) = true)
    ∧ (taskOf synced fx.cur).wait = .none := by decide +kernel
/-- 9 + 9 = 18; 9 is compared and swapped for 5; a minimum of 5 and 9; the old value 9 comes back. -/
theorem test_atomics : hasOutcome (exec (.atomAdd (at8 22)) synced) (fun t => rdByte t ⟨.near, 65608⟩ = 18
      && flown (.next t) = [(5, .x 22, .word 9, 0)]) = true
    ∧ hasOutcome (exec (.cas (at8 22)) synced) (fun t => rdByte t ⟨.near, 65608⟩ = 5) = true
    ∧ hasOutcome (exec (.atomMin (at8 23)) synced) (fun t => rdByte t ⟨.near, 65608⟩ = 5) = true
    ∧ hasOutcome (exec (.atomXor (at8 23)) synced) (fun t => rdByte t ⟨.near, 65608⟩ = 12) = true := by decide +kernel

def bar (d c : SpecBits) : FmtA := fa 31 d (kz 4) (xs 20) c
theorem test_barriers_issue : issues (.barinit (bar no (xs 22))) (planBarinit (bar no (xs 22)) synced fx.cur) synced = true
    ∧ issues (.bararr (bar (xs 24) 0x7A)) (planBararr (bar (xs 24) 0x7A) synced fx.cur) synced = true
    ∧ issues (.barwait (bar (xs 24) 0x79)) (planBarwait (bar (xs 24) 0x79) synced fx.cur) synced = true
    ∧ (let u := acting (planBarinit (bar no (xs 22)) synced fx.cur) synced
       (barChk u (rdTok u u.cur (kz 4)) (kW (rdTok u u.cur (kz 4))) 256 true).flag = 0 ∧ opB (bar no (xs 22)) u = 256)
    ∧ (let u := acting (planBararr (bar (xs 24) 0x7A) synced fx.cur) synced
       (bararrChk (bar (xs 24) 0x7A) u u.cur).flag = 0 ∧ quietObj u u.cur 3 (barAt (bar (xs 24) 0x7A) u u.cur) 16 = true)
    ∧ (let u := acting (planBarwait (bar (xs 24) 0x79) synced fx.cur) synced
       (barwaitChk (bar (xs 24) 0x79) u u.cur).flag = 0 ∧ objPoison u 3 (barAt (bar (xs 24) 0x79) u u.cur) 16 = none) := by decide +kernel
/-- Two arrivals flip the phase and leave none; one is counted; a wait for the other phase goes on, one for this phase freezes. -/
theorem test_barriers : hasOutcome (exec (.bararr (bar (xs 24) 0x7A)) synced) (fun t =>
      objVal t 3 256 16 = 2 ^ 127 + 2 && flown (.next t) = [(0, .x 24, .word 0, 0)]) = true
    ∧ hasOutcome (exec (.bararr (bar (xs 24) 0x79)) synced) (fun t => barArrived (objVal t 3 256 16) = 1 && !barPhase (objVal t 3 256 16)) = true
    ∧ flown (exec (.barwait (bar (xs 24) 0x79)) synced) = [(0, .x 24, .word 0, 0)] := by decide +kernel
theorem test_barwait_freezes : (let f := bar (xs 24) 0x78
    (taskOf synced synced.cur).chk = [] ∧ (barwaitChk f synced synced.cur).flag = 0 ∧ barFlipped f synced synced.cur = false
      ∧ refreshHit synced synced.cur (readsA f) = false ∧ bpHit synced synced.cur = none ∧ inactive (taskOf synced synced.cur) = false
      ∧ lowest (illBararr f) = none ∧ coldSlot synced synced.cur (rdTok synced synced.cur f.a) = none
      ∧ hasOutcome (exec (.barwait f) synced) (fun t => decide (t = synced)) = true) := by decide +kernel

/-- Semaphore 7 holds 1 of 2. x20 = 7. -/
def semed (v : BitVec 8) (w : Wait) : State :=
  { fxw (fun t => { t with x := [(20, 7), (21, 2), (22, 9)], wait := w }) with cores := [(0, { Core.fresh with sems := [(7, ⟨2, v⟩)] })] }
theorem test_semaphores_issue : (let f := fa 31 no (xs 20) 0x79 (xs 21)
    issues (.seminit f) (planSeminit f (semed 1 .none) fx.cur) (semed 1 .none) = true)
    ∧ (let f := fa 31 no (xs 20) no no
       issues (.semp f) (planSem true f (semed 0 .none) fx.cur) (semed 0 .none) = true
        ∧ issues (.semp f) (planSem true f (semed 1 .none) fx.cur) (semed 1 .none) = true
        ∧ issues (.semv f) (planSem false f (semed 1 .none) fx.cur) (semed 1 .none) = true
        ∧ issues (.semv f) (planSem false f (semed 2 .none) fx.cur) (semed 2 .none) = true)
    ∧ semOf (semed 2 .none) fx.cur 7 = ⟨2, 2⟩ ∧ (taskOf (semed 1 (.sem 7)) fx.cur).wait = .sem 7 ∧ (taskOf (semed 1 (.sem 7)) fx.cur).step = false := by
  decide +kernel
theorem test_semaphores : (let f := fa 31 no (xs 20) no no
    hasOutcome (exec (.semp f) (semed 1 .none)) (fun t => (semOf t t.cur 7).value = 0 && (taskOf t t.cur).pc = 4) = true
      ∧ hasOutcome (exec (.semp f) (semed 0 .none)) (fun t => (taskOf t t.cur).wait = .sem 7 && (taskOf t t.cur).pc = 3) = true
      ∧ hasOutcome (exec (.semp f) (semed 1 (.sem 7))) (fun t => (semOf t t.cur 7).value = 0 && (taskOf t t.cur).pc = 4) = true
      ∧ hasOutcome (exec (.semv f) (semed 1 .none)) (fun t => (semOf t t.cur 7).value = 2) = true
      ∧ hasOutcome (exec (.semv f) (semed 2 .none)) (fun t => (tget Task.fresh t.saved 0).trap.cause = cSEMOVF) = true) := by decide +kernel
theorem test_semaphore_set : (let g := mkFlight 0 false (.sem 7) (.word 0x0201) 0 false []
    (taskOf (due g) fx.cur).flights.filter (fun h => decide (h.rem = 0)) = [g] ∧ g.dest = .sem 7 ∧ g.val = .word 0x0201
      ∧ hasOutcome (exec (.resultWrite fx.cur) (due g)) (fun t => semOf t t.cur 7 = ⟨2, 1⟩) = true) := by decide +kernel

/-- The timeline at offset 8 of k0 stands at 9; x25 = 8. -/
def timed (w : Wait) : State := mapTask synced fx.cur fun t => { t with x := [(20, 256), (22, 9), (23, 5), (25, 8), (26, 10)], wait := w }
def tl (d c : SpecBits) : FmtA := fa 31 d (kz 0) (xs 25) c
def superTimed : State := { mapTask (timed .none) (.super 0) (fun t =>
    { t with status := .run, ctx := 0xFFF, x := [(25, 8), (22, 9)], k := toks, buf := mkTok 1 7 0 15 4096 0, fetched := [(0, 0)] }) with cur := .super 0 }
theorem test_timelines_issue : (let f := tl (xs 24) (xs 22)
    issues (.tlsig f) (planTlsig f (timed .none) fx.cur) (timed .none) = true ∧ issues (.tlwait f) (planTlwait f (timed .none) fx.cur) (timed .none) = true
      ∧ (let u := acting (planTlsig f (timed .none) fx.cur) (timed .none)
         (tlChk f kA true u u.cur).flag = 0 ∧ quietObj u u.cur 1 (barAt f u u.cur) 8 = true)
      ∧ (let u := acting (planTlwait f (timed .none) fx.cur) (timed .none)
         (tlChk f kR false u u.cur).flag = 0))
    ∧ (let f := tl no (xs 22)
       issues (.tlset f) (planTlset f superTimed superTimed.cur) superTimed = true
        ∧ (let u := acting (planTlset f superTimed superTimed.cur) superTimed
           (tlChk f kW true u u.cur).flag = 0 ∧ quietObj u u.cur 1 (barAt f u u.cur) 8 = true)) := by decide +kernel
/-- 9 + 9 = 18; a threshold of 9 is passed at 9, one of 10 is not. -/
theorem test_timelines : hasOutcome (exec (.tlsig (tl (xs 24) (xs 22))) (timed .none)) (fun t => rdByte t ⟨.near, 65608⟩ = 18) = true
    ∧ hasOutcome (exec (.tlset (tl no (xs 22))) superTimed) (fun t => rdByte t ⟨.near, 65608⟩ = 9) = true
    ∧ flown (exec (.tlwait (tl (xs 24) (xs 22))) (timed .none)) = [(0, .x 24, .word 9, 0)]
    ∧ hasOutcome (exec (.tlwait (tl (xs 24) (xs 26))) (timed .none)) (fun t =>
        (taskOf t t.cur).wait = .timeline (tl (xs 24) (xs 26)) 1 72 10 none && (slotOf t 1).inflt = 1) = true := by decide +kernel
theorem test_timeline_released : (let f := tl (xs 24) (xs 26)
    (taskOf (timed (.timeline f 1 72 10 (some 11))) fx.cur).wait = .timeline f 1 72 10 (some 11)
      ∧ (pinLookup (timed .none) 1 72).space = .near ∧ (taskOf (timed .none) fx.cur).step = false
      ∧ flown (exec (.tlwait f) (timed (.timeline f 1 72 10 (some 11)))) = [(0, .x 24, .word 11, 0)]) := by decide +kernel

/-! ## Translation, revocation, seals, suspension (spec 04, 13) -/

/-- Four levels of tables from near byte 4096, which give VA 0 the near page at 0x300000, RWAS; the context begins there.
Word 3 is a checkpoint of x20 and k4. -/
def paged : State :=
  { fxw (fun t => { t with x := [(20, 0), (21, 64), (22, 0xFFFFFFFFE0000000)] }) with
    near := [(0x1000, 0x3D), (0x1001, 0x20), (0x2000, 0x3D), (0x2001, 0x30), (0x3000, 0x3D), (0x3001, 0x40), (0x4000, 0x7D), (0x4002, 0x30)]
    ctxs := [(1, { ctx1 with params := { ctx1.params with root1 := 0x1000 } })]
    cores := [(0, { Core.fresh with bound := some (0, 0) })]
    dies := [(0, { Die.fresh with launches := [(0, { run1 with image := { image with ckpt := [(3, [0x24, 0x54])] } })] })] }
def tx : FmtA := { fa 31 (kz 5) (xs 20) (xs 21) no with cl := 1, sc := 7 }
def inWait (w : Wait) : State := mapTask paged fx.cur fun t => { t with wait := w }
theorem test_translation_issues : (taskOf paged fx.cur).wait = .none
    ∧ issues (.xlatTrap tx) (planXlat false tx paged fx.cur) paged = true ∧ issues (.xlatWait { tx with a := 0x78, b := 0x79 }) (planXlat true { tx with a := 0x78, b := 0x79 } paged fx.cur) paged = true
    ∧ (taskOf (inWait (.xlat tx false 0 64)) fx.cur).wait ≠ .none := by decide +kernel
theorem test_list_translation_issues : (let f := { fa 31 (xs 24) (kz 4) 0x78 0x79 with sc := 1 }
    issues (.xlatlTrap f) (planXlatl false f paged fx.cur) paged = true ∧ issues (.xlatlWait f) (planXlatl true f paged fx.cur) paged = true
      ∧ (let u := acting (planXlatl false f paged fx.cur) paged
         (listChk f u u.cur).flag = 0)) := by decide +kernel
/-- An extent of 0 bytes fails; so does one of 2^40. -/
theorem test_translation_fails : (taskOf (inWait (.xlat tx false 0 0)) fx.cur).step = false
    ∧ flown (exec (.xlatComplete fx.cur) (inWait (.xlat tx false 0 0))) = [(0, .k 5, .tok noTok, fXB)]
    ∧ flown (exec (.xlatComplete fx.cur) (inWait (.xlat tx false 0 (2 ^ 40)))) = [(0, .k 5, .tok noTok, fXB)] := by decide +kernel
def isFault (x : Xlat) : Bool := match x with | .fault (_ :: _) => true | _ => false
/-- VA 65536 has no leaf: entry 1 of the last table is zero. -/
theorem test_page_fault : isFault (xlat { inWait (.xlat tx false 65536 64) with cur := .slot 0 0 } (.slot 0 0) 1 65536 64 (pkBits tx)) = true
    ∧ (freeGroup (inWait (.xlat tx true 65536 64)) 0).isSome = true ∧ (taskOf (inWait (.xlat tx true 65536 64)) (.slot 0 0)).launch = some (0 / 128, 0)
    ∧ hasOutcome (exec (.xlatComplete fx.cur) (inWait (.xlat tx false 65536 64))) (fun t =>
        (taskOf t t.cur).status = .supervised && (taskOf t t.cur).trap.detail = 1 && (taskOf t t.cur).trap.va = 65536) = true
    ∧ hasOutcome (exec (.xlatComplete fx.cur) (inWait (.xlat tx true 65536 64))) (fun t =>
        decide (taskOf t t.cur = Task.fresh) && t.groups.length = 1) = true := by decide +kernel
def isPage (x : Walk Page) (q : Page) : Bool := match x.res with | .inr p => decide (p = q) | .inl _ => false
theorem test_translation_premises : isPage (walkPage paged (ctxNo paged fx.cur) 0 (pkBits tx)) ⟨0, 65536, 0x300000, 0, false, 0, 0x4000, 65536⟩ = true
    ∧ xlatWatch { paged with cur := fx.cur } fx.cur 0 64 = none ∧ (freeSlotNo paged).isSome = true ∧ (freeWords paged 1).isSome = true
    ∧ boundTo paged (ctxNo paged fx.cur) 0 = true ∧ (freeWords paged ((0xFFFFFFFFE0000000 % 65536 + 64 + 65535) / 65536)).isSome = true := by decide +kernel
/-- The token k5 gets: of slot 0, base 0, length 64; its first byte is near byte 0x300000. -/
theorem test_translation : hasOutcome (exec (.xlatComplete fx.cur) (inWait (.xlat tx false 0 64))) (fun t =>
      flown (.next t) = [(0, .k 5, .tok (mkTok 0 0 0 15 64 0), 0)] && kPlace t (mkTok 0 0 0 15 64 0) 0 = ⟨.near, 0x300000⟩) = true
    ∧ hasOutcome (exec (.xlatComplete fx.cur) (inWait (.xlat tx false 0xFFFFFFFFE0000000 64))) (fun t =>
      flown (.next t) = [(0, .k 5, .tok (mkTok 0 0 2 15 64 0), 0)] && kPlace t (mkTok 0 0 2 15 64 0) 9 = ⟨.hall, 9⟩) = true := by decide +kernel

/-- The reply ring of context 1 at near byte 0x8000: control block, then one reply that refuses page 0 of group 0. -/
def replied : State :=
  { paged with
    near := [(0x8001, 0x90), (0x8010, 1), (0x9005, 1)], ctxs := [(1, { ctx1 with params := { ctx1.params with repRing := 0x8000 } })]
    groups := [(0, ⟨.slot 0 0, 1, 0, 0, none, [(0, 65536, 15)], [], false⟩)] }
theorem test_page_reply_premises : rdNear paged ((ctxOf paged 1).params.repRing + 16) 8 ≤ rdNear paged ((ctxOf paged 1).params.repRing + 24) 8
    ∧ (ctxOf replied 1).live = true ∧ rdNear replied 0x8008 1 = 0 ∧ rdNear replied 0x8018 8 < rdNear replied 0x8010 8
    ∧ replied.groups.find? (fun e => decide (e.1 % 512 = bits 0x10000000000 0 32) && decide (e.2.ctx = 1)
        && e.2.entries.any fun x => decide (x.1 = bits 0x10000000000 32 8)) = some (0, ⟨.slot 0 0, 1, 0, 0, none, [(0, 65536, 15)], [], false⟩)
    ∧ groupOf replied 0 = ⟨.slot 0 0, 1, 0, 0, none, [(0, 65536, 15)], [], false⟩ ∧ bits 0x10000000000 40 8 ≠ 0 := by decide +kernel
theorem test_page_reply : hasOutcome (exec (.pageReply 1) replied) (fun t => t.groups.isEmpty && rdNear t 0x8018 8 = 1) = true := by decide +kernel

theorem test_revocation_issues : (let f := fa 31 no (kz 0) no no
    issues (.trel f) (planTrel f fx fx.cur) fx = true ∧ kCurrent fx (rdTok (acting (planTrel f fx fx.cur) fx) fx.cur (kz 0)) = true
      ∧ (slotOf fx 1).state = .live ∧ fx.revokeQ = [] ∧ fx.sweepSet.length < 16)
    ∧ (let f := fa 31 no (kz 3) no no
       issues (.trel f) (planTrel f fx fx.cur) fx = true ∧ kCurrent fx (rdTok (acting (planTrel f fx fx.cur) fx) fx.cur (kz 3)) = false) := by
  decide +kernel
theorem test_trel : hasOutcome (exec (.trel (fa 31 no (kz 0) no no)) fx) (fun t =>
    (slotOf t 1).gen = 8 && (slotOf t 1).state = .sweeping && t.sweepSet = [1] && !kCurrent t (tget noTok toks 0)) = true := by decide +kernel
/-- The supervisor, x1 = 1, x2 = 7, x3 = 6. -/
def super : State :=
  { mapTask fx (.super 0) (fun t => { t with status := .run, ctx := 0xFFF, x := [(1, 1), (2, 7), (3, 6)], buf := mkTok 1 7 0 15 4096 0, fetched := [(0, 0)] })
      with cur := .super 0 }
def krv (b : SpecBits) : FmtA := fa 31 (xs 4) (xs 1) b no
theorem test_krevoke_issues : (taskOf super super.cur).wait = .none ∧ issues (.krevoke (krv no)) (planKrevoke (krv no) super super.cur) super = true
    ∧ issues (.krevoke (krv (xs 2))) (planKrevoke (krv (xs 2)) super super.cur) super = true
    ∧ issues (.krevoke (krv (xs 3))) (planKrevoke (krv (xs 3)) super super.cur) super = true ∧ revoking super 1 = false := by decide +kernel
/-- Generation 7 is revoked and waits; generation 6 is stale, 0; drained, the wait ends with its result. -/
theorem test_krevoke : hasOutcome (exec (.krevoke (krv (xs 2))) super) (fun t =>
      (taskOf t t.cur).wait = .revoke (krv (xs 2)) 1 1 && (slotOf t 1).gen = 8) = true
    ∧ flown (exec (.krevoke (krv (xs 3))) super) = [(0, .x 4, .word 0, 0)]
    ∧ flown (exec (.krevoke (krv no)) (mapTask super super.cur fun t => { t with wait := .revoke (krv no) 1 1 })) = [(0, .x 4, .word 1, 0)] := by
  decide +kernel
def sweeping (d w : Bool) : State :=
  { fx with slots := [(1, { page .near 10 with state := .sweeping, drained := d, swept := w })], sweepSet := [1] }
theorem test_sweep : revoking (sweeping false false) 1 = true ∧ (slotOf (sweeping true true) 1).swept = true
    ∧ hasOutcome (exec (.revocationDrainDone 1) (sweeping false false)) (fun t => (slotOf t 1).drained) = true
    ∧ hasOutcome (exec .sweep (sweeping true false)) (fun t => (slotOf t 1).swept && !(tget noTok (taskOf t t.cur).k 0).tag
        && (tget noTok (taskOf t t.cur).k 1).tag) = true
    ∧ hasOutcome (exec (.slotFree 1) (sweeping true true)) (fun t => (slotOf t 1).state = .free && t.sweepSet.isEmpty && !(wordOf t 10).used) = true := by
  decide +kernel

/-- k6: 128 bytes of the near page at 128; k7: 16 bytes of it. -/
def sealing (runs : List (Space × Nat × Nat)) : State :=
  { fxw (fun t => { t with k := toks ++ [(6, mkTok 1 7 0 15 128 128), (7, mkTok 1 7 0 15 16 0)] }) with sealRuns := runs }
def sl (n : Nat) : FmtA := fa 31 (xs 20) (kz n) no no
theorem test_seals_issue : (taskOf (sealing []) fx.cur).wait = .none ∧ issues (.seal (sl 6)) (planSealWord (sl 6) (sealing []) fx.cur) (sealing []) = true
    ∧ issues (.seal (sl 7)) (planSealWord (sl 7) (sealing []) fx.cur) (sealing []) = true
    ∧ issues (.seal (sl 3)) (planSealWord (sl 3) (sealing []) fx.cur) (sealing []) = true
    ∧ runsOf (sealing []) (mkTok 1 7 0 15 128 128) = [(.near, 65664, 128)] ∧ runsOverlap [(.near, 65664, 128)] [] = false := by decide +kernel
theorem test_full_seals : (List.replicate 1024 ((Space.far, 0, 128) : Space × Nat × Nat)).length + 1 > 1024
    ∧ runsOverlap [(.near, 65664, 128)] (List.replicate 1024 ((Space.far, 0, 128) : Space × Nat × Nat)) = false := by decide +kernel
theorem test_seal : hasOutcome (exec (.seal (sl 6)) (sealing [])) (fun t => (taskOf t t.cur).wait = .seal (sl 6) [(.near, 65664, 128)]) = true
    ∧ flown (exec (.seal (sl 7)) (sealing [])) = out 1 2 0 ∧ flown (exec (.seal (sl 3)) (sealing [])) = out 1 1 fST
    ∧ hasOutcome (exec (.sealInForce fx.cur) (mapTask (sealing []) fx.cur fun t => { t with wait := .seal (sl 6) [(.near, 65664, 128)] })) (fun t =>
        t.sealRuns = [(.near, 65664, 128)] && flown (.next t) = out 1 0 0) = true := by decide +kernel
theorem test_sealed_stores : sealedPlace (sealing [(.near, 65664, 128)]) (kPlace (sealing []) (mkTok 1 7 0 15 128 128) 127) = true
    ∧ (access (sealing [(.near, 65664, 128)]) (mkTok 1 7 0 15 128 128) 127 1 true).flag = fSX := by decide +kernel
theorem test_unseals_issue : ([sealing [(.near, 65664, 128)], sealing []] : List State).all (fun s =>
      issues (.unseal (sl 6)) (planUnseal (sl 6) s s.cur) s) = true ∧ issues (.unseal (sl 3)) (planUnseal (sl 3) (sealing []) fx.cur) (sealing []) = true
    ∧ goneRuns (sealing [(.near, 65664, 128)]) (mkTok 1 7 0 15 128 128) = [(.near, 65664, 128)] ∧ goneRuns (sealing []) (mkTok 1 7 0 15 128 128) = [] := by
  decide +kernel
theorem test_unseal : hasOutcome (exec (.unseal (sl 6)) (sealing [(.near, 65664, 128)])) (fun t => t.sealRuns.isEmpty && flown (.next t) = out 1 0 0) = true
    ∧ flown (exec (.unseal (sl 6)) (sealing [])) = out 1 2 0 ∧ flown (exec (.unseal (sl 3)) (sealing [])) = out 1 1 0 := by decide +kernel

/-- `suspend` on the barrier at 256 of k4, in an image whose word 3 is a checkpoint of x20 alone. -/
def suspending : State :=
  { synced with dies := [(0, { Die.fresh with launches := [(0, { run1 with image := { image with ckpt := [(3, [0x24])] } })] })] }
def sus (k : Nat) : FmtA := fa 31 no (kz k) (xs 20) no
theorem test_suspend_issues : suspending.cur = .slot 0 0 ∧ issues (.suspend (sus 4)) (planSuspend (sus 4) suspending suspending.cur) suspending = true
    ∧ issues (.suspend (sus 0)) (planSuspend (sus 0) suspending suspending.cur) suspending = true
    ∧ (let u := acting (planSuspend (sus 4) suspending suspending.cur) suspending
       (barwaitChk (sus 4) u u.cur).flag = 0 ∧ objPoison u 3 256 16 = none)
    ∧ (let u := acting (planSuspend (sus 0) suspending suspending.cur) suspending
       (barwaitChk (sus 0) u u.cur).flag ≠ 0)
    ∧ areaUsed suspending (0 / 16) + 142 ≤ 8192 := by decide +kernel
theorem test_suspend : hasOutcome (exec (.suspend (sus 4)) suspending) (fun t => decide (taskOf t t.cur = Task.fresh)
      && ((launchOf t 0 0).conts.map fun r => (r.pc, r.bar, r.phase, r.live)) = [(4, 256, false, [(0x24, .word 256)])]) = true
    ∧ hasOutcome (exec (.suspend (sus 0)) suspending) (fun t => (taskOf t t.cur).pc = 4 && (taskOf t t.cur).flags = fXB) = true := by decide +kernel

/-! ## Engine streams and records (spec 05, 07, 08) -/

/-- The little-endian bytes of `n` that are not zero, from `a`. -/
def bytesAt (a n v : Nat) : Memory := ((List.range n).map fun i => (a + i, BitVec.ofNat 8 (v / 2 ^ (8 * i)))).filter fun e => e.2 != 0
def recBitsOf (i : Instr) : BitVec 512 := (encodeRecord i).getD 0
/-- The image's copy section holds the record `i` alone (image offset 64, near byte 65600); so do the other sections after it. -/
def withRec (e : Engine) (i : Instr) (x : Stream) : State :=
  { fx with
    near := bytesAt (65600 + (match e with | .copy => 0 | .matrix => 64 | .epilogue => 128)) 64 (recBitsOf i).toNat
    cores := [(0, setStream Core.fresh e x)] }
def strm : Stream :=
  { Stream.fresh with state := .running, launch := some (0, 0), ctx := 1, kshadow := toks, xshadow := regs }

theorem test_engine_words_issue : (let f := fa 31 no 0x79 0x78 no
    issues (.estart f) (planEstart f fx fx.cur) fx = true ∧ fx.cur = .slot 0 0)
    ∧ (let f := fa 31 (xs 20) 0x7A 0x78 no
       issues (.ewait f) (planEwait f fx fx.cur) fx = true ∧ issues (.ewait { f with b := 0x79 }) (planEwait { f with b := 0x79 } fx fx.cur) fx = true)
    ∧ (let f := fa 31 (xs 20) 0x79 0x78 no
       let s := withRec .copy (.copy rec0) { strm with state := .engill, ereason := 3 }
       issues (.ewait f) (planEwait f s s.cur) s = true ∧ (theStream s 0 .copy).state = .engill) := by decide +kernel
theorem test_engine_words : hasOutcome (exec (.estart (fa 31 no 0x79 0x78 no)) fx) (fun t =>
      (theStream t 0 .copy).state = .running && (theStream t 0 .copy).xshadow = regs && (taskOf t t.cur).started = [.copy]) = true
    ∧ flown (exec (.ewait (fa 31 (xs 20) 0x7A 0x78 no)) fx) = out 1 0 0 := by decide +kernel

theorem test_record_start_premises : (let s := withRec .copy (.copy rec0) strm
    (theStream s 0 .copy).state = .running ∧ hasRoom (coreOf s 0) .copy = true ∧ (coreOf s 0).stopped = false
      ∧ (theStream s 0 .copy).ridx < recCount (streamImage s (theStream s 0 .copy)) .copy
      ∧ recReason .copy (recBits s (streamImage s (theStream s 0 .copy)) .copy 0) = none
      ∧ recKind (recBits s (streamImage s (theStream s 0 .copy)) .copy 0) = some .copy ∧ rec0.chain = false
      ∧ (theStream s 0 .copy).cut = false)
    ∧ (let s := withRec .copy (.copy rec0) strm
       popsOk (coreOf s 0) (engCode .copy) rec0 = true ∧ semOk (coreOf s 0) rec0.semp = true
        ∧ resources (coreOf s 0) (theStream s 0 .copy) 1 0 .copy rec0 = .go ∧ leaveCharge .copy = none) := by decide +kernel
theorem test_record_starts : hasOutcome (exec (.recordStart 0 .copy) (withRec .copy (.copy rec0) strm)) (fun t =>
    (theStream t 0 .copy).ridx = 1 && ((theStream t 0 .copy).prog.map fun p => (p.idx, p.bits, p.done)) = [(0, recBitsOf (.copy rec0), false)]) = true := by
  decide +kernel
/-- A record with RES set halts its stream for reason 3. -/
theorem test_illegal_record : (let s := withRec .copy (.copy { rec0 with res := 1 }) strm
    (theStream s 0 .copy).prog = [] ∧ recReason .copy (recBits s (streamImage s (theStream s 0 .copy)) .copy 0) = some 3
      ∧ hasOutcome (exec (.recordStart 0 .copy) s) (fun t => (theStream t 0 .copy).state = .engill && (theStream t 0 .copy).ereason = 3) = true) := by
  decide +kernel
def prog (i : Instr) (done : Bool) : Prog := { Prog.fresh 0 (recBitsOf i) with asked := true, done := done }
/-- One tick to the task slots. -/
def pushing : Rec := { rec0 with push0 := 0x21 }
theorem test_record_finish : (let s := withRec .copy (.copy pushing) { strm with prog := [prog (.copy pushing) true] }
    (theStream s 0 .copy).prog = prog (.copy pushing) true :: [] ∧ pushesOf (recOf (prog (.copy pushing) true).bits) = [(1, 1)]
      ∧ ticksOf (coreOf s 0) (engCode .copy) 1 + 1 ≤ 32 ∧ (theStream s 0 .copy).held = none ∧ hasBar (recOf (prog (.copy pushing) true).bits) = false
      ∧ semHas (recOf (prog (.copy pushing) true).bits).semv = false
      ∧ hasOutcome (exec (.recordFinish 0 .copy) s) (fun t => (theStream t 0 .copy).prog.isEmpty && ticksOf (coreOf t 0) 2 1 = 1) = true) := by
  decide +kernel

/-- A record in progress on an engine of core 0 whose turn it is. -/
def acting0 (e : Engine) (i : Instr) (x : Stream) (g : Core → Core) : State :=
  { mapCore (withRec e i { x with prog := [prog i false] }) 0 g with cur := .engine 0 e }
def theRun (e : Engine) (i : Instr) : Run := ⟨0, e, false, prog i false⟩
def isRun (s : State) (u : Run) (i : Instr) : Bool :=
  (match currentRun s with
    | some v => decide (v.core = u.core) && decide (v.own = u.own) && decide (v.chained = u.chained) && decide (v.prog = u.prog)
    | none => false)
    && (match decodeRecord u.prog.bits with | .ok j => decide (j = i) | .bad _ => false) && decide (u.prog.waits = []) && !behindWrites s u
def endRec : Rec := { rec0 with opd1 := ⟨0, 0, 0, 0, 0, 0⟩ }
/-- Back by no record, twice in all. -/
def jumpRec : Rec := { rec0 with opd1 := ⟨0, 0, 0, 0, 0, 0⟩, n0 := 1 }
theorem test_stream_control_premises :
    isRun (acting0 .copy (.endstr endRec) strm id) (theRun .copy (.endstr endRec)) (.endstr (runRec (theRun .copy (.endstr endRec)))) = true
    ∧ isRun (acting0 .copy (.jrec jumpRec) strm id) (theRun .copy (.jrec jumpRec)) (.jrec (runRec (theRun .copy (.jrec jumpRec)))) = true
    ∧ 0 ≤ (0 : Int) + jumpRec.opd0.base.toInt := by decide +kernel
theorem test_stream_control : hasOutcome (exec (.endstr endRec) (acting0 .copy (.endstr endRec) { strm with ridx := 0 } id)) (fun t =>
      (theStream t 0 .copy).state = .ended) = true
    ∧ hasOutcome (exec (.jrec jumpRec) (acting0 .copy (.jrec jumpRec) strm id)) (fun t =>
      (theStream t 0 .copy).ridx = 0 && tget 0 (theStream t 0 .copy).passes 0 = 1) = true
    ∧ hasOutcome (exec (.jrec jumpRec) (acting0 .copy (.jrec jumpRec) { strm with passes := [(0, 1)] } id)) (fun t =>
      (theStream t 0 .copy).ridx = 1 && tget 0 (theStream t 0 .copy).passes 0 = 0) = true := by decide +kernel
def chaining : Rec := { rec0 with chain := true }
theorem test_chained_handoff : (let s := withRec .copy (.copy chaining) { strm with prog := [prog (.copy chaining) true] }
    (theStream s 0 .copy).prog = prog (.copy chaining) true :: [] ∧ (recOf (prog (.copy chaining) true).bits).chain = true
      ∧ hasOutcome (exec (.chainedMmaHandoff 0) s) (fun t => ((theStream t 0 .copy).chained.map (·.idx)) = [1] && (theStream t 0 .copy).prog.map (·.handed) = [true]) = true) := by
  decide +kernel
def asking : State := { withRec .copy (.copy rec0) { strm with leaveAsked := true } with
  leaveQ := [(0, .engine 0 .copy, 600, 0)], leaveHeld := [⟨0, .slot 0 1, 100, true⟩, ⟨0, .slot 0 2, 100, false⟩] }
theorem test_leave : asking.leaveQ = (0, .engine 0 .copy, 600, 0) :: [] ∧ leaveWanted asking (.engine 0 .copy) = true
    ∧ leaveUsed asking 0 + 600 ≤ budgetOf asking 0 ∧ budgetOf asking 0 < leaveUsed asking 0 + 10 ^ 9
    ∧ asking.leaveHeld[0]? = some ⟨0, .slot 0 1, 100, true⟩ ∧ asking.leaveHeld[1]? = some ⟨0, .slot 0 2, 100, false⟩
    ∧ hasOutcome (exec (.leaveGrant 0) asking) (fun t => t.leaveQ.isEmpty && t.leaveHeld.length = 3 && (theStream t 0 .copy).leaveGot) = true
    ∧ hasOutcome (exec (.leaveEnd 0 0) asking) (fun t => t.leaveHeld.length = 1) = true := by decide +kernel

/-- Four bytes from 64 of k0 to 0; from slot 1's page, at near 65600 + 64. -/
theorem test_copy_records : isRun (acting0 .copy (.copy rec0) strm id) (theRun .copy (.copy rec0)) (.copy (runRec (theRun .copy (.copy rec0)))) = true
    ∧ readsIssue (acting0 .copy (.copy rec0) strm id) (theRun .copy (.copy rec0)) rec0.opd1 4 = true
    ∧ opensIssue (acting0 .copy (.copy rec0) strm id) (theRun .copy (.copy rec0)) rec0.opd0 4 = true ∧ unitBytes rec0 = 4
    ∧ failed (theRun .copy (.copy rec0)) 0 = false ∧ failed (theRun .copy (.copy rec0)) 1 = false
    ∧ hasOutcome (exec (.copy rec0) { acting0 .copy (.copy rec0) strm id with near := [(65664, 5), (65667, 6), (65668, 7)] }) (fun t =>
        t.near = [(65600, 5), (65603, 6), (65664, 5), (65667, 6), (65668, 7)]) = true := by decide +kernel
/-- 4 planes of 128 i4 elements, 64 bytes, apart from their source. -/
def planeRec : Rec := { rec0 with ty := 0, opd1 := ⟨0, 1024, 0, 0, 0, 0⟩ }
theorem test_plane_records : ([.copypl, .copyrm] : List (Rec → Instr)).all (fun i =>
      isRun (acting0 .copy (i planeRec) strm id) (theRun .copy (i planeRec)) (i (runRec (theRun .copy (i planeRec))))
        && readsIssue (acting0 .copy (i planeRec) strm id) (theRun .copy (i planeRec)) planeRec.opd1 64
        && opensIssue (acting0 .copy (i planeRec) strm id) (theRun .copy (i planeRec)) planeRec.opd0 64) = true ∧ blockBytes planeRec = 64 := by decide +kernel
/-- Element 0 is 3: bits 0 of planes 0 and 1. -/
theorem test_copypl : hasOutcome (exec (.copypl planeRec) { acting0 .copy (.copypl planeRec) strm id with near := [(66624, 3)] }) (fun t =>
    t.near = [(65600, 1), (65616, 1), (66624, 3)]) = true := by decide +kernel
def fillRec : Rec := { rec0 with opd1 := ⟨0, 0, 0, 0, 0, 0⟩, xf := 2 }
theorem test_fill : isRun (acting0 .copy (.fill fillRec) strm id) (theRun .copy (.fill fillRec)) (.fill (runRec (theRun .copy (.fill fillRec)))) = true
    ∧ opensIssue (acting0 .copy (.fill fillRec) strm id) (theRun .copy (.fill fillRec)) fillRec.opd0 4 = true
    ∧ hasOutcome (exec (.fill fillRec) { acting0 .copy (.fill fillRec) strm id with near := [] }) (fun t => t.near = [(65600, 7)]) = true := by
  decide +kernel
/-- 128 i8 elements to weight buffer 0 at 0, sealed or not. -/
def deRec : Rec := { rec0 with ty := 1, opd1 := ⟨0, 1024, 0, 0, 0, 0⟩ }
def decompressing (runs : List (Space × Nat × Nat)) : State :=
  { acting0 .copy (.decomp deRec) strm id with near := [(66624, 3)], sealRuns := runs }
theorem test_decomp_premises : isRun (decompressing []) (theRun .copy (.decomp deRec)) (.decomp (runRec (theRun .copy (.decomp deRec)))) = true
    ∧ blockBytes deRec = 128 ∧ trips deRec = 1 ∧ opdAddr deRec deRec.opd0 0 = 0
    ∧ (List.range 128).all (fun j => within (runTok (decompressing []) (theRun .copy (.decomp deRec)) deRec.opd1) (deRec.opd1.base.toNat + j : Nat) 0) = true := by
  decide +kernel
theorem test_decomp : hasOutcome (exec (.decomp deRec) (decompressing [(.near, 66560, 256)])) (fun t =>
      (coreOf t 0).wb0 = [(0, 3)] && (theStream t 0 .copy).sticky = 0) = true
    ∧ hasOutcome (exec (.decomp deRec) (decompressing [])) (fun t => (coreOf t 0).wb0 = [] && (theStream t 0 .copy).sticky = 0x10) = true := by
  decide +kernel

/-- An i8 `mma` of one k step, A through k0 at 0, B at 0 of weight buffer 0, into the tile it opens. -/
def mmaRec : Rec := { rec0 with eng := 2, ty := 1, wrap := true, tsm := true, opd1 := ⟨0, 0, 0, 0, 0, 0⟩, opd2 := ⟨0, 0, 0, 0, 0, 0⟩, xf := 0x3FF }
def intTile (st : TileState) (els : Table Word) : Tile := { Tile.fresh with int := true, state := st, elems := els }
def multiplying (ate : List Nat) (win : List WinRec) : State :=
  { acting0 .matrix (.mma mmaRec) strm fun c => { c with tiles := [(0, intTile .filling [(0, 5)])], ate := ate, window := win, wb0 := [(0, 2)] } with
    near := [(65600, 3)] }
def mmaWin : WinRec := ⟨.matrix, 0, recBitsOf (.mma mmaRec), tget noTok toks 0, false, 0, 0⟩
/-- What the last issue has read. -/
def fedAll (s : State) (w : WinRec) : Fed := feedIssue 0 w true ⟨s, [], 0, []⟩ 0
theorem test_mma_premises : (let s := multiplying [] []
    let u := theRun .matrix (.mma mmaRec)
    isRun s u (.mma (runRec u)) = true ∧ (coreOf s u.core).ate = [] ∧ mmaWin.bits = u.prog.bits ∧ mmaWin.tok = runTok s u (runRec u).opd1
      ∧ mmaWin.fail = failed u 1 ∧ mmaWin.ba = baseA (runStream s u) (runRec u) ∧ mmaWin.bb = baseB (runStream s u) (runRec u)
      ∧ trips (runRec u) ≤ u.prog.issue + 1)
    ∧ (fedAll (multiplying [] []) mmaWin).ate = [] := by decide +kernel
/-- The same with a poisoned weight byte; and the first of two issues. -/
theorem test_mma_poison : (fedAll { multiplying [] [] with cores := [(0, { coreOf (multiplying [] []) 0 with wbBad := [(0, true)] })] } mmaWin).ate ≠ [] := by
  decide +kernel
theorem test_mma_first_issue_premises : (let i : Instr := .mma { mmaRec with n0 := 1 }
    let s := acting0 .matrix i strm fun c => { c with tiles := [(0, intTile .filling [(0, 5)])] }
    isRun s (theRun .matrix i) i = true ∧ ¬(trips (runRec (theRun .matrix i)) ≤ (theRun .matrix i).prog.issue + 1)) := by decide +kernel
theorem test_mma_well_formed : (Instr.mma mmaRec).wf = true := by decide +kernel
theorem test_replay_premises : (let s := multiplying [1] [mmaWin]
    (match currentRun { s with cur := .engine 0 .matrix } with | some u => decide (u.prog = prog (.mma mmaRec) false) | none => false) = true
      ∧ (coreOf s 0).ate ≠ [] ∧ replayable (coreOf s 0) = true ∧ (replayAll s 0).2.2.2 = [])
    ∧ replayable { coreOf (multiplying [1] [mmaWin]) 0 with replays := 2 } = false := by decide +kernel
def tcfgRec : Rec := { rec0 with eng := 2, ty := 4, opd1 := ⟨0, 0, 0, 0, 0, 0⟩, xf := 1 }
def configuring (st : TileState) : State := acting0 .matrix (.tcfg tcfgRec) strm fun c => { c with tiles := [(1, intTile st [])] }
theorem test_tcfg_premises : (∀ st ∈ [TileState.free, .draining],
      isRun (configuring st) (theRun .matrix (.tcfg tcfgRec)) (.tcfg (runRec (theRun .matrix (.tcfg tcfgRec)))) = true)
    ∧ ((runRec (theRun .matrix (.tcfg tcfgRec))).xf.extractLsb' 0 5).toNat % 4 = 1 := by decide +kernel
theorem test_tcfg : hasOutcome (exec (.tcfg tcfgRec) (configuring .free)) (fun t => (tileOf (coreOf t 0) 1).int && (coreOf t 0).ring = 0) = true
    ∧ hasOutcome (exec (.tcfg tcfgRec) (configuring .draining)) (fun t => (tileOf (coreOf t 0) 1).state = .draining) = true := by decide +kernel

/-- A record of the copy engine with a failed operand. -/
def failedPart (i : Instr) (k : Nat) : State × Run :=
  let p := { prog i false with fails := [k] }
  ({ withRec .copy i { strm with prog := [p] } with cur := .engine 0 .copy }, ⟨0, .copy, false, p⟩)
theorem test_failed_operands : ([.copy rec0, .copypl planeRec, .copyrm planeRec, .fill fillRec] : List Instr).all (fun i =>
      [0, 1].all fun k => isRun (failedPart i k).1 (failedPart i k).2 i && failed (failedPart i k).2 k) = true
    ∧ hasOutcome (exec (.copy rec0) (failedPart (.copy rec0) 1).1) (fun t => rdNear t 65600 4 = 0) = true
    ∧ hasOutcome (exec (.copy rec0) (failedPart (.copy rec0) 0).1) (fun t => decide (t.near = (failedPart (.copy rec0) 0).1.near)) = true := by
  decide +kernel

/-- `epi` of an i8 tile, its first of 128 issues: row 0 to byte 0 of k1, far memory from 131,072 on. -/
def epiRec : Rec := { rec0 with eng := 3, ty := 1, n0 := 127, opd0 := ⟨1, 0, 0, 0, 0, 128⟩, opd1 := ⟨0, 0, 0, 0, 0, 0⟩ }
def draining (i : Instr) : State :=
  acting0 .epilogue i { strm with kshadow := [(1, mkTok 2 7 1 15 16384 0)] } fun c => { c with tiles := [(0, intTile .draining [(0, 300)])] }
def failedTile (i : Instr) : State :=
  mapCore (draining i) 0 fun c => { c with tiles := [(0, { intTile .draining [(0, 300)] with failed := true })] }
theorem test_epi_premises : (let s := draining (.epi epiRec)
    let u := theRun .epilogue (.epi epiRec)
    isRun s u (.epi (runRec u)) = true ∧ hasBand (runRec u) = false ∧ (runRec u).cks = false ∧ (runRec u).mode ≠ 5 ∧ u.prog.issue = 0
      ∧ tileFailed (coreOf s u.core) (coreOf s u.core).tail = false ∧ failed u 0 = false ∧ opensIssue s u (runRec u).opd0 128 = true
      ∧ ¬(trips (runRec u) ≤ u.prog.issue + 1)
      ∧ isRun (failedTile (.epi epiRec)) u (.epi (runRec u)) = true ∧ tileFailed (coreOf (failedTile (.epi epiRec)) 0) 0 = true) := by decide +kernel
/-- The last row, 127, to byte 16,256. -/
def lastRow : Prog := { prog (.epi epiRec) false with issue := 127, band := [0x3F80, 0x3F80, 0x3F80, 0x3F80] }
def lastRowState : State :=
  mapStream (draining (.epi epiRec)) 0 .epilogue fun x => { x with prog := [lastRow] }
theorem test_epi_last_premises : (let u : Run := ⟨0, .epilogue, false, lastRow⟩
    isRun lastRowState u (.epi (runRec u)) = true ∧ opensIssue lastRowState u (runRec u).opd0 128 = true ∧ trips (runRec u) ≤ u.prog.issue + 1) := by
  decide +kernel
/-- 300 wraps to 44 in i8, at far byte 131,072; the last issue frees the tile; of a failed tile nothing is written. -/
theorem test_epi : hasOutcome (exec (.epi epiRec) (draining (.epi epiRec))) (fun t => rdByte t ⟨.far, 131072⟩ = 44 && (tileOf (coreOf t 0) 0).state = .draining) = true
    ∧ hasOutcome (exec (.epi epiRec) lastRowState) (fun t => (tileOf (coreOf t 0) 0).state = .free && (coreOf t 0).tail = 1) = true
    ∧ hasOutcome (exec (.epi epiRec) (failedTile (.epi epiRec))) (fun t => t.far.isEmpty && (tileOf (coreOf t 0) 0).state = .free) = true := by
  decide +kernel
def epivRec : Rec := { rec0 with eng := 3, ty := 1, opd0 := ⟨0, 0, 0, 0, 0, 0⟩, opd1 := ⟨0, 0, 0, 0, 0, 0⟩, xf := 0x100 }
theorem test_epiv_premises : (let s := draining (.epiv epivRec)
    let u := theRun .epilogue (.epiv epivRec)
    isRun s u (.epiv (runRec u)) = true ∧ hasBand (runRec u) = false ∧ (runRec u).cks = false ∧ (runRec u).mode ≠ 5 ∧ u.prog.regs.length = u.prog.issue
      ∧ tileFailed (coreOf s u.core) (coreOf s u.core).tail = false ∧ (taskOf s (.slot u.core (runStream s u).slot)).status ≠ .idle
      ∧ (taskOf s (.slot u.core (runStream s u).slot)).run = (runStream s u).run ∧ trips (runRec u) ≤ u.prog.issue + 1) := by decide +kernel
theorem test_epiv_first_issue_premises : (let r := { epivRec with n0 := 1 }
    isRun (draining (.epiv r)) (theRun .epilogue (.epiv r)) (.epiv r) = true ∧ ¬(trips r ≤ (theRun .epilogue (.epiv r)).prog.issue + 1)) := by decide +kernel
theorem test_epiv : hasOutcome (exec (.epiv epivRec) (draining (.epiv epivRec))) (fun t =>
      (match tget freshV (taskOf t (.slot 0 0)).v 0 with | ⟨d, ty⟩ => d = 44 && ty = 1) && (tileOf (coreOf t 0) 0).state = .free) = true
    ∧ hasOutcome (exec (.epiv epivRec) { draining (.epiv epivRec) with tasks := [] }) (fun t => (theStream t 0 .epilogue).sticky = 8) = true := by
  decide +kernel


/-! ## Clusters and the frontier (spec 11, 12) -/

/-- Cores 0 and 1 of stage 0 and cores 2 and 3 of stage 1, bound to launch 0, whose space is 2 points on one line; x20 describes a
multicast of 512 bytes of tile 9 to byte 512 of the cores of stage 1, x21 one to byte 8; x26 to x31 hold the entry. -/
def staged (st : Nat) : Core := { Core.fresh with bound := some (0, 0), stage := some st }
def clustered (g : Launch → Launch) : State :=
  mapLaunch { fxw (fun t => { t with point := [1, 0, 0, 0], entry := ⟨5, 6, [9, 0, 0, 0, 0, 0, 0, 0], [1, 0, 0, 0], 0, 0, false⟩
                                     x := [(2, 1), (20, 0x910000200), (21, 0x910000008), (22, 12), (26, 3), (27, 4), (28, 0x900000008), (31, 7)] }) with
    cores := [(0, { staged 0 with residents := [(9, 512, 512)] }), (1, staged 0), (2, staged 1), (3, staged 1)] } 0 0
    fun e => g { e with risers := firstRisers, flying := [⟨[1, 0, 0, 0], 1, true, false, 0, 0⟩] }
def mc (c : SpecBits) : FmtA := fa 31 no (kz 0) (xs 3) c
theorem test_mcast_premises : issues (.mcast (mc (xs 20))) (planMcast (mc (xs 20)) (clustered id) fx.cur) (clustered id) = true
    ∧ issues (.mcast (mc (xs 21))) (planMcast (mc (xs 21)) (clustered id) fx.cur) (clustered id) = true
    ∧ (let u := acting (planMcast (mc (xs 21)) (clustered id) fx.cur) (clustered id)
       mcBad u u.cur (mcDesc (mc (xs 21)) u u.cur) = true)
    ∧ (let u := acting (planMcast (mc (xs 20)) (clustered id) fx.cur) (clustered id)
       let v := mcDesc (mc (xs 20)) u u.cur
       mcBad u u.cur v = false ∧ (mcAccess (mc (xs 20)) u u.cur).flag = 0 ∧ mcLen v = 512
        ∧ ((List.range 512).all fun i => quietPlace u u.cur (kPlace u (rdTok u u.cur (kz 0)) i)) = true
        ∧ (stageCores u 0 0 0 (bits v 28 3)).map (·.1) = [2, 3]) := by decide +kernel
/-- Byte 1 of the source is the near byte 65601; both cores of stage 1 are in the list. -/
theorem test_mcast : hasOutcome (exec (.mcast (mc (xs 20))) (clustered id)) (fun t => ((taskOf t t.cur).stores.map fun e => match e.act with
      | .mcast tile st len dest data cores => ([tile, st, len, dest, (data.getD 1 0).toNat], cores)
      | _ => ([], [])) = [([9, 1, 512, 512, 0xFF], [2, 3])]) = true
    ∧ hasOutcome (exec (.mcast (mc (xs 21))) (clustered id)) (fun t => ((taskOf t t.cur).stores.map (·.flags)) = [fXB]) = true := by decide +kernel
def qsd (a : SpecBits) : FmtA := fa 31 no a (xs 26) no
theorem test_qsend_premises : issues (.qsend (qsd (xs 2))) (planQsend (qsd (xs 2)) (clustered id) fx.cur) (clustered id) = true
    ∧ issues (.qsend (qsd 0x7A)) (planQsend (qsd 0x7A) (clustered id) fx.cur) (clustered id) = true
    ∧ (let u := acting (planQsend (qsd 0x7A) (clustered id) fx.cur) (clustered id)
       stageOk u u.cur (opA (qsd 0x7A) u) = false)
    ∧ (let u := acting (planQsend (qsd (xs 2)) (clustered id) fx.cur) (clustered id)
       stageOk u u.cur (opA (qsd (xs 2)) u) = true) := by decide +kernel
/-- IN0 = 8 and IN1 = 9 from the halves of x28, IN6 = 7 from x31: the entry of stage 1, and one task more of the point. -/
theorem test_qsend : hasOutcome (exec (.qsend (qsd (xs 2))) (clustered id)) (fun t => ((taskOf t t.cur).stores.map fun e => match e.act with
      | .qsend st n _ => (st, n.pay0, n.pay1, n.ins, n.point)
      | _ => (0, 0, 0, [], [])) = [(1, 3, 4, [8, 9, 0, 0, 0, 0, 7, 0], [1, 0, 0, 0])]
      && ((launchOf t 0 0).flying.map (·.live)) = [2]) = true := by decide +kernel
theorem test_queue_words : issues (.qtake (fa 31 (xs 1) (xs 22) no no)) (planScal (illQtake (fa 31 (xs 1) (xs 22) no no)) (fa 31 (xs 1) (xs 22) no no) 1
      (clustered id) fx.cur) (clustered id) = true
    ∧ issues (.stage (fa 31 (xs 1) (xs 2) no no)) (planScal (illStage (fa 31 (xs 1) (xs 2) no no)) (fa 31 (xs 1) (xs 2) no no) 4
      (clustered id) fx.cur) (clustered id) = true := by decide +kernel
/-- Item 12 is where tile 9 lies; item 3 how many tiles are declared; stage 1 has 2 cores and an empty queue. -/
theorem test_queue_words_results : flown (exec (.qtake (fa 31 (xs 1) (xs 22) no no)) (clustered id)) = [(0, .x 1, .word 512, 0)]
    ∧ flown (exec (.stage (fa 31 (xs 1) (xs 2) no no)) (clustered id)) = [(3, .x 1, .word 0x20000, 0)] := by decide +kernel

/-- The multicast of 512 bytes on its way to core 2, then to `r`; core 2 holds tile 4 across the place and tile 5 elsewhere. -/
def placing (r : List Nat) : State :=
  mapCore (mapTask (clustered id) fx.cur fun t => { t with stores := [⟨[], .mcast 9 1 512 512 (List.replicate 8 3) (2 :: r), 0, [], [1], [], false, 0, 0⟩] })
    2 fun c => { c with residents := [(4, 0, 1024), (5, 4096, 512)] }
theorem test_mcast_place_premises : ((clusterSlots 0).findSome? fun p => (mcastNext (placing [3]) p).map fun x => (p, x.core, x.rest)) = some (.slot 0 0, 2, [3])
    ∧ ((clusterSlots 0).findSome? fun p => (mcastNext (placing []) p).map fun x => (p, x.core, x.rest)) = some (.slot 0 0, 2, [])
    ∧ ((clusterSlots 0).all fun p => (mcastNext fx p).isNone) = true := by decide +kernel
theorem test_mcast_place : hasOutcome (exec (.mcastPlace 0) (placing [3])) (fun t => (coreOf t 2).residents = [(5, 4096, 512), (9, 512, 8)]
      && rdByte t ⟨.hall, 2 * 2 ^ 20 + 519⟩ = 3 && rdByte t ⟨.hall, 2 * 2 ^ 20 + 520⟩ = 0 && (taskOf t t.cur).stores.length = 1) = true
    ∧ hasOutcome (exec (.mcastPlace 0) (placing [])) (fun t => (taskOf t t.cur).stores.isEmpty) = true := by decide +kernel

/-- 128 entries wait for stage 0 and none for stage 1. -/
def unbalanced (m n : Nat) : State :=
  clustered fun e => { e with queues := [(0, List.replicate m default), (1, List.replicate n default)] }
theorem test_rebalance_premises : (let s := unbalanced 128 0
    let e := launchOf s 0 0
    starting e = true ∧ e.stages.length = 2 ∧ ((coresBound s 0 0).map (·.1)) = [0, 1, 2, 3]
      ∧ ((coresBound s 0 0).all fun q => q.2.moving.isNone) = true ∧ (stageCores s 0 0 0 1).map (·.1) = [2, 3]
      ∧ ((stageCores s 0 0 0 1).find? fun q => !lastHolder s e 0 1 (stageCores s 0 0 0 1) q.1).map (·.1) = some 2
      ∧ occupancy e 0 1 + 128 ≤ occupancy e 0 0)
    ∧ (let e := launchOf (unbalanced 127 0) 0 0
       occupancy e 0 0 < occupancy e 0 1 + 128 ∧ occupancy e 0 1 < occupancy e 0 0 + 128) := by decide +kernel
theorem test_rebalance : hasOutcome (exec (.usherRebalance 0 0) (unbalanced 128 0)) (fun t => (coreOf t 2).moving = some 0 && (coreOf t 3).moving = none) = true
    ∧ hasOutcome (exec (.usherRebalance 0 0) (unbalanced 127 0)) (fun t => (coreOf t 2).moving = none) = true := by decide +kernel
/-- Core 2, empty, may move; core 0 may not. -/
def moving : State := mapCore (mapCore (clustered id) 2 fun c => { c with moving := some 0, residents := [(4, 0, 512)] }) 0 fun c => { c with moving := some 1 }
theorem test_stage_move : (coreOf moving 2).moving = some 0 ∧ (∀ n < 4, (taskOf moving (.slot 2 n)).status = .idle) ∧ (coreOf moving 0).moving = some 1
    ∧ (∃ n < 4, (taskOf moving (.slot 0 n)).status ≠ .idle)
    ∧ hasOutcome (exec (.coreStageMove 2) moving) (fun t => (coreOf t 2).stage = some 0 && (coreOf t 2).residents.isEmpty) = true := by decide +kernel

/-- Point (0,0,0,0) fires to cluster 0. -/
theorem test_fire_premises : flyingOn (clustered id) 0 < 4096
    ∧ ((fireOrder (clustered id) 0).findSome? fun l => (fireable (clustered id) 0 l).map fun x => (l, x)) = some (0, [0, 0, 0, 0], 0)
    ∧ queueRoom (launchOf (clustered id) 0 0) (queueKey 0 0) = true ∧ nextPoint (launchOf (clustered id) 0 0) (fun _ => true) = some [0, 0, 0, 0] := by decide +kernel
theorem test_fire_full : 4096 ≤ flyingOn (clustered fun e => { e with flying := List.replicate 4096 default }) 0 := by decide +kernel
theorem test_fire : hasOutcome (exec (.stairwellFire 0) (clustered id)) (fun t => ((launchOf t 0 0).flying.map (·.point)) = [[1, 0, 0, 0], [0, 0, 0, 0]]
    && ((queueOf (launchOf t 0 0) 0).map (·.point)) = [[0, 0, 0, 0]]) = true := by decide +kernel
theorem test_riser_return : (let s := clustered fun e => { e with spillN := 1 }
    0 < (launchOf s 0 0).spillN ∧ heldRisers s 0 < 4096 ∧ (launchOf fx 0 0).spillN = 0
      ∧ hasOutcome (exec (.riserReturn 0 0) s) (fun t => (launchOf t 0 0).spillN = 0) = true) := by decide +kernel
theorem test_class_rise : hasOutcome (exec (.entryClassRise 0 0 1) { clustered (fun e => { e with queues := [(0, [default]), (1, [default])] }) with clock := 65536 })
    (fun t => ((launchOf t 0 0).queues.flatMap (·.2)).map (fun n => (n.cls, n.risen)) = [(0, false), (1, true)]) = true := by decide +kernel

/-- One entry spilled to the first 64 bytes of the overflow area, which lies at VA 0 of `paged`. -/
def spilledEntry : Entry := ⟨3, 4, [8, 9, 0, 0, 0, 0, 7, 0], [1, 0, 0, 0], 2, 0, false⟩
def spilledTo : State :=
  mapLaunch { paged with near := paged.near ++ bytesAt 0x300000 64 (leNat (entryBytes spilledEntry)) } 0 0
    fun e => { e with ovfl := 0, ovfLen := 64, overflow := [(1, 0, spilledEntry)], ovfWait := [0] }
theorem test_spill_return_premises : (let e := launchOf spilledTo 0 0
    returning e = some 0 ∧ e.overflow[0]? = some (1, 0, spilledEntry)
      ∧ (match overflowPlaces spilledTo e 12 0 with
          | .inl pls => !pls.any (placePoison spilledTo) && decide (pls.map (rdByte spilledTo) = entryBytes spilledEntry)
          | .inr _ => false) = true)
    ∧ spilledEntry.ins.length = 8 ∧ (∀ i ∈ spilledEntry.ins, i < 2 ^ 32) ∧ spilledEntry.point.length = 4 ∧ (∀ a ∈ spilledEntry.point, a < 2 ^ 20)
    ∧ returning (launchOf fx 0 0) = none ∧ (∀ g ∈ spilledTo.groups, g.2.party = .super 0 → g.2.die = 0 → g.2.launch ≠ 0) := by decide +kernel
theorem test_spill_return : hasOutcome (exec (.spillEntryReturn 0 0) spilledTo) (fun t => queueOf (launchOf t 0 0) 1 = [spilledEntry]
      && (launchOf t 0 0).overflow.isEmpty) = true
    ∧ hasOutcome (exec (.overflowTranslationDone 0 0) spilledTo) (fun t => (launchOf t 0 0).ovfWait.isEmpty) = true := by decide +kernel
theorem test_overflow_waits : ∃ g ∈ ([(0, ⟨.super 0, 1, 0, 0, none, [(0xFF, 0, 12)], [], false⟩)] : Table Group), g.2.party = .super 0 ∧ g.2.die = 0 ∧ g.2.launch = 0 := by
  decide +kernel

/-- An entry waits for stage 1, whose cores 2 and 3 are idle; the tile 9 it declares lies on core 3 alone. -/
def waiting (q : List Entry) (r : List Cont) : State :=
  mapCore (clustered fun e => { e with queues := [(1, q)], conts := r, args := [mkTok 1 7 0 15 64 0, mkTok 1 6 0 15 64 0] }) 3
    fun c => { c with residents := [(9, 0, 512)] }
def tiled : Entry := ⟨3, 4, [9, 0, 0, 0, 0, 0, 0, 0], [1, 0, 0, 0], 2, 0, false⟩
def cont1 : Cont := ⟨7, 0x100000000, [1, 0, 0, 0], 0, false, 1, [9, 0, 0, 0, 0, 0, 0, 0], [(0x12, .word 6), (0x45, .vec ⟨8, 16⟩)], true, false, 0, 0, [], false, false, 0, []⟩
theorem test_task_start_premises : (let s := waiting [tiled] []
    (bestCand (entryCands s 0)).map (fun c => (c.die, c.launch, c.key, c.idx, c.core, c.slot)) = some (0, 0, 1, 0, 3, 0)
      ∧ (bestCand (contCands s 0)).isNone = true ∧ (queueOf (launchOf s 0 0) 1)[0]? = some tiled ∧ (launchOf s 0 0).argmode = 0)
    ∧ (bestCand (entryCands fx 0)).isNone = true ∧ (bestCand (contCands fx 0)).isNone = true := by decide +kernel
/-- On core 3, at word 4, with the launch's tokens: k1 is of an old generation. -/
theorem test_task_start : hasOutcome (exec (.usherTaskStart 0) (waiting [tiled] [])) (fun t => let w := taskOf t (.slot 3 0)
    w.status = .run && w.pc = 4 && w.stage = 1 && w.point = [1, 0, 0, 0] && (tget noTok w.k 0).tag && !kCurrent t (tget noTok w.k 1)
      && (queueOf (launchOf t 0 0) 1).isEmpty) = true := by decide +kernel
theorem test_resume_premises : (let s := waiting [] [cont1]
    (bestCand (contCands s 0)).map (fun c => (c.die, c.launch, c.idx, c.core, c.slot)) = some (0, 0, 0, 3, 0)
      ∧ (bestCand (entryCands s 0)).isNone = true ∧ (launchOf s 0 0).conts[0]? = some cont1)
    ∧ cont1.spilled = false ∧ cont1.streams = [] ∧ (cont1.live.map (·.1)).Nodup ∧ (∀ x ∈ cont1.live, x.1 < 128) := by decide +kernel
theorem test_resume : hasOutcome (exec (.continuationResume 0) (waiting [] [cont1])) (fun t => let w := taskOf t (.slot 3 0)
    w.status = .run && w.pc = 7 && tget 0 w.x 2 = 6 && tget freshV w.v 5 = ⟨8, 16⟩ && tget 0 w.x 3 = 0 && w.resumed
      && (launchOf t 0 0).conts.isEmpty) = true := by decide +kernel


/-! ## Launches (spec 12) -/

/-- A Porter stream of context 1 with fx's registers, in the buffer that k0 names. -/
def porter : State :=
  { mapTask fx (.stream 0 1) (fun t =>
      { t with status := .run, ctx := 1, x := regs ++ [(20, 1024), (21, 0x0001), (22, 64), (23, 0x100), (24, 1)], k := toks, buf := mkTok 1 7 0 15 4096 0, fetched := [(0, 0)] })
    with cur := .stream 0 1 }
/-- At offset 1024 of k0 a launch record: rank 1, window 1, class 2, 2 by 1 cores, 2 points, one stage of one core from word 0; its image
token is at 320, the image's size, 64, at 24 of the image, and the image is resident. -/
def recordBytes : Nat := 1 + 2 ^ 16 + 2 * 2 ^ 32 + 2 * 2 ^ 48 + 2 ^ 56 + 2 ^ 64 + 2 * 2 ^ 128 + 2 ^ 160 + 2 ^ 192 + 2 ^ 224
  + 2 ^ 1344 + image.tok.bits.toNat * 2 ^ 2560
def recorded (v : Nat) : State :=
  wrTag { porter with
    near := (65560, 64) :: bytesAt 66624 640 v, images := [image], words := [(10, { frame .near 1 with tp := true })] } ⟨.near, 66944⟩ true
def lw : FmtA := fa 31 (xs 4) (kz 0) (xs 20) no
theorem test_launch_premises : issues (.launch lw) (planLaunch lw (recorded recordBytes) porter.cur) (recorded recordBytes) = true
    ∧ (let u := acting (planLaunch lw (recorded recordBytes) porter.cur) (recorded recordBytes)
       (match checkRecord u u.cur (rdTok u u.cur (kz 0)) (opB lw u).toNat 1 with
        | .inr n => decide ((n.rank, n.prio, n.pw, n.ph, n.ext) = (1, 2, 2, 1, [2, 1, 1, 1])) && !n.held && n.stages.length = 1
        | .inl _ => false) = true
      ∧ pickSlot u 0 = some 1) := by decide +kernel
/-- A window of 0 is refused with LAUNCH 3. -/
theorem test_launch_refused_premises : (let s := recorded (recordBytes - 2 ^ 16)
    issues (.launch lw) (planLaunch lw s porter.cur) s = true
    ∧ (let u := acting (planLaunch lw s porter.cur) s
       (match checkRecord u u.cur (rdTok u u.cur (kz 0)) (opB lw u).toNat 1 with | .inl n => n.1 = 3 | .inr _ => false) = true)) := by decide +kernel
theorem test_launch_skipped_premises : (let s := mapTask porter porter.cur fun t => { t with cp := false }
    issues (.launch lw) (planLaunch lw s porter.cur) s = true ∧ (taskOf s s.cur).cp = false) := by decide +kernel
/-- The handle of slot 1, generation 1. -/
theorem test_launch : flown (exec (.launch lw) (recorded recordBytes)) = [(0, .x 4, .word 0x101, 0)]
    ∧ hasOutcome (exec (.launch lw) (recorded recordBytes)) (fun t => (launchOf t 0 1).state = .queued && (launchOf t 0 1).ctx = 1) = true := by decide +kernel
/-- Point (1, 2, 0, 0) of 2 by 4 points, with one dependence (1, 0, 0, 0): 6, and 2 for the dependence. -/
def pointed : State :=
  mapLaunch (fxw fun t => { t with point := [1, 2, 0, 0], x := [(1, 8)] }) 0 0 fun e => { e with ext := [2, 4, 1, 1], deps := [[1, 0, 0, 0]] }
def ptcw (a : SpecBits) : FmtA := fa 31 (xs 4) a no no
theorem test_ptc : issues (.ptc (ptcw (xs 1))) (planScal (illPtc (ptcw (xs 1))) (ptcw (xs 1)) 3 pointed fx.cur) pointed = true
    ∧ flown (exec (.ptc (ptcw (xs 1))) pointed) = [(2, .x 4, .word 6, 0)]
    ∧ flown (exec (.ptc (ptcw (xs 3))) pointed) = [(2, .x 4, .word 2, 0)]
    ∧ flown (exec (.ptc (ptcw 0x79)) pointed) = [(2, .x 4, .word (BitVec.allOnes 64), 0)] := by decide +kernel
theorem test_frstat : (let f := fa 31 (xs 4) no (xs 3) no
    issues (.frstat f) (planFrstat f fx fx.cur) fx = true ∧ flown (exec (.frstat f) fx) = [(3, .x 4, .word 2, 0)])
    ∧ (let f := fa 31 (xs 4) (xs 3) (xs 24) no
       issues (.frstat f) (planFrstat f porter porter.cur) porter = true ∧ flown (exec (.frstat f) porter) = [(3, .x 4, .word 1, 0)]) := by
  decide +kernel

/-- A waiting launch of 2 by 1 cores; core 0 holds data of context 2. -/
def queued : State :=
  mapCore (mapLaunch fx 0 0 fun e => { e with state := .queued, bound := false, pw := 2, ph := 1, stages := [⟨0, 1, 1, false⟩] }) 0
    fun c => { c with owner := 2, mem := [(5, 6)], residents := [(9, 0, 512)] }
theorem test_bind_premises : (let e := launchOf queued 0 0
    waitingLaunch e = true ∧ bindCores queued 0 e (fun _ => false) 0 0 0 = some [0, 1] ∧ positions e 0 0 0 = some [(0, 0), (1, 0)]
      ∧ ((dieOf queued 0).launches.any fun o => o.1 != 0 && waitingLaunch o.2 && boundFirst o.2 e && canBind queued 0 o.2 fun _ => false) = false
      ∧ (∀ c ∈ [0, 1], (coreOf queued c).sliceSlot = none))
    ∧ bindCores queued 0 (launchOf queued 0 0) (fun _ => false) 15 0 0 = none ∧ waitingLaunch (launchOf fx 0 0) = false := by decide +kernel
theorem test_bind : hasOutcome (exec (.launchBind 0 0 0 0 0) queued) (fun t => (launchOf t 0 0).state = .running && (coreOf t 0).mem.isEmpty
      && (coreOf t 0).owner = 1 && (coreOf t 1).bound = some (0, 0) && (coreOf t 2).bound = none) = true
    ∧ hasOutcome (exec (.launchBind 0 0 15 0 0) queued) (fun t => (launchOf t 0 0).state = .queued) = true := by decide +kernel

/-- A launch whose one line is done; its completion record goes to k0, its context's timeline is at near byte 0x8000. -/
def ending (h : Nat) : State :=
  mapLaunch { fx with tasks := [], near := [(0x8000, 0xFF)], ctxs := [(1, { ctx1 with params := { ctx1.params with timeline := 0x8000 } })],
                      cores := [(0, { staged 0 with ticks := [(9, 1)] })] } 0 0
    fun e => { e with risers := [⟨0, 0, h⟩], doneTok := mkTok 1 7 0 15 4096 64, completed := 2 }
theorem test_end_premises : (let s := ending 2
    let e := launchOf s 0 0
    let r := (List.range 16).map fun i => kPlace s e.doneTok i
    let line := (List.range 8).map fun j => (⟨.near, (ctxOf s e.ctx).params.timeline + j⟩ : Place)
    endStatus s 0 0 = some 1 ∧ (coreOf s 0).bound = some (0, 0) ∧ (access s e.doneTok 0 16 true).flag = 0 ∧ kSpace e.doneTok ≠ 3
      ∧ r.all (openPlace s) = true ∧ r.Nodup ∧ (r.all fun pl => !line.contains pl) = true ∧ line.all (openPlace s) = true ∧ (ctxOf s e.ctx).live = true)
    ∧ endStatus (ending 1) 0 0 = none := by decide +kernel
/-- Timeline 255 becomes 256. -/
theorem test_end : hasOutcome (exec (.launchEnd 0 0) (ending 2)) (fun t => (launchOf t 0 0).state = .done && (coreOf t 0).bound = none
    && rdNear t 0x8000 8 = 256 && (coreOf t 0).ticks.isEmpty) = true := by decide +kernel

/-- Launch 1, of class 3, waits for all of die 0's mesh columns 0 to 15; launch 0, of class 0, holds core 0. -/
def contested : State :=
  mapLaunch { fx with cores := [(0, staged 0)] } 0 1 fun e => { e with state := .queued, ctx := 1, prio := 3, pw := 16, ph := 8, stages := [⟨0, 1, 1, false⟩] }
theorem test_victims : (let s := contested
    let e := launchOf s 0 1
    waitingLaunch e = true ∧ canBind s 0 e (freeing s 0 e.prio) = false ∧ nextVictim s 0 e.prio = some 0
      ∧ canBind s 0 e (boundBelow s 0 e.prio fun v => v.state = .running) = true)
    ∧ waitingLaunch (launchOf contested 0 0) = false := by decide +kernel
theorem test_preempt : hasOutcome (exec (.preempt 0 1) contested) (fun t => (launchOf t 0 0).victimBy = some 1) = true := by decide +kernel

/-- A task at word 3, a checkpoint of x2, told to leave; its launch's spill area is k0's page from byte 2048. -/
def leavingTask (f : Fate) : State :=
  mapLaunch (fxw fun t => { t with fate := f, ic := 4, point := [1, 0, 0, 0] }) 0 0 fun e => { e with
    image := { e.image with ckpt := [(3, [0x12])] }, cspill := mkTok 1 7 0 15 4096 2048, flying := [⟨[1, 0, 0, 0], 1, true, false, 0, 0⟩] }
theorem test_checkpoint_premises : (let s := leavingTask (.checkpointWithin 9)
    let t0 := taskOf s s.cur
    let c0 := contOf s s.cur t0.pc 0 false true ((ckptOf s s.cur t0.pc).getD [])
    let e := launchOf s 0 0
    isPorter s.cur = false ∧ checkpointDue s s.cur = true ∧ t0.flights = [] ∧ accessesDone t0 = true ∧ ownStreams s (coreNo s.cur) t0.run = []
      ∧ t0.launch = some (0, 0) ∧ spillOk s e.cspill (spillPlace e (contUnits c0)) (64 * contUnits c0) true = true)
    ∧ checkpointDue (leavingTask .none) fx.cur = false := by decide +kernel
theorem test_checkpoint : hasOutcome (exec (.taskCheckpoint fx.cur) (leavingTask (.checkpointWithin 9))) (fun t => (taskOf t fx.cur).status = .idle
    && ((launchOf t 0 0).conts.map fun c => (c.pc, c.spilled, c.live)) = [(3, true, [(0x12, .word 7)])]) = true := by decide +kernel
/-- A budget of 4 is spent at the fourth cycle; one of 5 is not; word 4 is no checkpoint. -/
theorem test_budget : (∀ b ∈ [4, 5], let s := here (leavingTask (.checkpointWithin b)) 4
    (taskOf s fx.cur).status ≠ .idle ∧ (taskOf s fx.cur).fate = .checkpointWithin b ∧ checkpointDue s fx.cur = false)
    ∧ hasOutcome (exec (.preemptBudgetExpiry fx.cur) (here (leavingTask (.checkpointWithin 4)) 4)) (fun t =>
        (taskOf t fx.cur).status = .idle && (launchOf t 0 0).flying.isEmpty) = true
    ∧ hasOutcome (exec (.preemptBudgetExpiry fx.cur) (here (leavingTask (.checkpointWithin 5)) 4)) (fun t => (taskOf t fx.cur).status = .run) = true := by
  decide +kernel
def victim (b : Nat) : State :=
  mapLaunch { fx with tasks := [], cores := [(0, { staged 0 with mem := [(5, 6)] })] } 0 0 fun e => { e with victimBy := some b, risers := [⟨0, 0, 1⟩] }
theorem test_settled_premises : (∀ b ∈ [1, 32], let s := victim b
      (launchOf s 0 0).victimBy = some b ∧ launchQuiet s 0 0 = true ∧ (launchOf s 0 0).switched = false ∧ (launchOf s 0 0).conts = []
        ∧ (∀ q ∈ (launchOf s 0 0).queues, q.2 = []) ∧ (coreOf s 0).bound = some (0, 0))
    ∧ (launchOf fx 0 0).victimBy = none := by decide +kernel
theorem test_settled : hasOutcome (exec (.victimSettled 0 0) (victim 1)) (fun t => (launchOf t 0 0).state = .preempted && (coreOf t 0).bound = none
      && (coreOf t 0).mem = [(5, 6)]) = true
    ∧ hasOutcome (exec (.victimSettled 0 0) (victim 32)) (fun t => (launchOf t 0 0).state = .saved) = true := by decide +kernel

/-- The supervisor, with the handle of launch 0 in x1 and k0 for the landing at offset 1024. -/
def landingState (st : LState) (w : Wait) : State :=
  mapLaunch { mapTask super super.cur (fun t => { t with x := [(1, 0x0000), (2, 1024)], k := toks, wait := w }) with cores := [(0, staged 0)] } 0 0
    fun e => { e with state := st, risers := firstRisers, bound := decide (st = .running) }
def frw : FmtA := fa 31 no (xs 1) (kz 0) (xs 2)
theorem test_frsave_premises : (∀ st ∈ [LState.running, .queued], let s := landingState st .none
      (taskOf s s.cur).wait = .none ∧ issues (.frsave frw) (planFrsave frw s s.cur) s = true
        ∧ (let u := acting (planFrsave frw s s.cur) s
           handleIn u (opA frw u) [.queued, .running, .preempted, .saved] = some (0, 0) ∧ (opC frw u).toNat % 64 = 0))
    ∧ (let s := landingState .saved (.frsave 0 (tget noTok toks 0) 1024 false)
       let bs := landBytes (launchOf s 0 0)
       let pls := (List.range bs.length).map fun i => kPlace s (tget noTok toks 0) (1024 + i)
       (taskOf s s.cur).wait = .frsave 0 (tget noTok toks 0) 1024 false ∧ (taskOf s s.cur).step = false ∧ (launchOf s 0 0).state = .saved
        ∧ (access s (tget noTok toks 0) 1024 bs.length true).flag = 0 ∧ kSpace (tget noTok toks 0) ≠ 3 ∧ pls.all (openPlace s) = true ∧ pls.Nodup) := by
  decide +kernel
/-- RANK 1, WIN 1, one riser, EXT0 = 2. -/
theorem test_frsave : hasOutcome (exec (.frsave frw) (landingState .running .none)) (fun t => (launchOf t 0 0).victimBy = some 32) = true
    ∧ hasOutcome (exec (.frsave frw) (landingState .queued .none)) (fun t => (launchOf t 0 0).state = .saved) = true
    ∧ hasOutcome (exec (.frsave frw) (landingState .saved (.frsave 0 (tget noTok toks 0) 1024 false))) (fun t =>
        rdNear t 66624 16 = 2 ^ 32 + 2 ^ 16 + 1 && rdNear t 66640 4 = 2 && (taskOf t t.cur).pc = 1) = true := by decide +kernel
/-- A landing of one riser at height 1, 1 point completed. -/
def landed (h : Nat) : State :=
  { landingState .saved .none with near := bytesAt 66624 96 (2 ^ 32 + 2 ^ 16 + 1 + (2 + 2 ^ 32 + 2 ^ 64 + 2 ^ 96) * 2 ^ 128 + 2 ^ 256 + h * 2 ^ (512 + 128)) }
theorem test_frload_premises : issues (.frload frw) (planFrload frw (landed 1) (landed 1).cur) (landed 1) = true
    ∧ (let u := acting (planFrload frw (landed 1) (landed 1).cur) (landed 1)
       let k := rdTok u u.cur (kz 0)
       handleIn u (opA frw u) [.saved] = some (0, 0) ∧ leNat (rdExtent u k (1024 + 4) 4) = 1 ∧ leNat (rdExtent u k (1024 + 8) 4) = 0
        ∧ landingAccess u k 1024 64 = true ∧ landingAccess u k 1024 96 = true
        ∧ ((List.range 96).all fun i => decide ((kPlace u k (1024 + i)).space ≠ .peer) && !placePoison u (kPlace u k (1024 + i))) = true ∧ landingBad (launchOf u 0 0) (rdExtent u k 1024 96) = false)
    ∧ (let s := landingState .running .none
       issues (.frload frw) (planFrload frw s s.cur) s = true
        ∧ (let u := acting (planFrload frw s s.cur) s
           handleIn u (opA frw u) [.saved] = none)) := by decide +kernel
theorem test_frload : hasOutcome (exec (.frload frw) (landed 1)) (fun t => (launchOf t 0 0).state = .queued && (launchOf t 0 0).risers = [⟨0, 0, 1⟩]
    && (launchOf t 0 0).completed = 1) = true := by decide +kernel
theorem test_crc32c : crc32c ((List.range 9).map fun i => BitVec.ofNat 8 (0x31 + i)) = 0xE3069283 := by decide +kernel


/-! ## The Porter's words and streams (spec 12) -/

/-- The stream one level deep, at word 3 of a buffer; the word at offset 8 of k0 holds 9. -/
def deep (w : Wait) : State :=
  { mapTask porter porter.cur (fun t => { t with level := 1, stack := [(mkTok 1 7 0 15 4096 64, 2)], loopcs := [⟨1, 3, 2, 5⟩, ⟨0, 1, 9, 2⟩], wait := w
                                                 x := t.x ++ [(25, 8), (26, 9)] }) with near := [(65608, 9)] }
theorem test_callb_premises : (∀ b ∈ [xs 9, xs 2], issues (.callb (fa 31 no (kz 0) b no)) (planCallb (fa 31 no (kz 0) b no) (deep .none) porter.cur) (deep .none) = true)
    ∧ (taskOf (deep .none) porter.cur).cp = true
    ∧ (let u := acting (planCallb (fa 31 no (kz 0) (xs 9) no) (deep .none) porter.cur) (deep .none)
       kCurrent u (rdTok u u.cur (kz 0)) = true ∧ kR (rdTok u u.cur (kz 0)) = true ∧ (opB (fa 31 no (kz 0) (xs 9) no) u).toNat % 8 = 0
        ∧ (opB (fa 31 no (kz 0) (xs 2) no) u).toNat % 8 ≠ 0)
    ∧ (let s := mapTask porter porter.cur fun t => { t with cp := false }
       issues (.callb (fa 31 no (kz 0) (xs 9) no)) (planCallb (fa 31 no (kz 0) (xs 9) no) s s.cur) s = true) := by decide +kernel
/-- Offset 48 is word 6; offset 7 is no word. -/
theorem test_callb : hasOutcome (exec (.callb (fa 31 no (kz 0) (xs 9) no)) porter) (fun t => (taskOf t t.cur).pc = 6 && (taskOf t t.cur).level = 1
      && (taskOf t t.cur).stack = [(mkTok 1 7 0 15 4096 0, 1)]) = true
    ∧ hasOutcome (exec (.callb (fa 31 no (kz 0) (xs 2) no)) porter) (fun t => (taskOf t t.cur).flags = fXB && (taskOf t t.cur).level = 0) = true := by
  decide +kernel
theorem test_retb : issues (.retb (fa 31 no no no no)) (planRetb (fa 31 no no no no) (deep .none) porter.cur) (deep .none) = true
    ∧ (taskOf (deep .none) porter.cur).stack = [(mkTok 1 7 0 15 4096 64, 2)]
    ∧ hasOutcome (exec (.retb (fa 31 no no no no)) (deep .none)) (fun t => (taskOf t t.cur).pc = 2 && (taskOf t t.cur).loopcs = [⟨0, 1, 9, 2⟩]
        && (taskOf t t.cur).stack.isEmpty) = true := by decide +kernel
/-- Condition `c` of the word at offset 8 of k0 and x26 = 9. -/
def cw (d : SpecBits) (c : BitVec 3) : FmtA := { fa 31 d (kz 0) (xs 25) (xs 26) with sc := c }
theorem test_predm_premises : (taskOf (deep .none) porter.cur).wait = .none
    ∧ (∀ c ∈ ([0, 1] : List (BitVec 3)), issues (.predm (cw (xs 4) c)) (planPredm (cw (xs 4) c) (deep .none) porter.cur) (deep .none) = true
      ∧ (let u := acting (planPredm (cw (xs 4) c) (deep .none) porter.cur) (deep .none)
         (condOf (cw (xs 4) c)).isSome = true ∧ (memChk (cw (xs 4) c) u u.cur).flag = 0
          ∧ quietObj u u.cur (kSlot (rdTok u u.cur (kz 0))) (barAt (cw (xs 4) c) u u.cur) 8 = true)) := by decide +kernel
theorem test_predm : hasOutcome (exec (.predm (cw (xs 4) 0)) (deep .none)) (fun t => (taskOf t t.cur).cp && flown (.next t) = [(0, .x 4, .word 1, 0)]) = true
    ∧ hasOutcome (exec (.predm (cw (xs 4) 1)) (deep .none)) (fun t => !(taskOf t t.cur).cp && flown (.next t) = [(0, .x 4, .word 0, 0)]) = true := by decide +kernel
theorem test_predm_released : (let s := deep (.pred (cw (xs 4) 0) 1 72 .eq 9 (some 9))
    (taskOf s s.cur).wait = .pred (cw (xs 4) 0) 1 72 .eq 9 (some 9) ∧ (taskOf s s.cur).step = false ∧ condOf (cw (xs 4) 0) = some .eq
      ∧ hasOutcome (exec (.predm (cw (xs 4) 0)) s) (fun t => (taskOf t t.cur).cp && (taskOf t t.cur).wait = .none) = true) := by decide +kernel
def lc (a b : SpecBits) : FmtA := fa 31 no a b no
theorem test_loopc : (∀ a ∈ [xs 3, xs 2], issues (.loopc (lc a (xs 10))) (planLoopc (lc a (xs 10)) porter porter.cur) porter = true)
    ∧ hasOutcome (exec (.loopc (lc (xs 3) (xs 10))) porter) (fun t => (taskOf t t.cur).pc = 3) = true
    ∧ hasOutcome (exec (.loopc (lc (xs 2) (xs 10))) porter) (fun t => (taskOf t t.cur).loopcs = [⟨0, 1, 2, 7⟩] && (taskOf t t.cur).pc = 1) = true := by decide +kernel
theorem test_ffence : issues (.ffence (fa 31 no no no no)) (planNone noTk (illNoOps (fa 31 no no no no)) [] porter porter.cur) porter = true
    ∧ hasOutcome (exec (.ffence (fa 31 no no no no)) porter) (fun t => (taskOf t t.cur).fetched.isEmpty) = true := by decide +kernel
theorem test_waitline_premises : (let f := cw (xs 4) 0
    issues (.waitline f) (planWaitline f (deep .none) porter.cur) (deep .none) = true
    ∧ (let u := acting (planWaitline f (deep .none) porter.cur) (deep .none)
       (memChk f u u.cur).flag = 0 ∧ objPeer u (kSlot (rdTok u u.cur (kz 0))) (barAt f u u.cur) = false)) := by decide +kernel
theorem test_waitline_holding : ([9, 8] : List Word).all (fun v =>
      let s := deep (.line (cw (xs 4) 0) 1 72 .eq v none)
      (taskOf s s.cur).wait = .line (cw (xs 4) 0) 1 72 .eq v none && !(taskOf s s.cur).step && !objPeer s 1 72 && (objPoison s 1 72 8).isNone
        && objVal s 1 72 8 = 9) = true
    ∧ condOf (cw (xs 4) 0) = some .eq ∧ icond .eq 9 9 = true ∧ icond .eq 9 8 = false := by decide +kernel
theorem test_waitline : hasOutcome (exec (.waitline (cw (xs 4) 0)) (deep .none)) (fun t => (taskOf t t.cur).wait = .line (cw (xs 4) 0) 1 72 .eq 9 none
      && (slotOf t 1).inflt = 1) = true
    ∧ flown (exec (.waitline (cw (xs 4) 0)) (deep (.line (cw (xs 4) 0) 1 72 .eq 9 none))) = [(0, .x 4, .word 9, 0)]
    ∧ flown (exec (.waitline (cw (xs 4) 0)) (deep (.line (cw (xs 4) 0) 1 72 .eq 8 none))) = [] := by decide +kernel

theorem test_streams_premises : (taskOf fx (.stream 0 1)).status = .idle ∧ (ctxOf fx 1).live = true ∧ (ctxOf fx 2).live = false
    ∧ (taskOf porter (.stream 0 1)).status ≠ .idle ∧ (taskOf porter (.stream 0 1)).stores = []
    ∧ (taskOf (mapTask porter porter.cur fun t => { t with stores := [emptyStore 0 []] }) (.stream 0 1)).stores ≠ [] := by decide +kernel
theorem test_streams : hasOutcome (exec (.commandStreamStart 0 1 (tget noTok toks 0).bits 16) fx) (fun t => (taskOf t (.stream 0 1)).status = .run
      && (taskOf t (.stream 0 1)).pc = 2 && (taskOf t (.stream 0 1)).buf = tget noTok toks 0) = true
    ∧ hasOutcome (exec (.commandStreamStop 0 1) porter) (fun t => (taskOf t (.stream 0 1)).status = .idle && (taskOf t (.stream 0 1)).x.length = 15) = true := by
  decide +kernel
/-- A buffer of two words: the words at 0 and 8 of k0. -/
def buffered : State := { mapTask porter porter.cur (fun t => { t with buf := mkTok 1 7 0 15 16 64, pc := 0, fetched := [] }) with near := [(65601, 1), (65608, 9)] }
theorem test_fetch_premises : isPorter buffered.cur = true ∧ (taskOf buffered buffered.cur).stores = [] ∧ (taskOf buffered buffered.cur).status = .run
    ∧ codeWords buffered buffered.cur = 2 ∧ (access buffered (taskOf buffered buffered.cur).buf 8 8 false).flag = 0
    ∧ kSpace (taskOf buffered buffered.cur).buf ≠ 3 ∧ (∀ j < 8, placePoison buffered (kPlace buffered (taskOf buffered buffered.cur).buf (8 + j)) = false) := by
  decide +kernel
theorem test_fetch : hasOutcome (exec (.commandFetch buffered.cur) buffered) (fun t => codeWord t t.cur 0 = some 256 && codeWord t t.cur 1 = some 9) = true := by
  decide +kernel


/-! ## Collectives and rings (spec 21) -/

/-- Ring 0 of context 1 on die 0: this device, 5, and device 6; x20 to x23: two f32 elements from 0 of k0 to 256 of k0. -/
def members : List (Nat × Nat) := [(5, 1), (6, 1)]
def ringed (formed : Bool) (count : Nat) (cs : List Coll) : State :=
  { fxw (fun t => { t with x := [(20, BitVec.ofNat 64 count), (21, 0), (22, 256), (23, 0x20000), (24, 0x40000), (25, 1)], ctimeo := 16 }) with
    identity := 5, colls := cs, rings := [(32, ⟨true, formed, !formed, members, 0, 0, 4, 3, 2⟩)]
    near := [(65602, 0x80), (65603, 0x3F)] }
/-- A reduce-scatter of two f32 elements that waits for its one step: this member's chunk, element 0, holds 1. -/
def pending : Coll :=
  { (default : Coll) with counted := true, ended := false, ctx := 1, die := 0, slot := 0, ring := some 32, seq := 4, kind := 1, op := 0, ty := 16, count := 2
                          src := tget noTok toks 0, srcOff := 0, dst := tget noTok toks 0, dstOff := 256, parts := [(0, 0x3F800000), (1, 0x40000000)]
                          timeout := 16, since := 7, owner := .slot 0 0 }
def fcoll : FmtA := { fa 16 (xs 4) (kz 0) (kz 0) (xs 20) with cl := 1, sc := 0 }
theorem test_coll_premises : ([ringed true 2 [], ringed false 2 [], ringed true 0 []] : List State).all (fun s =>
      issues (.coll fcoll) (planColl fcoll s s.cur) s) = true
    ∧ (low5 fcoll).toNat / 8 = 1 ∧ (ringOf (ringed true 2 []) 32).used = true ∧ ringHandle 32 (ringOf (ringed true 2 []) 32) = 0x20000 := by decide +kernel
/-- The id holds sequence 4; with no formed ring it ends with status 7; a count of 0 with status 4, reason 3. -/
theorem test_coll : flown (exec (.coll fcoll) (ringed true 2 [])) = [(0, .x 4, .word 0x40000, 0)]
    ∧ hasOutcome (exec (.coll fcoll) (ringed true 2 [])) (fun t => (ringOf t 32).seq = 5 && (t.outbox.map fun m => (m.kind, m.dst)) = [(7, 6)]) = true
    ∧ hasOutcome (exec (.coll fcoll) (ringed false 2 [])) (fun t => (t.colls.map fun c => (c.ended, c.status)) = [(true, 7)]) = true
    ∧ hasOutcome (exec (.coll fcoll) (ringed true 0 [])) (fun t => (t.colls.map fun c => (c.status, c.reason)) = [(4, 3)]) = true := by decide +kernel

/-- The predecessor's element for this member's chunk: 1.5. -/
def dataMsg : Msg := ⟨7, 1, 5, 6, 1, 4 * 128, leBytes 2 (collDigest pending) ++ [0, 0, 0xC0, 0x3F]⟩
def receiving (m : Msg) : State := { ringed true 2 [pending] with inbox := [m], rings := [(32, ⟨true, true, false, members, 0, 0, 5, 3, 2⟩)] }
theorem test_data_premises : (let s := receiving dataMsg
    let r := ringOf s 32
    let pls := (List.range 4).map fun i => kPlace s pending.dst (pending.dstOff + i)
    (match takeMsg s 7 with
      | some (m, s1) => decide (m = dataMsg) && decide (ringFor s1 m = some (32, r)) && decide (s1.colls.find? (fun c => !c.ended
          && decide (c.ring = some 32) && decide (c.seq = bits m.arg 7 16)) = some pending)
      | none => false) = true
    ∧ 32768 ≤ (bits dataMsg.arg 7 16 + 65536 - r.seq) % 65536 ∧ predOf r = (6, 1) ∧ ringLen r = 2 ∧ partLen 2 2 0 = 1 ∧ bits dataMsg.arg 23 11 = 0
    ∧ dataMsg.data.length = 2 + 4 * 1 ∧ collOverlap s pending = false ∧ pls.all (openPlace s) = true ∧ pls.Nodup) := by decide +kernel
/-- 1.5 + 1 = 2.5. -/
theorem test_data : hasOutcome (exec .collectiveData (receiving dataMsg)) (fun t => rdNear t 65856 4 = 0x40200000 && (t.colls.map fun c => (c.ended, c.status)) = [(true, 1)]) = true
    ∧ (takeMsg fx 7).isNone = true := by decide +kernel
def abortMsg : Msg := { dataMsg with kind := 8, data := [] }
theorem test_abort_premises : (match takeMsg (receiving abortMsg) 8 with
      | some (m, s1) => decide (m = abortMsg) && decide (ringFor s1 m = some (32, ringOf (receiving abortMsg) 32))
          && (s1.colls.find? (fun c => !c.ended && decide (c.ring = some 32) && decide (c.seq = bits m.arg 7 16))).isSome
      | none => false) = true ∧ (takeMsg fx 8).isNone = true := by decide +kernel
theorem test_abort : hasOutcome (exec .abort (receiving abortMsg)) (fun t => (ringOf t 32).broken && (t.colls.map fun c => (c.status, c.dev)) = [(2, 6)]) = true := by
  decide +kernel
/-- Silence of 16 * 1024 clocks from 7 on. -/
theorem test_timeout : (∀ n ∈ [16390, 16391], ({ ringed true 2 [pending] with clock := n } : State).colls[0]? = some pending)
    ∧ hasOutcome (exec (.collectiveTimeout 0) { ringed true 2 [pending] with clock := 16391 }) (fun t => (t.colls.map fun c => (c.status, c.dev)) = [(3, 6)]) = true
    ∧ hasOutcome (exec (.collectiveTimeout 0) { ringed true 2 [pending] with clock := 16390 }) (fun t => t.colls = [pending]) = true := by decide +kernel

def idw (d : SpecBits) : FmtA := fa 31 d (xs 24) no no
def endedColl : Coll := { pending with ended := true, counted := false, status := 4, reason := 1, dev := 5, flags := fNX, step := 1 }
theorem test_ends_premises : ([ringed true 2 [endedColl], ringed true 2 []] : List State).all (fun s =>
      issues (.cwait (idw (xs 4))) (planCwait (idw (xs 4)) s s.cur) s) = true
    ∧ ([ringed true 2 [endedColl], ringed true 2 [pending], ringed true 2 []] : List State).all (fun s =>
      issues (.cabort (idw no)) (planNone noTk (illCabort (idw no)) (readsA (idw no)) s s.cur) s) = true
    ∧ collOfId (ringed true 2 [endedColl]) fx.cur 0x40000 = some endedColl ∧ collOfId (ringed true 2 []) fx.cur 0x40000 = none
    ∧ collOfId (ringed true 2 [pending]) fx.cur 0x40000 = some pending := by decide +kernel
/-- DEV 5, step 1, SEQ 4, NX, reason 1, status 4. -/
theorem test_ends : flown (exec (.cwait (idw (xs 4))) (ringed true 2 [endedColl])) = [(0, .x 4, .word 0x5000100041014, fNX ||| fST)]
    ∧ flown (exec (.cwait (idw (xs 4))) (ringed true 2 [])) = [(0, .x 4, .word 0, 0)]
    ∧ hasOutcome (exec (.cabort (idw no)) (ringed true 2 [pending])) (fun t => (t.colls.map (·.status)) = [5] && (ringOf t 32).broken) = true := by decide +kernel

/-- The member list stands at 0 of k0. x20: n, x21: the epoch or the handle. -/
def ringing (n : Nat) (v : Word) (w : Wait) : State :=
  { fxw (fun t => { t with x := [(20, BitVec.ofNat 64 n), (21, v)], wait := w, ctimeo := 16 }) with
    identity := 5, near := [(65600, 5), (65602, 1), (65604, 6), (65606, 1)], rings := [(33, ⟨true, true, false, members, 0, 0, 4, 3, 2⟩)] }
def fring : FmtA := fa 31 (xs 4) (kz 0) (xs 3) (xs 20)
theorem test_ringf_premises : ([ringing 0 0x20001 .none, ringing 1 0 .none, ringing 1025 0 .none, ringing 2 7 .none] : List State).all (fun s =>
      (taskOf s s.cur).wait = .none && issues (.ringf fring) (planRingf fring s s.cur) s) = true
    ∧ namedRing (ringing 0 0x20001 .none) fx.cur 0x20001 = some 33
    ∧ (let s := ringing 2 7 .none
       let u := acting (planRingf fring s s.cur) s
       let k := rdTok u u.cur (kz 0)
       ringCount fring u u.cur = 2 ∧ (access u k 0 8 false).flag = 0 ∧ allCame u u.cur k 0 8 = true ∧ objPoison u (kSlot k) (kBase k + 0) 8 = none
        ∧ ringListOk fring u u.cur = true ∧ freeRing u u.cur = some 32 ∧ s.hellos = []
        ∧ ((planRingf fring s s.cur).reads.all fun r => !rdPending s s.cur r) = true) := by decide +kernel
theorem test_ringf : flown (exec (.ringf fring) (ringing 1 0 .none)) = [(0, .x 4, .word 0x8000000000000001, 0)]
    ∧ hasOutcome (exec (.ringf fring) (ringing 0 0x20001 .none)) (fun t => t.rings.isEmpty) = true
    ∧ hasOutcome (exec (.ringf fring) (ringing 2 7 .none)) (fun t => (ringOf t 32).members = members && (t.outbox.map fun m => (m.kind, m.dst)) = [(9, 6)]) = true := by
  decide +kernel
/-- Waiting for the two neighbours of a ring of three. -/
def waitRing (l r : Option Bool) : Wait := .ring fring 32 3 0 (7, 1) (6, 1) 0x1234 7 l r 5 16
theorem test_ring_formed : (∀ b ∈ [true, false], (taskOf (ringing 3 7 (waitRing (some true) (some b))) fx.cur).wait = waitRing (some true) (some b)
      ∧ (taskOf (ringing 3 7 (waitRing (some true) (some b))) fx.cur).step = false)
    ∧ flown (exec (.ringf fring) (ringing 3 7 (waitRing (some true) (some false)))) = [(0, .x 4, .word 0x8000000000000005, 0)]
    ∧ hasOutcome (exec (.ringf fring) { ringing 3 7 (waitRing (some true) (some true)) with rings := [(32, ⟨true, false, false, [(5, 1), (6, 1), (7, 1)], 0, 7, 0, 0, 0⟩)] })
        (fun t => (ringOf t 32).formed && flown (.next t) = [(0, .x 4, .word 0x30700, 0)]) = true := by decide +kernel
def hello (d : Nat) : Msg := ⟨9, 1, 5, 7, 1, 0, leBytes 4 d ++ [33]⟩
def helloed (d : Nat) : State := { ringing 3 7 (waitRing none none) with inbox := [hello d], clock := 100 }
theorem test_hello_premises : (match takeMsg (helloed 0x1234) 9 with | some (m, _) => decide (m = hello 0x1234) | none => false) = true
    ∧ (helloed 0x1234).tasks.find? (fun e => lacks (hello 0x1234) e.2.wait && sameDigest (hello 0x1234) e.2.wait)
        = some (0, taskOf (helloed 0x1234) fx.cur) ∧ tget Task.fresh (helloed 0x1234).tasks 0 = taskOf (helloed 0x1234) fx.cur
    ∧ (∀ e ∈ fx.tasks, lacks (hello 0) e.2.wait = false) ∧ (takeMsg fx 9).isNone = true
    ∧ ({ fx with hellos := [⟨hello 0, 0⟩] } : State).hellos[0]? = some ⟨hello 0, 0⟩ := by decide +kernel
theorem test_hello : hasOutcome (exec .ringHello (helloed 0x1234)) (fun t => (ringOf t 32).predSlot = 33
      && (taskOf t t.cur).wait = .ring fring 32 3 0 (7, 1) (6, 1) 0x1234 7 (some true) none 100 16) = true := by decide +kernel
/-- Hellos are awaited from 5 to 5 + 16 * 1024. -/
theorem test_ring_timeout : hasOutcome (exec (.ringFormationTimeout fx.cur) { ringing 3 7 (waitRing (some true) none) with clock := 16389 }) (fun t =>
      flown (.next t) = [(0, .x 4, .word 0x8000000000000003, 0)]) = true
    ∧ hasOutcome (exec (.ringFormationTimeout fx.cur) { ringing 3 7 (waitRing (some true) none) with clock := 16388 }) (fun t => flown (.next t) = []) = true := by
  decide +kernel


/-! ## Links and peer memory (spec 21) -/

/-- Device 6's context 3 may read, write and change slot 1 through export 2. -/
def exportV : BitVec 128 := BitVec.ofNat 128 (2 ^ 127 + 7 * 2 ^ 124 + 2 ^ 112 + 6 * 2 ^ 102 + 3 * 2 ^ 90 + 2 ^ 74 + 7 * 2 ^ 66)
def request (kind : Nat) (data : List Byte) : Msg := ⟨kind, 3, 5, 6, 1, 64 + 2 * 2 ^ 34, data⟩
def linked (l : Link) : State := { fx with identity := 5, links := [(4, l)], exports := [(2, exportV)] }
def upLink : Link := { Link.fresh with up := true, lastGood := 9, credits := 3 }

theorem test_flit_premises : (∀ m ∈ [request 1 [2], request 3 [1, 2]], 1 ≤ m.kind ∧ m.kind ≤ 9 ∧ m.sctx < 64 ∧ m.dst < 1024 ∧ m.src < 1024 ∧ m.eseq < 65536
      ∧ m.arg < 2 ^ 48) ∧ (([request 1 [2], request 3 [1, 2]].map fun m => 16 + m.data.length).sum ≤ 240) := by decide +kernel
/-- CRC-64 of ECMA-182 from 0, most significant bit first: its published check value. -/
theorem test_crc64 : crc64 ((List.range 9).map fun i => BitVec.ofNat 8 (0x31 + i)) = 0x6C40DF5F0B497347 := by decide +kernel
/-- Sequence 10, ACK 0, 2 credits, the message, and the CRC of these 248 bytes. -/
def goodFlit : BitVec 2048 :=
  BitVec.ofNat 2048 (leNat ([10, 0, 0, 0, 2, 0, 0, 0] ++ msgBytes (request 1 [2]) ++ List.replicate 215 0) + 11410456721064581752 * 2 ^ 1984)
theorem flit_bytes : leBytes 248 goodFlit.toNat = ([10, 0, 0, 0, 2, 0, 0, 0] ++ msgBytes (request 1 [2]) ++ List.replicate 6 0)
    ++ (List.replicate 31 0 ++ (List.replicate 31 0 ++ (List.replicate 31 0 ++ (List.replicate 31 0 ++ (List.replicate 31 0 ++ (List.replicate 31 0
    ++ List.replicate 31 0)))))) := by decide +kernel
theorem crc_head : ([10, 0, 0, 0, 2, 0, 0, 0] ++ msgBytes (request 1 [2]) ++ List.replicate 6 0).foldl crc64Step 0 = 7122263856753312094 := by decide +kernel
theorem crc_zeros : ([(7122263856753312094, 10672291673117154649), (10672291673117154649, 16968252781341279065), (16968252781341279065, 15972026212494487267), (15972026212494487267, 4156621521121523234), (4156621521121523234, 7708786393131826315), (7708786393131826315, 8880270594492321156), (8880270594492321156, 11410456721064581752)] : List (BitVec 64 × BitVec 64)).all (fun e => decide ((List.replicate 31 0).foldl crc64Step e.1 = e.2)) = true := by decide +kernel
theorem test_good_flit : flitGood goodFlit = true := by
  have z := crc_zeros
  simp only [List.all_cons, List.all_nil, Bool.and_true, Bool.and_eq_true, decide_eq_true_eq] at z
  have f : flitField goodFlit 1984 64 = 11410456721064581752 := by decide +kernel
  rw [flitGood, crc64, flit_bytes, f]
  simp only [List.foldl_append]
  have h := crc_head
  rw [List.foldl_append, List.foldl_append] at h
  rw [h, z.1, z.2.1, z.2.2.1, z.2.2.2.1, z.2.2.2.2.1, z.2.2.2.2.2.1, z.2.2.2.2.2.2]
  decide +kernel
theorem test_flit_fields : msgsOf (flitPayload goodFlit) = [request 1 [2]] ∧ flitField goodFlit 0 12 = 10 ∧ flitField goodFlit 32 16 = 2 := by decide +kernel
/-- One bit wrong in a flit that is all zero. -/
theorem test_bad_flit : flitField 1 1984 64 = 0 ∧ crc64 [1] ≠ 0 := by decide +kernel
theorem test_flit_received : (linkOf (linked upLink) 4).up = true ∧ flitField goodFlit 0 12 = ((linkOf (linked upLink) 4).lastGood + 1) % 4096
    ∧ (linked upLink).outbox = [] ∧ (linkOf fx 4).up = false
    ∧ seenMsg (linked upLink) (request 1 [2]) = false := by decide +kernel
theorem test_link_down : (linkOf (linked { upLink with naks := 16 }) 4).up = true
    ∧ hasOutcome (exec (.linkDown 4) (linked { upLink with naks := 16 })) (fun t => !(linkOf t 4).up && t.mgmtLog = [2 ^ 32 + 4]) = true
    ∧ hasOutcome (exec (.linkDown 4) (linked { upLink with naks := 15 })) (fun t => (linkOf t 4).up) = true := by decide +kernel
theorem test_link_trained : hasOutcome (exec (.linkTrained 4) (linked Link.fresh)) (fun t => (linkOf t 4).up
      && (t.wire.map (·.1)) = [4]) = true
    ∧ hasOutcome (exec (.linkTrained 16) fx) (fun t => t.wire.isEmpty) = true := by decide +kernel
theorem test_tables : hasOutcome (exec (.routingTableWrite 1023 5) fx) (fun t => tget 0 t.routes 1023 = 5) = true
    ∧ hasOutcome (exec (.routingTableWrite 1024 5) fx) (fun t => t.routes.isEmpty) = true
    ∧ hasOutcome (exec (.exportTableWrite 4095 5) fx) (fun t => tget 0 t.exports 4095 = 5) = true := by decide +kernel

/-- The requests arrive: 3 bytes read, 2 written, an i64 sum of 9; near byte 65600 and on. -/
def asked (m : Msg) : State := { linked upLink with inbox := [m] }
def atomMsg : Msg := request 5 (leBytes 1 (AtomOp.add.code) ++ leBytes 1 4 ++ leBytes 8 9 ++ leBytes 6 0)
def takes (s : State) (kind : Nat) (m : Msg) : Bool := match takeMsg s kind with | some (x, _) => decide (x = m) | none => false
theorem test_serve_premises : takes (asked (request 1 [3])) 1 (request 1 [3]) = true ∧ takes (asked (request 3 [1, 2])) 3 (request 3 [1, 2]) = true
    ∧ takes (asked atomMsg) 5 atomMsg = true ∧ exportStatus (asked (request 1 [3])) (request 1 [3]) 2 3 = 0
    ∧ exportStatus (asked (request 3 [1, 2])) (request 3 [1, 2]) 1 2 = 0 ∧ exportStatus (asked atomMsg) atomMsg 0 8 = 0
    ∧ exportStatus (asked { request 1 [3] with sctx := 4 }) { request 1 [3] with sctx := 4 } 2 3 = 1 := by decide +kernel
theorem test_serve_places : (let s := asked atomMsg
    (objPlaces s 1 64 8).all (openPlace s) = true ∧ (objPlaces s 1 64 8).Nodup) ∧ bits (request 3 [1, 2]).arg 46 2 = 0
    ∧ (takeMsg fx 1).isNone = true ∧ (takeMsg fx 3).isNone = true ∧ (takeMsg fx 5).isNone = true := by decide +kernel
/-- 0x01FF80 + 9 = 0x01FF89. -/
theorem test_serve : hasOutcome (exec .read (asked (request 1 [3]))) (fun t => (t.outbox.map fun m => ([m.kind, m.dst, m.arg], m.data)) = [([2, 6, 1], [0x80, 0xFF, 1])]) = true
    ∧ hasOutcome (exec .write (asked (request 3 [1, 2]))) (fun t => rdNear t 65600 3 = 0x010201 && (t.outbox.map (·.kind)) = [4]) = true
    ∧ hasOutcome (exec .atomic (asked atomMsg)) (fun t => rdNear t 65600 3 = 0x01FF89
        && (t.outbox.map fun m => ([m.kind, m.arg], m.data)) = [([6, 1], [0x80, 0xFF, 1, 0, 0, 0, 0, 0])]) = true := by decide +kernel

/-- Request 3 of the window, to device 6 with sequence 9, through slot 1. -/
def peerReq (kind : Nat) : PeerReq := ⟨3, ⟨kind, 1, 6, 5, 9, 64, []⟩, .slot 0 0, 1, [⟨0, 0, 0, 4, 0⟩], 0, 4, 0, 0, 0, false⟩
def answer (kind st : Nat) : Msg := ⟨kind, 1, 5, 6, 1, 9 + 65536 * st, [0x78, 0x56, 0x34, 0x12]⟩
def awaited : Flight := { mkFlight 0 true (.x 4) (.word 0) 0 false [] with need := [3] }
def awaiting (kind st : Nat) (fs : List Flight) (ss : List Store) : State :=
  { fxw (fun t => { t with flights := fs, stores := ss }) with identity := 5, inbox := [answer kind st], peers := [peerReq (kind - 1)] }
def ackStore : Store := ⟨[], .bytes, 0, [], [1], [3], true, 0, 0⟩
theorem test_answer_premises : ([awaiting 2 0 [awaited] [], awaiting 6 0 [awaited] [], awaiting 4 5 [] [ackStore]].zip [2, 6, 4]).all (fun x =>
      (match takeMsg x.1 x.2 with
        | some (m, _) => x.1.peers.find? (fun q => decide (q.msg.dst = m.src) && decide (q.msg.eseq = bits m.arg 0 16) && decide (q.msg.kind + 1 = m.kind))
            = some (peerReq (x.2 - 1)) && decide (bits m.arg 16 8 ≤ 5)
        | none => false)) = true
    ∧ awaited.need = [(peerReq 1).id] ∧ awaited.val = .word 0 ∧ (taskOf (awaiting 2 0 [awaited] []) fx.cur).asyncs = []
    ∧ ackStore.need = [(peerReq 3).id] ∧ ackStore.act = .bytes
    ∧ ({ awaiting 2 0 [] [] with peers := [] } : State).peers = [] ∧ (takeMsg fx 2).isNone = true ∧ (takeMsg fx 4).isNone = true ∧ (takeMsg fx 6).isNone = true := by
  decide +kernel
theorem test_answers : hasOutcome (exec .readReply (awaiting 2 0 [awaited] [])) (fun t => ((taskOf t fx.cur).flights.map fun g => (g.val, g.need)) = [(.word 0x12345678, [])]
      && t.peers.isEmpty) = true
    ∧ hasOutcome (exec .writeAck (awaiting 4 5 [] [ackStore])) (fun t => ((taskOf t fx.cur).stores.map fun e => (e.flags, e.need)) = [(fSX, [])]) = true
    ∧ hasOutcome (exec .atomicReply (awaiting 6 0 [awaited] [])) (fun t => ((taskOf t fx.cur).flights.map fun g => (g.val, g.need)) = [(.word 0x12345678, [])]) = true := by
  decide +kernel
/-- A route that is up keeps a request for 2^24 clocks. -/
def routed (c : Nat) : State := { awaiting 2 0 [awaited] [] with links := [(4, upLink)], routes := [(6, 16)], clock := c }
theorem test_peer_timeout : (∀ c ∈ [2 ^ 24, 2 ^ 24 - 1], (routed c).peers[0]? = some (peerReq 1)) ∧ (routeOf (routed 0) 6).isSome = true
    ∧ routeOf (awaiting 2 0 [awaited] []) 6 = none ∧ (peerReq 1).msg.dst ≠ (awaiting 2 0 [awaited] []).identity
    ∧ hasOutcome (exec (.peerRequestTimeout 0) (routed (2 ^ 24))) (fun t => t.peers.isEmpty) = true
    ∧ hasOutcome (exec (.peerRequestTimeout 0) (routed (2 ^ 24 - 1))) (fun t => t.peers.length = 1) = true := by decide +kernel


/-! ## The memory package (spec 19) -/

def spared (l : List Nat) : State := mapDie fx 0 fun d => { d with spare := l }
theorem test_lone_swap_premises : swapPage fx 2 11 = true ∧ (wordOf fx 11).space = .far ∧ freePair fx 0 = some 0
    ∧ spareRun (spared [5]) 0 1 false = some 5 ∧ swapPage (spared [5]) 2 11 = true ∧ freePair (spared [5]) 0 = some 0 := by decide +kernel
theorem test_swap_exchange_premises : swapPage fx 1 10 = true ∧ (wordOf fx 10).space = .near ∧ (slotOf fx 1).ctx = (slotOf fx 2).ctx
    ∧ frameDie (wordOf fx 10).frameA = 0 ∧ spareRun fx 0 1 false = none ∧ swapPage fx 3 12 = false := by decide +kernel
theorem test_swap_opens : hasOutcome (exec (.swapPairOpen 0 2 0 none) (spared [5])) (fun t => (wordOf t 11).frameB = 5 && (wordOf t 11).swap = 2
      && (slotOf t 2).inflt = 1 && (dieOf t 0).spare.isEmpty) = true
    ∧ hasOutcome (exec (.swapPairOpen 0 2 0 (some (1, 0))) fx) (fun t => (wordOf t 11).frameB = 1 && (wordOf t 10).frameB = 2 && (wordOf t 10).swap = 1) = true := by
  decide +kernel
/-- Far frame 2 (131,072) and near frame 5 or 1; the lines of `m` have moved. -/
def swapping (lone : Bool) (m : BitVec 512) (dead : Bool) : State :=
  { mapDie fx 0 (fun d => { d with pairs := [(0, ⟨if lone then [(2, 11)] else [(2, 11), (1, 10)], lone, 1, 0, m, dead, false, if lone then 5 else 0⟩)] }) with
    far := [(131072 + 128, 7)], near := [(65664, 9)]
    slots := [(1, { page .near 10 with inflt := if lone then 0 else 1 }), (2, { page .far 11 with inflt := 1 })]
    words := [(10, { frame .near 1 with swap := if lone then 0 else 1, frameB := if lone then 0 else 2, pair := if lone then none else some (0, 0) }),
      (11, { frame .far 2 with swap := if lone then 2 else 1, frameB := if lone then 5 else 1, pair := some (0, 0) })] }
theorem test_swap_line_premises : (∀ b ∈ [true, false], let s := swapping b 1 false
      let p := pairAt s 0 0
      p.words ≠ [] ∧ p.words.head? = some (2, 11) ∧ nextLine p = some 1 ∧ p.abandoned = false ∧ lineA s 11 p 1 = ⟨.far, 131200⟩
        ∧ lineB s 11 p 1 = ⟨.near, if b then 327808 else 65664⟩)
    ∧ (pairAt (swapping true 1 true) 0 0).abandoned = true ∧ (pairAt fx 0 0).words = [] := by decide +kernel
theorem test_swap_line : hasOutcome (exec (.swapLineMove 0 0) (swapping true 1 false)) (fun t => rdByte t ⟨.near, 327808⟩ = 7 && (pairAt t 0 0).moved = 3) = true
    ∧ hasOutcome (exec (.swapLineMove 0 0) (swapping false 1 false)) (fun t => rdByte t ⟨.near, 65664⟩ = 7 && rdByte t ⟨.far, 131200⟩ = 9) = true := by decide +kernel
theorem test_swap_ends_premises : (let p := pairAt (swapping true (BitVec.allOnes 512) false) 0 0
    p.words = [(2, 11)] ∧ p.abandoned = false ∧ p.moved = BitVec.allOnes 512 ∧ p.units ≤ p.cursor + 1) ∧ (pairAt (swapping true 1 false) 0 0).moved ≠ BitVec.allOnes 512 := by
  decide +kernel
theorem test_swap_completes : hasOutcome (exec (.swapPairComplete 0 0) (swapping true (BitVec.allOnes 512) false)) (fun t => (wordOf t 11).space = .near
    && (wordOf t 11).frameA = 5 && (wordOf t 11).swap = 0 && (slotOf t 2).inflt = 0) = true := by decide +kernel

/-- `tierpf` of k1, a far page, to the barrier at 256 of k4. -/
def tierw (a : SpecBits) : FmtA := fa 31 (xs 24) a (kz 4) (xs 20)
theorem test_tierpf_premises : ([(kz 1, synced), (kz 3, synced), (kz 1, mapTask synced fx.cur fun t => { t with x := [(20, 8)] })] : List (SpecBits × State)).all (fun e =>
      (taskOf e.2 e.2.cur).wait = .none && issues (.tierpf (tierw e.1)) (planTierpf (tierw e.1) e.2 e.2.cur) e.2) = true
    ∧ (let s := mapTask synced fx.cur fun t => { t with x := [(20, 8)] }
       let u := acting (planTierpf (tierw (kz 1)) s s.cur) s
       (tierBar (tierw (kz 1)) u u.cur).flag ≠ 0)
    ∧ (let u := acting (planTierpf (tierw (kz 3)) synced synced.cur) synced
       (tierBar (tierw (kz 3)) u u.cur).flag = 0 ∧ (tierChk (rdTok u u.cur (kz 3)) u).flag ≠ 0
        ∧ objPoison u (barPlace (tierw (kz 3)) u u.cur).1 (barPlace (tierw (kz 3)) u u.cur).2 16 = none) := by decide +kernel
theorem test_tierpf_queues_premises : (let f := tierw (kz 1)
    let u := acting (planTierpf f synced synced.cur) synced
    let k := rdTok u u.cur (kz 1)
    (tierBar f u u.cur).flag = 0 ∧ (tierChk k u).flag = 0 ∧ tierUnits k = 1 ∧ (dieOf synced 0).tier = []
      ∧ ((planTierpf f synced synced.cur).reads.all fun r => !rdPending synced synced.cur r) = true
      ∧ swapPage synced 2 ((slotOf synced 2).first + kBase k / 65536 * 65536 / psBytes (slotOf synced 2).ps) = true) := by decide +kernel
/-- One request of the 4,096 bytes of k1; its offset 0 lies in unit 0. -/
theorem test_tierpf : hasOutcome (exec (.tierpf (tierw (kz 1))) synced) (fun t => ((dieOf t 0).tier.map fun q => [q.slot, q.word, q.bytes, q.barSlot, q.barOff]) = [[2, 11, 4096, 3, 256]]
      && flown (.next t) = [(0, .x 24, .word 1, 0)]) = true
    ∧ flown (exec (.tierpf (tierw (kz 3))) synced) = [(0, .x 24, .word 0, fST)] := by decide +kernel
/-- A request of clock 5 waits 2^20 clocks. -/
def tiered (c : Nat) (p : Option (Nat × Nat)) : State := { mapDie synced 0 (fun d => { d with tier := [⟨1, 2, 11, 64, 3, 256, 5, p⟩] }) with clock := c }
theorem test_tier_timeout : (dieOf (tiered 0 none) 0).tier[0]? = some ⟨1, 2, 11, 64, 3, 256, 5, none⟩
    ∧ hasOutcome (exec (.tierpfRequestTimeout 0 0) (tiered (5 + 2 ^ 20) none)) (fun t => (dieOf t 0).tier.isEmpty) = true
    ∧ hasOutcome (exec (.tierpfRequestTimeout 0 0) (tiered (4 + 2 ^ 20) none)) (fun t => (dieOf t 0).tier.length = 1) = true
    ∧ hasOutcome (exec (.tierpfRequestTimeout 0 0) (tiered (5 + 2 ^ 20) (some (0, 0)))) (fun t => (dieOf t 0).tier.length = 1) = true := by decide +kernel

/-- Near frame 1 lies in pseudo-channel 1, which is retiring. -/
def retiring (ws : Table PinWord) : State := { spared [5] with pcStat := [(1, 2 ^ 62)], words := ws }
theorem test_channel_retire_premises : (tget 0 (retiring fx.words).pcStat 1).getLsbD 62 = true
    ∧ (retiring fx.words).words.find? (fun w => wordIn (retiring fx.words) 1 w.2 && decide (w.2.swap = 0)) = some (10, frame .near 1) ∧ wordOf (retiring fx.words) 10 = frame .near 1
    ∧ freePair (retiring fx.words) (frameDie 1) = some 0 ∧ spareRun (retiring fx.words) 0 1 (gangAt (retiring fx.words) 65536) = some 5
    ∧ slotOfWord (retiring fx.words) 10 = some 1 ∧ (tget 0 fx.pcStat 1).getLsbD 62 = false ∧ (∀ x ∈ (retiring []).words, wordIn (retiring []) 1 x.2 = false)
    ∧ (∃ x ∈ (retiring fx.words).words, wordIn (retiring fx.words) 1 x.2 = true) := by decide +kernel
theorem test_channel_retire : hasOutcome (exec (.channelRetireStart 1) (retiring fx.words)) (fun t => (wordOf t 10).frameB = 5 && (pairAt t 0 0).retire) = true
    ∧ hasOutcome (exec (.channelRetired 1) (retiring [])) (fun t => tget 0 t.pcStat 1 = 2 ^ 63) = true := by decide +kernel
theorem test_controller_words : hasOutcome (exec (.pcStatusWrite 1151 (2 ^ 62 + 9)) fx) (fun t => tget 0 t.pcStat 1151 = 2 ^ 62) = true
    ∧ hasOutcome (exec (.erasureListWrite 3 0x85) fx) (fun t => tget 0 t.erasure 3 = 0x85) = true
    ∧ hasOutcome (exec (.pseudoChannelNarrow 7 2) fx) (fun t => tget 0 t.pcStat 7 = 2 ^ 60 + 2 ^ 59) = true
    ∧ hasOutcome (exec (.modeTableWrite 9 true) fx) (fun t => tget false t.gang 4) = true
    ∧ hasOutcome (exec (.modeTableWrite 1 true) fx) (fun t => t.gang.isEmpty) = true := by decide +kernel
theorem test_heat : hasOutcome (exec (.hbmTempReport 0 95) fx) (fun t => (tget 0 t.pcStat 95).getLsbD 60 && !(tget 0 t.pcStat 96).getLsbD 60
      && tget 480 t.budgets 0 = 480) = true
    ∧ hasOutcome (exec (.hbmTempReport 0 105) fx) (fun t => tget 480 t.budgets 7 = 240 && tget 480 t.budgets 8 = 480) = true ∧ fx.hot = [] := by decide +kernel
theorem test_spare_frames : nearOk (65536 * 7) = true ∧ frameDie 7 = 0
    ∧ hasOutcome (exec (.spareFramePoolFill 0 [7, 1]) (spared [5])) (fun t => (dieOf t 0).spare = [5, 7]) = true := by decide +kernel


/-! ## Management, the host, contexts, debugging, trust (spec 13, 16, 20) -/

/-- The budgets are 32 * 480 = 15,360 W; with 9,000 W in reserve a cap of 24,360 W fits, one of 24,359 W does not. -/
theorem test_power_words : budgetSum fx = 15360 ∧ fx.reserve = 9000
    ∧ hasOutcome (exec (.capWordWrite 24360 9000) fx) (fun t => t.cap = 24360 && t.mgmtLog.isEmpty) = true
    ∧ hasOutcome (exec (.capWordWrite 24359 9000) fx) (fun t => t.cap = 26000 && t.mgmtLog.length = 1) = true
    ∧ hasOutcome (exec (.budgetWordWrite 31 2120) fx) (fun t => tget 480 t.budgets 31 = 2120) = true
    ∧ hasOutcome (exec (.budgetWordWrite 31 2121) fx) (fun t => tget 480 t.budgets 31 = 480 && t.mgmtLog.length = 1) = true := by decide +kernel
theorem test_token_pages : hasOutcome (exec (.tokenPageRegister 1 65536 (2 ^ 26)) fx) (fun t => (ctxOf t 1).userPages = 2 ^ 26) = true
    ∧ hasOutcome (exec (.tokenPageRegister 1 65536 (2 ^ 26 + 1)) fx) (fun t => (ctxOf t 1).userPages = 0) = true := by decide +kernel
theorem test_host : ([⟨.near, 65600⟩, ⟨.near, 65601⟩] : List Place).any (placePoison fx) = false
    ∧ hasOutcome (exec (.hostCxlMemAccess 65600 2 none) fx) (fun t => t.hostReads = [([0x80, 0xFF], false)]) = true
    ∧ hasOutcome (exec (.hostCxlMemAccess 65600 2 (some [1, 2])) { fx with sealRuns := [(.near, 65601, 1)] }) (fun t => rdNear t 65600 2 = 0xFF01) = true
    ∧ hasOutcome (exec (.hostLineChange 64 [3]) fx) (fun t => rdByte t ⟨.host, 64⟩ = 3) = true := by decide +kernel

def params2 : CtxParams := { (default : CtxParams) with ctx := 2, die := 1, saveBase := 0x50000, saveLen := 65536, bufTok := (tget noTok toks 0).bits, bufOff := 16 }
theorem test_create_premises : params2.ctx < 64 ∧ params2.die < 4 ∧ (ctxOf fx 2).live = false ∧ fx.bringup = 0xFF ∧ nearOk 0x50000 = true
    ∧ (match makeSlot fx (.stream 1 2) 2 .near 0 0x50000 65536 0xC ((List.range 1).map fun i => (0x50000 + 65536 * i, true, 0, 0, 0x50000 + 65536 * i, 0)) with
        | .done _ _ => true | _ => false) = true ∧ (ctxOf fx 1).live = true := by decide +kernel
theorem test_create : hasOutcome (exec (.contextCreate params2) fx) (fun t => (ctxOf t 2).live && (taskOf t (.stream 1 2)).status = .run
    && (taskOf t (.stream 1 2)).pc = 2) = true := by decide +kernel
theorem test_teardown : hasOutcome (exec (.contextTeardown 1) fx) (fun t => decide (ctxOf t 1 = Ctx.fresh) && (taskOf t (.slot 0 0)).status = .idle
      && (slotOf t 1).state = .sweeping) = true
    ∧ (ctxOf fx 3).live = false := by decide +kernel
theorem test_core_fault : (coreOf (clustered id) 0).dead = false ∧ (taskOf (clustered id) (.slot 0 0)).status ≠ .idle
    ∧ (taskOf (clustered id) (.slot 0 0)).launch = some (0, 0)
    ∧ hasOutcome (exec (.coreFault 0) (clustered id)) (fun t => (coreOf t 0).dead && (taskOf t (.slot 0 0)).status = .idle) = true := by decide +kernel

/-- Core 0 of context 1 on die 0, with one task that has nothing outstanding. -/
def bound1 : State := { fx with cores := [(0, { staged 0 with mem := [(5, 6)], residents := [(9, 0, 512)] })] }
theorem test_cut_premises : ctxCores bound1 0 1 = [0] ∧ (ctxOf bound1 1).live = true ∧ (ctxOf bound1 1).off.contains 0 = false
    ∧ cutReady (beginCut bound1 1 [0]) [0] = true ∧ (ctxOf bound1 2).live = false := by decide +kernel
theorem test_cut : hasOutcome (exec (.contextSwitchCut 0 1) bound1) (fun t => (coreOf t 0).bound = none && (coreOf t 0).mem.isEmpty && (ctxOf t 1).off = [0]
    && (t.shelf.map fun x => (x.1, x.2.1, x.2.2.pc)) = [(1, 0, 3)] && (taskOf t (.slot 0 0)).status = .idle) = true := by decide +kernel
/-- The same context, cut, comes back to core 7. -/
def cutOff : State := after (exec (.contextSwitchCut 0 1) bound1)
theorem test_restore_premises : (ctxOf cutOff 1).off.contains 0 = true ∧ moveOk cutOff 0 1 [(0, 7)] = true ∧ moveOk cutOff 0 1 [] = false
    ∧ ((cutOff.coreShelf.filter fun x => decide (x.1 = 1) && decide (x.2.1 / 128 = 0)).map (·.2.1)) = [0]
    ∧ ((cutOff.shelf.filter fun x => decide (x.1 = 1) && decide (x.2.1 % 4096 / 512 = 0)).map (·.2.1)) = [0] := by decide +kernel
theorem test_restore : hasOutcome (exec (.contextRestore 0 1 [(0, 7)]) cutOff) (fun t => (coreOf t 7).bound = some (0, 0) && (coreOf t 7).mem = [(5, 6)]
    && (taskOf t (.slot 7 0)).status = .run && (taskOf t (.slot 7 0)).pc = 3 && (taskOf t (.slot 7 0)).x = regs && t.coreShelf.isEmpty) = true := by decide +kernel

/-- The window held at a breakpoint, its launch set to stop. -/
def stopping : State :=
  mapLaunch { fxw (fun t => { t with status := .held, trap := mkTrap cDBG 0 }) with cores := [(0, staged 0), (1, staged 0)] } 0 0 fun e =>
    { e with dbg := { e.dbg with stop := true } }
theorem test_stop_premises : (launchTasks stopping 0 0).find? (fun p => decide ((taskOf stopping p).status = .held)) = some (.slot 0 0)
    ∧ (launchOf stopping 0 0).stopHeld = false ∧ (launchOf stopping 0 0).dbg.stop = true ∧ (launchTasks fx 0 0 = []) := by decide +kernel
theorem test_stop : hasOutcome (exec (.debugStop 0 0) stopping) (fun t => (coreOf t 1).stopped && (dieOf t 0).frames.length = 1 && (launchOf t 0 0).stopHeld) = true := by
  decide +kernel

/-- A Gallery with 32,768 bytes to spill into the first half of slot 1's page, near bytes 65,536 and on. -/
def spillTok : KReg := mkTok 1 7 0 15 32768 0
def galleried (k : KReg) (n : Nat) : State :=
  mapLaunch { fx with cores := [(0, { staged 0 with gal := List.replicate n 3 })] } 0 0 fun e => { e with dbg := { e.dbg with gspill := k } }
theorem gallery_length (k : KReg) (n : Nat) : (coreOf (galleried k n) 0).gal.length = n := by
  show (List.replicate n (3 : Byte)).length = n
  exact List.length_replicate
theorem test_gallery_premises : galFrozen (coreOf (galleried spillTok 32768) 0) = false ∧ (coreOf (galleried spillTok 32768) 0).galLost = false
    ∧ galSpillAt (galleried spillTok 32768) 0 = some (spillTok, 0) ∧ galSpillAt (galleried noTok 32768) 0 = none := by decide +kernel
theorem gallery_place (n : Nat) (h : n < 65536) : kPlace (galleried spillTok 32768) spillTok n = ⟨.near, 65536 + n⟩ := by
  have h0 : kBase spillTok = 0 := by decide +kernel
  have h1 : kSlot spillTok = 1 := by decide +kernel
  have h2 : slotOf (galleried spillTok 32768) 1 = page .near 10 := by decide +kernel
  have h3 : wordOf (galleried spillTok 32768) 10 = frame .near 1 := by decide +kernel
  have h4 : n / 65536 = 0 := by omega
  have h5 : n % 65536 = n := by omega
  rw [kPlace, h0, h1, pinLookup, h2, show (page .near 10).first = 10 from rfl, show psBytes (page .near 10).ps = 65536 from rfl, Nat.zero_add,
    h4, h5, Nat.add_zero, h3]
  rfl
theorem test_gallery_places : ((List.range 32768).map fun i => kPlace (galleried spillTok 32768) spillTok (0 + i)).Nodup
    ∧ ((List.range 32768).map fun i => kPlace (galleried spillTok 32768) spillTok (0 + i)).all (openPlace (galleried spillTok 32768)) = true := by
  have e : ((List.range 32768).map fun i => kPlace (galleried spillTok 32768) spillTok (0 + i)) = (List.range 32768).map fun i => (⟨.near, 65536 + i⟩ : Place) :=
    List.map_congr_left fun i hi => by rw [Nat.zero_add, gallery_place i (by have := List.mem_range.mp hi; omega)]
  have inj : ∀ a b : Nat, a ≠ b → (⟨.near, 65536 + a⟩ : Place) ≠ ⟨.near, 65536 + b⟩ := fun a b h q => by
    have := congrArg Place.addr q
    simp only at this
    omega
  rw [e]
  refine ⟨List.pairwise_map.mpr (List.nodup_range.imp fun h => inj _ _ h), List.all_eq_true.mpr fun pl h => ?_⟩
  obtain ⟨i, -, rfl⟩ := List.mem_map.mp h
  clear h
  have h1 : (galleried spillTok 32768).sealRuns = [] := by decide +kernel
  have h2 : (galleried spillTok 32768).nearPoison = [] := by decide +kernel
  have h3 : (galleried spillTok 32768).nearErr = [] := by decide +kernel
  have h4 : (galleried spillTok 32768).slices = [] := by decide +kernel
  have h5 : (galleried spillTok 32768).lostFrames = [] := by decide +kernel
  have h6 : (galleried spillTok 32768).gang = [] := by decide +kernel
  simp [openPlace, sealedPlace, atomDrops, atomsOf, homeBad, atomLost, atomPoison, atomHalves, gangAt, codewordBad, atomErr, correctable, tget, h1, h2, h3, h4, h5, h6]

/-- A frame of the supervised task waits for the ring, the 256 places of k0's page, whose place 0 holds a frame not yet returned. -/
def ringing0 : State :=
  mapDie fx 0 fun d => { d with
    ringTok := mkTok 1 7 0 15 16384 0
    frames := [⟨.slot 0 1, 0, some (0, 0), 1, 0, 1, mkTrap cPF 1, 3, some 0⟩, ⟨.slot 0 0, 0, some (0, 0), 1, 0, 0, { mkTrap cPF 1 with va := 0x1234 }, 24, none⟩] }
theorem test_frame_premises : (let e := dieOf ringing0 0
    let pls := (List.range 64).map fun j => kPlace ringing0 e.ringTok (64 * 1 + j)
    indexWhere (fun f : Frame => f.written.isNone) e.frames = some 1 ∧ ringPlace e = some 1 ∧ (access ringing0 e.ringTok 64 64 true).flag = 0
      ∧ pls.all (openPlace ringing0) = true ∧ pls.Nodup) ∧ (∀ f ∈ (dieOf fx 0).frames, f.written ≠ none) := by decide +kernel
theorem test_frame : hasOutcome (exec (.supervisorFrameWrite 0) ringing0) (fun t => rdNear t 65600 1 = 1 && rdNear t 65616 8 = 0x1234 && (dieOf t 0).ringNext = 2) = true := by
  decide +kernel

theorem test_power : ({ fx with powered := false } : State).powered = false ∧ fx.powered = true
    ∧ hasOutcome (exec .powerLoss fx) (fun t => !t.powered && t.near.isEmpty && t.bringup = 0) = true := by decide +kernel
def fw : FwImage := ⟨1, 9, 0xABC, 0⟩
theorem test_measured : (let s := { fx with trust := { fx.trust with running := [fw], log := [(3, 5)] } }
    s.trust.running.find? (fun i => decide (i.part = 1)) = some fw ∧ s.trust.running.find? (fun i => decide (i.part = 4)) = none
      ∧ (s.trust.log.any fun e => decide (e.1 = 3)) = true ∧ measurement s 1 = 0xABC) := by decide +kernel
/-- Sessions are a function's own; that of the physical function sets up IDE, and function 65 is none. -/
theorem test_session : hasOutcome (exec (.keyExchange 1 7) fx) (fun t => t.trust.sessions = [(1, 1)]) = true
    ∧ hasOutcome (exec (.finish 64) { fx with trust := { fx.trust with sessions := [(64, 1)] } }) (fun t => t.trust.sessions = [(64, 2)] && t.trust.ide) = true
    ∧ hasOutcome (exec (.keyExchange 65 7) fx) (fun t => decide (t = fx)) = true := by decide +kernel


/-! ## Turns and canonical memory -/

/-- A visit of slot 0 of core 0, whose word 3, near byte 65560, is `addi x1, 10 -> x2`. -/
def visited : State := { fx with near := bytesAt 65560 8 0x080024440000000A, sched := [⟨3, .visit (.slot 0 0)⟩], cur := .super 0 }
theorem test_visit_premises : (let s0 := { visited with sched := [], clock := visited.clock + 3, cur := .slot 0 0, moved := false }
    visited.powered = true ∧ partyOk (.slot 0 0) = true ∧ (taskOf s0 (.slot 0 0)).status = .run ∧ rowDue s0 (.slot 0 0) = none
      ∧ launchStopped s0 (.slot 0 0) = false ∧ lateData (taskOf s0 (.slot 0 0)) = false ∧ fetchWord s0 (.slot 0 0) = some 0x080024440000000A)
    ∧ decodeWord 0x080024440000000A = .ok (.addi ⟨noTk, false, 0x12, 0x11, 10⟩) := by decide +kernel
/-- The turn issues it: x1 + 10 = 7 is in flight to x2, and 3 clocks have passed. -/
theorem test_visit : hasOutcome (step visited) (fun t => flown (.next t) = [(0, .x 2, .word 7, 0)] && t.clock = 3 && (taskOf t (.slot 0 0)).pc = 4) = true := by
  decide +kernel
/-- A visit whose word freezes: nothing moves. -/
theorem test_visit_freezes : hasOutcome (step { visited with near := bytesAt 65560 8 ((encodeWord (.nop { fa 31 no no no no with tk := ⟨true, false, false, false⟩ })).getD 0).toNat })
    (fun t => (taskOf t (.slot 0 0)).pc = 3 && !t.moved) = true := by decide +kernel
def engineTurn : State := { acting0 .copy (.copy rec0) strm id with sched := [⟨1, .visit (.engine 0 .copy)⟩] }
theorem test_engine_visit_premises : (let s0 := { engineTurn with sched := [], clock := engineTurn.clock + 1, cur := .engine 0 .copy, moved := false }
    engineTurn.powered = true ∧ (theStream s0 0 .copy).held = none ∧ (finishing s0 0 .copy).isNone = true
      ∧ isRun s0 (theRun .copy (.copy rec0)) (.copy rec0) = true ∧ (coreOf s0 0).ate = []
      ∧ ((theRun .copy (.copy rec0)).prog.asked = true → (theRun .copy (.copy rec0)).prog.waits = [])) := by decide +kernel
theorem test_event_turn : eventOk (.bankRefresh 0 3) = true ∧ Instr.isEvent (.bankRefresh 0 3) = true
    ∧ hasOutcome (step { fx with sched := [⟨0, .event (.bankRefresh 0 3)⟩] }) (fun t => (coreOf t 0).refresh = some 3) = true
    ∧ hasOutcome (step { fx with sched := [⟨0, .event (.bankRefresh 0 3)⟩], powered := false }) (fun t => (coreOf t 0).refresh = none) = true := by decide +kernel
theorem test_memory : fx.memWf = true ∧ ({ fx with near := [(5, 0)] } : State).memWf = false ∧ ({ fx with near := [(5, 1), (4, 1)] } : State).memWf = false
    ∧ hasOutcome (step visited) (fun t => t.memWf) = true := by decide +kernel
/-- A Porter stream one level deep with both its loops, and CP. -/
theorem test_stream_csr : (let s := deep .none
    issues (.csrr (fi (xs 4) no 0x20)) (planCsrr (fi (xs 4) no 0x20) s s.cur) s = true
      ∧ flown (exec (.csrr (fi (xs 4) no 0x20)) s) = [(0, .x 4, .word 29, 0)]) := by decide +kernel
/-- The machine right after reset fetches and runs the instruction that it is given. -/
theorem test_fetch_word : hasOutcome (step (State.reset.withFetchWord 64 0x080024440000000A)) (fun t => flown (.next t) = [(0, .x 2, .word 10, 0)]) = true := by
  decide +kernel

/-! ## Further premises of the statements on turns, transfers, loops and CSRs -/

theorem test_turn_premises : (let s1 := turnTime { visited with sched := [] } ⟨3, .visit (.slot 0 0)⟩
    let s0 := atTurn (turnOver s1 (.slot 0 0)) (.slot 0 0)
    inTurn s1 (.slot 0 0) = true ∧ fetchHeld s0 (.slot 0 0) = false ∧ rowDue s0 (.slot 0 0) = none
      ∧ hasOutcome (exec (.addi (fi (xs 2) (xs 1) 10)) (landDue (bufferWord s0 (.slot 0 0) 0x080024440000000A) (.slot 0 0))) (·.moved) = true) := by
  decide +kernel
/-- The frozen `nop`: the results due stay in flight. -/
theorem test_turn_freezes : (let f := { fa 31 no no no no with tk := ⟨true, false, false, false⟩ }
    let s := { visited with near := bytesAt 65560 8 ((encodeWord (.nop f)).getD 0).toNat }
    let s0 := atTurn (turnOver (turnTime { s with sched := [] } ⟨3, .visit (.slot 0 0)⟩) (.slot 0 0)) (.slot 0 0)
    fetchWord s0 (.slot 0 0) = encodeWord (.nop f)
      ∧ hasOutcome (exec (.nop f) (landDue s0 (.slot 0 0))) (fun r => !r.moved && hasOutcome (exec (.nop f) s0) fun q => !q.moved) = true) := by decide +kernel
/-- It is slot 1's turn: slot 0 waits for its own, and slot 1, which is idle, hands the turn to slot 2. -/
theorem test_rotation : (let s := { mapCore visited 0 fun k => { k with rot := 1 } with sched := [⟨3, .visit (.slot 0 0)⟩] }
    (coreOf s 0).rot = 1 ∧ hasOutcome (step s) (fun t => (coreOf t 0).rot = 1 && (taskOf t (.slot 0 0)).pc = 3) = true
      ∧ (taskOf s (.slot 0 1)).status = .idle
      ∧ hasOutcome (step { s with sched := [⟨0, .visit (.slot 0 1)⟩] }) (fun t => (coreOf t 0).rot = 2) = true) := by decide +kernel
theorem test_engine_turn_premises : (let s0 := atTurn (turnTime { engineTurn with sched := [] } ⟨1, .visit (.engine 0 .copy)⟩) (.engine 0 .copy)
    handoffDue s0 0 .copy = false ∧ (theStream s0 0 .copy).held = none ∧ (finishing s0 0 .copy).isNone = true
      ∧ isRun s0 (theRun .copy (.copy rec0)) (.copy rec0) = true) := by decide +kernel
/-- The pushes of a core's own word wait behind no store. -/
theorem test_held_tick_store : storeBefore (taskOf (fxw fun t => { t with sigq := [(4, .copy, true)] }) (.slot 0 0)).stores 4 = false := by decide +kernel

/-! ### CSRs -/

def csrDue : Flight := mkFlight 0 false (.csr 1) (.word 0x30) 0 false []
def sumDue : Flight := mkFlight 0 false (.x 5) (.word 42) fOF false []
theorem test_csr_lands_first : (let s := fxw fun t => { t with flights := [sumDue, csrDue], flags := 1 }
    (taskOf s s.cur).flights.filter (fun g => decide (g.rem = 0)) = [sumDue, csrDue]
      ∧ hasOutcome (exec (.resultWrite s.cur) s) (fun t => (taskOf t t.cur).flags = 0x30 ||| fOF && tget 0 (taskOf t t.cur).x 5 = 42) = true) := by
  decide +kernel
/-- SEED 0 stores 1. -/
theorem test_csr_lands : (let f := { mkFlight 0 false (.csr 2) (.word 3) 0 false [] with word := 2 }
    let s := fxw fun t => { t with flights := [f] }
    (taskOf s s.cur).flights.filter (fun g => decide (g.rem = 0)) = [f]
      ∧ hasOutcome (exec (.resultWrite s.cur) s) (fun t => (taskOf t t.cur).fmode = 0x100000003) = true) := by decide +kernel
/-- `fmode` from x2 = 7 (RM 7) and from x6 = 64 (bit 6 reserved); `lc0` of an active loop. -/
theorem test_csr_refused : (let f := fi no (xs 2) 2
    (Instr.csrw f).wf = true ∧ refreshHit fx fx.cur (readsI f) = false ∧ bpHit fx fx.cur = none
      ∧ 6 ≤ (rdScal fx fx.cur f.a).toNat % 8 ∧ (rdScal fx fx.cur (xs 6)).extractLsb' 3 29 ≠ 0)
    ∧ (∃ l ∈ (taskOf (here (looping 1) 3) fx.cur).loops, csrNo (fi no (xs 2) 3) = 3 + l.level ∧ l.level < 3)
    ∧ hasOutcome (exec (.csrw (fi no (xs 2) 2)) fx) (fun t => (tget Task.fresh t.saved 0).trap.detail = 5) = true := by decide +kernel

/-! ### Transfers and loops -/

theorem test_porter_transfers : (let f := fb no no 2
    let g := fa 31 no (xs 9) no no
    issues (.call f) (planCall f (deep .none) porter.cur) (deep .none) = true
      ∧ issues (.jmpr g) (planJmpr g (deep .none) porter.cur) (deep .none) = true ∧ issues (.ret g) (planJmpr g (deep .none) porter.cur) (deep .none) = true
      ∧ isPorter (deep .none).cur = true
      ∧ hasOutcome (exec (.call f) (deep .none)) (fun t => (taskOf t t.cur).fetched.isEmpty) = true) := by decide +kernel
/-- In a loop `call`, `jmpr` and `ret` are ILL 5. -/
theorem test_transfers_refused_in_loops : (let s := here (looping 1) 3
    let g := fa 31 no (xs 9) no no
    (taskOf s s.cur).loops ≠ [] ∧ bpHit s s.cur = none ∧ isPorter s.cur = false ∧ (Instr.call (fb no no 2)).wf = true ∧ (Instr.jmpr g).wf = true
      ∧ (Instr.ret g).wf = true ∧ refreshHit s s.cur (readsA g) = false
      ∧ hasOutcome (exec (.ret g) s) (fun t => (tget Task.fresh t.saved 0).trap.detail = 5) = true) := by decide +kernel
/-- A loop of no iterations gives back the leave that it was granted. -/
theorem test_loop_gives_leave_back : (let s := fxw fun t => { t with leaveGot := true }
    issues (.loop .l0 ⟨noTk, xs 3, 1, 0, 9⟩) (planLoop .l0 ⟨noTk, xs 3, 1, 0, 9⟩ s s.cur) s = true
      ∧ (rdScal s s.cur (xs 3)).toNat = 0 ∧ (rdScal s s.cur (xs 0)).toNat ≠ 0
      ∧ hasOutcome (exec (.loop .l0 ⟨noTk, xs 3, 1, 0, 9⟩) s) (fun t => !(taskOf t t.cur).leaveGot) = true) := by decide +kernel
theorem test_pipelined_exit : (let s := mapTask (looping 2) fx.cur fun t => { t with exits := true, spred := 3 }
    (taskOf s s.cur).exits = true ∧ innerLoop (taskOf s s.cur) = some ⟨0, 2, 4, 2, 7, 0, false, 0⟩ ∧ (taskOf s s.cur).loopEvent = none
      ∧ (taskOf s s.cur).step = false ∧ launchStopped s s.cur = false
      ∧ hasOutcome (exec (.loopExit s.cur) s) (fun t => (taskOf t t.cur).loops.isEmpty && (taskOf t t.cur).spred = 1) = true) := by decide +kernel
/-- No operation is late; and one is, whose register another word wrote meanwhile. -/
theorem test_late_results : (let left := fun l : Late => decide (l.exch ≠ false ∨ 1 ≤ l.seq + 0)
    let s := fxw fun t => { t with late := [⟨false, 0, [(.x 7, true)]⟩], asyncNo := 1 }
    let f := fa 31 no no no no
    (taskOf fx fx.cur).late.all left = true ∧ (taskOf s s.cur).late.all left = false
      ∧ issues (.waita f) (planWaita f s s.cur) s = true
      ∧ hasOutcome (exec (.waita f) s) (fun t => (taskOf t t.cur).late.isEmpty && (taskOf t t.cur).pc = 4) = true)
    ∧ (∀ l ∈ [(⟨false, 0, [(.x 7, true)]⟩ : Late)], (Dest.x 5, true) ∉ l.dests) := by decide +kernel
theorem test_supervised_premises : isSuper (Party.slot 0 0) = false ∧ isSuper fx.cur = false ∧ isSuper handled.cur = false := by decide +kernel

/-! ## Further premises: reductions, series, barriers, translation, revocation -/

/-- Every element of v9 is -128 in i8: negated, as read, 128; their least, 128, wraps to -128 with OF (R25, R79, R100). -/
theorem test_reduction_of_modified : (let s := fxw fun t => { t with v := [(9, ⟨BitVec.ofNat 4096 ((2 ^ 4096 - 1) / 255 * 128), 1⟩)] }
    let f := { fa 1 (xs 20) (vs 9) no no with ma := 1 }
    issues (.vredMin f) (planRed (sigVredMM f) f s s.cur) s = true ∧ flown (exec (.vredMin f) s) = out 8 0xFFFFFFFFFFFFFF80 fOF) := by decide +kernel
/-- A series of kind 1 has no `xeval`: IV, and zeros where every lane is false; a RADIUS that is a NaN gives 0 with IV. -/
theorem test_series_breaches : (let f := { fa 17 (vs 3) (qs 0) (xs 12) no with p := 1, z := true }
    issues (.xeval f) (planEval 6 f series fx.cur) series = true ∧ kindOf (rdSer series fx.cur (qs 0)) = 1
      ∧ flown (exec (.xeval f) series) = [(7, .v 3, .vec ⟨0, 17⟩, fIV)])
    ∧ (let s := mapTask series fx.cur fun t => { t with q := [(0, ser 1 ||| 0x7FF8000000000000#4352 <<< 4224), (1, ser 1)] }
       let f := fa 17 (xs 20) (qs 0) (qs 1) (os 1)
       issues (.xadm f) (planXadm f s s.cur) s = true ∧ (f64 (sRadius (rdSer s s.cur (qs 0)))).isNan = true ∧ flown (exec (.xadm f) s) = out 4 0 fIV) := by
  decide +kernel
theorem test_shift_of_wrong_kind : (let f := fa 17 (qs 4) (qs 1) no no
    issues (.xm2l f) (planX2 f series fx.cur) series = true ∧ kindOf (rdSer series fx.cur (qs 1)) = 2 ∧ sP (rdSer series fx.cur (qs 1)) ≤ 32) := by decide +kernel

theorem test_barrier_premises : (let u := acting (planBarwait (bar (xs 24) 0x79) synced fx.cur) synced
    (objPlaces u 3 (barAt (bar (xs 24) 0x79) u u.cur) 16).all (cleanPlace u) = true)
    ∧ (taskOf synced synced.cur).flights.length < 24 ∧ isPorter synced.cur = false
    ∧ (let u := acting (planSuspend (sus 4) suspending suspending.cur) suspending
       (objPlaces u 3 256 16).all (cleanPlace u) = true) := by decide +kernel
/-- An addition of no arrivals leaves the phase (R351, R361). -/
theorem test_no_arrivals : hasOutcome (exec (.bararr (bar (xs 24) 0x78)) synced) (fun t => objVal t 3 256 16 = 2) = true := by decide +kernel
/-- A plain end: no step, no signal, no held event. -/
theorem test_plain_ends : plainEnd (taskOf (semed 1 (.sem 7)) fx.cur) ∧ plainEnd (taskOf paged fx.cur) := by unfold plainEnd; decide +kernel

theorem test_translation_clear : refusedIn (inWait (.xlat tx false 0 64)) fx.cur 0 64 = false ∧ refusedIn paged fx.cur 65536 64 = false
    ∧ (taskOf (inWait (.xlat tx false 65536 64)) (.slot 0 0)).inHandler = false ∧ (taskOf paged fx.cur).flights = [] ∧ accessesDone (taskOf paged fx.cur) = true
    ∧ movingWord paged .near (0x300000 / 65536) 1 false = none := by decide +kernel
/-- The word and its walk: k5 is a token of the extent, for a near page and for the slice of core 0. -/
theorem test_translation_in_two : hasOutcome (exec (.xlatTrap tx) paged) (fun t1 => hasOutcome (exec (.xlatComplete fx.cur) t1) fun t =>
      flown (.next t) = [(0, .k 5, .tok (mkTok 0 0 0 15 64 0), 0)] && (taskOf t t.cur).pc = 4) = true
    ∧ hasOutcome (exec (.xlatWait { tx with b := 0x79 }) paged) (fun t1 => hasOutcome (exec (.xlatComplete fx.cur) t1) fun t =>
      flown (.next t) = [(0, .k 5, .tok (mkTok 0 0 0 15 1 0), 0)]) = true
    ∧ hasOutcome (exec (.xlatTrap { tx with a := xs 22 }) paged) (fun t1 => hasOutcome (exec (.xlatComplete fx.cur) t1) fun t =>
      flown (.next t) = [(0, .k 5, .tok (mkTok 0 0 2 15 64 0), 0)]) = true := by decide +kernel
/-- A list of one entry at offset 0 of k4, for 64 bytes of the slice of core 0, DONE or not. -/
def listed (done : Byte) : State :=
  mapCore paged 0 fun k => { k with mem := msetBytes k.mem 0 ([0, 0, 0, 0xE0, 0xFF, 0xFF, 0xFF, 0xFF, 64, 0, 0, 0, 0, 15, done] : List Byte) }
def txl : FmtA := { fa 31 (xs 24) (kz 4) 0x78 0x79 with sc := 1 }
theorem test_list_premises : ([1, 0] : List Byte).all (fun d => let s := listed d
    issues (.xlatlTrap txl) (planXlatl false txl s s.cur) s && issues (.xlatlWait txl) (planXlatl true txl s s.cur) s
      && decide ((listChk txl (acting (planXlatl false txl s s.cur) s) s.cur).flag = 0) && decide (listWatch s s.cur (tget noTok toks 4) 0 1 = none)
      && listField s (tget noTok toks 4) 0 14 1 = d.toNat && listField s (tget noTok toks 4) 0 0 8 = 0xFFFFFFFFE0000000
      && quietObj s s.cur 3 0 32 && (wordOf s 12).used && (slotOf s 3).state = .live) = true := by decide +kernel
theorem test_list_in_two : hasOutcome (exec (.xlatlWait txl) (listed 1)) (fun t1 => hasOutcome (exec (.xlatComplete fx.cur) t1) fun t =>
      flown (.next t) = [(0, .x 24, .word 1, 0)]) = true
    ∧ hasOutcome (exec (.xlatlTrap txl) (listed 0)) (fun t1 => hasOutcome (exec (.xlatComplete fx.cur) t1) fun t =>
      flown (.next t) = [(0, .x 24, .word 1, 0)] && rdTag t ⟨.hall, 16⟩ && rdByte t ⟨.hall, 14⟩ = 1) = true := by decide +kernel
theorem test_seal_in_two : hasOutcome (exec (.seal (sl 6)) (sealing [])) (fun t1 => hasOutcome (exec (.sealInForce fx.cur) t1) fun t =>
    t.sealRuns = [(.near, 65664, 128)] && flown (.next t) = out 1 0 0) = true := by decide +kernel

/-! ## Further premises: engines, launches, the Porter, the memory package, contexts -/

/-- A stream that halted with SEMOVF: `ewait` traps. -/
theorem test_ewait_semovf : (let f := fa 31 (xs 20) 0x79 0x78 no
    let s := withRec .copy (.copy rec0) { strm with state := .semovf, sid := 7, sceil := 2, sval := 2 }
    issues (.ewait f) (planEwait f s s.cur) s = true ∧ (theStream s 0 .copy).state = .semovf
      ∧ hasOutcome (exec (.ewait f) s) (fun t => (tget Task.fresh t.saved 0).trap.cause = cSEMOVF) = true) := by decide +kernel
/-- A multicast to a core with a sealed byte at its place: that byte stays. -/
theorem test_mcast_sealed : (let s := { placing [3] with sealRuns := [(.hall, 2 * 2 ^ 20 + 512, 1)] }
    (mcastPlaces 2 512 512).any (sealedPlace s) = true ∧ (mcastPlaces 2 512 512).any (sealedPlace (placing [3])) = false
      ∧ hasOutcome (exec (.mcastPlace 0) s) (fun t => rdByte t ⟨.hall, 2 * 2 ^ 20 + 512⟩ = 0 && rdByte t ⟨.hall, 2 * 2 ^ 20 + 513⟩ = 3) = true) := by decide +kernel

/-- LAUNCH 3, the image, which passed R45, kept as checked. -/
theorem test_launch_traps : (let s := recorded (recordBytes - 2 ^ 16)
    let u := acting (planLaunch lw s porter.cur) s
    (match checkRecord u u.cur (rdTok u u.cur (kz 0)) (opB lw u).toNat 1 with | .inl (n, im) => n = 3 && im.isSome | .inr _ => false) = true
      ∧ hasOutcome (exec (.launch lw) s) (fun t => (taskOf t t.cur).status = .supervised && (taskOf t t.cur).trap.cause = cLAUNCH
          && (taskOf t t.cur).trap.detail = 3 && t.images.length = 1) = true) := by decide +kernel
/-- A landing at an offset past k0's extent, 8; one whose EXT0 is 3, 7. -/
theorem test_frload_traps : (let s := mapTask (landed 1) super.cur fun t => { t with x := [(1, 0), (2, 65536)] }
    let u := acting (planFrload frw s s.cur) s
    issues (.frload frw) (planFrload frw s s.cur) s = true ∧ handleIn u (opA frw u) [.saved] = some (0, 0)
      ∧ (match landingOf u u.cur (launchOf u 0 0) (rdTok u u.cur (kz 0)) 65536 with | .inl n => n = 8 | .inr _ => false) = true)
    ∧ (let s := { landed 1 with near := bytesAt 66624 96 (2 ^ 32 + 2 ^ 16 + 1 + 3 * 2 ^ 128) }
       let u := acting (planFrload frw s s.cur) s
       (match landingOf u u.cur (launchOf u 0 0) (rdTok u u.cur (kz 0)) 1024 with | .inl n => n = 7 | .inr _ => false) = true) := by decide +kernel
theorem test_bind_slots : slotsInWay queued (launchOf queued 0 0).ctx [0, 1] = [] := by decide +kernel
/-- No task has sent or is sending: it may be killed at its budget; once it has sent, not. -/
theorem test_restartable : restartableTask (here (leavingTask (.checkpointWithin 4)) 4) fx.cur = true
    ∧ (let s := mapTask (here (leavingTask (.checkpointWithin 4)) 4) fx.cur fun t => { t with qsent := true }
       restartableTask s fx.cur = false
        ∧ hasOutcome (exec (.preemptBudgetExpiry fx.cur) s) (fun t => (taskOf t fx.cur).status = .run) = true) := by decide +kernel

/-- A stream in a hardware loop that it opened in its buffer before the call. -/
def deepLoop : State := mapTask (deep .none) porter.cur fun t => { t with loops := [⟨0, 2, 4, 1, 7, 0, false, 0⟩], lc := [(0, 3)] }
theorem test_retb_loops : hereLoop (taskOf (deep .none) porter.cur) = none ∧ hereLoop (taskOf deepLoop porter.cur) = none
    ∧ issues (.retb (fa 31 no no no no)) (planRetb (fa 31 no no no no) deepLoop porter.cur) deepLoop = true
    ∧ hasOutcome (exec (.retb (fa 31 no no no no)) deepLoop) (fun t => (taskOf t t.cur).loops.length = 1 && (taskOf t t.cur).pc = 2) = true := by decide +kernel
/-- The buffer of `buffered` lies on this device. -/
theorem test_fetch_near (o : Nat) : (kPlace buffered (taskOf buffered buffered.cur).buf o).space ≠ .peer := by
  have h1 : kSlot (taskOf buffered buffered.cur).buf = 1 := by decide +kernel
  have h2 : slotOf buffered 1 = page .near 10 := by decide +kernel
  have hw : ∀ n, wordOf buffered n = frame .near 1 ∨ wordOf buffered n = frame .far 2 ∨ wordOf buffered n = frame .hall 0
      ∨ wordOf buffered n = PinWord.fresh := fun n => by
    simp only [wordOf, show buffered.words = [(10, frame .near 1), (11, frame .far 2), (12, frame .hall 0)] from rfl, tget]
    repeat' split
    all_goals simp
  rw [kPlace, h1, pinLookup, h2]
  rcases hw ((page .near 10).first + (kBase (taskOf buffered buffered.cur).buf + o) / psBytes (page .near 10).ps) with h | h | h | h <;> rw [h] <;> simp [frame, page, PinWord.fresh]

/-- Near frame 1 is named by word 10 alone. -/
theorem test_retire_sharing : wordsSharing (retiring fx.words) 1 1 = [(10, frame .near 1)] ∧ psBytes (frame .near 1).ps / 65536 = 1
    ∧ (frame .near 1).frameA = 1 ∧ (frame .near 1).swap = 0 := by decide +kernel
/-- The supervisor of die 1 is loaded. -/
def superParams : CtxParams := { params2 with ctx := 0xFFF, ringTok := (tget noTok toks 1).bits, entry := 9 }
theorem test_supervisor_load : superParams.ctx = 0xFFF ∧ superParams.die < 4
    ∧ hasOutcome (exec (.contextCreate superParams) fx) (fun t => (taskOf t (.super 1)).status = .run && (taskOf t (.super 1)).pc = 2
        && (dieOf t 1).superEntry = 9) = true := by decide +kernel
/-- A store still posted keeps the cut from its end: the task stands, cut, at its word. -/
theorem test_cut_waits : (let s := mapTask bound1 fx.cur fun t => { t with stores := [emptyStore 0 []] }
    cutReady (beginCut s 1 [0]) [0] = false ∧ cuttable (taskOf s fx.cur).wait = true
      ∧ hasOutcome (exec (.contextSwitchCut 0 1) s) (fun t => (taskOf t (.slot 0 0)).status = .cut && (ctxOf t 1).off.isEmpty) = true) := by decide +kernel
/-- Of a context that is torn down, nothing keeps an owner's number. -/
theorem test_teardown_owners : hasOutcome (exec (.contextTeardown 1) bound1) (fun t => (coreOf t 0).owner != 1 && t.revokeQ.isEmpty) = true := by decide +kernel


/-! ## Results and lists at a peer, gang pairs, frames that are lost, hot stacks -/

/-- Frame 1 stands for a page of export 2 of device 6. -/
def peerFrame : PinWord := frame .peer (6 * 2 ^ 30 + 2 * 2 ^ 18)
/-- The chunk of `test_data` goes to device 6, and the collective ends as that is acknowledged. -/
theorem test_coll_peer : hasOutcome (exec .collectiveData { receiving dataMsg with words := [(10, peerFrame)] }) (fun t =>
      (t.outbox.map fun m => (m.kind, m.dst, m.data)) = [(3, 6, [0, 0, 0x20, 0x40])] && (t.colls.map fun c => (c.ended, c.need)) = [(false, [0])]) = true := by decide +kernel
def acked : State := { ringed true 2 [{ pending with need := [3] }] with inbox := [answer 4 0], peers := [peerReq 3] }
theorem test_coll_ack_premises : (match takeMsg acked 4 with
      | some (m, _) => decide (bits m.arg 16 8 = 0) && decide (acked.peers.find? (fun q => decide (q.msg.dst = m.src)
          && decide (q.msg.eseq = bits m.arg 0 16) && decide (q.msg.kind + 1 = m.kind)) = some (peerReq 3))
      | none => false) = true
    ∧ acked.colls.find? (fun c => c.need.contains (peerReq 3).id) = some { pending with need := [3] } := by decide +kernel
theorem test_coll_ack : hasOutcome (exec .writeAck acked) (fun t => (t.colls.map fun c => (c.ended, c.status, c.need)) = [(true, 1, [])]) = true
    ∧ hasOutcome (exec (.collectiveTimeout 0) { acked with clock := 16391 }) (fun t => (t.colls.map (·.ended)) = [false]) = true := by decide +kernel

/-- The list of `test_ringf` at device 6: asked for, then read. -/
def peerRing (b : Table (Option Byte)) : State :=
  mapTask { ringing 2 7 .none with words := [(10, peerFrame)] } fx.cur fun t => { t with k := [(0, mkTok 1 7 3 15 4096 0)], peerBuf := b }
def listBuf : Table (Option Byte) :=
  ([5, 0, 1, 0, 6, 0, 1, 0] : List Byte).zipIdx.map fun e => (6 * 2 ^ 46 + 2 * 2 ^ 34 + e.2, some e.1)
theorem test_ringf_peer : hasOutcome (exec (.ringf fring) (peerRing [])) (fun t => (t.outbox.map fun m => (m.kind, m.dst, m.data)) = [(1, 6, [8])]
      && (taskOf t t.cur).peerAsk = [0] && (taskOf t t.cur).wait = .none) = true
    ∧ hasOutcome (exec (.ringf fring) (peerRing listBuf)) (fun t => (ringOf t 32).members = members && (taskOf t t.cur).wait != .none
      && (taskOf t t.cur).peerBuf.isEmpty) = true
    ∧ flown (exec (.ringf fring) (peerRing (listBuf.map fun e => (e.1, none)))) = [(0, .x 4, .word 0x8000000000000001, 0)]
    ∧ flown (exec (.ringf fring) (mapTask (peerRing (listBuf.map fun e => (e.1, none))) fx.cur fun t => { t with peerFlags := fXB }))
      = [(0, .x 4, .word 0x8000000000000002, fXB)] := by decide +kernel

/-- Frames 0 and 1 are a gang pair: both lie in pseudo-channels 0 and 1, and move whole to the gang pair 4, 5. -/
def ganged : State := { spared [4, 5] with pcStat := [(0, 2 ^ 62)], gang := [(0, true), (2, true)] }
theorem test_gang_retires : hasOutcome (exec (.channelRetireStart 0) ganged) (fun t => (wordOf t 10).frameB = 5 && (pairAt t 0 0).units = 2
      && lineA t 10 (pairAt t 0 0) 0 = ⟨.near, 0⟩ && lineB t 10 (pairAt t 0 0) 0 = ⟨.near, 262144⟩) = true
    ∧ hasOutcome (exec (.channelRetireStart 0) { ganged with gang := [(0, true)] }) (fun t => (wordOf t 10).swap = 0) = true
    ∧ hasOutcome (exec (.modeTableWrite 4 true) (swapping true 0 false)) (fun t => t.gang.isEmpty) = true := by decide +kernel
/-- A write of a whole atom of a lost frame does not bring it back. -/
theorem test_lost_frame : (let s := { fx with lostFrames := [(false, 1)] }
    placePoison s ⟨.near, 65600⟩ = true ∧ placePoison s ⟨.near, 131072⟩ = false
      ∧ placePoison (wrPlaces s fx.cur 1 64 ((List.range 32).map fun i => (⟨.near, 65600 + i⟩, 0, 0xFF))) ⟨.near, 65600⟩ = true) := by decide +kernel
/-- Stack 1 of the die is still hot. -/
theorem test_two_hot : (let s := { fx with hotStacks := [0, 1], hot := [(7, 480)], budgets := [(7, 240)] }
    hasOutcome (exec (.hbmTempReport 0 95) s) (fun t => tget 480 t.budgets 7 = 240 && t.hotStacks = [1])
      && hasOutcome (exec (.hbmTempReport 1 95) { s with hotStacks := [1] }) (fun t => tget 480 t.budgets 7 = 480)) = true := by decide +kernel

/-! ## Premises of the widened statements: turns, traps, control, token memory -/

/-- `t1` is the entry of a register copied long ago once the due sum has landed; it then reads bank 1, which is in refresh. -/
def refreshed : State :=
  { mapCore (mapTask visited (.slot 0 0) fun t => { t with t := [⟨5, .lasting 17⟩], flights := [mkFlight 0 true (.x 5) (.word 42) 0 false []] }) 0
      (fun k => { k with refresh := some 1 }) with near := bytesAt 65560 8 ((encodeWord (.addi (fi (xs 2) 0x01 10))).getD 0).toNat }
theorem test_turn_refreshed : (let s0 := atTurn (turnOver (turnTime { refreshed with sched := [] } ⟨3, .visit (.slot 0 0)⟩) (.slot 0 0)) (.slot 0 0)
    let b := bufferWord s0 (.slot 0 0) ((encodeWord (.addi (fi (xs 2) 0x01 10))).getD 0)
    (refreshing b (.slot 0 0)).isSome = true
      ∧ hasOutcome (exec (.addi (fi (xs 2) 0x01 10)) (landDue b (.slot 0 0))) (fun r => !r.moved && (refreshing r (.slot 0 0)).isNone) = true) := by
  decide +kernel

/-- The least detail that applies; without power to `krevoke`, a broken read, an expired and a mistyped operand, a watched load: each a legal word. -/
theorem test_least_detail : lowest (Instr.add (fa 4 (xs 1) (vs 2) (xs 3) no)).breaches = some 3 := by decide +kernel
def revoking0 : FmtA := fa 31 (xs 20) (xs 10) no no
theorem test_order_privilege : (Instr.krevoke revoking0).wf = true ∧ (taskOf fx fx.cur).wait = .none ∧ isSuper fx.cur = false
    ∧ Judged (.krevoke revoking0) (planKrevoke revoking0 fx fx.cur) fx ∧ ticksReady fx fx.cur revoking0.tk = true
    ∧ (planKrevoke revoking0 fx fx.cur).ready = true ∧ (planKrevoke revoking0 fx fx.cur).go = true ∧ (planKrevoke revoking0 fx fx.cur).priv = true := by
  unfold Judged; decide +kernel
def sumImm (a : SpecBits) (s : State) : Plan := planImm (illAddi (fi (xs 2) a 1)) (fi (xs 2) a 1) s s.cur
/-- Past ILL, with its ticks there and its wait over. -/
def JudgedNow (i : Instr) (pl : Plan) (s : State) : Prop :=
  Judged i pl s ∧ ticksReady s s.cur pl.tk = true ∧ pl.ready = true ∧ pl.go = true ∧ pl.priv = false
def broken : State := fxw fun t => { t with rfErr := [0x11] }
theorem test_order_broken_read : JudgedNow (.addi (fi (xs 2) (xs 1) 1)) (sumImm (xs 1) broken) broken
    ∧ (sumImm (xs 1) broken).reads.any (rdBroken (taskOf broken broken.cur)) = true := by unfold JudgedNow Judged; decide +kernel
def stale : State := fxw fun t => { t with t := [⟨1, .expired⟩] }
theorem test_order_expired : JudgedNow (.addi (fi (xs 2) 0x00 1)) (sumImm 0x00 stale) stale
    ∧ (sumImm 0x00 stale).reads.any (rdBroken (taskOf stale stale.cur)) = false
    ∧ expField (taskOf stale stale.cur) (sumImm 0x00 stale).reads = some 1 := by unfold JudgedNow Judged; decide +kernel
theorem test_order_mistyped : (let f := fa 16 (vs 0) (vs 2) (vs 1) no
    let pl := planVec (faultsA (sigVec2 f) f) f (readsV f f.ty f.ty f.ty) 1 (latIF f.ty) expired expired.cur
    JudgedNow (.vadd f) pl expired ∧ pl.reads.any (rdBroken (taskOf expired expired.cur)) = false
      ∧ expField (taskOf expired expired.cur) pl.reads = none ∧ fmtField (popTicks expired expired.cur pl.tk) expired.cur pl.reads = some 1) := by
  unfold JudgedNow Judged; decide +kernel
/-- Watch 9 covers the second byte of k0 for loads. -/
def watched1 : State := mapSlot fx 1 fun r => { r with watch := [(9, 65, 1, 1)] }
theorem test_order_watched : (let pl := planLd (fm 2 (xs 20) 0 (xs 3) 0) watched1 watched1.cur
    JudgedNow (.ld (fm 2 (xs 20) 0 (xs 3) 0)) pl watched1 ∧ pl.reads.any (rdBroken (taskOf watched1 watched1.cur)) = false
      ∧ expField (taskOf watched1 watched1.cur) pl.reads = none ∧ fmtField (popTicks watched1 watched1.cur pl.tk) watched1.cur pl.reads = none
      ∧ inPiped (taskOf watched1 watched1.cur) = false
      ∧ watchHit (popTicks watched1 watched1.cur pl.tk) pl.touch = some (9, 1, 65)) := by unfold JudgedNow Judged; decide +kernel

/-- A tick that is not there, and a `barwait` that only lacks its phase (`test_barwait_freezes` shows that it stays): both past ILL. -/
theorem test_freezes_premises : (let f := { fa 31 no no no no with tk := ⟨true, false, false, false⟩ }
    Judged (.nop f) (planNone f.tk (illCtl f cNone) [] fx fx.cur) fx)
    ∧ (Instr.barwait (bar (xs 24) 0x78)).wf = true
    ∧ Judged (.barwait (bar (xs 24) 0x78)) (planBarwait (bar (xs 24) 0x78) synced synced.cur) synced
    ∧ chkPending synced synced.cur = false := by unfold Judged; decide +kernel
/-- A `ringf` whose list lies at a peer lacks the bytes that it asks for. -/
theorem test_asks_premises : (let pl := planRingf fring (peerRing []) fx.cur
    Judged (.ringf fring) pl (peerRing []) ∧ ticksReady (peerRing []) fx.cur pl.tk = true ∧ pl.ready = true ∧ pl.go = false) := by
  unfold Judged; decide +kernel

/-- The header of the frame of `fx`'s task: 128 bytes of near memory, none of them poisoned; launches of argument mode 0, or with a slice bound. -/
theorem test_header_premises : (let header := (List.range 128).map (framePlace fx fx.cur)
    header.Nodup ∧ (∀ pl ∈ header, pl.space ≠ .peer) ∧ atomDrops fx header = []) ∧ (launchOf fx 0 0).argmode = 0 := by decide +kernel

/-- A `trap` in a pipelined body, its launch to stop on debug events. -/
def heldBody : State := mapLaunch (here (looping 2) 3) 0 0 fun e => { e with dbg := { e.dbg with stop := true } }
theorem test_trap_held : issues (.trap (fi no no 9)) (planNone noTk (illTrap (fi no no 9)) [] heldBody heldBody.cur) heldBody = true
    ∧ (inPiped (taskOf heldBody heldBody.cur) && (launchDebug heldBody heldBody.cur).stop && !isPorter heldBody.cur) = true
    ∧ hasOutcome (exec (.trap (fi no no 9)) heldBody) (fun t => (taskOf t t.cur).loopEvent.isSome && (taskOf t t.cur).status = .run) = true := by
  decide +kernel
/-- Action 2 ends the supervised task. -/
theorem test_supervisor_ends : (let s := mapTask supervising supervising.cur fun t => { t with x := [(1, 0), (2, 2)] }
    let f := fa 31 no (xs 1) (xs 2) no
    issues (.eret f) (planEret f s s.cur) s = true ∧ 2 ≤ (opB f (acting (planEret f s s.cur) s)).toNat
      ∧ hasOutcome (exec (.eret f) s) (fun t => decide (taskOf t (.slot 0 0) = Task.fresh)) = true) := by decide +kernel
/-- The snapshot: slot 0, no clock, no leave waits, one conflict counter: requester 0, bank 3, lost free. -/
theorem test_perfsnap_content : (let s := { fx with cores := [(0, { Core.fresh with leaveWait := [(1, 6)] })], clock := 5 }
    let f := fa 31 no no no no
    issues (.perfsnap f) (planNone noTk (noneWord cNone cNone cNone cNone f) [] s s.cur) s = true
      ∧ (coreOf s 0).gal.length ≤ 20000 ∧ galFrozen (coreOf s 0) = false) := by decide +kernel

/-! ### Failing loads and stores: k3 is stale, offset 8 is no multiple of 16, k2 has R alone and 256 bytes -/

theorem test_failing_loads : (let f := fm 6 (xs 20) 0 no 4096
      issues (.lda f) (planLda f fx fx.cur) fx = true
        ∧ (let u := acting (planLda f fx fx.cur) fx
           let e := memEl u u.cur f
           e.lane = true ∧ (access u (fmKReg u u.cur f) e.off e.size false).flag ≠ 0))
    ∧ (let f := fm 31 (kz 5) 0 no 8
       issues (.kld f) (planKld f fx fx.cur) fx = true ∧ elemOff fx fx.cur f % 16 ≠ 0)
    ∧ (let f := fm 31 (qs 1) 3 no 16
       issues (.xld f) (planXld f fx fx.cur) fx = true
        ∧ (let u := acting (planXld f fx fx.cur) fx
           (access u (fmKReg u u.cur f) (elemOff u u.cur f) 544 false).flag ≠ 0)) := by decide +kernel
theorem test_failing_vector_loads : (let f := fm 17 (vs 2) 3 no 0
      issues (.vld f) (planVld f fx fx.cur) fx = true ∧ issues (.vlda f) (planVlda f fx fx.cur) fx = true
        ∧ (let u := acting (planVld f fx fx.cur) fx
           (checkTok u (fmKReg u u.cur f) (kR (fmKReg u u.cur f))).flag ≠ 0))
    ∧ (let f := fm 17 (vs 2) 3 (vs 1) 0
       issues (.vgath f) (planVgath f gathering fx.cur) gathering = true
        ∧ (let u := acting (planVgath f gathering fx.cur) gathering
           (checkTok u (fmKReg u u.cur f) (kR (fmKReg u u.cur f))).flag ≠ 0)) := by decide +kernel
theorem test_failing_forms : flown (exec (.kld (fm 31 (kz 5) 0 no 8)) fx) = [(5, .k 5, .tok ⟨0, false⟩, fXB)]
    ∧ flown (exec (.xld (fm 31 (qs 1) 3 no 16)) fx) = [(11, .q 1, .series 0, fST)]
    ∧ hasOutcome (exec (.lda (fm 6 (xs 20) 0 no 4096)) fx) (fun t => ((taskOf t t.cur).asyncs.map fun a => (a.parts, a.flags)) = [([(.x 20, .word 0)], fXB)]) = true := by
  decide +kernel
theorem test_failing_stores : (let f := fm 31 (kz 1) 0 no 4088
      issues (.kst f) (planKst f fx fx.cur) fx = true
        ∧ (let u := acting (planKst f fx fx.cur) fx
           (access u (tokKReg u u.cur f) (elemOff u u.cur f) 16 true).flag ≠ 0))
    ∧ (let f := fm 31 (qs 1) 2 no 16
       issues (.xst f) (planXst f fx fx.cur) fx = true
        ∧ (let u := acting (planXst f fx fx.cur) fx
           (access u (tokKReg u u.cur f) (elemOff u u.cur f) 544 true).flag ≠ 0)) := by decide +kernel
/-- All 64 elements of `vst` from offset 3,600 on: the first 62 lie in k0's 4,096 bytes. Under the empty mask m1 no lane stores. -/
theorem test_failing_vector_stores : (let f := fm 17 (vs 3) 0 no 450
      issues (.vst f) (planVst f gathering fx.cur) gathering = true
        ∧ (let u := acting (planVst f gathering fx.cur) gathering
           (checkTok u (fmKReg u u.cur f) (kW (fmKReg u u.cur f))).flag = 0 ∧ (vstEls u u.cur f).any (·.lane) = true
            ∧ (passing u (fmKReg u u.cur f) true (vstEls u u.cur f)).length = 62))
    ∧ (let f := fm 17 (vs 3) 0 (vs 1) 512
       issues (.vscat f) (planVscat f gathering fx.cur) gathering = true
        ∧ (let u := acting (planVscat f gathering fx.cur) gathering
           (checkTok u (fmKReg u u.cur f) (kW (fmKReg u u.cur f))).flag = 0 ∧ (gathEls u u.cur f).any (·.lane) = true
            ∧ passing u (fmKReg u u.cur f) true (gathEls u u.cur f) = []))
    ∧ (let f := { fm 17 (vs 3) 0 no 0 with p := 1 }
       issues (.vst f) (planVst f gathering fx.cur) gathering = true
        ∧ (vstEls (acting (planVst f gathering fx.cur) gathering) gathering.cur f).any (·.lane) = false)
    ∧ (let f := fm 17 (vs 3) 2 no 0
       issues (.vst f) (planVst f gathering fx.cur) gathering = true
        ∧ (let u := acting (planVst f gathering fx.cur) gathering
           (checkTok u (fmKReg u u.cur f) (kW (fmKReg u u.cur f))).flag ≠ 0)) := by decide +kernel
/-- The store of `test_st` writes to an atom without poison. -/
theorem test_store_drops : atomDrops posted (storePlaces posted stored) = [] ∧ (storePlaces posted stored).Nodup
    ∧ sealedPlace posted ⟨.near, 65602⟩ = false := by decide +kernel

/-! ## Premises of the widened statements: vectors, series, synchronisation -/

/-- A scalar under its modifier: -1.5 in the lanes of m2. -/
theorem test_vbcast_scalar : (let f := { fa 16 (vs 3) (xs 7) no no with ma := 1, p := 2, z := true }
    issues (.vbcast f) (planVec (faultsA (sigVbcast f) f) f (readsV f (some 16) none none) 1 3 vecs vecs.cur) vecs = true
      ∧ flown (exec (.vbcast f) vecs) = vout 3 3 0xBFC00000BFC00000BFC00000BFC00000BFC00000BFC00000BFC00000BFC00000 16 0) := by decide +kernel
/-- A base of x10 = 2 negated is a base of -2. -/
theorem test_ls4_negated_base : (let two := fun f : FmtA => (flown (exec (.vcvt f) (mapTask vecs vecs.cur fun t => { t with x := (20, 0xFFFFFFFFFFFFFFFE) :: regs }))).map fun e => e.2.2.1
    two { fa 11 (vs 2) (vs 0) (xs 10) 16 with mb := 1 } = two (fa 11 (vs 2) (vs 0) (xs 20) 16)) := by decide +kernel
/-- A NaN before two infinities of opposite sign does not hide their IV. -/
theorem test_chunk_invalid : (let one := f64 0x3FF0000000000000
    let iv := fun l : List Fl => (chunkSum (l.map fun x => (x, one))).2 &&& fIV
    iv [.nan false, .inf false, .inf true] = fIV ∧ iv [.inf false, .inf true, .nan false] = fIV ∧ iv [.nan false, .inf false, .inf false] = 0) := by decide +kernel

/-! ### Series: kinds that shift, and kinds that do not -/

theorem test_shift_premises : (let row := fun (i : FmtA → Instr) (f : FmtA) (ka kd : Nat) => (issues (i f) (planX2 f series fx.cur) series
        && decide (sP (rdSer series fx.cur f.a) = 2) && decide (sP (rdSer series fx.cur f.d) ≤ 32)
        && decide (kindOf (rdSer series fx.cur f.a) ∈ [0, ka]) && decide (kindOf (rdSer series fx.cur f.d) ∈ [0, kd]))
    row .xm2m (fa 17 (qs 2) (qs 0) no no) 1 1 = true ∧ row .xm2l (fa 17 (qs 1) (qs 0) no no) 1 2 = true ∧ row .xl2l (fa 17 (qs 2) (qs 1) no no) 2 2 = true)
    ∧ issues (.xl2l (fa 17 (qs 2) (qs 0) no no)) (planX2 (fa 17 (qs 2) (qs 0) no no) series fx.cur) series = true
    ∧ kindOf (rdSer series fx.cur (qs 0)) = 1 ∧ kindOf (rdSer series fx.cur (qs 1)) = 2 ∧ sP (rdSer series fx.cur (qs 0)) = 2 := by decide +kernel
/-- At one centre a shift adds A's coefficients: 1 + 1 and 2 + 2. -/
theorem test_shift : (match (flown (exec (.xm2m (fa 17 (qs 2) (qs 0) no no)) series)) with
    | [(9, .q 2, .series q, 0)] => sCoef q 0 = ⟨0x4000000000000000, 0⟩ && sCoef q 1 = ⟨0x4010000000000000, 0⟩ && sKind q = 1
    | _ => false) = true := by decide +kernel
theorem test_xform_premises : (let f := fa 17 (qs 0) (xs 12) (xs 16) no
    kindOf (rdSer series fx.cur f.d) ≠ 2 ∧ sP (rdSer series fx.cur f.d) ≤ 32)
    ∧ (let f := fa 17 (qs 1) (xs 12) (xs 16) no
       issues (.xform f) (planXform f series fx.cur) series = true ∧ kindOf (rdSer series fx.cur f.d) = 2) := by decide +kernel
/-- THETA 0.5, centre 0, radius 1: at distance 1, 0.25 is less than 1; at distance 2, 1 is not. -/
theorem test_xadm_values : (let f := fa 17 (xs 20) (qs 0) (xs 12) (os 1)
    issues (.xadm f) (planXadm f series fx.cur) series = true ∧ flown (exec (.xadm f) series) = out 4 0 0
      ∧ flown (exec (.xadm { f with b := xs 16 }) series) = out 4 1 0) := by decide +kernel

/-! ### Semaphores, which no engine asks for; a poisoned timeline -/

theorem test_semaphore_alone : ([.copy, .matrix, .epilogue] : List Engine).all (fun e =>
    decide (nextP (semed 1 .none) 0 e ≠ some 7) && (finishing (semed 1 .none) 0 e).isNone) = true := by decide +kernel
theorem test_barwait_clean : (let u := acting (planBarwait (bar (xs 24) 0x79) synced fx.cur) synced
    (objPlaces u 3 (barAt (bar (xs 24) 0x79) u u.cur) 16).all (cleanPlace u) = true) := by decide +kernel

/-! ## Premises of the widened statements: translation, seals, streams, the frontier -/

/-- The four table entries that the walk reads hold no error. -/
theorem test_walk_clean : (walkPage paged (ctxNo paged fx.cur) 0 (pkBits tx)).seen.all (fun a =>
      (List.range 8).all fun i => cleanPlace paged (keyPlace (a + i))) = true
    ∧ refusedIn paged fx.cur 0 64 = false ∧ (ctxOf replied 1).off = [] := by decide +kernel
/-- No swap meets the pages of a `seal`, or one does. -/
def sealMeets : State :=
  { swapping false 0 false with tasks := [(0, { win with k := [(6, mkTok 1 7 0 15 128 128)], wait := .seal (sl 6) [(.near, 65664, 128)] })] }
theorem test_seal_premises : swapIn (acting (planSealWord (sl 6) (sealing []) fx.cur) (sealing [])) (mkTok 1 7 0 15 128 128) = false
    ∧ kCurrent (sealing []) (mkTok 1 7 0 15 128 128) = true ∧ kR (mkTok 1 7 0 15 128 128) = true ∧ kW (mkTok 1 7 0 15 128 128) = true
    ∧ sealNow (sealing []) (mkTok 1 7 0 15 128 128) [(.near, 65664, 128)] = [(.near, 65664, 128)]
    ∧ kCurrent sealMeets (rdTok sealMeets fx.cur (kz 6)) = true ∧ swapIn sealMeets (rdTok sealMeets fx.cur (kz 6)) = true
    ∧ hasOutcome (exec (.sealInForce fx.cur) sealMeets) (fun t => decide (t = sealMeets)) = true := by decide +kernel
theorem test_suspend_clean : (let u := acting (planSuspend (sus 4) suspending suspending.cur) suspending
    (objPlaces u 3 256 16).all (cleanPlace u) = true) := by decide +kernel
/-- x5 is to be written by an asynchronous load: `estart` gives the stream a free value for it, and the others as they stand. -/
def loading5 : State := fxw fun t => { t with asyncs := [⟨0, [(.x 5, .word 9)], 0, [], none, []⟩] }
theorem test_estart_pending : 5 ∈ pendingX (taskOf loading5 fx.cur) ∧ 2 ∉ pendingX (taskOf loading5 fx.cur)
    ∧ issues (.estart (fa 31 no 0x79 0x78 no)) (planEstart (fa 31 no 0x79 0x78 no) loading5 fx.cur) loading5 = true := by decide +kernel
theorem test_first_of_its_engine : (let s := withRec .copy (.copy rec0) strm
    (earlier .copy).all (fun g => decide (nextP s 0 g ≠ nextP s 0 .copy)) = true ∧ (theStream s 0 .copy).cutHalt = false ∧ (coreOf s 0).copyS.chained = []) := by
  decide +kernel
/-- The copy engine and then the matrix engine wait for a P on semaphore 7, which holds 1: the matrix engine is not first. -/
def semRec : Rec := { rec0 with semp := 0x80 + 7 }
theorem test_engines_in_order : (let s := { mapCore (withRec .copy (.copy semRec) strm) 0 (fun c =>
        { setStream c .matrix { strm with ridx := 0 } with sems := [(7, ⟨2, 1⟩)] }) with
          near := bytesAt 65600 64 (recBitsOf (.copy semRec)).toNat ++ bytesAt 65664 64 (recBitsOf (.mma { mmaRec with semp := 0x80 + 7 })).toNat }
    nextP s 0 .copy = some 7 ∧ nextP s 0 .matrix = some 7 ∧ earlier .matrix = [.copy]
      ∧ hasOutcome (exec (.recordStart 0 .matrix) s) (fun t => (theStream t 0 .matrix).prog.isEmpty) = true
      ∧ hasOutcome (exec (.recordStart 0 .copy) s) (fun t => (theStream t 0 .copy).prog.length = 1 && (coreSem (coreOf t 0) 7).value = 0) = true) := by decide +kernel
/-- A leave granted 9 clocks after it was asked for is counted at the engine that asked. -/
theorem test_leave_wait : (let s := { asking with clock := 9 }
    leaveIndex (.engine 0 .copy) = some (0, 4)
      ∧ hasOutcome (exec (.leaveGrant 0) s) (fun t => (coreOf t 0).leaveWait.map (·.2) = [9]) = true) := by decide +kernel
/-- The fold of a point on its way is reserved beside those of the points in flight: one entry is left, and one point may take it. -/
theorem test_fire_holds : canHold (clustered id) 0 0 ((foldedRisers (launchOf (clustered id) 0 0) [0, 0, 0, 0]).length
      + reservedRisers (launchOf (clustered id) 0 0)) = true := by decide +kernel
theorem test_spilled_clean : (let e := launchOf spilledTo 0 0
    let u := overflowWalked spilledTo e 12 0
    (match overflowPlaces u e 12 0 with | .inl pls => pls.all (cleanPlace u) && decide (pls.map (rdByte spilledTo) = entryBytes spilledEntry) | .inr _ => false) = true) := by
  decide +kernel

/-! ## Premises of the widened statements: launches, landings, the Porter -/

/-- A die that holds 4,096 risers already: the new launch's one riser spills. -/
def fullDie : State := mapLaunch (recorded recordBytes) 0 5 fun e => { e with state := .running, ctx := 1, risers := List.replicate 4096 default }
theorem test_launch_die : heldRisers (acting (planLaunch lw (recorded recordBytes) porter.cur) (recorded recordBytes)) 0 < 4096
    ∧ issues (.launch lw) (planLaunch lw fullDie porter.cur) fullDie = true
    ∧ (let u := acting (planLaunch lw fullDie porter.cur) fullDie
       4096 ≤ heldRisers u 0 ∧ pickSlot u 0 = some 1
        ∧ (match checkRecord u u.cur (rdTok u u.cur (kz 0)) (opB lw u).toNat 1 with | .inr _ => true | .inl _ => false) = true)
    ∧ hasOutcome (exec (.launch lw) fullDie) (fun t => (launchOf t 0 1).spillN = 1 && (launchOf t 0 1).everSpilled && (launchOf t 0 1).risers.length = 1) = true := by
  decide +kernel
theorem test_end_begins : (launchOf (ending 2) 0 0).ending = none := by decide +kernel

/-- The completion record lies at device 6: the launch asks for its WRITE, waits for the answer, and then ends. -/
def peerEnding (x : Option (Nat × List Nat)) : State :=
  mapLaunch { ending 2 with slots := (7, page .near 13) :: fx.slots, words := (13, frame .peer (6 * 2 ^ 30 + 2 * 2 ^ 18)) :: fx.words } 0 0
    fun e => { e with doneTok := mkTok 7 7 3 15 4096 0, ending := x }
theorem test_peer_end : endStatus (peerEnding none) 0 0 = some 1 ∧ (access (peerEnding none) (mkTok 7 7 3 15 4096 0) 0 16 true).flag = 0
    ∧ kSpace (mkTok 7 7 3 15 4096 0) = 3
    ∧ hasOutcome (exec (.launchEnd 0 0) (peerEnding none)) (fun t => (launchOf t 0 0).ending = some (1, [0]) && (launchOf t 0 0).state = .running
        && (t.outbox.map fun m => (m.kind, m.dst, m.data.length)) = [(3, 6, 16)]) = true
    ∧ endStatus (peerEnding (some (1, [3]))) 0 0 = some 1
    ∧ hasOutcome (exec (.launchEnd 0 0) (peerEnding (some (1, [3])))) (fun t => decide (t = peerEnding (some (1, [3])))) = true
    ∧ endStatus (peerEnding (some (1, []))) 0 0 = some 1
    ∧ hasOutcome (exec (.launchEnd 0 0) (peerEnding (some (1, [])))) (fun t => (launchOf t 0 0).state = .done && rdNear t 0x8000 8 = 256) = true := by
  decide +kernel

/-- A landing asked for at a peer: an answer is out, all have come, one of them with XB. -/
def landingAsked (asks : List Nat) (fl : BitVec 8) : State :=
  mapTask (landingState .saved (.frsave 0 (tget noTok toks 0) 1024 true)) (.super 0) fun t => { t with peerAsk := asks, peerFlags := fl }
theorem test_frsave_asked : ([([3], 0), ([], 0), ([], fXB)] : List (List Nat × BitVec 8)).all (fun e => let s := landingAsked e.1 e.2
      decide ((taskOf s s.cur).wait = .frsave 0 (tget noTok toks 0) 1024 true) && decide ((taskOf s s.cur).peerAsk = e.1)
        && decide ((taskOf s s.cur).peerFlags = e.2) && !(taskOf s s.cur).step && (taskOf s s.cur).loopEvent.isNone) = true
    ∧ hasOutcome (exec (.frsave frw) (landingAsked [3] 0)) (fun t => decide (t = landingAsked [3] 0)) = true
    ∧ hasOutcome (exec (.frsave frw) (landingAsked [] 0)) (fun t => (taskOf t t.cur).wait = .none && (taskOf t t.cur).pc = 1) = true
    ∧ hasOutcome (exec (.frsave frw) (landingAsked [] fXB)) (fun t => (taskOf t t.cur).status = .supervised && (taskOf t t.cur).trap.detail = 8) = true := by
  decide +kernel
theorem test_frload_clean : (let u := acting (planFrload frw (landed 1) (landed 1).cur) (landed 1)
    ((List.range 96).all fun i => cleanPlace u (kPlace u (rdTok u u.cur (kz 0)) (1024 + i))) = true) := by decide +kernel
theorem test_waitline_clean : (objPlaces (deep .none) 1 72 8).all (cleanPlace (deep .none)) = true := by decide +kernel

/-! ## Premises of the widened statements: peers, the memory package, management; and the new turns of the schedule -/

/-- A series image comes in three messages, checked as one and written in order. -/
def imageMsg (a : Nat) (l : List Byte) : Msg := { request 3 l with eseq := 1 + a, arg := (request 3 l).arg + 3 * 2 ^ 46 }
def imaged : State := { linked upLink with inbox := [imageMsg 0 [1, 2], imageMsg 1 [3], imageMsg 2 [4]] }
theorem test_image_premises : (match takeMsg imaged 3 with
      | some (m, s1) => (match takeMsg s1 3 with
        | some (a, s2) => (match takeMsg s2 3 with
          | some (b, _) => decide ([m, a, b] = [imageMsg 0 [1, 2], imageMsg 1 [3], imageMsg 2 [4]])
          | none => false)
        | none => false)
      | none => false) = true
    ∧ (∀ x ∈ [imageMsg 0 [1, 2], imageMsg 1 [3], imageMsg 2 [4]], x.src = 6 ∧ bits x.arg 46 2 = 3)
    ∧ exportStatus imaged (imageMsg 0 [1, 2]) 1 4 = 0 ∧ (objPlaces imaged 1 64 4).all (openPlace imaged) = true := by decide +kernel
theorem test_image : hasOutcome (exec .write imaged) (fun t => rdNear t 65600 4 = 0x04030201 && (t.outbox.map (·.kind)) = [4, 4, 4] && t.inbox.isEmpty) = true
    ∧ hasOutcome (exec .write { imaged with sealRuns := [(.near, 65603, 1)] }) (fun t => rdNear t 65600 3 = 0x01FF80
        && (t.outbox.map fun m => bits m.arg 16 8) = [5, 5, 5]) = true := by decide +kernel
/-- A read refused with status 2 gives 0 and ST; an atomic all ones. -/
theorem test_failing_answers : hasOutcome (exec .readReply (awaiting 2 2 [awaited] [])) (fun t =>
      ((taskOf t fx.cur).flights.map fun g => (g.val, g.need, g.flags)) = [(.word 0, [], fST)] && t.peers.isEmpty) = true
    ∧ hasOutcome (exec .atomicReply (awaiting 6 3 [awaited] [])) (fun t =>
      ((taskOf t fx.cur).flights.map fun g => (g.val, g.need, g.flags)) = [(.word (BitVec.allOnes 64), [], fXB)]) = true
    ∧ awaited.fix = none ∧ (awaiting 2 2 [awaited] []).colls = [] := by decide +kernel

/-- A retirement moves a near page to another near frame. -/
def retireMove : State := after (exec (.channelRetireStart 0) ganged)
theorem test_near_line : (let p := pairAt retireMove 0 0
    p.words = [(1, 10)] ∧ nextLine p = some 0 ∧ p.abandoned = false ∧ lineA retireMove 10 p 0 = ⟨.near, 0⟩ ∧ lineB retireMove 10 p 0 = ⟨.near, 262144⟩) := by
  decide +kernel
theorem test_channel_premises : (∀ x ∈ (retiring []).words, wordIn (retiring []) 1 x.2 = false ∧ wordTo (retiring []) 1 x.2 = false)
    ∧ (tget 0 fx.pcStat 7).getLsbD 61 = false ∧ ((retiring fx.words).words.any fun w => namesNear (retiring fx.words) w.2 0 2) = true
    ∧ ((retiring fx.words).words.any fun w => namesNear (retiring fx.words) w.2 8 2) = false ∧ nearOk (65536 * 9) = true := by decide +kernel
/-- A page that still moves into channel 1 keeps it from RETIRED. -/
theorem test_moves_in : (let s := retiring [(11, { frame .far 2 with swap := 2, frameB := 1, pair := some (0, 0) })]
    wordTo s 1 { frame .far 2 with swap := 2, frameB := 1, pair := some (0, 0) } = true
      ∧ hasOutcome (exec (.channelRetired 1) s) (fun t => tget 0 t.pcStat 1 = 2 ^ 62) = true) := by decide +kernel
/-- A narrow channel of a gang pair drops its partner for cause 3; made wide, both are. -/
def pairNarrow : State := after (exec (.pseudoChannelNarrow 0 2) { fx with pcStat := [(0, 2 ^ 61), (1, 2 ^ 61)] })
theorem test_gang_narrows : ([0, 1].map fun c => bits (tget 0 pairNarrow.pcStat c).toNat 58 4) = [0xE, 0xF]
    ∧ hasOutcome (exec (.pseudoChannelNarrow 0 0) pairNarrow) (fun t => ([0, 1].map fun c => bits (tget 0 t.pcStat c).toNat 58 4) = [8, 8]) = true := by
  decide +kernel
/-- The codeword of an atom with bytes in it, its tag and its poison mark has no syndrome; with one symbol changed it has one. -/
theorem test_codeword : (let w := atomCodeword { fx with nearTags := [(4100, true)] } false 2050
    w.length = 37 ∧ (List.range 4).map (syndrome w) = [0, 0, 0, 0] ∧ (List.range 4).map (syndrome (w.set 3 0x55)) ≠ [0, 0, 0, 0]) := by decide +kernel
/-- A retirement takes a frame's part out of a run across three, and leaves the rest. -/
theorem test_runs_cut : cutRun .near 65536 65536 (.near, 0, 196608) = [(.near, 0, 65536), (.near, 131072, 65536)]
    ∧ cutRun .near 65536 65536 (.far, 0, 196608) = [(.far, 0, 196608)] := by decide +kernel

/-- All ones where no memory is; a poisoned atom is marked; a part of it is not written. -/
def hostPoisoned : State := { fx with nearPoison := [(2050, true)] }
theorem test_host_edges : hasOutcome (exec (.hostCxlMemAccess (12 * 2 ^ 37 - 1) 2 none) fx) (fun t => t.hostReads = [([0, 0xFF], false)]) = true
    ∧ hasOutcome (exec (.hostCxlMemAccess 65600 1 none) hostPoisoned) (fun t => t.hostReads = [([0x80], true)]) = true
    ∧ hasOutcome (exec (.hostCxlMemAccess 65600 1 (some [7])) hostPoisoned) (fun t => rdNear t 65600 1 = 0x80) = true
    ∧ (atomDrops { hostPoisoned with cur := .super 0 } [⟨.near, 65600⟩]).isEmpty = false ∧ (atomDrops { fx with cur := .super 0 } [⟨.near, 65600⟩]).isEmpty = true := by
  decide +kernel
theorem test_save_area : ([0] : List Nat).all (fun i => nearOk (0x50000 + 65536 * i)) = true
    ∧ hasOutcome (exec (.contextCreate { params2 with saveBase := 13 * 2 ^ 37 }) fx) (fun t => (ctxOf t 2).live) = false := by decide +kernel
theorem test_restore_clear : (∀ x ∈ (dieOf cutOff 0).launches, x.2.heldDone = []) ∧ (∀ g ∈ cutOff.groups, g.2.ctx ≠ 1)
    ∧ ((cutOff.coreShelf.filter fun x => decide (x.1 = 1) && decide (x.2.1 / 128 = 0)).map (·.2.1)).Nodup := by decide +kernel
/-- Each die's supervisor has a context of its own, with the CTX field 0xFFF. -/
theorem test_supervisors_apart : hasOutcome (exec (.contextCreate superParams) fx) (fun t => (ctxOf t (0xFFF + 4096)).live && !(ctxOf t 0xFFF).live
      && (taskOf t (.super 1)).ctx = 0xFFF + 4096 && ctxField (0xFFF + 4096) = 0xFFF && t.trust.log.length = fx.trust.log.length + 1) = true := by decide +kernel

/-! ### Turns of the outside: the host's marks, its link, management -/

def raised (s : State) : State :=
  { s with bringup := 0, ctxs := (List.range 4).map fun d => (superCtx d, { Ctx.fresh with live := true }) }
/-- BRINGUP reads 0xFF once the supervisors are loaded and the host link has trained; a link below its width is logged. -/
theorem test_host_link : hasOutcome (step { raised fx with sched := [⟨0, .hostTrain 64 16⟩] }) (fun t => t.bringup = 0xFF && t.mgmtLog.isEmpty) = true
    ∧ hasOutcome (step { raised fx with sched := [⟨0, .hostTrain 32 8⟩] }) (fun t => t.bringup = 0xFF && t.mgmtLog.length = 1 && t.hostRate = 32 && t.hostLanes = 8) = true
    ∧ hasOutcome (step { fx with bringup := 0, sched := [⟨0, .hostTrain 64 16⟩] }) (fun t => t.bringup = 0) = true := by decide +kernel
theorem test_host_mark : hasOutcome (step { fx with sched := [⟨0, .hostMark 3 true⟩] }) (fun t => tget false t.hostPoison 3) = true := by decide +kernel
/-- Management writes near memory that no context owns, and not a frame that is pinned. -/
theorem test_management : hasOutcome (step { fx with sched := [⟨0, .mgmtAccess 0 0x90000 1 (some [7])⟩] }) (fun t => rdNear t 0x90000 1 = 7) = true
    ∧ hasOutcome (step { fx with sched := [⟨0, .mgmtAccess 0 65600 1 (some [7])⟩] }) (fun t => rdNear t 65600 1 = 0x80) = true := by decide +kernel

end Sys2Proof.Tests
end

section
/-! SUPPORT. The integer, logic, shift, compare and count words of spec 04 (R106-R113): each puts one scalar result in flight, and
what remains of it is an equation about the value, proved here for all operands. -/

namespace Sys2Proof.Machine

/-! ## A word with one scalar result -/

/-- A word with a scalar result puts it in flight: its value where bit 0 of the predicate is true, else 0 without flags (R102). -/
theorem scalWord_puts {i : Instr} {ill : List (Nat × Bool)} {f : FmtA} {lat : Nat} {val : State → Word × BitVec 8} {s : State}
    {r : Word × BitVec 8} (h : issues i (planScal ill f lat s s.cur) s = true) (hval : val (acting (planScal ill f lat s s.cur) s) = r) :
    Puts f.tk [scalarOut lat f s (if scalLane (acting (planScal ill f lat s s.cur) s) f.p then r else (0, 0))] s
      (scalWord i ill f lat val s) := by
  subst hval
  exact runWord_puts (mk := planScal ill f lat) h (by simp only [actScal, putScal, scalarOut, acting_cur]; rfl)

/-- An instruction whose meaning is `scalWord` of a value equal to `val'` is the scalar word of `val'`. -/
theorem scalarWord_of_value {i : FmtA → Instr} {ill : FmtA → List (Nat × Bool)} {lat : Nat} {val val' : FmtA → State → Word × BitVec 8}
    (hexec : ∀ f s, exec (i f) s = scalWord (i f) (ill f) f lat (val f) s) (hval : ∀ f u, val f u = val' f u) :
    ScalarWord i ill lat 0 val' := by
  intro f s h
  rw [hexec]
  exact scalWord_puts h (hval f _)

/-! ## Minima, maxima and division (R106-R108) -/

theorem minMaxVal_none (isMax : Bool) (f : FmtA) (u : State) (hty : f.ty = tyNone) :
    minMaxVal isMax f u
      = (BitVec.ofInt 64 (if isMax then max (valA f u).toInt (valB f u).toInt else min (valA f u).toInt (valB f u).toInt), 0) := by
  simp [minMaxVal, isNoneTy, hty]

theorem ofNat_min_toNat (a b : Word) : BitVec.ofNat 64 (min a.toNat b.toNat) = if a.toNat ≤ b.toNat then a else b := by
  simp only [Nat.min_def, apply_ite (BitVec.ofNat 64), BitVec.ofNat_toNat, BitVec.setWidth_eq]

theorem ofNat_max_toNat (a b : Word) : BitVec.ofNat 64 (max a.toNat b.toNat) = if a.toNat ≤ b.toNat then b else a := by
  simp only [Nat.max_def, apply_ite (BitVec.ofNat 64), BitVec.ofNat_toNat, BitVec.setWidth_eq]

theorem wrap_toInt (w : Word) : wrap 64 w.toInt = w.toNat := by
  have := w.isLt
  rw [wrap, BitVec.toInt_eq_toNat_cond]
  omega

theorem signed_toNat (w : Word) : signed 64 w.toNat = w.toInt := by
  rw [signed, Nat.mod_eq_of_lt w.isLt, BitVec.toInt_eq_toNat_cond]

/-- A 64-bit signed value is written to an `i64` as it is, without OF (R79). -/
theorem intRes_i64_toInt (w : Word) : intRes tyI64 0 w.toInt = (w, 0) := by
  have hlo := w.le_toInt
  have hhi := w.toInt_lt
  have hb : intBound tyI64 0 w.toInt = (w.toNat, 0) := by
    rw [← wrap_toInt]
    exact if_pos ⟨hlo, Int.le_sub_one_of_lt hhi⟩
  have he : extend64 tyI64 w.toNat = w := by
    change BitVec.ofInt 64 (signed 64 w.toNat) = w
    rw [signed_toNat, BitVec.ofInt_toInt]
  change (extend64 tyI64 (intBound tyI64 0 w.toInt).1, (intBound tyI64 0 w.toInt).2) = (w, 0)
  rw [hb, he]

/-- The one quotient outside 64 bits wraps, with OF (R108). -/
theorem intRes_i64_intMin_tdiv_neg_one :
    intRes tyI64 0 ((0x8000000000000000 : Word).toInt.tdiv (BitVec.allOnes 64).toInt) = (0x8000000000000000, fOF) := by decide

/-- Every other quotient fits: it is the library's signed quotient. -/
theorem intRes_i64_tdiv (a b : Word) (h : ¬(a = 0x8000000000000000 ∧ b = BitVec.allOnes 64)) :
    intRes tyI64 0 (a.toInt.tdiv b.toInt) = (BitVec.ofInt 64 (a.toInt.tdiv b.toInt), 0) := by
  have hab : a ≠ BitVec.intMin 64 ∨ b ≠ -1#64 := Decidable.not_and_iff_not_or_not.mp h
  rw [← BitVec.toInt_sdiv_of_ne_or_ne a b hab, intRes_i64_toInt, BitVec.ofInt_toInt]

theorem toInt_eq_zero_iff (b : Word) : b.toInt = 0 ↔ b = 0 := BitVec.toInt_inj (y := 0)

theorem divVal_eq (f : FmtA) (u : State) :
    divVal f u
      = if opB f u = 0 then (0, fDZ)
        else if opA f u = 0x8000000000000000 ∧ opB f u = BitVec.allOnes 64 then (0x8000000000000000, fOF)
        else (BitVec.ofInt 64 ((opA f u).toInt.tdiv (opB f u).toInt), 0) := by
  simp only [divVal, toInt_eq_zero_iff]
  by_cases hzero : opB f u = 0
  · rw [if_pos hzero, if_pos hzero]
  · rw [if_neg hzero, if_neg hzero]
    by_cases hover : opA f u = 0x8000000000000000 ∧ opB f u = BitVec.allOnes 64
    · rw [if_pos hover, hover.1, hover.2, intRes_i64_intMin_tdiv_neg_one]
    · rw [if_neg hover, intRes_i64_tdiv _ _ hover]

theorem remVal_eq (f : FmtA) (u : State) :
    remVal f u = if opB f u = 0 then (opA f u, fDZ) else (BitVec.ofInt 64 ((opA f u).toInt.tmod (opB f u).toInt), 0) := by
  simp only [remVal, toInt_eq_zero_iff]

/-! ## Shifts (R110) -/

theorem shiftLeft_eq_ofNat_mul (a : Word) (n : Nat) : a <<< n = BitVec.ofNat 64 (a.toNat * 2 ^ n) := by
  apply BitVec.eq_of_toNat_eq
  rw [BitVec.toNat_shiftLeft, BitVec.toNat_ofNat, Nat.shiftLeft_eq]

theorem ushiftRight_eq_ofNat_div (a : Word) (n : Nat) : a >>> n = BitVec.ofNat 64 (a.toNat / 2 ^ n) := by
  rw [← Nat.shiftRight_eq_div_pow, ← BitVec.toNat_ushiftRight, BitVec.ofNat_toNat, BitVec.setWidth_eq]

theorem sshiftRight_eq_ofInt_div (a : Word) (n : Nat) : a.sshiftRight n = BitVec.ofInt 64 (a.toInt / (2 ^ n : Nat)) := by
  rw [← Int.shiftRight_eq_div_pow, ← BitVec.toInt_sshiftRight, BitVec.ofInt_toInt]

/-! ## Conditions (R34, R111) -/

theorem icond_ne (a b : Word) : icond .ne a b = decide (a ≠ b) := Bool.eq_iff_iff.mpr (by simp [icond])
theorem icond_lt (a b : Word) : icond .lt a b = a.slt b := BitVec.slt_eq_decide.symm
theorem icond_ge (a b : Word) : icond .ge a b = b.sle a := BitVec.sle_eq_decide.symm
theorem icond_ltn (a b : Word) : icond .ltn a b = a.ult b := BitVec.ult_eq_decide.symm
theorem icond_gen (a b : Word) : icond .gen a b = b.ule a := BitVec.ule_eq_decide.symm

/-! ## Bit counts (R113) -/

theorem testBit_comp_succ (v : Nat) : v.testBit ∘ Nat.succ = (v / 2).testBit := funext fun k => Nat.testBit_succ v k

/-- `ctz` finds the lowest one bit among `n`. -/
theorem ctzNat_eq_find (n v : Nat) : ctzNat n v = ((List.range n).find? v.testBit).getD n := by
  induction n generalizing v with
  | zero => rfl
  | succ n ih =>
    rw [List.range_succ_eq_map, List.find?_cons, List.find?_map, testBit_comp_succ, ctzNat, ih, Nat.testBit_zero]
    by_cases hbit : v % 2 = 1
    · simp [hbit]
    · cases (List.range n).find? (v / 2).testBit <;> simp [hbit, Nat.add_comm]

/-- `popc` counts the one bits among `n`. -/
theorem popNat_eq_length_filter (n v : Nat) : popNat n v = ((List.range n).filter v.testBit).length := by
  induction n generalizing v with
  | zero => rfl
  | succ n ih =>
    rw [List.range_succ_eq_map, List.filter_cons, List.filter_map, testBit_comp_succ, popNat, ih, Nat.testBit_zero]
    rcases Nat.mod_two_eq_zero_or_one v with hbit | hbit <;> simp [hbit, Nat.add_comm]

end Sys2Proof.Machine
end

section
/-! The statements on the scalar integer words, each clause from its word's value. -/

namespace Sys2Proof.Machine

/-- Settles O17: every clause but `min` and `max` is a scalar word with its value equation; those two have theirs under `none` only. -/
theorem minMaxHighDivide : Obligations.MinMaxHighDivide := by
  refine ⟨scalarWord_of_value (val := minnVal) (fun _ _ => rfl) fun f u => ?minn,
    scalarWord_of_value (val := maxnVal) (fun _ _ => rfl) fun f u => ?maxn,
    fun f hty s => ⟨(scalWord_puts · (minMaxVal_none false f _ hty)), (scalWord_puts · (minMaxVal_none true f _ hty))⟩,
    scalarWord_of_value (val := mulhVal) (fun _ _ => rfl) fun f u => rfl,
    scalarWord_of_value (val := mulhnVal) (fun _ _ => rfl) fun f u => rfl,
    scalarWord_of_value (val := divVal) (fun _ _ => rfl) divVal_eq,
    scalarWord_of_value (val := remVal) (fun _ _ => rfl) remVal_eq,
    scalarWord_of_value (val := divnVal) (fun _ _ => rfl) fun f u => rfl,
    scalarWord_of_value (val := remnVal) (fun _ _ => rfl) fun f u => rfl⟩
  case minn => rw [minnVal, ofNat_min_toNat]
  case maxn => rw [maxnVal, ofNat_max_toNat]

/-- Settles O18: every clause is a scalar word with its value equation, and the value of no word has a flag. -/
theorem logicShiftCompare : Obligations.LogicShiftCompare := by
  refine ⟨scalarWord_of_value (fun _ _ => rfl) fun _ _ => rfl,
    scalarWord_of_value (fun _ _ => rfl) fun _ _ => rfl,
    scalarWord_of_value (fun _ _ => rfl) fun _ _ => rfl,
    scalarWord_of_value (fun _ _ => rfl) fun _ _ => rfl,
    scalarWord_of_value (fun _ _ => rfl) fun f u => congrArg (·, 0) (shiftLeft_eq_ofNat_mul (opA f u) (shAmt f u)),
    scalarWord_of_value (fun _ _ => rfl) fun f u => congrArg (·, 0) (ushiftRight_eq_ofNat_div (opA f u) (shAmt f u)),
    scalarWord_of_value (fun _ _ => rfl) fun f u => congrArg (·, 0) (sshiftRight_eq_ofInt_div (opA f u) (shAmt f u)),
    scalarWord_of_value (fun _ _ => rfl) fun f u => ?rot,
    fun c => scalarWord_of_value (fun _ _ => rfl) fun f u => ?cmp,
    scalarWord_of_value (fun _ _ => rfl) fun f u => ?sel,
    scalarWord_of_value (fun _ _ => rfl) fun _ _ => rfl,
    scalarWord_of_value (fun _ _ => rfl) fun f u => congrArg (BitVec.ofNat 64 ·, 0) (ctzNat_eq_find 64 (opA f u).toNat),
    scalarWord_of_value (fun _ _ => rfl) fun f u =>
      congrArg (BitVec.ofNat 64 ·, 0) (popNat_eq_length_filter 64 (opA f u).toNat)⟩
  case rot =>
    have hmod : shAmt f u % 64 = (opB f u).toNat % 64 := Nat.mod_mod_of_dvd _ (by decide)
    rw [hmod]
  case cmp =>
    cases c with
    | eq => rfl
    | ne => rw [icond_ne, boolWord]
    | lt => rw [icond_lt, boolWord]
    | ge => rw [icond_ge, boolWord]
    | ltn => rw [icond_ltn, boolWord]
    | gen => rw [icond_gen, boolWord]
  case sel => simp only [bne_iff_ne]

end Sys2Proof.Machine
end
